-- ==== Sys2Proof/Word.lean ====
section
/-! DEFINITION. The two word types of the part: a byte of the serial link and a value of the timebase. -/

namespace Sys2Proof

/-- One byte on the serial link (R161). -/
abbrev Byte := BitVec 8

/-- A value of the timebase: a 32-bit count of 0.5 µs ticks that wraps (R157). -/
abbrev Tick := BitVec 32

end Sys2Proof
end

