-- ==== Sys2Proof/Syntax.lean ====
section
/-! DEFINITION. The commands the block takes: one constructor per row of spec/opcode_table.json, in the
table's order. The table gives its rows no fields; an operand here is what the outside brings with the
event (which bank, the level of a line, a measured value, the bytes of a request), see log entry 3. -/

namespace Sys2Proof

/-- The two bank drivers (chapter Bank Drivers and the Boost Reserve). -/
inductive Bank where
  | bankA
  | bankB
  deriving DecidableEq, Repr

/-- The crank wheel pattern the WHEEL strap selects: low is 60-2, high is 36-2 (conventions). -/
inductive Wheel where
  | w60
  | w36
  deriving DecidableEq, Repr

/-- What feeds the part at the end of a reset: the first VBAT sample, in steps of 0.05 V (R154), and how many ticks
the crystal runs from then on, 0 for a dead one and absent for one that does not stop (R157, R186). -/
structure Feed where
  vbat : Nat
  crystal : Option Nat := none
  deriving DecidableEq, Repr

/-- The commands. An event that no outside value goes with has no operand; its time is the present
value of the timebase. A request row carries the tag and the payload bytes of its frame (R162). -/
inductive Instr where
  | powerOnReset (wheel : Wheel) (fuelcutLow : Bool) (feed : Feed)
  | pinResetAssert
  | pinResetRelease (fuelcutLow : Bool) (feed : Feed)
  | crankEdge
  | camEdge
  | crankDeadline
  | camDeadline
  | stallTimeout
  | fire
  | strobeEnd
  | peak (bank : Bank)
  | boostLimitExpiry (bank : Bank)
  | curTest (bank : Bank) (current : Bool)
  | pulseEnd (bank : Bank)
  | ovc (bank : Bank)
  | decayEnd (bank : Bank)
  | rechargeUnit (bank : Bank)
  | drainTimerExpiry
  | coilCurReport (bank : Bank)
  | coilWindowEnd
  | fuelcutLineChange (low : Bool)
  | fuelcutAssertion
  | fuelcutRelease
  | vbatSample (vbat : Nat)
  | monitorWindowEnd (count : Nat)
  | byteReceived (byte : Byte) (framingError : Bool)
  | interByteDeadline
  | frameSent
  | unknownKind (kind : Byte) (tag : Byte) (payload : List Byte)
  | identify (tag : Byte) (payload : List Byte)
  | getStatus (tag : Byte) (payload : List Byte)
  | getTracker (tag : Byte) (payload : List Byte)
  | setEngine (tag : Byte) (payload : List Byte)
  | getEngine (tag : Byte) (payload : List Byte)
  | setCylinder (tag : Byte) (payload : List Byte)
  | getCylinder (tag : Byte) (payload : List Byte)
  | setPulses (tag : Byte) (payload : List Byte)
  | getPulses (tag : Byte) (payload : List Byte)
  | copyPage (tag : Byte) (payload : List Byte)
  | swapPlan (tag : Byte) (payload : List Byte)
  | refreshPlan (tag : Byte) (payload : List Byte)
  | setWindow (tag : Byte) (payload : List Byte)
  | setMark (tag : Byte) (payload : List Byte)
  | setDerate (tag : Byte) (payload : List Byte)
  | testCut (tag : Byte) (payload : List Byte)
  | setNotices (tag : Byte) (payload : List Byte)
  | start (tag : Byte) (payload : List Byte)
  | stop (tag : Byte) (payload : List Byte)
  | resetRun (tag : Byte) (payload : List Byte)
  | getCycle (tag : Byte) (payload : List Byte)
  | clearFault (tag : Byte) (payload : List Byte)
  | clearLatch (tag : Byte) (payload : List Byte)
  | coilCheck (tag : Byte) (payload : List Byte)
  deriving DecidableEq, Repr

end Sys2Proof
end

