-- ==== Sys2Proof/Decode.lean ====
section
/-! DEFINITION. No row of spec/opcode_table.json gives bits, so no word spells a command (log entry 5).
The receive framer and the reading of a request's bytes are effects on the state, in Machine/. -/

namespace Sys2Proof

/-- The command a table word spells: none, since the table gives its rows no bits. -/
def decodeTableWord (_nbits _w : Nat) : Option Instr :=
  none

end Sys2Proof
end

