-- ==== Sys2Proof/Config.lean ====
section
/-! DEFINITION. The fixed numbers of the KF620, each under the rule that gives it. The spec leaves no
value open that an event would need, so there is no free value here. -/

namespace Sys2Proof.Config

/-- One engine cycle, in angle steps (conventions, Angle). -/
abbrev cycleSteps : Nat := 7200
/-- One crankshaft revolution, in angle steps (conventions, Crank wheel patterns). -/
abbrev revSteps : Nat := 3600
/-- A raw interval saturates here (R2, R31, R43). -/
abbrev intervalMax : Nat := 16777215
/-- The shortest energizing time that may be committed, in ticks (R37). -/
abbrev minEnergize : Nat := 120
/-- The number of PULSE entries the Firing Queue may hold (R91). -/
abbrev pulseCapacity : Nat := 24
/-- How long STROBE stays high after a firing, in ticks (R103). -/
abbrev strobeTicks : Nat := 20
/-- The length of DECAY, in ticks (R117). -/
abbrev decayTicks : Nat := 100
/-- The moment of the CUR test after a pulse's start, in ticks (R127). -/
abbrev curTestTicks : Nat := 60
/-- A full boost store, in units (R124). -/
abbrev reserveFull : Nat := 100
/-- The slip reported at a start saturates here, in ticks (R115). -/
abbrev slipMax : Nat := 1000
/-- The length of a coil check window, in ticks (R139). -/
abbrev coilWindow : Nat := 400
/-- The limit on a drain, in ticks (R146). -/
abbrev drainTicks : Nat := 200000
/-- The filter of FUELCUT_N, in ticks (R151). -/
abbrev fuelcutFilter : Nat := 4
/-- The spacing of the VBAT samples, in ticks (R154). -/
abbrev sampleTicks : Nat := 2000
/-- The largest VBAT sample, in steps of 0.05 V (R154: 40.00 V). -/
abbrev sampleMax : Nat := 800
/-- The samples a band change needs (R155). -/
abbrev filterLength : Nat := 4
/-- The least crystal count that passes a monitor window (R158). -/
abbrev monitorLow : Nat := 1400
/-- The greatest crystal count that passes a monitor window (R158). -/
abbrev monitorHigh : Nat := 1800
/-- The crystal count saturates here (R158). -/
abbrev monitorMax : Nat := 65535
/-- The time of one bit on the line, in ticks (R161: 1,000,000 bit/s). -/
abbrev bitTicks : Nat := 2
/-- The time of one byte on the line, in ticks (R161). -/
abbrev byteTicks : Nat := 20
/-- The inter-byte deadline after a byte's arrival, in ticks (R163). -/
abbrev byteDeadline : Nat := 120
/-- The largest payload of a frame, in bytes (R162). -/
abbrev payloadMax : Nat := 60
/-- The size of the inbound queue and of the reply queue (link state, R164, R165). -/
abbrev requestQueue : Nat := 4
/-- The size of the notice queue (R168). -/
abbrev noticeQueue : Nat := 16
/-- A saturating byte count: frame errors, lost notices, spurious edges, fault scores. -/
abbrev countMax : Nat := 255
/-- The vendor code of IDENTIFY (R174). -/
abbrev vendorCode : Nat := 0x0A71
/-- The part code of IDENTIFY (R174). -/
abbrev partCode : Nat := 620
/-- The revision of IDENTIFY (R174). -/
abbrev revision : Nat := 1

end Sys2Proof.Config
end

