-- ==== Sys2Proof/Machine/Types.lean ====
section
/-! DEFINITION. The parts of the state: every item of the blocks' state tables, as plain data. -/

namespace Sys2Proof.Machine

/-- Cylinders are numbered 1..6 (conventions). -/
inductive Cyl where
  | c1
  | c2
  | c3
  | c4
  | c5
  | c6
  deriving DecidableEq, Repr

/-- The number of a cylinder. -/
def Cyl.num : Cyl → Nat
  | .c1 => 1
  | .c2 => 2
  | .c3 => 3
  | .c4 => 4
  | .c5 => 5
  | .c6 => 6

/-- The cylinder of a number 1..6. -/
def Cyl.ofNum : Nat → Option Cyl
  | 1 => some .c1
  | 2 => some .c2
  | 3 => some .c3
  | 4 => some .c4
  | 5 => some .c5
  | 6 => some .c6
  | _ => none

/-- The six cylinders in cylinder order. -/
def Cyl.all : List Cyl := [.c1, .c2, .c3, .c4, .c5, .c6]

/-- One value for each cylinder. -/
structure PerCyl (α : Type) where
  c1 : α
  c2 : α
  c3 : α
  c4 : α
  c5 : α
  c6 : α
  deriving DecidableEq, Repr

/-- The value of one cylinder. -/
def PerCyl.get {α : Type} (p : PerCyl α) : Cyl → α
  | .c1 => p.c1
  | .c2 => p.c2
  | .c3 => p.c3
  | .c4 => p.c4
  | .c5 => p.c5
  | .c6 => p.c6

/-- Replace the value of one cylinder. -/
def PerCyl.set {α : Type} (p : PerCyl α) (c : Cyl) (x : α) : PerCyl α :=
  match c with
  | .c1 => { p with c1 := x }
  | .c2 => { p with c2 := x }
  | .c3 => { p with c3 := x }
  | .c4 => { p with c4 := x }
  | .c5 => { p with c5 := x }
  | .c6 => { p with c6 := x }

/-- The same value for every cylinder. -/
def PerCyl.fill {α : Type} (x : α) : PerCyl α := ⟨x, x, x, x, x, x⟩

/-! ## Angle Tracker (chapter Crank and Cam Tracking, Tracker state) -/

/-- The sync states. -/
inductive Sync where
  | stopped
  | seeking
  | halfSync
  | fullSync
  | camLimp
  deriving DecidableEq, Repr

/-- The identity of the last cam edge: a regular tooth k, the extra tooth, the phantom position, or
unknown. -/
inductive CamId where
  | regular (k : Fin 6)
  | extra
  | phantom
  | unknown
  deriving DecidableEq, Repr

/-- The cam tooth history. `hist` is the cam period history and `tp` its predicted value (R32). -/
structure CamHistory where
  lastEdge : Option Tick
  lastAccepted : Option Tick
  raw : List Nat
  identity : CamId
  hist : List Nat
  tp : Option Nat
  candidates : Nat
  sinceCandidate : Nat
  wrongPhase : Nat
  revsNoExtra : Nat
  deriving DecidableEq, Repr

/-- The tracker's state. `half` is absent, `some false` for revolution half 0 and `some true` for 1.
`edgeAngle` is a cycle angle in FULL_SYNC and CAM_LIMP and a within-revolution angle in HALF_SYNC. -/
structure Tracker where
  wheel : Wheel
  sync : Sync
  crankHist : List Nat
  crankTp : Option Nat
  prevCrank : Option Tick
  refGap : Bool
  tooth : Nat
  gapCount : Nat
  half : Option Bool
  edgeAngle : Option Nat
  crankFault : Bool
  camFault : Bool
  spurious : Nat
  cam : CamHistory
  stallRef : Option Tick
  deriving DecidableEq, Repr

/-! ## Plan Store (chapter Engine Definition and Plan Pages, Plan Store state) -/

/-- The engine-wide record, in the units of its message (R45, R176). -/
structure EngineRec where
  gapOffset : Nat
  camSync : Nat
  armingLead : Nat
  camTolerance : Nat
  gapConfirm : Nat
  stallMs : Nat
  accelComp : Bool
  camLimp : Bool
  overspeed : Nat
  planExpiry : Nat
  pilotCost : Nat
  mainCost : Nat
  postCost : Nat
  maxBoostUs : Nat
  maxSlipUs : Nat
  faultThreshold : Nat
  deriving DecidableEq, Repr

/-- The injector select outputs SEL1..SEL6, by number. -/
abbrev Output := Fin 6

/-- The placement of a defined cylinder (R47). Output `n` is SEL(n+1). -/
structure Placement where
  tdc : Nat
  bank : Bank
  output : Output
  deriving DecidableEq, Repr

/-- A cylinder record: `place` is absent for an undefined cylinder (R47). -/
structure CylRec where
  place : Option Placement
  eoiLimit : Nat
  disabled : Bool
  deriving DecidableEq, Repr

/-- The pulse kinds (R49). -/
inductive PulseKind where
  | pilot
  | main
  | post
  deriving DecidableEq, Repr

/-- The anchor of a plan slot: a relative start in steps, or a dwell in µs (R49). -/
inductive PlanAnchor where
  | angle (rel : Int)
  | dwell (us : Nat)
  deriving DecidableEq, Repr

/-- A non-empty slot position of a plan page (R49). -/
structure PlanSlot where
  kind : PulseKind
  anchor : PlanAnchor
  energizeUs : Nat
  mayDefer : Bool
  deriving DecidableEq, Repr

/-- A plan page: a serial and, for each cylinder, five slot positions in position order. -/
structure PlanPage where
  serial : Nat
  lists : PerCyl (List (Option PlanSlot))
  deriving DecidableEq, Repr

/-- The two pages. -/
inductive PageIx where
  | p0
  | p1
  deriving DecidableEq, Repr

/-- The bank set of a quiet window (R59, R185). -/
inductive BankSet where
  | onlyA
  | onlyB
  | both
  deriving DecidableEq, Repr

/-- A quiet window (R59). -/
structure QuietWindow where
  start : Nat
  stop : Nat
  banks : BankSet
  enabled : Bool
  deriving DecidableEq, Repr

/-- An angle mark (R60). -/
structure AngleMark where
  angle : Nat
  enabled : Bool
  notice : Bool
  strobe : Bool
  deriving DecidableEq, Repr

/-- The Plan Store's state. There are four windows and eight marks, by index. -/
structure PlanStore where
  engine : EngineRec
  cyls : PerCyl CylRec
  page0 : PlanPage
  page1 : PlanPage
  active : PageIx
  swapPending : Bool
  expiry : Nat
  stale : Bool
  windows : List QuietWindow
  marks : List AngleMark
  derateK : Nat
  derateN : Nat
  derateAcc : Nat
  testCut : Option (Cyl × Nat)
  deriving DecidableEq, Repr

/-! ## Cycle Builder (chapter Cylinder Cycles, Cycle Builder state) -/

/-- The reasons of a SUPPRESSED slot. -/
inductive SuppressReason where
  | limp
  | quiet
  | limit
  | late
  | queueFull
  | anchorLost
  deriving DecidableEq, Repr

/-- The reasons of a SHED slot. -/
inductive ShedReason where
  | collision
  | boost
  | supply
  deriving DecidableEq, Repr

/-- The reasons of a WITHDRAWN slot. RESET is never recorded: its context is discarded (R65, R185). -/
inductive WithdrawReason where
  | syncLost
  | fuelcut
  | fault
  | drainForced
  | overrun
  | reset
  deriving DecidableEq, Repr

/-- The reasons of a cut cycle (R68). -/
inductive CutReason where
  | fuelcut
  | supplyCritical
  | overspeed
  | controllerDisabled
  | faultDisabled
  | stale
  | testCut
  | derate
  deriving DecidableEq, Repr

/-- The current classifications (R129). -/
inductive Classification where
  | ok
  | slowPeak
  | noPeak
  | openCircuit
  | overcurrent
  deriving DecidableEq, Repr

/-- The result fields of a slot that fired (R80); slip and energized time in ticks. DEFERRED stands
with the slot. -/
structure FiredResult where
  startAngle : Option Nat
  slip : Nat
  energized : Nat
  truncated : Bool
  boostShort : Bool
  cut : Bool
  diagnosis : Classification
  deriving DecidableEq, Repr

/-- The outcome of a resolved slot. -/
inductive SlotOutcome where
  | fired (res : FiredResult)
  | suppressed (r : SuppressReason)
  | shed (r : ShedReason)
  | withdrawn (r : WithdrawReason)
  deriving DecidableEq, Repr

/-- The slot states. `latched` is a slot copied at the arm event and not yet shaped; `committed`
carries the committed time (R77); `energized` carries what R78 records at the start. -/
inductive SlotState where
  | latched
  | pending
  | waiting
  | committed (time : Tick)
  | energized (startTime : Tick) (startAngle : Option Nat) (slip : Nat)
  | resolved (o : SlotOutcome)
  deriving DecidableEq, Repr

/-- The anchor of a latched slot: a cycle angle, or a dwell in ticks (R70). -/
inductive SlotAnchor where
  | angle (start : Nat)
  | dwell (ticks : Nat)
  deriving DecidableEq, Repr

/-- A latched slot. -/
structure Slot where
  num : Nat
  kind : PulseKind
  anchor : SlotAnchor
  energize : Nat
  mayDefer : Bool
  st : SlotState
  deferred : Bool
  truncated : Bool
  deriving DecidableEq, Repr

/-- A cycle context. -/
structure CycleContext where
  cyl : Cyl
  serial : Nat
  armAngle : Nat
  eoiAngle : Nat
  bank : Bank
  output : Output
  slots : List Slot
  deriving DecidableEq, Repr

/-- One slot result of a cycle record (R86). -/
structure SlotResult where
  num : Nat
  kind : PulseKind
  outcome : SlotOutcome
  deferred : Bool
  deriving DecidableEq, Repr

/-- The outcome of a cycle record (R86). -/
inductive RecordOutcome where
  | fired
  | empty
  | cut (r : CutReason)
  deriving DecidableEq, Repr

/-- A cycle record (R86). -/
structure CycleRecord where
  cyl : Cyl
  serial : Nat
  armAngle : Nat
  outcome : RecordOutcome
  results : List SlotResult
  deriving DecidableEq, Repr

/-! ## Firing Queue (chapter The Firing Queue, Queue state) -/

/-- The eight angle marks, by index (R60). -/
abbrev MarkIx := Fin 8

/-- The key of an entry (R90). -/
inductive Key where
  | arm (c : Cyl)
  | pulse (c : Cyl) (slot : Nat)
  | mark (i : MarkIx)
  deriving DecidableEq, Repr

/-- What a committed time is formed from: a reference time and a delay in ticks (R90). -/
structure Commitment where
  ref : Tick
  delay : Nat
  deriving DecidableEq, Repr

/-- An entry of the queue. `pulse` holds the kind and energizing time of a PULSE entry. An entry is
WAITING while `commit` is absent and COMMITTED once it is present. -/
structure Entry where
  key : Key
  target : Option Nat
  pulse : Option (PulseKind × Nat)
  commit : Option Commitment
  deriving DecidableEq, Repr

/-- An edge as it is handed on (R7, R25): angle, time, Tp, expected next span, and the steps per unit
of Tp (P′). -/
structure EdgeRef where
  angle : Nat
  time : Tick
  tp : Nat
  span : Nat
  perTp : Nat
  deriving DecidableEq, Repr

/-- The queue's state. `entries` is kept in key order; the order of R92 is a function of the state
(`queueOrder`). `strobeUntil` is the end time of a STROBE pulse, absent while the line is low. -/
structure FiringQueue where
  entries : List Entry
  commitRef : Option EdgeRef
  frontier : Option Nat
  pendingMarks : List MarkIx
  strobeUntil : Option Tick
  deriving DecidableEq, Repr

/-! ## Bank drivers (chapter Bank Drivers and the Boost Reserve, Bank state) -/

/-- The CUR test of a pulse (R127). -/
inductive CurTest where
  | pending
  | present
  | absent
  deriving DecidableEq, Repr

/-- The current pulse of a bank. Its end time is `start` plus `energize` (R115). -/
structure Pulse where
  cyl : Cyl
  slot : Nat
  kind : PulseKind
  output : Output
  committed : Tick
  energize : Nat
  start : Tick
  boostLimit : Nat
  boostShort : Bool
  peak : Option Tick
  curTest : CurTest
  noPeak : Bool
  ovc : Bool
  cut : Bool
  deriving DecidableEq, Repr

/-- The driver state with the current pulse it holds. DECAY also holds the actual end time and the
DECAY end time (R117). -/
inductive Drive where
  | idle
  | boost (p : Pulse)
  | hold (p : Pulse)
  | decay (p : Pulse) (ended : Tick) (idleAt : Tick)
  deriving DecidableEq, Repr

/-- A start request (R104). -/
structure StartReq where
  cyl : Cyl
  slot : Nat
  kind : PulseKind
  output : Output
  bank : Bank
  committed : Tick
  energize : Nat
  deriving DecidableEq, Repr

/-- The state of one bank driver. -/
structure BankState where
  drive : Drive
  waiting : Option StartReq
  reserve : Nat
  phase : Nat
  deriving DecidableEq, Repr

/-- What the high side of a bank drives (R114). -/
inductive HighSide where
  | off
  | boost
  | hold
  deriving DecidableEq, Repr

/-! ## Circuit Diagnosis (chapter Injector Circuit Diagnosis, Diagnosis state) -/

/-- The results of a coil check (R141, R143). -/
inductive CoilResult where
  | ok
  | fast
  | slow
  | openCircuit
  | overcurrent
  | aborted
  deriving DecidableEq, Repr

/-- The causes of an aborted coil check (R142). -/
inductive AbortCause where
  | edge
  | fuelcut
  | resetRun
  deriving DecidableEq, Repr

/-- A running coil check. Its window ends 400 ticks after `start` (R139). -/
structure CoilCheck where
  cyl : Cyl
  bank : Bank
  output : Output
  start : Tick
  curTime : Option Nat
  deriving DecidableEq, Repr

/-- The state of Circuit Diagnosis. -/
structure Diagnosis where
  score : PerCyl Nat
  disabled : PerCyl Bool
  warnArmed : PerCyl Bool
  coil : Option CoilCheck
  deriving DecidableEq, Repr

/-! ## Run Control (chapter Run Control, Fuel Cut and Supervision, Run Control state) -/

/-- The run modes. -/
inductive RunMode where
  | halt
  | run
  | drain
  deriving DecidableEq, Repr

/-- The supply bands. -/
inductive SupplyBand where
  | critical
  | low
  | normal
  deriving DecidableEq, Repr

/-- The direction of a supply filter run. -/
inductive FilterDir where
  | none
  | down
  | up
  deriving DecidableEq, Repr

/-- The source of the timebase. -/
inductive ClockState where
  | crystal
  | backup
  deriving DecidableEq, Repr

/-- The state of Run Control but for the timebase. `drainAt` is the expiry time of a running drain
timer; `lineLow` and `lineSince` are the FUELCUT filter; `lastSample` is the moment of the last VBAT
sample (R154). `crystalLeft` is how many ticks the crystal still runs before it stops, absent for one that does not
stop (R157, R186, log entry 27). -/
structure RunControl where
  mode : RunMode
  drainAt : Option Tick
  fuelcut : Bool
  lineLow : Bool
  lineSince : Tick
  band : SupplyBand
  filterRun : Nat
  filterDir : FilterDir
  filterNearest : Option SupplyBand
  clock : ClockState
  monitor : Bool
  lastSample : Tick
  crystalLeft : Option Nat
  deriving DecidableEq, Repr

/-! ## Link Controller (chapter The Serial Link, Link state) -/

/-- A frame: its kind, tag and payload; start byte, length and CRC follow from them (R162). -/
structure Frame where
  kind : Byte
  tag : Byte
  payload : List Byte
  deriving DecidableEq, Repr

/-- The receive framer with the bytes of the frame so far (R163). `got` holds the payload bytes in
order of arrival. -/
inductive Framer where
  | hunt
  | length
  | kind (len : Nat)
  | tag (len : Nat) (kind : Byte)
  | payload (len : Nat) (kind tag : Byte) (got : List Byte)
  | crcHigh (kind tag : Byte) (got : List Byte)
  | crcLow (kind tag : Byte) (got : List Byte) (high : Byte)
  deriving DecidableEq, Repr

/-- The causes of SYNC_CHANGE (R20, R181). -/
inductive SyncCause where
  | firstEdge
  | gapConfirmed
  | camPhased
  | gapError
  | crankDeadline
  | camWrongPhase
  | camMismatch
  | camDeadline
  | crankRestored
  | camStart
  | stall
  | definition
  deriving DecidableEq, Repr

/-- The causes of CAM_FAULT (R181). -/
inductive CamFaultCause where
  | missing
  | wrongPhase
  | limpMismatch
  | limpDeadline
  deriving DecidableEq, Repr

/-- The notices with their fields after the time (chapter Requests, Replies and Notices). -/
inductive NoticeBody where
  | syncChange (old new : Sync) (cause : SyncCause)
  | planSwapped (serial : Nat) (cyl : Option Cyl)
  | planStale (serial expiry : Nat)
  | cycleDone (r : CycleRecord)
  | mark (index : Nat) (angle : Option Nat) (speed : Nat)
  | faultWarn (c : Cyl) (score threshold : Nat) (k : Classification)
  | cylDisabled (c : Cyl) (score threshold : Nat) (k : Classification)
  | coilResult (c : Cyl) (r : CoilResult) (curTime : Option Nat) (cause : Option AbortCause)
  | supplyBand (old new : SupplyBand)
  | clockBackup (count : Nat)
  | fuelcutChange (asserted : Bool)
  | stopDone (forced : Bool) (contexts : Nat)
  | testCutDone (c : Cyl)
  | camFault (cause : CamFaultCause)
  deriving DecidableEq, Repr

/-- The notice levels (R167). -/
inductive Level where
  | urgent
  | routine
  deriving DecidableEq, Repr

/-- A notice in the notice queue: the time it carries and its fields. Its level follows from its kind
(`NoticeBody.level`). -/
structure Notice where
  time : Tick
  body : NoticeBody
  deriving DecidableEq, Repr

/-- A frame being sent and the time its last byte ends (R161, R166). -/
structure Sending where
  frame : Frame
  doneAt : Tick
  deriving DecidableEq, Repr

/-- The state of the link controller. `sending` is absent while the transmitter is idle. -/
structure Link where
  framer : Framer
  byteDeadline : Option Tick
  inbound : List Frame
  replies : List Frame
  notices : List Notice
  sending : Option Sending
  enable : BitVec 16
  lost : Nat
  frameErrors : Nat
  deriving DecidableEq, Repr

/-- The refusal codes of a REFUSED reply (R171). -/
inductive RefusalCode where
  | unknownKind
  | badLength
  | badValue
  | wrongMode
  | pageActive
  | swapPending
  | busy
  | notDefined
  deriving DecidableEq, Repr

/-- What an owner block answers to a request: the contents of an ACK after its kind byte, or a refusal
(R171). -/
inductive Answer where
  | ack (contents : List Byte)
  | refused (code : RefusalCode)
  deriving DecidableEq, Repr

end Sys2Proof.Machine
end

