-- ==== Sys2Proof/Machine/ResetValues.lean ====
section
/-! DEFINITION. The reset value of each block, as R1, R44, R65, R89, R113, R131, R144 and R160 give it. -/

namespace Sys2Proof.Machine

/-- The cam tooth history after reset (R1). -/
def resetCam : CamHistory :=
  { lastEdge := none, lastAccepted := none, raw := [], identity := .unknown, hist := [], tp := none,
    candidates := 0, sinceCandidate := 0, wrongPhase := 0, revsNoExtra := 0 }

/-- The tracker after a power-on or pin reset (R1); a pin reset keeps the wheel pattern. -/
def resetTracker (w : Wheel) : Tracker :=
  { wheel := w, sync := .stopped, crankHist := [], crankTp := none, prevCrank := none, refGap := false,
    tooth := 0, gapCount := 0, half := none, edgeAngle := none, crankFault := false, camFault := false,
    spurious := 0, cam := resetCam, stallRef := none }

/-- The defaults of the engine-wide record (R45). -/
def defaultEngine : EngineRec :=
  { gapOffset := 0, camSync := 0, armingLead := 2700, camTolerance := 60, gapConfirm := 2, stallMs := 300,
    accelComp := true, camLimp := true, overspeed := 2800, planExpiry := 48, pilotCost := 25,
    mainCost := 40, postCost := 25, maxBoostUs := 150, maxSlipUs := 100, faultThreshold := 64 }

/-- A cylinder record after reset (R44, R47). -/
def undefinedCyl : CylRec := { place := none, eoiLimit := 900, disabled := false }

/-- Five empty slot positions (R44). -/
def emptyList : List (Option PlanSlot) := [none, none, none, none, none]

/-- A plan page after reset (R44). -/
def emptyPage : PlanPage := { serial := 0, lists := .fill emptyList }

/-- A quiet window after reset (R44). -/
def resetWindow : QuietWindow := { start := 0, stop := 0, banks := .both, enabled := false }

/-- An angle mark after reset (R44). -/
def resetMark : AngleMark := { angle := 0, enabled := false, notice := false, strobe := false }

/-- The Plan Store after a power-on or pin reset (R44). -/
def resetPlan : PlanStore :=
  { engine := defaultEngine, cyls := .fill undefinedCyl, page0 := emptyPage, page1 := emptyPage,
    active := .p0, swapPending := false, expiry := 0, stale := false,
    windows := List.replicate 4 resetWindow, marks := List.replicate 8 resetMark,
    derateK := 0, derateN := 1, derateAcc := 0, testCut := none }

/-- The Firing Queue after a power-on or pin reset (R89). -/
def resetQueue : FiringQueue :=
  { entries := [], commitRef := none, frontier := none, pendingMarks := [], strobeUntil := none }

/-- A bank after a power-on or pin reset (R113). -/
def resetBank : BankState := { drive := .idle, waiting := none, reserve := 0, phase := 0 }

/-- Circuit Diagnosis after a power-on or pin reset (R131). -/
def resetDiagnosis : Diagnosis :=
  { score := .fill 0, disabled := .fill false, warnArmed := .fill true, coil := none }

/-- The class of the first VBAT sample after a reset: the row of NORMAL, with no hysteresis (R154). -/
def firstBand (vbat : Nat) : SupplyBand :=
  if vbat < 280 then .critical else if vbat < 360 then .low else .normal

/-- Run Control at the end of a power-on or pin reset (R144, R154): the FUELCUT level is the line's,
unfiltered, and the band is that of the first sample. `lineSince`, `filterNearest` and
`lastSample` have no value in R144 (log entry 21). How long the crystal runs is the outside's (R186, log entry 27). -/
def resetRunControl (fuelcutLow : Bool) (feed : Feed) : RunControl :=
  { mode := .halt, drainAt := none, fuelcut := fuelcutLow, lineLow := fuelcutLow, lineSince := 0,
    band := firstBand feed.vbat, filterRun := 0, filterDir := .none, filterNearest := none,
    clock := .crystal, monitor := true, lastSample := 0, crystalLeft := feed.crystal }

/-- The notice enable set after reset: every kind but CYCLE_DONE and MARK (R160, R178). -/
def resetEnable : BitVec 16 := 0x3FE7

/-- The link controller after a power-on or pin reset (R160). -/
def resetLink : Link :=
  { framer := .hunt, byteDeadline := none, inbound := [], replies := [], notices := [], sending := none,
    enable := resetEnable, lost := 0, frameErrors := 0 }

end Sys2Proof.Machine
end

