-- ==== Sys2Proof/Machine/State.lean ====
section
/-! DEFINITION. The machine's state, its state right after reset, and the reasons a step can stop. Every
update of the state goes through one of the named updates of this file. -/

namespace Sys2Proof.Machine

/-- The state of the KF620, block by block. `resetHeld` is the RESET_N line: true while it is asserted
(R144, R160). `pending` is the model's queue of waiting commands, oldest first (log entry 2). -/
structure State where
  resetHeld : Bool
  timebase : Tick
  tracker : Tracker
  plan : PlanStore
  contexts : PerCyl (Option CycleContext)
  records : PerCyl (Option CycleRecord)
  queue : FiringQueue
  bankA : BankState
  bankB : BankState
  diag : Diagnosis
  run : RunControl
  link : Link
  pending : List Instr
  deriving DecidableEq, Repr

/-- The reasons the machine stops with a fault. The spec stops the part on no event: there is none. -/
inductive Fault where
  deriving DecidableEq, Repr

/-- The reasons a command is refused by the model. -/
inductive Refusal where
  /-- Raised by `exec` alone, for a command that has no meaning yet. Safe: nothing is claimed of it. -/
  | notModelled (mnemonic : String)
  deriving DecidableEq, Repr

/-- Replace RESET_N is asserted. -/
def State.withResetHeld (s : State) (x : Bool) : State := { s with resetHeld := x }

/-- Replace the timebase. -/
def State.withTimebase (s : State) (x : Tick) : State := { s with timebase := x }

/-- Replace the Angle Tracker. -/
def State.withTracker (s : State) (x : Tracker) : State := { s with tracker := x }

/-- Replace the Plan Store. -/
def State.withPlan (s : State) (x : PlanStore) : State := { s with plan := x }

/-- Replace the open cycle contexts. -/
def State.withContexts (s : State) (x : PerCyl (Option CycleContext)) : State := { s with contexts := x }

/-- Replace the cycle record table. -/
def State.withRecords (s : State) (x : PerCyl (Option CycleRecord)) : State := { s with records := x }

/-- Replace the Firing Queue. -/
def State.withQueue (s : State) (x : FiringQueue) : State := { s with queue := x }

/-- Replace Circuit Diagnosis. -/
def State.withDiag (s : State) (x : Diagnosis) : State := { s with diag := x }

/-- Replace Run Control. -/
def State.withRun (s : State) (x : RunControl) : State := { s with run := x }

/-- Replace the link controller. -/
def State.withLink (s : State) (x : Link) : State := { s with link := x }

/-- Replace the waiting commands. -/
def State.withPending (s : State) (x : List Instr) : State := { s with pending := x }

/-- The state of one bank. -/
def State.bank (s : State) : Bank → BankState
  | .bankA => s.bankA
  | .bankB => s.bankB

/-- Replace the state of one bank. -/
def State.withBank (s : State) (b : Bank) (x : BankState) : State :=
  match b with
  | .bankA => { s with bankA := x }
  | .bankB => { s with bankB := x }

/-- The machine right after a power-on reset with the WHEEL strap low, FUELCUT_N released, a first VBAT sample
of 26.00 V (520 steps of 0.05 V) and a sound crystal: the lines of the spec's first worked sequence (log entry
4). Every other field is the power-on value of R1, R44, R65, R89, R113, R131, R144 and R160. -/
def State.reset : State :=
  { resetHeld := false, timebase := 0, tracker := resetTracker .w60, plan := resetPlan,
    contexts := .fill none, records := .fill none, queue := resetQueue, bankA := resetBank,
    bankB := resetBank, diag := resetDiagnosis, run := resetRunControl false { vbat := 520 }, link := resetLink,
    pending := [] }

end Sys2Proof.Machine
end

