-- ==== Sys2Proof/Machine/Ops.lean ====
section
/-! DEFINITION. Operations every block uses: times, angles, rounding, and reading the tables of the state. -/

namespace Sys2Proof.Machine

/-! ## Times (conventions, Time; R36, R90) -/

/-- The ticks from `since` to `now`, modulo 2^32. -/
def elapsed (since now : Tick) : Nat := (now - since).toNat

/-- A time is reached when, of the two, it is not ahead of the present: times are compared modulo 2^32. -/
def reached (t now : Tick) : Bool := decide (elapsed t now < 2147483648)

/-- A time `n` ticks after `t`, modulo 2^32. -/
def later (t : Tick) (n : Nat) : Tick := t + BitVec.ofNat 32 n

/-- The difference of two times as a signed 32-bit number (R38, R92). -/
def signedDiff (x y : Tick) : Int := (x - y).toInt

/-- A raw interval saturates at 16,777,215 ticks (R2, R31). -/
def rawInterval (since now : Tick) : Nat := min Config.intervalMax (elapsed since now)

/-! ## Angles (conventions, Angle) -/

/-- The forward distance from cycle angle `x` to `y`: (y − x) mod 7200. -/
def forward (x y : Nat) : Nat := (y + (7200 - x % 7200)) % 7200

/-- The distance between two angles, the shorter way round, modulo `m` (R9). -/
def distance (m x y : Nat) : Nat :=
  min ((y + (m - x % m)) % m) (m - (y + (m - x % m)) % m)

/-- The cycle angle of a relative angle `r` of a cylinder with TDC `tdc` (conventions, Angle). -/
def cycleAngle (tdc : Nat) (r : Int) : Nat := (((tdc : Int) + r) % 7200).toNat

/-! ## Numbers and rounding (conventions) -/

/-- x / y rounded to the nearest integer, ties up. -/
def roundDiv (x y : Nat) : Nat := (2 * x + y) / (2 * y)

/-- x / y rounded up. -/
def ceilDiv (x y : Nat) : Nat := (x + (y - 1)) / y

/-- The nearest bound of lo..hi when `x` lies outside, `x` otherwise. -/
def clampTo (lo hi x : Nat) : Nat := max lo (min hi x)

/-- Saturating addition with upper bound `top`. -/
def satAdd (top x n : Nat) : Nat := min top (x + n)

/-- Ticks reported in whole microseconds (R42). -/
def toMicros (ticks : Nat) : Nat := roundDiv ticks 2

/-! ## The crank wheel (conventions, Crank wheel patterns) -/

/-- The pitch P in steps. -/
def pitchSteps : Wheel → Nat
  | .w60 => 60
  | .w36 => 100

/-- The last tooth index, N − 3. -/
def lastTooth : Wheel → Nat
  | .w60 => 57
  | .w36 => 33

/-! ## Reading the state -/

/-- FULL_SYNC and CAM_LIMP are the states in which the cycle angle is known. -/
def Sync.holdsAngle : Sync → Bool
  | .fullSync => true
  | .camLimp => true
  | _ => false

/-- A page by its index. -/
def PlanStore.page (p : PlanStore) : PageIx → PlanPage
  | .p0 => p.page0
  | .p1 => p.page1

/-- The other page's index. -/
def PageIx.other : PageIx → PageIx
  | .p0 => .p1
  | .p1 => .p0

/-- Replace a page. -/
def PlanStore.setPage (p : PlanStore) (ix : PageIx) (x : PlanPage) : PlanStore :=
  match ix with
  | .p0 => { p with page0 := x }
  | .p1 => { p with page1 := x }

/-- The active page (R51). -/
def PlanStore.activePage (p : PlanStore) : PlanPage := p.page p.active

/-- The number of open cycle contexts. -/
def openCount (s : State) : Nat := (Cyl.all.filter fun c => (s.contexts.get c).isSome).length

/-- Whether a cycle context is open. -/
def anyOpen (s : State) : Bool := Cyl.all.any fun c => (s.contexts.get c).isSome

/-- Whether a cylinder is defined (R47). -/
def isDefined (s : State) (c : Cyl) : Bool := (s.plan.cyls.get c).place.isSome

/-- The boost cost of a kind as stored (R45, R124). -/
def EngineRec.cost (e : EngineRec) : PulseKind → Nat
  | .pilot => e.pilotCost
  | .main => e.mainCost
  | .post => e.postCost

/-- The pulse a bank is energizing, in BOOST or HOLD. -/
def Drive.energized : Drive → Option Pulse
  | .boost p => some p
  | .hold p => some p
  | _ => none

/-- Whether the bank is IDLE. -/
def Drive.isIdle : Drive → Bool
  | .idle => true
  | _ => false

/-- Whether the bank is in BOOST. -/
def Drive.isBoost : Drive → Bool
  | .boost _ => true
  | _ => false

/-- Whether a slot is resolved. -/
def SlotState.isResolved : SlotState → Bool
  | .resolved _ => true
  | _ => false

/-- Whether a slot is unstarted: latched, PENDING, WAITING or COMMITTED. -/
def SlotState.isUnstarted : SlotState → Bool
  | .latched => true
  | .pending => true
  | .waiting => true
  | .committed _ => true
  | _ => false

/-- Whether a slot is PENDING. -/
def SlotState.isPending : SlotState → Bool
  | .pending => true
  | _ => false

/-- Whether a slot is placed by dwell. -/
def Slot.isDwell (x : Slot) : Bool :=
  match x.anchor with
  | .dwell _ => true
  | .angle _ => false

/-! ## Taking an event -/

/-- What the meaning of a command answers. -/
abbrev Result : Type := Host.Outcome State Fault Refusal

/-- An event is taken unless RESET_N is asserted: while it is, no event is taken (R144, R160). -/
def take (f : State → State) (s : State) : Result := .next (if s.resetHeld then s else f s)

/-- Whether the source of the timebase stands: the crystal in the clock state CRYSTAL, once it has stopped (R157,
R186). -/
def RunControl.stands (r : RunControl) : Bool :=
  decide (r.clock = .crystal) && decide (r.crystalLeft = some 0)

/-- A tick of the crystal, counted off the ticks it still runs. -/
def RunControl.countCrystal (r : RunControl) : RunControl :=
  match r.clock with
  | .crystal => { r with crystalLeft := r.crystalLeft.map (· - 1) }
  | .backup => r

/-- An event of the received line is taken unless the source of the timebase stands: the line has its bit timing
from that source, so no byte is taken then (R157, R161, R186). -/
def takeHeard (f : State → State) (s : State) : Result := take (fun t => if t.run.stands then t else f t) s

/-- An event of the part itself is taken when it is due; before that, it has no effect (log entry 7). -/
def takeDue (due : State → Bool) (f : State → State) (s : State) : Result :=
  take (fun t => if due t then f t else t) s

end Sys2Proof.Machine
end

