-- ==== Sys2Proof/Machine/Arith.lean ====
section
/-! DEFINITION. Angle-to-time arithmetic: periods, prediction, delays, limits, the interpolated angle and
the speed (R31 to R43), and the cam wheel's geometry (R8). -/

namespace Sys2Proof.Machine

/-! ## Periods and prediction -/

/-- Push a normalized period: a period computed as 0 is pushed as 1, and four are kept (R4, R31). -/
def pushPeriod (t : Nat) (hist : List Nat) : List Nat := (max 1 t :: hist).take 4

/-- The predicted pitch time of a history (R33), absent for an empty one (R32). -/
def formTp (accelComp : Bool) : List Nat → Option Nat
  | [] => none
  | [t1] => some (max 1 t1)
  | t1 :: t2 :: _ =>
    if accelComp then
      some (max 1 (clampTo (ceilDiv (3 * t1) 4) (5 * t1 / 4) (roundDiv (t1 * t1) t2)))
    else some (max 1 t1)

/-! ## The cam wheel (R8) -/

/-- The tooth that follows, and the span to it; none after the phantom position or an unknown edge. -/
def CamId.next : CamId → Option (CamId × Nat)
  | .regular k => if k = 0 then some (.extra, 300) else some (.regular (k + 1), 1200)
  | .extra => some (.regular 1, 900)
  | .phantom => none
  | .unknown => none

/-- The cycle angle of a tooth, or of the phantom position (R8). -/
def camAngle (camSync : Nat) : CamId → Nat
  | .regular k => (camSync + 6900 + k.val * 1200) % 7200
  | .extra => camSync % 7200
  | .phantom => (camSync + 3600) % 7200
  | .unknown => 0

/-! ## The edge that carries the angle -/

/-- The cycle angle offset of a revolution half. -/
def halfOffset : Option Bool → Nat
  | some true => 3600
  | _ => 0

/-- The expected next span of the crank at a tooth index (R34). -/
def crankSpan (w : Wheel) (tooth : Nat) : Nat :=
  if tooth = lastTooth w then 3 * pitchSteps w else pitchSteps w

/-- The expected next interval of the crank (R16, R34). -/
def crankInterval (w : Wheel) (tooth tp : Nat) : Nat :=
  if tooth = lastTooth w then 3 * tp else tp

/-- The span to the next cam tooth after the last identified one (R25, R34). -/
def camSpan (t : Tracker) : Nat :=
  match t.cam.identity.next with
  | some (_, n) => n
  | none => 1200

/-- The expected next cam interval: round(span × Tp / 1200) (R25, R34). -/
def camInterval (span tp : Nat) : Nat := roundDiv (span * tp) 1200

/-- The last accepted edge of the sensor that carries the angle: a crank edge in HALF_SYNC and
FULL_SYNC, a cam edge in CAM_LIMP (R7, R25, R39). -/
def carrier (t : Tracker) : Option EdgeRef :=
  match t.sync with
  | .stopped => none
  | .seeking => none
  | .camLimp =>
    match t.edgeAngle, t.cam.lastAccepted, t.cam.tp with
    | some x, some time, some tp => some { angle := x, time := time, tp := tp, span := camSpan t, perTp := 1200 }
    | _, _, _ => none
  | _ =>
    match t.edgeAngle, t.prevCrank, t.crankTp with
    | some x, some time, some tp =>
      some { angle := x, time := time, tp := tp, span := crankSpan t.wheel t.tooth, perTp := pitchSteps t.wheel }
    | _, _, _ => none

/-! ## From an edge to a time (R35 to R38) -/

/-- The delay for `d` steps from an edge: round(d × Tp / P′) (R35). -/
def delay (e : EdgeRef) (d : Nat) : Nat := roundDiv (d * e.tp) e.perTp

/-- Whether the limit has been passed at an edge angle: its forward distance from the arm angle is
greater than the limit's (R38; at a chained start taken literally, log entry 10). -/
def limitPassed (arm limit angle : Nat) : Bool := forward arm angle > forward arm limit

/-- Whether an edge stands before the arm angle on the way to a target: the arm event fell in the edge's window,
so nothing of the cycle has been passed at the edge. -/
def edgeBeforeArm (arm angle target : Nat) : Bool := decide (forward angle arm ≤ forward angle target)

/-- Whether a commit meets a passed limit: one that the edge has passed since the arm angle. A target shaped ahead
of the limit cannot meet it (R38, R99, log entry 10). -/
def commitLimitPassed (e : EdgeRef) (arm limit target : Nat) : Bool :=
  limitPassed arm limit e.angle && !edgeBeforeArm arm e.angle target

/-- The available time of a commit at an edge (R37, R99), 0 for a limit already passed (R38). -/
def commitAvailable (e : EdgeRef) (arm limit target : Nat) : Int :=
  if commitLimitPassed e arm limit target then 0
  else (delay e (forward e.angle limit) : Int) - (delay e (forward e.angle target) : Int)

/-- The available time of a chained start (R38). -/
def chainAvailable (e : EdgeRef) (arm limit : Nat) (start : Tick) : Int :=
  if limitPassed arm limit e.angle then 0
  else signedDiff (later e.time (delay e (forward e.angle limit))) start

/-! ## From a time to an angle (R39) -/

/-- The advance since an edge: floor(elapsed × P′ / Tp), held one step short of the next edge (R39). -/
def advance (e : EdgeRef) (now : Tick) : Nat :=
  min (elapsed e.time now * e.perTp / e.tp) (e.span - 1)

/-- The interpolated angle: a within-revolution angle in HALF_SYNC, a cycle angle in FULL_SYNC and
CAM_LIMP, absent in STOPPED and SEEKING (R6, R39). -/
def interpolated (t : Tracker) (now : Tick) : Option Nat :=
  match carrier t with
  | none => none
  | some e => some ((e.angle + advance e now) % (if t.sync = .halfSync then 3600 else 7200))

/-! ## Speed (R41) -/

/-- The history in use: the cam history in CAM_LIMP, the crank history otherwise (R31). -/
def histInUse (t : Tracker) : List Nat :=
  if t.sync = .camLimp then t.cam.hist else t.crankHist

/-- The speed constant of the history in use. -/
def speedConstant (t : Tracker) : Nat :=
  if t.sync = .camLimp then 40000000
  else match t.wheel with
    | .w60 => 2000000
    | .w36 => 3333333

/-- The speed in rpm: 0 in STOPPED and with fewer than two periods, saturating at 65,535. -/
def speed (t : Tracker) : Nat :=
  if t.sync = .stopped then 0
  else match histInUse t with
    | t1 :: _ :: _ => min 65535 (speedConstant t / t1)
    | _ => 0

end Sys2Proof.Machine
end

