-- ==== Sys2Proof/Machine/Flags.lean ====
section
/-! DEFINITION. The flag bytes and the enumeration codes of the messages (R179, R183, R184, R185). -/

namespace Sys2Proof.Machine

/-! ## Enumeration codes (R185) -/

/-- Run mode codes. -/
def RunMode.code : RunMode → Nat
  | .halt => 0
  | .run => 1
  | .drain => 2

/-- Sync state codes. -/
def Sync.code : Sync → Nat
  | .stopped => 0
  | .seeking => 1
  | .halfSync => 2
  | .fullSync => 3
  | .camLimp => 4

/-- Supply band codes; they also order the bands. -/
def SupplyBand.code : SupplyBand → Nat
  | .critical => 0
  | .low => 1
  | .normal => 2

/-- Clock state codes. -/
def ClockState.code : ClockState → Nat
  | .crystal => 0
  | .backup => 1

/-- Wheel pattern codes. -/
def wheelCode : Wheel → Nat
  | .w60 => 0
  | .w36 => 1

/-- Bank codes. -/
def bankCode : Bank → Nat
  | .bankA => 0
  | .bankB => 1

/-- Bank set codes. -/
def BankSet.code : BankSet → Nat
  | .onlyA => 1
  | .onlyB => 2
  | .both => 3

/-- Pulse kind codes. -/
def PulseKind.code : PulseKind → Nat
  | .pilot => 1
  | .main => 2
  | .post => 3

/-- Cut reason codes. -/
def CutReason.code : CutReason → Nat
  | .fuelcut => 1
  | .supplyCritical => 2
  | .overspeed => 3
  | .controllerDisabled => 4
  | .faultDisabled => 5
  | .stale => 6
  | .testCut => 7
  | .derate => 8

/-- SUPPRESSED reason codes. -/
def SuppressReason.code : SuppressReason → Nat
  | .limp => 1
  | .quiet => 2
  | .limit => 3
  | .late => 4
  | .queueFull => 5
  | .anchorLost => 6

/-- SHED reason codes. -/
def ShedReason.code : ShedReason → Nat
  | .collision => 1
  | .boost => 2
  | .supply => 3

/-- WITHDRAWN reason codes. RESET has no code, since no record carries it: 0 stands for none. -/
def WithdrawReason.code : WithdrawReason → Nat
  | .syncLost => 1
  | .fuelcut => 2
  | .fault => 3
  | .drainForced => 4
  | .overrun => 5
  | .reset => 0

/-- Slot outcome codes. -/
def SlotOutcome.code : SlotOutcome → Nat
  | .fired _ => 1
  | .suppressed _ => 2
  | .shed _ => 3
  | .withdrawn _ => 4

/-- The reason code beside a slot outcome, 0 for FIRED (R183). -/
def SlotOutcome.reasonCode : SlotOutcome → Nat
  | .fired _ => 0
  | .suppressed r => r.code
  | .shed r => r.code
  | .withdrawn r => r.code

/-- Classification codes. -/
def Classification.code : Classification → Nat
  | .ok => 0
  | .slowPeak => 1
  | .noPeak => 2
  | .openCircuit => 3
  | .overcurrent => 4

/-- Coil check result codes. -/
def CoilResult.code : CoilResult → Nat
  | .ok => 0
  | .fast => 1
  | .slow => 2
  | .openCircuit => 3
  | .overcurrent => 4
  | .aborted => 5

/-- Abort cause codes; 0 is none. -/
def abortCode : Option AbortCause → Nat
  | none => 0
  | some .edge => 1
  | some .fuelcut => 2
  | some .resetRun => 3

/-- SYNC_CHANGE cause codes (R181). -/
def SyncCause.code : SyncCause → Nat
  | .firstEdge => 1
  | .gapConfirmed => 2
  | .camPhased => 3
  | .gapError => 4
  | .crankDeadline => 5
  | .camWrongPhase => 6
  | .camMismatch => 7
  | .camDeadline => 8
  | .crankRestored => 9
  | .camStart => 10
  | .stall => 11
  | .definition => 12

/-- CAM_FAULT cause codes (R181). -/
def CamFaultCause.code : CamFaultCause → Nat
  | .missing => 1
  | .wrongPhase => 2
  | .limpMismatch => 3
  | .limpDeadline => 4

/-- Refusal codes (R171). -/
def RefusalCode.code : RefusalCode → Nat
  | .unknownKind => 1
  | .badLength => 2
  | .badValue => 3
  | .wrongMode => 4
  | .pageActive => 5
  | .swapPending => 6
  | .busy => 7
  | .notDefined => 8

/-- Page numbers. -/
def PageIx.code : PageIx → Nat
  | .p0 => 0
  | .p1 => 1

/-! ## Flag bytes -/

/-- A flag as 0 or 1. -/
def bit (x : Bool) : Nat := if x then 1 else 0

/-- The latches byte: bit 0 crank fault latch, bit 1 cam fault latch (R179, R184). -/
def latchFlags (t : Tracker) : Nat := bit t.crankFault + 2 * bit t.camFault

/-- The plan flags of the status report: pending swap bit 0, stale bit 1 (R184). -/
def planFlags (p : PlanStore) : Nat := bit p.swapPending + 2 * bit p.stale

/-- The fault-disabled set, bit c − 1 for cylinder c (R184). -/
def disabledFlags (d : PerCyl Bool) : Nat :=
  bit d.c1 + 2 * bit d.c2 + 4 * bit d.c3 + 8 * bit d.c4 + 16 * bit d.c5 + 32 * bit d.c6

/-- Byte 2 of a slot result: DEFERRED bit 7, TRUNCATED bit 6, BOOST_SHORT bit 5, CUT bit 4 and the
diagnosis in bits 2..0; only DEFERRED for SUPPRESSED; 0 for SHED and WITHDRAWN (R183). -/
def resultFlags (r : SlotResult) : Nat :=
  match r.outcome with
  | .fired f =>
    128 * bit r.deferred + 64 * bit f.truncated + 32 * bit f.boostShort + 16 * bit f.cut + f.diagnosis.code
  | .suppressed _ => 128 * bit r.deferred
  | .shed _ => 0
  | .withdrawn _ => 0

/-! ## Notice kinds and levels (R167, R178) -/

/-- The bit of a notice kind in the enable set; its kind code is 0xC0 plus this. -/
def NoticeBody.index : NoticeBody → Nat
  | .syncChange _ _ _ => 0
  | .planSwapped _ _ => 1
  | .planStale _ _ => 2
  | .cycleDone _ => 3
  | .mark _ _ _ => 4
  | .faultWarn _ _ _ _ => 5
  | .cylDisabled _ _ _ _ => 6
  | .coilResult _ _ _ _ => 7
  | .supplyBand _ _ => 8
  | .clockBackup _ => 9
  | .fuelcutChange _ => 10
  | .stopDone _ _ => 11
  | .testCutDone _ => 12
  | .camFault _ => 13

/-- The level of a notice kind (R167). -/
def NoticeBody.level : NoticeBody → Level
  | .syncChange _ _ _ => .urgent
  | .planSwapped _ _ => .routine
  | .planStale _ _ => .urgent
  | .cycleDone _ => .routine
  | .mark _ _ _ => .routine
  | .faultWarn _ _ _ _ => .routine
  | .cylDisabled _ _ _ _ => .urgent
  | .coilResult _ _ _ _ => .routine
  | .supplyBand _ _ => .urgent
  | .clockBackup _ => .urgent
  | .fuelcutChange _ => .urgent
  | .stopDone _ _ => .urgent
  | .testCutDone _ => .routine
  | .camFault _ => .routine

/-- Whether a notice is ROUTINE. -/
def Notice.isRoutine (n : Notice) : Bool := n.body.level == .routine

/-! ## The classification of a pulse (R129) -/

/-- Whether a recorded peak is slow: 4 × (peak − start) > 3 × boost limit, exactly in ticks. -/
def slowPeak (p : Pulse) : Bool :=
  match p.peak with
  | some t => 4 * elapsed p.start t > 3 * p.boostLimit
  | none => false

/-- The current classification of a pulse, the first class whose condition holds (R129). -/
def classify (p : Pulse) : Classification :=
  if p.ovc then .overcurrent
  else if p.curTest == .absent then .openCircuit
  else if p.noPeak then .noPeak
  else if slowPeak p then .slowPeak
  else .ok

end Sys2Proof.Machine
end

