-- ==== Sys2Proof/Machine/Formats.lean ====
section
/-! DEFINITION. The byte layouts of what the part sends, and the frame with its CRC (R162, R176, R177,
R180, R182, R183). -/

namespace Sys2Proof.Machine

/-- One byte. -/
def byte (n : Nat) : Byte := BitVec.ofNat 8 n

/-- Two bytes, big-endian. -/
def be16 (n : Nat) : List Byte := [byte (n / 256), byte n]

/-- Four bytes, big-endian. -/
def be32 (n : Nat) : List Byte := [byte (n / 16777216), byte (n / 65536), byte (n / 256), byte n]

/-- A field whose absence code is 0xFFFF (R173). -/
def be16OrAbsent (n : Option Nat) : List Byte := be16 (n.getD 0xFFFF)

/-- A signed 16-bit number as its two's complement. -/
def twosComplement (x : Int) : Nat := (x % 65536).toNat

/-! ## Records -/

/-- The engine-wide record, 25 bytes (R176). -/
def engineBytes (e : EngineRec) : List Byte :=
  be16 e.gapOffset ++ be16 e.camSync ++ be16 e.armingLead ++ be16 e.camTolerance ++ [byte e.gapConfirm]
    ++ be16 e.stallMs ++ [byte (bit e.accelComp), byte (bit e.camLimp)] ++ be16 e.overspeed
    ++ be16 e.planExpiry ++ [byte e.pilotCost, byte e.mainCost, byte e.postCost] ++ be16 e.maxBoostUs
    ++ be16 e.maxSlipUs ++ [byte e.faultThreshold]

/-- A cylinder record, 9 bytes; an undefined one reports TDC 0xFFFF, bank 0xFF and output 0 (R176). -/
def cylinderBytes (c : Cyl) (r : CylRec) : List Byte :=
  match r.place with
  | some p =>
    [byte c.num, 1] ++ be16 p.tdc ++ [byte (bankCode p.bank), byte (p.output.val + 1)] ++ be16 r.eoiLimit
      ++ [byte (bit r.disabled)]
  | none => [byte c.num, 0] ++ be16 0xFFFF ++ [0xFF, 0] ++ be16 r.eoiLimit ++ [byte (bit r.disabled)]

/-- A slot position, 7 bytes; an empty one is all 0 (R177). -/
def positionBytes : Option PlanSlot → List Byte
  | none => [0, 0, 0, 0, 0, 0, 0]
  | some p =>
    be16 p.energizeUs ++ [byte p.kind.code]
      ++ (match p.anchor with
          | .angle rel => 0 :: be16 (twosComplement rel)
          | .dwell us => 1 :: be16 us)
      ++ [byte (bit p.mayDefer)]

/-- The ACK of SET_PULSES and GET_PULSES: page, cylinder, serial, five positions (R177). -/
def pulsesBytes (ix : PageIx) (c : Cyl) (p : PlanPage) : List Byte :=
  [byte ix.code, byte c.num] ++ be16 p.serial ++ (p.lists.get c).flatMap positionBytes

/-- One slot result: three bytes, and six more when FIRED (R183). -/
def resultBytes (r : SlotResult) : List Byte :=
  [byte (16 * r.num + r.kind.code), byte (16 * r.outcome.code + r.outcome.reasonCode), byte (resultFlags r)]
    ++ (match r.outcome with
        | .fired f => be16OrAbsent f.startAngle ++ be16 (toMicros f.slip) ++ be16 (toMicros f.energized)
        | _ => [])

/-- The outcome byte of a cycle record (R183). -/
def RecordOutcome.code : RecordOutcome → Nat
  | .fired => 1
  | .empty => 2
  | .cut _ => 3

/-- Byte 6 of a cycle record: the cut reason, or the number of slot results (R183). -/
def CycleRecord.detail (r : CycleRecord) : Nat :=
  match r.outcome with
  | .cut k => k.code
  | _ => r.results.length

/-- A cycle record (R183). -/
def recordBytes (r : CycleRecord) : List Byte :=
  [byte r.cyl.num] ++ be16 r.serial ++ be16 r.armAngle ++ [byte r.outcome.code, byte r.detail]
    ++ r.results.flatMap resultBytes

/-- A table entry that is "none" (R183). -/
def noRecordBytes (c : Cyl) : List Byte := [byte c.num] ++ be16 0 ++ be16 0 ++ [0, 0]

/-! ## Notices (R180, R181, notice table) -/

/-- The fields of a notice after its time. -/
def noticeFields : NoticeBody → List Byte
  | .syncChange o n k => [byte o.code, byte n.code, byte k.code]
  | .planSwapped serial c => be16 serial ++ [byte (c.elim 0 Cyl.num)]
  | .planStale serial expiry => be16 serial ++ be16 expiry
  | .cycleDone r => recordBytes r
  | .mark i angle speed => [byte i] ++ be16OrAbsent angle ++ be16 speed
  | .faultWarn c score threshold k => [byte c.num, byte score, byte threshold, byte k.code]
  | .cylDisabled c score threshold k => [byte c.num, byte score, byte threshold, byte k.code]
  | .coilResult c r cur k =>
    [byte c.num, byte r.code] ++ be16OrAbsent (cur.map toMicros) ++ [byte (abortCode k)]
  | .supplyBand o n => [byte o.code, byte n.code]
  | .clockBackup count => be16 count
  | .fuelcutChange level => [byte (bit level)]
  | .stopDone forced n => [byte (bit forced), byte n]
  | .testCutDone c => [byte c.num]
  | .camFault k => [byte k.code]

/-- The frame of a notice: kind code 0xC0 + index, tag 0, payload opened by the time (R180). -/
def Notice.frame (n : Notice) : Frame :=
  { kind := byte (0xC0 + n.body.index), tag := 0, payload := be32 n.time.toNat ++ noticeFields n.body }

/-! ## Replies (R171) -/

/-- The reply frame to a request of a kind: ACK 0x80 or REFUSED 0x81, the request's kind first. -/
def replyFrame (kind tag : Byte) : Answer → Frame
  | .ack contents => { kind := 0x80, tag := tag, payload := kind :: contents }
  | .refused k => { kind := 0x81, tag := tag, payload := [kind, byte k.code] }

/-! ## Frames (R162, R182) -/

/-- One shift of the CRC register. -/
def crcShift (r : BitVec 16) : BitVec 16 :=
  if r.msb then (r <<< 1) ^^^ 0x1021 else r <<< 1

/-- One byte into the CRC register. -/
def crcByte (r : BitVec 16) (x : Byte) : BitVec 16 :=
  crcShift (crcShift (crcShift (crcShift (crcShift (crcShift (crcShift (crcShift
    (r ^^^ (x.setWidth 16 <<< 8)))))))))

/-- The CRC-16 of a byte sequence (R162). -/
def crc16 (xs : List Byte) : BitVec 16 := xs.foldl crcByte 0xFFFF

/-- The bytes the CRC covers: length, kind, tag and payload (R162). -/
def Frame.covered (f : Frame) : List Byte := byte f.payload.length :: f.kind :: f.tag :: f.payload

/-- The frame on the line (R182). -/
def Frame.wire (f : Frame) : List Byte :=
  0xA5 :: f.covered ++ be16 (crc16 f.covered).toNat

/-- The time a frame takes on the line: its bytes back to back, 20 ticks each (R161, R162). -/
def Frame.ticks (f : Frame) : Nat := Config.byteTicks * (f.payload.length + 6)

/-- The levels of a byte on the line, in order: the start bit, low; the 8 data bits, least significant first; the stop
bit, high; no parity (R161). -/
def byteLevels (x : Byte) : List Bool :=
  [false, x.getLsbD 0, x.getLsbD 1, x.getLsbD 2, x.getLsbD 3, x.getLsbD 4, x.getLsbD 5, x.getLsbD 6, x.getLsbD 7, true]

/-- The levels of a frame on the line, its bytes back to back (R161). -/
def Frame.levels (f : Frame) : List Bool := f.wire.flatMap byteLevels

/-- The level of TXD a number of ticks into a frame; high again past its end (R161). -/
def Frame.levelAt (f : Frame) (ticks : Nat) : Bool := (f.levels[ticks / Config.bitTicks]?).getD true

end Sys2Proof.Machine
end

