-- ==== Sys2Proof/Machine/Notices.lean ====
section
/-! DEFINITION. Replies, notices and the transmitter (R165 to R168). -/

namespace Sys2Proof.Machine

/-- The transmitter begins a frame (R166). -/
def beginFrame (f : Frame) (now : Tick) : Sending := { frame := f, doneAt := later now f.ticks }

/-- An idle transmitter takes the oldest reply, else the oldest notice, else stays idle; a transmitter
that is sending is left alone (R166). It does so while the timebase stands too, so a SYNC_CHANGE queued before the
switch of a dead crystal begins ahead of CLOCK_BACKUP: the model's choice beside R186 (log entry 27). -/
def Link.takeFrame (l : Link) (now : Tick) : Link :=
  match l.sending with
  | some _ => l
  | none =>
    match l.replies with
    | f :: rest => { l with replies := rest, sending := some (beginFrame f now) }
    | [] =>
      match l.notices with
      | n :: rest => { l with notices := rest, sending := some (beginFrame n.frame now) }
      | [] => l

/-- How long a frame has been on the line. Its first bit begins as the transmitter takes it (log entry 9). -/
def Sending.sentFor (x : Sending) (now : Tick) : Nat := elapsed (x.doneAt - BitVec.ofNat 32 x.frame.ticks) now

/-- The level of TXD: the bit of the frame being sent, high between frames and while RESET_N is asserted (R160, R161).
While the source of the timebase stands it keeps its level, since the source times the bits (log entry 27). -/
def txd (s : State) : Bool :=
  if s.resetHeld then true
  else
    match s.link.sending with
    | none => true
    | some x => x.frame.levelAt (x.sentFor s.timebase)

/-- Count a lost notice, saturating (R168). -/
def Link.countLost (l : Link) : Link := { l with lost := satAdd Config.countMax l.lost 1 }

/-- Queue a notice that passed the enable set, by the space in the notice queue (R168). -/
def Link.enqueueNotice (l : Link) (n : Notice) : Link :=
  if l.notices.length < Config.noticeQueue then { l with notices := l.notices ++ [n] }
  else if n.isRoutine then l.countLost
  else if l.notices.any Notice.isRoutine then
    { l with notices := l.notices.eraseP Notice.isRoutine ++ [n] }.countLost
  else l.countLost

/-- A block raises a notice at the present time: a kind that is not enabled is not queued (R167). -/
def queueNotice (x : NoticeBody) (s : State) : State :=
  if s.link.enable.getLsbD x.index then
    s.withLink ((s.link.enqueueNotice { time := s.timebase, body := x }).takeFrame s.timebase)
  else s

/-- The reply of a request joins the reply queue (R165, step 5). -/
def pushReply (kind tag : Byte) (x : Answer) (s : State) : State :=
  s.withLink ({ s.link with replies := s.link.replies ++ [replyFrame kind tag x] }.takeFrame s.timebase)

/-- Raise the frame error count by one, saturating (R163). -/
def Link.countError (l : Link) : Link := { l with frameErrors := satAdd Config.countMax l.frameErrors 1 }

/-- A good frame enters the inbound queue, or is discarded when the queue is full (R164). -/
def Link.accept (l : Link) (f : Frame) : Link :=
  if l.inbound.length < Config.requestQueue then { l with inbound := l.inbound ++ [f] } else l.countError

end Sys2Proof.Machine
end

