-- ==== Sys2Proof/Machine/Cycle.lean ====
section
/-! DEFINITION. Cycle contexts: resolving slots, closing contexts, cycle records, withdrawals (R67, R77 to
R80, R82 to R86, R88, R106, R147). -/

namespace Sys2Proof.Machine

/-! ## Slots of a context -/

/-- Apply a change to the slot of a number. -/
def mapSlot (n : Nat) (f : Slot → Slot) : List Slot → List Slot
  | [] => []
  | x :: xs => if x.num = n then f x :: xs else x :: mapSlot n f xs

/-- The slot of a number. -/
def findSlot (n : Nat) (xs : List Slot) : Option Slot := xs.find? fun x => x.num == n

/-- The slot latched just after the slot of a number. -/
def slotAfter (n : Nat) : List Slot → Option Slot
  | [] => none
  | x :: xs => if x.num = n then xs.head? else slotAfter n xs

/-- The slot latched just before the slot of a number (R76). -/
def slotBefore (n : Nat) : Option Slot → List Slot → Option Slot
  | _, [] => none
  | p, x :: xs => if x.num = n then p else slotBefore n (some x) xs

/-- Resolve a slot. -/
def Slot.resolve (o : SlotOutcome) (x : Slot) : Slot := { x with st := .resolved o }

/-- The ANCHOR_LOST cascade: every PENDING DWELL slot from the head on, until one that is not (R82). -/
def loseAnchor : List Slot → List Slot
  | [] => []
  | x :: xs =>
    if x.st.isPending && x.isDwell then x.resolve (.suppressed .anchorLost) :: loseAnchor xs else x :: xs

/-- Resolve an unstarted slot without its having fired, and pass the loss on to its dependents (R82). -/
def resolveUnfired (n : Nat) (o : SlotOutcome) : List Slot → List Slot
  | [] => []
  | x :: xs =>
    if x.num = n then
      (if x.st.isUnstarted then x.resolve o :: loseAnchor xs else x :: xs)
    else x :: resolveUnfired n o xs

/-- Resolve every unstarted slot with one reason, with no cascade (R67, R84). -/
def withdrawAllSlots (r : WithdrawReason) (xs : List Slot) : List Slot :=
  xs.map fun x => if x.st.isUnstarted then x.resolve (.withdrawn r) else x

/-- Change the slots of a cylinder's open context. -/
def updateSlots (c : Cyl) (f : List Slot → List Slot) (s : State) : State :=
  match s.contexts.get c with
  | none => s
  | some x => s.withContexts (s.contexts.set c (some { x with slots := f x.slots }))

/-! ## Records and the close (R85, R86, R88) -/

/-- The result of a resolved slot; DEFERRED is held for FIRED and SUPPRESSED (R86). -/
def Slot.result (x : Slot) : Option SlotResult :=
  match x.st with
  | .resolved (.fired r) => some { num := x.num, kind := x.kind, outcome := .fired r, deferred := x.deferred }
  | .resolved (.suppressed r) =>
    some { num := x.num, kind := x.kind, outcome := .suppressed r, deferred := x.deferred }
  | .resolved o => some { num := x.num, kind := x.kind, outcome := o, deferred := false }
  | _ => none

/-- Whether a slot resolved FIRED. -/
def Slot.hasFired (x : Slot) : Bool :=
  match x.st with
  | .resolved (.fired _) => true
  | _ => false

/-- The record of a context (R85, R86). -/
def CycleContext.record (x : CycleContext) : CycleRecord :=
  { cyl := x.cyl, serial := x.serial, armAngle := x.armAngle,
    outcome := if x.slots.any Slot.hasFired then .fired else .empty,
    results := x.slots.filterMap Slot.result }

/-- Write a cycle record and queue CYCLE_DONE (R88). -/
def writeRecord (r : CycleRecord) (s : State) : State :=
  queueNotice (.cycleDone r) (s.withRecords (s.records.set r.cyl (some r)))

/-- Run Control hears that no context remains open: in DRAIN the drain ends normally (R147). -/
def noContextOpen (s : State) : State :=
  if s.run.mode = .drain then
    queueNotice (.stopDone false 0) (s.withRun { s.run with mode := .halt, drainAt := none })
  else s

/-- Whether every slot of a context is resolved. -/
def CycleContext.finished (x : CycleContext) : Bool := x.slots.all fun y => y.st.isResolved

/-- Remove the context of a cylinder. -/
def removeContext (c : Cyl) (s : State) : State := s.withContexts (s.contexts.set c none)

/-- Tell Run Control if no context remains open (R85, step 5). -/
def tellIfNoneOpen (s : State) : State := if anyOpen s then s else noContextOpen s

/-- The close test, and the close when no slot is left: record, table, notice, removal, report (R85). -/
def closeTest (c : Cyl) (s : State) : State :=
  match s.contexts.get c with
  | none => s
  | some x => if x.finished then tellIfNoneOpen (removeContext c (writeRecord x.record s)) else s

/-- A slot is reported resolved without having fired: resolution, cascade and close test (R79, R82,
R83, R85). -/
def reportUnfired (c : Cyl) (n : Nat) (o : SlotOutcome) (s : State) : State :=
  closeTest c (updateSlots c (resolveUnfired n o) s)

/-! ## Withdrawals (R83, R106) -/

/-- Whether an entry is a PULSE entry. -/
def Entry.isPulse (e : Entry) : Bool :=
  match e.key with
  | .pulse _ _ => true
  | _ => false

/-- Whether an entry is a PULSE entry of a cylinder in a scope. -/
def Entry.pulseIn (scope : Cyl → Bool) (e : Entry) : Bool :=
  match e.key with
  | .pulse c _ => scope c
  | _ => false

/-- The waiting start of a bank, if its cylinder lies in a scope. -/
def BankState.waitingIn (scope : Cyl → Bool) (x : BankState) : Option StartReq :=
  x.waiting.filter fun r => scope r.cyl

/-- Empty a bank's waiting slot when its start lies in a scope. -/
def BankState.emptyWaiting (scope : Cyl → Bool) (x : BankState) : BankState :=
  match x.waiting with
  | some r => if scope r.cyl then { x with waiting := none } else x
  | none => x

/-- Whether a pulse is unstarted: held in the queue, or in its bank's waiting slot (R106). -/
def isUnstartedPulse (s : State) (c : Cyl) (n : Nat) : Bool :=
  s.queue.entries.any (fun e => e.key == .pulse c n)
    || (s.bankA.waiting.any fun r => r.cyl == c && r.slot == n)
    || (s.bankB.waiting.any fun r => r.cyl == c && r.slot == n)

/-- The unstarted pulses within a scope, in cylinder order and then in slot number order (R106). -/
def unstartedPulses (scope : Cyl → Bool) (s : State) : List (Cyl × Nat) :=
  (Cyl.all.filter scope).flatMap fun c =>
    ([1, 2, 3, 4, 5].filter fun n => isUnstartedPulse s c n).map fun n => (c, n)

/-- Take the unstarted pulses within a scope out of the queue and the waiting slots (R106). -/
def dropPulses (scope : Cyl → Bool) (s : State) : State :=
  (((s.withQueue { s.queue with entries := s.queue.entries.filter fun e => !e.pulseIn scope }).withBank .bankA
      (s.bankA.emptyWaiting scope)).withBank .bankB (s.bankB.emptyWaiting scope))

/-- Report the withdrawal of each pulse of a list, each before the next (R106). -/
def reportWithdrawn (r : WithdrawReason) : List (Cyl × Nat) → State → State
  | [], s => s
  | (c, n) :: rest, s => reportWithdrawn r rest (reportUnfired c n (.withdrawn r) s)

/-- Withdraw every unstarted pulse within a scope (R83, R106). -/
def withdrawPulses (scope : Cyl → Bool) (r : WithdrawReason) (s : State) : State :=
  reportWithdrawn r (unstartedPulses scope s) (dropPulses scope s)

end Sys2Proof.Machine
end

