-- ==== Sys2Proof/Machine/Diagnosis.lean ====
section
/-! DEFINITION. Circuit Diagnosis: fault scores, warnings, disables, and the end of a coil check (R132 to
R136, R142, R143). -/

namespace Sys2Proof.Machine

/-- The fault score after a classification (R132). -/
def scoreAfter (k : Classification) (score : Nat) : Nat :=
  match k with
  | .overcurrent => satAdd 255 score 32
  | .openCircuit => satAdd 255 score 16
  | .noPeak => satAdd 255 score 8
  | .slowPeak => satAdd 255 score 2
  | .ok => score - 1

/-- The re-arming test, on a cylinder's score and flag (R133). -/
def rearmed (threshold score : Nat) (flag : Bool) : Bool := flag || decide (score < threshold / 2)

/-- The score change and the re-arming test (R132, R133). -/
def scoreAndRearm (c : Cyl) (k : Classification) (s : State) : State :=
  s.withDiag
    { s.diag with
      score := s.diag.score.set c (scoreAfter k (s.diag.score.get c))
      warnArmed := s.diag.warnArmed.set c
        (rearmed s.plan.engine.faultThreshold (scoreAfter k (s.diag.score.get c)) (s.diag.warnArmed.get c)) }

/-- The warning test (R134). -/
def warnTest (c : Cyl) (k : Classification) (s : State) : State :=
  if s.plan.engine.faultThreshold / 2 ≤ s.diag.score.get c ∧ s.diag.warnArmed.get c = true then
    queueNotice (.faultWarn c (s.diag.score.get c) s.plan.engine.faultThreshold k)
      (s.withDiag { s.diag with warnArmed := s.diag.warnArmed.set c false })
  else s

/-- The disable test: latch, withdrawal, notice (R135). -/
def disableTest (c : Cyl) (k : Classification) (s : State) : State :=
  if s.plan.engine.faultThreshold ≤ s.diag.score.get c ∧ s.diag.disabled.get c = false then
    queueNotice (.cylDisabled c (s.diag.score.get c) s.plan.engine.faultThreshold k)
      (withdrawPulses (fun d => d == c) .fault
        (s.withDiag { s.diag with disabled := s.diag.disabled.set c true }))
  else s

/-- Circuit Diagnosis receives a classification (R132 to R135, in that order). -/
def diagnose (c : Cyl) (k : Classification) (s : State) : State :=
  disableTest c k (warnTest c k (scoreAndRearm c k s))

/-- A coil check ends: the drive goes off with the check, and COIL_RESULT is queued (R143). -/
def endCoilCheck (r : CoilResult) (cause : Option AbortCause) (s : State) : State :=
  match s.diag.coil with
  | none => s
  | some x => queueNotice (.coilResult x.cyl r x.curTime cause) (s.withDiag { s.diag with coil := none })

/-- A running coil check is aborted (R142). -/
def abortCoilCheck (cause : AbortCause) (s : State) : State := endCoilCheck .aborted (some cause) s

/-- The result of a check at its window end (R141). -/
def coilResultOf : Option Nat → CoilResult
  | none => .openCircuit
  | some t => if t < 40 then .fast else if t ≤ 240 then .ok else .slow

end Sys2Proof.Machine
end

