-- ==== Sys2Proof/Machine/Queue.lean ====
section
/-! DEFINITION. The Firing Queue's entries: keys, order, insertion, commit, and what the tracker's moves do
to them (R90 to R101, R108). -/

namespace Sys2Proof.Machine

/-! ## Keys and order (R90, R92) -/

/-- Key order: ARM by cylinder, then PULSE by cylinder and slot number, then MARK by index (R92). -/
def Key.before : Key → Key → Bool
  | .arm c, .arm d => decide (c.num < d.num)
  | .arm _, .pulse _ _ => true
  | .arm _, .mark _ => true
  | .pulse _ _, .arm _ => false
  | .pulse c m, .pulse d n => decide (c.num < d.num) || (c == d && decide (m < n))
  | .pulse _ _, .mark _ => true
  | .mark _, .arm _ => false
  | .mark _, .pulse _ _ => false
  | .mark i, .mark j => decide (i < j)

/-- A committed time: the reference time plus the delay, modulo 2^32 (R90). -/
def Commitment.time (k : Commitment) : Tick := later k.ref k.delay

/-- How long remains until a committed time is reached, 0 for a reached one (R92). -/
def Commitment.remaining (k : Commitment) (now : Tick) : Nat := k.delay - elapsed k.ref now

/-- Whether an entry is COMMITTED and its committed time is reached (R90). -/
def Entry.due (now : Tick) (e : Entry) : Bool :=
  match e.commit with
  | some k => decide (k.delay ≤ elapsed k.ref now)
  | none => false

/-- Whether one committed entry stands before another (R92, points 1 and 3). -/
def committedBefore (now : Tick) (x y : Commitment) (xk yk : Key) : Bool :=
  if x.remaining now = y.remaining now then
    if x.time = y.time then xk.before yk else decide (signedDiff x.time y.time < 0)
  else decide (x.remaining now < y.remaining now)

/-- Whether one waiting entry stands before another (R92, points 2 and 3). -/
def waitingBefore (angle : Nat) (x y : Entry) : Bool :=
  if forward angle (x.target.getD 0) = forward angle (y.target.getD 0) then x.key.before y.key
  else decide (forward angle (x.target.getD 0) < forward angle (y.target.getD 0))

/-- The order of the queue (R92). -/
def entryBefore (now : Tick) (angle : Nat) (x y : Entry) : Bool :=
  match x.commit, y.commit with
  | some k, some l => committedBefore now k l x.key y.key
  | some _, none => true
  | none, some _ => false
  | none, none => waitingBefore angle x y

/-- Insert into a list in order. -/
def insertSorted (before : Entry → Entry → Bool) (e : Entry) : List Entry → List Entry
  | [] => [e]
  | x :: xs => if before e x then e :: x :: xs else x :: insertSorted before e xs

/-- Sort a list of entries. -/
def sortEntries (before : Entry → Entry → Bool) : List Entry → List Entry
  | [] => []
  | x :: xs => insertSorted before x (sortEntries before xs)

/-- The entries in queue order (R92). -/
def queueOrder (s : State) : List Entry :=
  sortEntries (entryBefore s.timebase (s.tracker.edgeAngle.getD 0)) s.queue.entries

/-- The first entry in queue order, if its committed time is reached (R102). -/
def firstDue (s : State) : Option Entry :=
  match queueOrder s with
  | e :: _ => if e.due s.timebase then some e else none
  | [] => none

/-! ## Insertion and removal (R90, R91) -/

/-- Insert an entry by its key; a key already held leaves the list as it was (R90). -/
def insertByKey (e : Entry) : List Entry → List Entry
  | [] => [e]
  | x :: xs =>
    if x.key = e.key then x :: xs
    else if e.key.before x.key then e :: x :: xs
    else x :: insertByKey e xs

/-- Insert an entry into the queue. -/
def insertEntry (e : Entry) (s : State) : State :=
  s.withQueue { s.queue with entries := insertByKey e s.queue.entries }

/-- Remove the entry of a key. -/
def removeKey (k : Key) (s : State) : State :=
  s.withQueue { s.queue with entries := s.queue.entries.filter fun e => !(e.key == k) }

/-- The number of PULSE entries held (R91). -/
def pulseCount (s : State) : Nat := s.queue.entries.countP Entry.isPulse

/-- Whether the queue holds its PULSE capacity (R91). -/
def pulsesFull (s : State) : Bool := decide (Config.pulseCapacity ≤ pulseCount s)

/-- The entry of a key. -/
def findEntry (k : Key) (s : State) : Option Entry := s.queue.entries.find? fun e => e.key == k

/-- A WAITING ARM entry of a cylinder: its target is (TDC − arming lead) mod 7200 (R90, R93). -/
def armEntry (s : State) (c : Cyl) (pl : Placement) : Entry :=
  { key := .arm c, target := some (cycleAngle pl.tdc (-(s.plan.engine.armingLead : Int))), pulse := none,
    commit := none }

/-- Insert the ARM entry of a cylinder, if it is defined (R90, R93, R95). -/
def insertArm (c : Cyl) (s : State) : State :=
  match (s.plan.cyls.get c).place with
  | some pl => insertEntry (armEntry s c pl) s
  | none => s

/-- Insert an ARM entry for each cylinder of a list. -/
def insertArmList : List Cyl → State → State
  | [], s => s
  | c :: cs, s => insertArmList cs (insertArm c s)

/-- Insert an ARM entry for each defined cylinder (R93). -/
def insertArms (s : State) : State := insertArmList Cyl.all s

/-- Insert the MARK entry of an index, if the mark is enabled (R96). -/
def insertMark (i : MarkIx) (s : State) : State :=
  match s.plan.marks[i.val]? with
  | some m =>
    if m.enabled then
      insertEntry { key := .mark i, target := some m.angle, pulse := none, commit := none } s
    else s
  | none => s

/-- Insert the MARK entries of a list of indices. -/
def insertMarkList : List MarkIx → State → State
  | [], s => s
  | i :: is, s => insertMarkList is (insertMark i s)

/-- Insert a MARK entry for each enabled mark (R96). -/
def insertMarks (s : State) : State := insertMarkList [0, 1, 2, 3, 4, 5, 6, 7] s

/-- Make the pending mark insertions (R96, R98 step 1). -/
def insertPendingMarks (s : State) : State :=
  insertMarkList s.queue.pendingMarks (s.withQueue { s.queue with pendingMarks := [] })

/-- A SET_MARK changed a mark's angle or enable: its entry is removed and, while the angle is known, its
index waits for the next edge (R60, R96). -/
def markChanged (i : MarkIx) (s : State) : State :=
  if s.tracker.sync.holdsAngle ∧ ¬ i ∈ s.queue.pendingMarks then
    (fun t => t.withQueue { t.queue with pendingMarks := t.queue.pendingMarks ++ [i] }) (removeKey (.mark i) s)
  else removeKey (.mark i) s

/-- Remove every ARM entry (R94, R112). -/
def removeArms (s : State) : State :=
  s.withQueue
    { s.queue with
      entries := s.queue.entries.filter fun e => match e.key with | .arm _ => false | _ => true }

/-! ## Commit (R98, R99, R100) -/

/-- Commit an entry of the list to a reference time and a delay, with an energizing time for a PULSE. -/
def setCommit (k : Key) (f : Entry → Entry) (s : State) : State :=
  s.withQueue { s.queue with entries := s.queue.entries.map fun e => if e.key = k then f e else e }

/-- A slot is committed: from WAITING, with TRUNCATED set if its time was cut (R77). -/
def Slot.commitTo (time : Tick) (truncated : Bool) (x : Slot) : Slot :=
  match x.st with
  | .waiting => { x with st := .committed time, truncated := x.truncated || truncated }
  | .pending => { x with st := .committed time, truncated := x.truncated || truncated }
  | _ => x

/-- Commit a PULSE entry at an edge, after the end-of-injection test (R37, R99). An entry whose cylinder
no open context has no slot to fire for: it is removed (log entry 22). -/
def commitPulse (e : EdgeRef) (c : Cyl) (n : Nat) (target energize : Nat) (s : State) : State :=
  match s.contexts.get c with
  | none => removeKey (.pulse c n) s
  | some x =>
    if commitAvailable e x.armAngle x.eoiAngle target < (Config.minEnergize : Int) then
      reportUnfired c n (.suppressed .limit) (removeKey (.pulse c n) s)
    else
      updateSlots c
        (mapSlot n (Slot.commitTo (later e.time (delay e (forward e.angle target)))
          (decide (commitAvailable e x.armAngle x.eoiAngle target < (energize : Int)))))
        (setCommit (.pulse c n)
          (fun y => { y with
            pulse := y.pulse.map fun q =>
              (q.1, min energize (commitAvailable e x.armAngle x.eoiAngle target).toNat)
            commit := some { ref := e.time, delay := delay e (forward e.angle target) } })
          s)

/-- Commit the WAITING entry of a key at an edge (R98, R99). Every PULSE entry carries its kind and energizing time. -/
def commitKey (e : EdgeRef) (k : Key) (s : State) : State :=
  match findEntry k s with
  | none => s
  | some y =>
    match y.target, y.commit with
    | some target, none =>
      match k, y.pulse with
      | .pulse c n, some q => commitPulse e c n target q.2 s
      | .pulse _ _, none => s
      | _, _ =>
        setCommit k
          (fun z => { z with commit := some { ref := e.time, delay := delay e (forward e.angle target) } }) s
    | _, _ => s

/-- Commit the entries of a list of keys, in its order. -/
def commitKeys (e : EdgeRef) : List Key → State → State
  | [], s => s
  | k :: ks, s => commitKeys e ks (commitKey e k s)

/-- Whether a WAITING entry's target lies less than `n` steps ahead of an angle. -/
def Entry.waitingWithin (angle n : Nat) (e : Entry) : Bool :=
  match e.target, e.commit with
  | some t, none => decide (forward angle t < n)
  | _, _ => false

/-- The keys of the WAITING entries with targets less than `n` steps ahead of an angle, in queue order. -/
def keysWithin (angle n : Nat) (s : State) : List Key :=
  ((queueOrder s).filter (Entry.waitingWithin angle n)).map Entry.key

/-- Take the commit window of an edge (R98, step 3). -/
def takeWindow (e : EdgeRef) (s : State) : State := commitKeys e (keysWithin e.angle e.span s) s

/-- A passed entry at the catch-up: ARM and MARK are committed at the edge's time, a PULSE is removed
and its slot suppressed LATE (R101). -/
def catchUpKey (e : EdgeRef) (k : Key) (s : State) : State :=
  match k with
  | .pulse c n => reportUnfired c n (.suppressed .late) (removeKey k s)
  | _ => setCommit k (fun z => { z with commit := some { ref := e.time, delay := 0 } }) s

/-- The passed entries of a list of keys, in its order. -/
def catchUpKeys (e : EdgeRef) : List Key → State → State
  | [], s => s
  | k :: ks, s => catchUpKeys e ks (catchUpKey e k s)

/-- Drop the catch-up frontier. -/
def dropFrontier (s : State) : State := s.withQueue { s.queue with frontier := none }

/-- The catch-up at the first edge after a move between FULL_SYNC and CAM_LIMP (R98 step 2, R101). The passed
entries are taken in queue order as seen from the new edge angle (log entry 33). -/
def catchUp (e : EdgeRef) (s : State) : State :=
  match s.queue.frontier with
  | none => s
  | some f =>
    if 3600 ≤ forward f e.angle then dropFrontier s
    else dropFrontier (catchUpKeys e (keysWithin f (forward f e.angle) s) s)

/-- The edge becomes the commit reference (R97). -/
def setCommitRef (e : EdgeRef) (s : State) : State := s.withQueue { s.queue with commitRef := some e }

/-! ## What the tracker's moves do to the queue (R21 to R23, R97, R108) -/

/-- The catch-up frontier formed from the commit reference about to be dropped (R97). -/
def FiringQueue.atMove (q : FiringQueue) : FiringQueue :=
  match q.commitRef with
  | some e => { q with commitRef := none, frontier := some ((e.angle + e.span) % 7200) }
  | none => q

/-- A sync gain: MARK entries for the enabled marks and, in RUN, ARM entries (R21, R93, R96, R97). -/
def queueGain (s : State) : State :=
  (fun t => if t.run.mode = .run then insertArms t else t)
    (insertMarks (s.withQueue { s.queue with commitRef := none }))

/-- A sync loss: every entry leaves, and the queue holds nothing across the loss (R22, R108). -/
def queueLoss (s : State) : State :=
  (fun t => t.withQueue
      { t.queue with entries := [], pendingMarks := [], commitRef := none, frontier := none })
    (withdrawPulses (fun _ => true) .syncLost s)

/-- The move from FULL_SYNC to CAM_LIMP: PULSE entries are withdrawn, ARM and MARK entries kept (R23, R97,
R108). -/
def queueToCam (s : State) : State :=
  (fun t => t.withQueue t.queue.atMove) (withdrawPulses (fun _ => true) .syncLost s)

/-- The move from CAM_LIMP to FULL_SYNC: every entry is kept (R23, R97). -/
def queueToCrank (s : State) : State := s.withQueue s.queue.atMove

end Sys2Proof.Machine
end

