-- ==== Sys2Proof/Machine/Bank.lean ====
section
/-! DEFINITION. The bank drivers: recharge, the end of a pulse with its reports and the chain step, start
arbitration, and the outputs (R81, R113 to R126). -/

namespace Sys2Proof.Machine

/-! ## Outputs (R114, R130) -/

/-- What a bank's high side drives (R114), the hold drive during a coil check on it (R130). -/
def highSide (s : State) (b : Bank) : HighSide :=
  match (s.bank b).drive with
  | .boost _ => .boost
  | .hold _ => .hold
  | .decay _ _ _ => .off
  | .idle => if (s.diag.coil.any fun x => x.bank == b) then .hold else .off

/-- The select output a bank switches on, if any (R114, R130). -/
def selectedBy (s : State) (b : Bank) : Option Output :=
  match (s.bank b).drive with
  | .boost p => some p.output
  | .hold p => some p.output
  | .decay _ _ _ => none
  | .idle => (s.diag.coil.filter fun x => x.bank == b).map CoilCheck.output

/-- Whether a select output is on. -/
def selectOn (s : State) (o : Output) : Bool :=
  selectedBy s .bankA == some o || selectedBy s .bankB == some o

/-! ## Recharging the reserve (R125, R126) -/

/-- The recharge interval of a supply band; none in CRITICAL. -/
def rechargeInterval : SupplyBand → Option Nat
  | .normal => some 50
  | .low => some 100
  | .critical => none

/-- Whether the reserve is below full and the phase may count: not in BOOST, not in band CRITICAL. -/
def BankState.recharging (x : BankState) (band : SupplyBand) : Bool :=
  !x.drive.isBoost && decide (band ≠ .critical) && decide (x.reserve < Config.reserveFull)

/-- Whether the phase has reached the interval and the unit may be gained. -/
def BankState.unitDue (x : BankState) (band : SupplyBand) : Bool :=
  x.recharging band &&
    match rechargeInterval band with
    | some i => decide (i ≤ x.phase)
    | none => false

/-- Gain a unit that is due: the reserve gains one and the phase returns to 0 (R125). -/
def BankState.gainUnit (x : BankState) (band : SupplyBand) : BankState :=
  if x.unitDue band then { x with reserve := x.reserve + 1, phase := 0 } else x

/-- One tick of the recharge phase; a phase at its interval waits for its unit to be taken (R125). -/
def BankState.countPhase (x : BankState) (band : SupplyBand) : BankState :=
  if x.recharging band && !x.unitDue band then { x with phase := x.phase + 1 } else x

/-- Gain a bank's unit if it is due. -/
def settleRecharge (b : Bank) (s : State) : State := s.withBank b ((s.bank b).gainUnit s.run.band)

/-! ## The chain step (R81) -/

/-- The edge a chained start is tested from: the commit reference, or the tracker's last accepted edge
while there is none (R38). -/
def chainEdge (s : State) : Option EdgeRef :=
  match s.queue.commitRef with
  | some e => some e
  | none => carrier s.tracker

/-- Whether the restriction to MAIN slots holds: in CAM_LIMP or on the backup clock (R71, R81). -/
def mainOnly (s : State) : Bool := decide (s.tracker.sync = .camLimp) || decide (s.run.clock = .backup)

/-- Cases 1 to 6 of the chain test, in order: the outcome of the first that holds (R81; with no edge to test
from, log entry 22). -/
def chainBlock (s : State) (c : Cyl) (x : CycleContext) (y : Slot) (start : Tick) : Option SlotOutcome :=
  if s.run.fuelcut then some (.withdrawn .fuelcut)
  else if s.diag.disabled.get c then some (.withdrawn .fault)
  else if !s.tracker.sync.holdsAngle then some (.suppressed .limit)
  else if decide (y.kind ≠ .main) && mainOnly s then some (.suppressed .limp)
  else
    match chainEdge s with
    | none => some (.suppressed .limit)
    | some e =>
      if chainAvailable e x.armAngle x.eoiAngle start < (Config.minEnergize : Int) then
        some (.suppressed .limit)
      else if pulsesFull s then some (.suppressed .queueFull)
      else none

/-- The energizing time of a chained slot: the lesser of its own and the available time (R38, R81). -/
def chainEnergize (s : State) (x : CycleContext) (y : Slot) (start : Tick) : Nat :=
  match chainEdge s with
  | none => y.energize
  | some e => min y.energize (chainAvailable e x.armAngle x.eoiAngle start).toNat

/-- Chain a PENDING DWELL slot from its anchor's actual end (R81, R105). -/
def chainSlot (c : Cyl) (x : CycleContext) (y : Slot) (dwell : Nat) (ended : Tick) (s : State) : State :=
  match chainBlock s c x y (later ended dwell) with
  | some o => updateSlots c (resolveUnfired y.num o) s
  | none =>
    insertEntry
      { key := .pulse c y.num, target := none, pulse := some (y.kind, chainEnergize s x y (later ended dwell)),
        commit := some { ref := ended, delay := dwell } }
      (updateSlots c
        (mapSlot y.num (Slot.commitTo (later ended dwell)
          (decide (chainEnergize s x y (later ended dwell) < y.energize))))
        s)

/-- The chain step after a slot fired: the next latched slot, if it is a PENDING DWELL slot (R81). -/
def chainAfter (c : Cyl) (n : Nat) (ended : Tick) (s : State) : State :=
  match s.contexts.get c with
  | none => s
  | some x =>
    match slotAfter n x.slots with
    | none => s
    | some y =>
      match y.st, y.anchor with
      | .pending, .dwell d => chainSlot c x y d ended s
      | _, _ => s

/-! ## The end of a pulse (R80, R117 to R121) -/

/-- An ENERGIZED slot resolves FIRED with the result fields of R80. -/
def Slot.fire (p : Pulse) (ended : Tick) (k : Classification) (x : Slot) : Slot :=
  match x.st with
  | .energized _ angle slip =>
    x.resolve (.fired
      { startAngle := angle, slip := slip, energized := elapsed p.start ended, truncated := x.truncated,
        boostShort := p.boostShort, cut := p.cut, diagnosis := k })
  | _ => x

/-- Whether a context holds the ENERGIZED slot of a pulse. -/
def CycleContext.drives (x : CycleContext) (p : Pulse) : Bool :=
  match findSlot p.slot x.slots with
  | some y => match y.st with
    | .energized _ _ _ => true
    | _ => false
  | none => false

/-- The end report reaches the context of the pulse's cylinder; with none open for it, it is dropped
(R80, R81, R121). The close test is left to the caller. -/
def endReport (p : Pulse) (ended : Tick) (k : Classification) (s : State) : State :=
  match s.contexts.get p.cyl with
  | none => s
  | some x =>
    if x.drives p then
      chainAfter p.cyl p.slot ended (updateSlots p.cyl (mapSlot p.slot (Slot.fire p ended k)) s)
    else s

/-- The close test of a cylinder, where it is made. -/
def closeTestIf (close : Bool) (c : Cyl) (s : State) : State := if close then closeTest c s else s

/-- The two reports of a DECAY entry: to Circuit Diagnosis, then to the context, closing it if `close`. R121 and
R135 leave the order of the two free and have a DWELL slot after the pulse end WITHDRAWN with FAULT in both; Circuit
Diagnosis has its report first, so a latch it sets stands before case 3 of the chain test (R81; log entry 13). -/
def reportEnd (close : Bool) (p : Pulse) (ended : Tick) (s : State) : State :=
  closeTestIf close p.cyl (endReport p ended (classify p) (diagnose p.cyl (classify p) s))

/-- The bank moves to DECAY with its pulse: outputs off, actual end time now, DECAY end time 100 ticks
on; a recharge unit held through BOOST is gained on leaving BOOST (R117, R125). -/
def startDecay (b : Bank) (p : Pulse) (s : State) : State :=
  (fun t => if (s.bank b).drive.isBoost then settleRecharge b t else t)
    (s.withBank b
      { s.bank b with drive := .decay p s.timebase (later s.timebase Config.decayTicks) })

/-- End the pulse of a bank in BOOST or HOLD, after marking it; a bank in IDLE or DECAY is not changed
(R117, R118, R119, R121). -/
def endPulse (b : Bank) (mark : Pulse → Pulse) (close : Bool) (s : State) : State :=
  match (s.bank b).drive.energized with
  | none => s
  | some p => reportEnd close (mark p) s.timebase (startDecay b (mark p) s)

/-- The CUT mark of a pulse. -/
def Pulse.markCut (p : Pulse) : Pulse := { p with cut := true }

/-- The OVC mark of a pulse. -/
def Pulse.markOvc (p : Pulse) : Pulse := { p with ovc := true }

/-- Cut the energized pulse of a bank (R119). -/
def cutPulse (b : Bank) (s : State) : State := endPulse b Pulse.markCut true s

/-- Cut the energized pulse of a bank when it belongs to a cylinder (R67, R119). -/
def cutPulseOf (c : Cyl) (b : Bank) (s : State) : State :=
  match (s.bank b).drive.energized with
  | some p => if p.cyl = c then cutPulse b s else s
  | none => s

/-! ## Start arbitration (R115, R122 to R124) -/

/-- A slot becomes ENERGIZED at its start (R78). -/
def Slot.energizeAt (now : Tick) (angle : Option Nat) (slip : Nat) (x : Slot) : Slot :=
  match x.st with
  | .committed _ => { x with st := .energized now angle slip }
  | _ => x

/-- The pulse a start request latches at BOOST entry (R115). -/
def pulseOf (r : StartReq) (boostShort : Bool) (s : State) : Pulse :=
  { cyl := r.cyl, slot := r.slot, kind := r.kind, output := r.output, committed := r.committed,
    energize := r.energize, start := s.timebase, boostLimit := 2 * s.plan.engine.maxBoostUs,
    boostShort := boostShort, peak := none, curTest := .pending, noPeak := false, ovc := false, cut := false }

/-- The slip reported at a start: the time since its committed time, saturating (R115). -/
def slipOf (r : StartReq) (now : Tick) : Nat := min Config.slipMax (elapsed r.committed now)

/-- BOOST entry: the reserve is spent, the pulse latched and the start reported (R78, R115, R124). -/
def enterBoost (b : Bank) (r : StartReq) (s : State) : State :=
  updateSlots r.cyl
    (mapSlot r.slot
      (Slot.energizeAt s.timebase (interpolated s.tracker s.timebase) (slipOf r s.timebase)))
    (s.withBank b
      { s.bank b with
        drive := .boost (pulseOf r (decide ((s.bank b).reserve < s.plan.engine.cost r.kind)) s)
        reserve := (s.bank b).reserve - s.plan.engine.cost r.kind })

/-- A start is shed and its context told (R79). -/
def shedStart (r : StartReq) (k : ShedReason) (s : State) : State := reportUnfired r.cyl r.slot (.shed k) s

/-- A start is given up under the fuel cut and its context told (R122, R123). -/
def giveUpStart (r : StartReq) (s : State) : State := reportUnfired r.cyl r.slot (.withdrawn .fuelcut) s

/-- Test 4 of R123 and the start: a PILOT or POST that finds the reserve below its cost is shed. -/
def serveStart (b : Bank) (r : StartReq) (s : State) : State :=
  if r.kind ≠ .main ∧ (s.bank b).reserve < s.plan.engine.cost r.kind then shedStart r .boost s
  else enterBoost b r s

/-- Tests 1 to 4 of R123, for a start from the waiting slot. -/
def serveWaiting (b : Bank) (r : StartReq) (s : State) : State :=
  if s.run.fuelcut then giveUpStart r s
  else if s.run.band = .critical then shedStart r .supply s
  else if 2 * s.plan.engine.maxSlipUs < elapsed r.committed s.timebase then shedStart r .collision s
  else serveStart b r s

/-- Put a start into a bank's waiting slot. -/
def holdStart (b : Bank) (r : StartReq) (s : State) : State :=
  s.withBank b { s.bank b with waiting := some r }

/-- A start request arrives at a bank: the run gates, then the driver state (R122). -/
def startArrives (b : Bank) (r : StartReq) (s : State) : State :=
  if s.run.fuelcut then giveUpStart r s
  else if s.run.band = .critical then shedStart r .supply s
  else if (s.bank b).drive.isIdle then serveStart b r s
  else
    match (s.bank b).waiting with
    | none => holdStart b r s
    | some w =>
      if w.kind ≠ .main ∧ r.kind = .main then shedStart w .collision (holdStart b r s)
      else shedStart r .collision s

/-- The end of DECAY: IDLE, and the waiting start served in the same event (R120). -/
def endDecay (b : Bank) (s : State) : State :=
  match (s.bank b).waiting with
  | none => s.withBank b { s.bank b with drive := .idle }
  | some r => serveWaiting b r (s.withBank b { s.bank b with drive := .idle, waiting := none })

end Sys2Proof.Machine
end

