-- ==== Sys2Proof/Machine/BankRows.lean ====
section
/-! DEFINITION. The banks' events: comparators, the phases of a pulse, and a recharge unit (R116 to R120,
R125, R127, R140, R141). -/

namespace Sys2Proof.Machine

/-! ## BOOST (R116) -/

/-- The bank leaves BOOST for HOLD; a unit held through BOOST is gained (R116, R125). -/
def enterHold (b : Bank) (p : Pulse) (s : State) : State :=
  settleRecharge b (s.withBank b { s.bank b with drive := .hold p })

/-- PEAK arrives at a bank: only a pulse in BOOST takes it (R116). -/
def peakArrives (b : Bank) (s : State) : State :=
  match (s.bank b).drive with
  | .boost p => enterHold b { p with peak := some s.timebase } s
  | _ => s

/-- PEAK (R116). -/
def execPeak (b : Bank) (s : State) : Result := take (peakArrives b) s

/-- Whether a bank in BOOST has reached its boost limit (R116). -/
def boostLimitDue (b : Bank) (s : State) : Bool :=
  match (s.bank b).drive with
  | .boost p => decide (p.boostLimit ≤ elapsed p.start s.timebase)
  | _ => false

/-- The boost limit expires: the NO_PEAK mark, and HOLD (R116). -/
def boostLimitExpires (b : Bank) (s : State) : State :=
  match (s.bank b).drive with
  | .boost p => enterHold b { p with noPeak := true } s
  | _ => s

/-- BOOST_LIMIT_EXPIRY (R116). -/
def execBoostLimitExpiry (b : Bank) (s : State) : Result := takeDue (boostLimitDue b) (boostLimitExpires b) s

/-! ## The CUR test (R127) -/

/-- Whether the moment of a pending CUR test is reached in BOOST or HOLD (R127). -/
def curTestDue (b : Bank) (s : State) : Bool :=
  match (s.bank b).drive.energized with
  | some p => decide (p.curTest = .pending) && decide (Config.curTestTicks ≤ elapsed p.start s.timebase)
  | none => false

/-- What CUR shows at the test. -/
def curShows (current : Bool) : CurTest := if current then .present else .absent

/-- Change the pulse a bank is energizing. -/
def Drive.mapEnergized (f : Pulse → Pulse) : Drive → Drive
  | .boost p => .boost (f p)
  | .hold p => .hold (f p)
  | .decay p ended idleAt => .decay p ended idleAt
  | .idle => .idle

/-- The bank records the CUR test (R127). -/
def recordCur (b : Bank) (current : Bool) (s : State) : State :=
  s.withBank b
    { s.bank b with
      drive := (s.bank b).drive.mapEnergized fun p => { p with curTest := curShows current } }

/-- CUR_TEST (R127). -/
def execCurTest (b : Bank) (current : Bool) (s : State) : Result :=
  takeDue (curTestDue b) (recordCur b current) s

/-! ## The end of a pulse (R117, R118, R120) -/

/-- Whether the end time of a bank's pulse is reached (R117). -/
def pulseEndDue (b : Bank) (s : State) : Bool :=
  match (s.bank b).drive.energized with
  | some p => decide (p.energize ≤ elapsed p.start s.timebase)
  | none => false

/-- PULSE_END (R117). -/
def execPulseEnd (b : Bank) (s : State) : Result := takeDue (pulseEndDue b) (endPulse b id true) s

/-- Whether a comparator report of a bank falls in the window of a running coil check on it (R140, log entry
19). -/
def inCoilWindow (b : Bank) (s : State) : Bool :=
  match s.diag.coil with
  | some x => decide (x.bank = b) && decide (elapsed x.start s.timebase ≤ Config.coilWindow)
  | none => false

/-- OVC arrives at a bank: it ends an energized pulse, or a coil check on the bank (R118, R140). -/
def overcurrentArrives (b : Bank) (s : State) : State :=
  match (s.bank b).drive.energized with
  | some _ => endPulse b Pulse.markOvc true s
  | none => if inCoilWindow b s then endCoilCheck .overcurrent none s else s

/-- OVC (R118, R140). -/
def execOvc (b : Bank) (s : State) : Result := take (overcurrentArrives b) s

/-- Whether the DECAY end time of a bank is reached (R120). -/
def decayEndDue (b : Bank) (s : State) : Bool :=
  match (s.bank b).drive with
  | .decay _ _ idleAt => reached idleAt s.timebase
  | _ => false

/-- DECAY_END (R120). -/
def execDecayEnd (b : Bank) (s : State) : Result := takeDue (decayEndDue b) (endDecay b) s

/-! ## Recharge (R125) -/

/-- RECHARGE_UNIT: the phase has reached the interval of the band, and the reserve gains a unit (R125). -/
def execRechargeUnit (b : Bank) (s : State) : Result :=
  takeDue (fun t => (t.bank b).unitDue t.run.band) (settleRecharge b) s

/-! ## The coil check (R140, R141) -/

/-- CUR reports current in the window of a coil check: the first report is its CUR time (R140). -/
def coilCurrent (b : Bank) (s : State) : State :=
  match s.diag.coil with
  | some x =>
    if inCoilWindow b s ∧ x.curTime = none then
      s.withDiag { s.diag with coil := some { x with curTime := some (elapsed x.start s.timebase) } }
    else s
  | none => s

/-- COIL_CUR_REPORT (R140). -/
def execCoilCurReport (b : Bank) (s : State) : Result := take (coilCurrent b) s

/-- Whether the window end of a running coil check is reached (R141). -/
def coilWindowDue (s : State) : Bool :=
  match s.diag.coil with
  | some x => decide (Config.coilWindow ≤ elapsed x.start s.timebase)
  | none => false

/-- The window of a coil check ends with the result its CUR time gives (R141). -/
def coilWindowEnds (s : State) : State :=
  match s.diag.coil with
  | some x => endCoilCheck (coilResultOf x.curTime) none s
  | none => s

/-- COIL_WINDOW_END (R141). -/
def execCoilWindowEnd (s : State) : Result := takeDue coilWindowDue coilWindowEnds s

end Sys2Proof.Machine
end

