-- ==== Sys2Proof/Machine/Plan.lean ====
section
/-! DEFINITION. The Plan Store's steps inside other events: the landing of a swap, the expiry count, the
quiet windows, the test cut and the derate pattern (R54, R55, R57 to R59, R62, R64). -/

namespace Sys2Proof.Machine

/-! ## Swapping pages (R53 to R55) -/

/-- The inactive page becomes active; the pending swap, the expiry count and stale are cleared. -/
def PlanStore.land (p : PlanStore) : PlanStore :=
  { p with active := p.active.other, swapPending := false, expiry := 0, stale := false }

/-- A swap lands with PLAN_SWAPPED, which carries the new active page's serial and the cylinder of the
arm event, none otherwise (R54, R55). -/
def landSwap (c : Option Cyl) (s : State) : State :=
  queueNotice (.planSwapped s.plan.land.activePage.serial c) (s.withPlan s.plan.land)

/-- Land a pending swap, if there is one. -/
def landIfPending (c : Option Cyl) (s : State) : State :=
  if s.plan.swapPending then landSwap c s else s

/-! ## Expiry (R57, R58) -/

/-- Set stale and send PLAN_STALE when the count equals the expiry value and stale is clear. -/
def staleTest (s : State) : State :=
  if s.plan.expiry = s.plan.engine.planExpiry ∧ s.plan.stale = false then
    queueNotice (.planStale s.plan.activePage.serial s.plan.engine.planExpiry)
      (s.withPlan { s.plan with stale := true })
  else s

/-- The expiry step of an arm event (R57). -/
def countExpiry (s : State) : State :=
  staleTest
    (if s.plan.expiry < s.plan.engine.planExpiry then
      s.withPlan { s.plan with expiry := s.plan.expiry + 1 }
    else s)

/-! ## Quiet windows (R59, R72) -/

/-- Whether a window holds a cycle angle: it holds its start and not its end (R59). -/
def QuietWindow.holds (w : QuietWindow) (angle : Nat) : Bool :=
  decide (forward w.start angle < forward w.start w.stop)

/-- Whether a bank set includes a bank. -/
def BankSet.includes : BankSet → Bank → Bool
  | .both, _ => true
  | .onlyA, .bankA => true
  | .onlyB, .bankB => true
  | _, _ => false

/-- Whether a window is tested and holds a start on a bank; an empty window holds none (R59, R72). -/
def QuietWindow.hits (w : QuietWindow) (b : Bank) (start : Nat) : Bool :=
  w.enabled && w.banks.includes b && w.holds start

/-- The quiet window test of a start: the start it leaves, the DEFERRED flag, and whether it passes. Each
hit moves the start to the window's end when the slot may defer; `moves` hits may move it, one more
suppresses it (R72). -/
def quietTest (ws : List QuietWindow) (b : Bank) (mayDefer : Bool) : Nat → Nat → Bool → Nat × Bool × Bool
  | moves, start, deferred =>
    match ws.find? (fun w => w.hits b start) with
    | none => (start, deferred, true)
    | some w =>
      match moves with
      | 0 => (start, deferred, false)
      | m + 1 => if mayDefer then quietTest ws b mayDefer m w.stop true else (start, deferred, false)

/-! ## Test cut and derate (R62, R64) -/

/-- The test cut after one cut cycle of its cylinder (R64). -/
def testCutAfter (c : Cyl) (remaining : Nat) : Option (Cyl × Nat) :=
  if remaining ≤ 1 then none else some (c, remaining - 1)

/-- The derate accumulator after one check (R62). -/
def derateAfter (p : PlanStore) : Nat :=
  if p.derateN ≤ p.derateAcc + p.derateK then p.derateAcc + p.derateK - p.derateN
  else p.derateAcc + p.derateK

/-- Whether the derate check holds (R62). -/
def derateHolds (p : PlanStore) : Bool := decide (p.derateN ≤ p.derateAcc + p.derateK)

end Sys2Proof.Machine
end

