-- ==== Sys2Proof/Machine/Firing.lean ====
section
/-! DEFINITION. The arm event, the firing of entries, and an edge handed to the Firing Queue (R66 to R76,
R95, R96, R98, R102 to R104). -/

namespace Sys2Proof.Machine

/-! ## The arm event (R66 to R70) -/

/-- The overrun of a cylinder's open context: its unstarted pulses are withdrawn with OVERRUN, its
energized pulse cut, and the context closes (R67, R111). -/
def overrun (c : Cyl) (s : State) : State :=
  match s.contexts.get c with
  | none => s
  | some _ =>
    closeTest c
      (cutPulseOf c .bankB
        (cutPulseOf c .bankA
          (updateSlots c (withdrawAllSlots .overrun) (dropPulses (fun d => d == c) s))))

/-- Cut checks 1 to 6 of R68, in order (the latch is read after the overrun step, log entry 28). -/
def standingCut (c : Cyl) (rpm : Nat) (s : State) : Option CutReason :=
  if s.run.fuelcut then some .fuelcut
  else if s.run.band = .critical then some .supplyCritical
  else if s.plan.engine.overspeed < rpm then some .overspeed
  else if (s.plan.cyls.get c).disabled then some .controllerDisabled
  else if s.diag.disabled.get c then some .faultDisabled
  else if s.plan.stale then some .stale
  else none

/-- The test cut names the cylinder of the arm event, with this remaining count (R64). -/
def testCutNames (c : Cyl) (s : State) : Option Nat :=
  match s.plan.testCut with
  | some (d, n) => if d = c then some n else none
  | none => none

/-- The record of a cut cycle (R69). -/
def cutRecord (c : Cyl) (armAngle : Nat) (r : CutReason) (s : State) : CycleRecord :=
  { cyl := c, serial := s.plan.activePage.serial, armAngle := armAngle, outcome := .cut r, results := [] }

/-- Write the record of a cut cycle (R69). -/
def cutCycle (c : Cyl) (armAngle : Nat) (r : CutReason) (s : State) : State :=
  writeRecord (cutRecord c armAngle r s) s

/-- A cycle cut by the test cut: the count falls, and TEST_CUT_DONE follows the record when it ends (R64). -/
def testCutCycle (c : Cyl) (armAngle remaining : Nat) (s : State) : State :=
  (fun t => if remaining ≤ 1 then queueNotice (.testCutDone c) t else t)
    (cutCycle c armAngle .testCut (s.withPlan { s.plan with testCut := testCutAfter c remaining }))

/-- A latched copy of a plan slot (R70). -/
def latchSlot (tdc : Nat) (num : Nat) (p : PlanSlot) : Slot :=
  { num := num, kind := p.kind,
    anchor := match p.anchor with
      | .angle rel => .angle (cycleAngle tdc rel)
      | .dwell us => .dwell (2 * us)
    energize := 2 * p.energizeUs, mayDefer := p.mayDefer, st := .latched, deferred := false,
    truncated := false }

/-- The latched copies of the non-empty slots of a list, numbered from `num` on (R70). -/
def latchSlots (tdc : Nat) : Nat → List (Option PlanSlot) → List Slot
  | _, [] => []
  | num, none :: xs => latchSlots tdc (num + 1) xs
  | num, some p :: xs => latchSlot tdc num p :: latchSlots tdc (num + 1) xs

/-- The context an arm event opens (R70). -/
def newContext (c : Cyl) (pl : Placement) (armAngle : Nat) (s : State) : CycleContext :=
  { cyl := c, serial := s.plan.activePage.serial, armAngle := armAngle,
    eoiAngle := (pl.tdc + (s.plan.cyls.get c).eoiLimit) % 7200, bank := pl.bank, output := pl.output,
    slots := latchSlots pl.tdc 1 (s.plan.activePage.lists.get c) }

/-- Open a context (R70). -/
def openContext (c : Cyl) (x : CycleContext) (s : State) : State :=
  s.withContexts (s.contexts.set c (some x))

/-! ## Shaping (R71 to R76, R100) -/

/-- A slot that fails a shaping test is resolved SUPPRESSED (R71 to R76). -/
def suppressSlot (c : Cyl) (n : Nat) (r : SuppressReason) (s : State) : State :=
  updateSlots c (resolveUnfired n (.suppressed r)) s

/-- Commit a new entry from the commit reference when its target lies in that window (R100). -/
def commitInserted (k : Key) (target : Nat) (s : State) : State :=
  match s.queue.commitRef with
  | some e => if forward e.angle target < e.span then commitKey e k s else s
  | none => s

/-- Insert an ANGLE slot that passed tests 1 to 4 as a WAITING PULSE entry (R75, R100). -/
def insertPulse (c : Cyl) (x : Slot) (start : Nat) (s : State) : State :=
  if pulsesFull s then suppressSlot c x.num .queueFull s
  else
    commitInserted (.pulse c x.num) start
      (insertEntry
        { key := .pulse c x.num, target := some start, pulse := some (x.kind, x.energize), commit := none }
        (updateSlots c (mapSlot x.num fun y => { y with st := .waiting }) s))

/-- Tests 2 to 5 of an ANGLE slot: quiet windows, end-of-injection limit, late start, insertion (R72 to
R75). -/
def shapeAngle (c : Cyl) (ctx : CycleContext) (current : Nat) (x : Slot) (start : Nat) (s : State) : State :=
  match quietTest s.plan.windows ctx.bank x.mayDefer 4 start false with
  | (start', deferred, passes) =>
    (fun t =>
      if !passes then suppressSlot c x.num .quiet t
      else if forward ctx.armAngle start' > forward ctx.armAngle ctx.eoiAngle then
        suppressSlot c x.num .limit t
      else if forward current start' > forward current ctx.eoiAngle then suppressSlot c x.num .late t
      else insertPulse c x start' t)
    (updateSlots c (mapSlot x.num fun y => { y with deferred := deferred }) s)

/-- The anchor test of a DWELL slot: PENDING, or ANCHOR_LOST when its anchor is resolved unstarted (R76). A
slot with no anchor has none to wait for (log entry 22). -/
def shapeDwell (c : Cyl) (anchor : Option Slot) (x : Slot) (s : State) : State :=
  match anchor with
  | none => suppressSlot c x.num .anchorLost s
  | some y =>
    if y.st.isResolved && !y.hasFired then suppressSlot c x.num .anchorLost s
    else updateSlots c (mapSlot x.num fun z => { z with st := .pending }) s

/-- Shape one latched slot (R71 to R76). -/
def shapeSlot (c : Cyl) (current : Nat) (n : Nat) (s : State) : State :=
  match s.contexts.get c with
  | none => s
  | some ctx =>
    match findSlot n ctx.slots with
    | none => s
    | some x =>
      if decide (x.kind ≠ .main) && mainOnly s then suppressSlot c n .limp s
      else
        match x.anchor with
        | .angle start => shapeAngle c ctx current x start s
        | .dwell _ => shapeDwell c (slotBefore n none ctx.slots) x s

/-- Shape the slots of a list of slot numbers, in its order. -/
def shapeSlots (c : Cyl) (current : Nat) : List Nat → State → State
  | [], s => s
  | n :: ns, s => shapeSlots c current ns (shapeSlot c current n s)

/-- Build a cycle: open the context, shape each slot in slot number order, make the close test (R66, steps
5 to 7). -/
def buildCycle (c : Cyl) (pl : Placement) (armAngle current : Nat) (s : State) : State :=
  closeTest c
    (shapeSlots c current ((newContext c pl armAngle s).slots.map Slot.num)
      (openContext c (newContext c pl armAngle s) s))

/-- The cut checks and what follows them (R66, steps 4 to 7). -/
def decideCycle (c : Cyl) (pl : Placement) (armAngle current rpm : Nat) (s : State) : State :=
  match standingCut c rpm s with
  | some r => cutCycle c armAngle r s
  | none =>
    match testCutNames c s with
    | some n => testCutCycle c armAngle n s
    | none =>
      (fun t =>
        if derateHolds s.plan then cutCycle c armAngle .derate t
        else buildCycle c pl armAngle current t)
        (s.withPlan { s.plan with derateAcc := derateAfter s.plan })

/-- The arm event of a cylinder (R66): the swap, the expiry, the overrun, the cut checks and the build. The
current angle and the speed are taken once, when the event is taken. An ARM entry exists for a defined
cylinder alone. -/
def armEvent (c : Cyl) (armAngle : Nat) (s : State) : State :=
  match (s.plan.cyls.get c).place with
  | none => s
  | some pl =>
    decideCycle c pl armAngle ((interpolated s.tracker s.timebase).getD armAngle) (speed s.tracker)
      (overrun c (countExpiry (landIfPending (some c) s)))

/-! ## Firing (R95, R96, R102 to R104) -/

/-- The outputs of a MARK entry, by the mark's flags at the firing (R103). -/
def markOutputs (i : MarkIx) (s : State) : State :=
  match s.plan.marks[i.val]? with
  | none => s
  | some m =>
    (fun t =>
      if m.strobe then
        t.withQueue { t.queue with strobeUntil := some (later t.timebase Config.strobeTicks) }
      else t)
    (if m.notice then
      queueNotice (.mark i.val (interpolated s.tracker s.timebase) (speed s.tracker)) s
    else s)

/-- A fired MARK entry: put back WAITING at the same angle, and its outputs (R96, R103). -/
def fireMark (i : MarkIx) (e : Entry) (s : State) : State :=
  markOutputs i (insertEntry { e with commit := none } s)

/-- The start request of a fired PULSE entry (R104). -/
def startRequest (c : Cyl) (n : Nat) (kind : PulseKind) (energize : Nat) (committed : Tick)
    (x : CycleContext) : StartReq :=
  { cyl := c, slot := n, kind := kind, output := x.output, bank := x.bank, committed := committed,
    energize := energize }

/-- A fired PULSE entry hands its start request to the bank of its cylinder (R104). -/
def firePulse (c : Cyl) (n : Nat) (e : Entry) (s : State) : State :=
  match s.contexts.get c, e.pulse, e.commit with
  | some x, some q, some k => startArrives x.bank (startRequest c n q.1 q.2 k.time x) s
  | _, _, _ => s

/-- A fired ARM entry: put back with its target formed again, and the arm event (R66, R95). -/
def fireArm (c : Cyl) (e : Entry) (s : State) : State :=
  armEvent c (e.target.getD 0) (insertArm c s)

/-- One entry fires: it leaves the queue, and its kind decides what its firing does (R102). -/
def fireEntry (e : Entry) (s : State) : State :=
  match e.key with
  | .arm c => fireArm c e (removeKey e.key s)
  | .mark i => fireMark i e (removeKey e.key s)
  | .pulse c n => firePulse c n e (removeKey e.key s)

/-- The first due entry of a cylinder's PULSE entries, in queue order. -/
def firstDuePulse (c : Cyl) (s : State) : Option Entry :=
  (queueOrder s).find? fun e => e.due s.timebase && e.pulseIn (fun d => d == c)

/-- The entries an arm event inserted with their times reached fire when it ends (R100, R102). A cycle has
at most five slots. -/
def fireInserted (c : Cyl) : Nat → State → State
  | 0, s => s
  | n + 1, s =>
    match firstDuePulse c s with
    | some e => fireInserted c n (fireEntry e s)
    | none => s

/-- The first due entry fires, whole; after an arm event, the entries it inserted as reached, before any other due
entry (R102, log entry 32). -/
def fireFirst (s : State) : State :=
  match firstDue s with
  | none => s
  | some e =>
    match e.key with
    | .arm c => fireInserted c 5 (fireEntry e s)
    | _ => fireEntry e s

/-- The due entries fire one after another in queue order, at most `n` of them (R98, R102). -/
def fireDue : Nat → State → State
  | 0, s => s
  | n + 1, s =>
    match firstDue s with
    | none => s
    | some _ => fireDue n (fireFirst s)

/-! ## An edge handed on (R98) -/

/-- The queue takes an edge handed on: pending marks, catch-up, commit window, commit reference, and the
firing of the entries whose times are reached. At most 38 entries wait and each of six arm events adds at
most five, so 68 firings empty the due entries (log entry 25). -/
def handEdge (e : EdgeRef) (s : State) : State :=
  fireDue 68 (setCommitRef e (takeWindow e (catchUp e (insertPendingMarks s))))

/-- The tracker hands its last accepted edge on (R7, R25). -/
def handOn (s : State) : State :=
  match carrier s.tracker with
  | some e => handEdge e s
  | none => s

end Sys2Proof.Machine
end

