-- ==== Sys2Proof/Machine/FiringRows.lean ====
section
/-! DEFINITION. The Firing Queue's events: the firing of an entry and the end of a strobe (R102, R103). -/

namespace Sys2Proof.Machine

/-- FIRE: the first entry in queue order whose committed time is reached fires (R102). -/
def execFire (s : State) : Result := takeDue (fun t => (firstDue t).isSome) fireFirst s

/-- Whether the strobe end time is reached (R103). -/
def strobeDue (s : State) : Bool :=
  match s.queue.strobeUntil with
  | some t => reached t s.timebase
  | none => false

/-- STROBE returns low (R103). -/
def endStrobe (s : State) : State := s.withQueue { s.queue with strobeUntil := none }

/-- STROBE_END (R103). -/
def execStrobeEnd (s : State) : Result := takeDue strobeDue endStrobe s

end Sys2Proof.Machine
end

