-- ==== Sys2Proof/Machine/Operands.lean ====
section
/-! DEFINITION. The operands of the requests: the fields of a payload, their ranges and their clamping
(R45, R47, R50, R172, R173, R176, R177). -/

namespace Sys2Proof.Machine

/-! ## Fields (R173) -/

/-- The byte at an offset. -/
def byteAt (p : List Byte) (i : Nat) : Nat := (p.getD i 0).toNat

/-- The big-endian 16-bit field at an offset. -/
def wordAt (p : List Byte) (i : Nat) : Nat := 256 * byteAt p i + byteAt p (i + 1)

/-- The signed 16-bit field at an offset. -/
def signedAt (p : List Byte) (i : Nat) : Int :=
  if wordAt p i < 32768 then (wordAt p i : Int) else (wordAt p i : Int) - 65536

/-- An on/off or yes/no byte takes 0 or 1. -/
def isFlag (n : Nat) : Bool := n ≤ 1

/-- The page of a page byte. -/
def pageOf : Nat → Option PageIx
  | 0 => some .p0
  | 1 => some .p1
  | _ => none

/-- The bank of a bank byte (R185). -/
def bankOf : Nat → Option Bank
  | 0 => some .bankA
  | 1 => some .bankB
  | _ => none

/-- The output of an output byte, 1..6 (R176). -/
def outputOf : Nat → Option Output
  | 1 => some 0
  | 2 => some 1
  | 3 => some 2
  | 4 => some 3
  | 5 => some 4
  | 6 => some 5
  | _ => none

/-- The bank set of a bank set byte (R185). -/
def bankSetOf : Nat → Option BankSet
  | 1 => some .onlyA
  | 2 => some .onlyB
  | 3 => some .both
  | _ => none

/-- The pulse kind of a kind byte (R185). -/
def kindOf : Nat → Option PulseKind
  | 1 => some .pilot
  | 2 => some .main
  | 3 => some .post
  | _ => none

/-! ## Lengths (R172) -/

/-- The request kinds by code (request catalogue). -/
def fixedLength : Nat → Nat
  | 0x04 => 25
  | 0x06 => 9
  | 0x07 => 1
  | 0x09 => 2
  | 0x0B => 2
  | 0x0D => 7
  | 0x0E => 6
  | 0x0F => 2
  | 0x10 => 2
  | 0x11 => 2
  | 0x15 => 1
  | 0x16 => 1
  | 0x18 => 1
  | _ => 0

/-- Whether a request kind allows a payload's length. SET_PULSES (0x08) takes 3 + 7 × count bytes, count
its third byte; every other kind takes one length. -/
def lengthAllowed (kind : Nat) (p : List Byte) : Bool :=
  if kind = 0x08 then decide (3 ≤ p.length) && decide (p.length = 3 + 7 * byteAt p 2)
  else decide (p.length = fixedLength kind)

/-! ## The engine-wide record (R45, R176) -/

/-- Check 1 of R45: the HALT-only fields in range and the on/off fields 0 or 1. -/
def engineInRange (p : List Byte) : Bool :=
  decide (wordAt p 0 ≤ 3599) && decide (wordAt p 2 ≤ 7199)
    && (decide (600 ≤ wordAt p 4) && decide (wordAt p 4 ≤ 3600))
    && isFlag (byteAt p 11) && isFlag (byteAt p 12)

/-- The record a payload carries, with every any-time numeric field clamped (check 3 of R45). -/
def engineOf (p : List Byte) : EngineRec :=
  { gapOffset := wordAt p 0
    camSync := wordAt p 2
    armingLead := wordAt p 4
    camTolerance := clampTo 10 300 (wordAt p 6)
    gapConfirm := clampTo 1 4 (byteAt p 8)
    stallMs := clampTo 100 1000 (wordAt p 9)
    accelComp := byteAt p 11 == 1
    camLimp := byteAt p 12 == 1
    overspeed := clampTo 1500 4000 (wordAt p 13)
    planExpiry := clampTo 6 384 (wordAt p 15)
    pilotCost := clampTo 1 100 (byteAt p 17)
    mainCost := clampTo 1 100 (byteAt p 18)
    postCost := clampTo 1 100 (byteAt p 19)
    maxBoostUs := clampTo 50 400 (wordAt p 20)
    maxSlipUs := clampTo 0 500 (wordAt p 22)
    faultThreshold := clampTo 16 255 (byteAt p 24) }

/-- Whether two records agree in the HALT-only fields (check 2 of R45). -/
def EngineRec.samePlacement (x y : EngineRec) : Bool :=
  x.gapOffset == y.gapOffset && x.camSync == y.camSync && x.armingLead == y.armingLead

/-! ## A cylinder record (R47, R176) -/

/-- The placement a SET_CYLINDER payload carries: absent with defined = no, and `none` when a field that
is read lies outside its range. -/
def placementOf (p : List Byte) : Option (Option Placement) :=
  if byteAt p 1 = 0 then some none
  else if byteAt p 1 = 1 then
    match bankOf (byteAt p 4), outputOf (byteAt p 5) with
    | some b, some o =>
      if wordAt p 2 ≤ 7199 then some (some { tdc := wordAt p 2, bank := b, output := o }) else none
    | _, _ => none
  else none

/-- Whether a placement shares its output or its TDC with another defined cylinder (R47). -/
def placementTaken (cyls : PerCyl CylRec) (c : Cyl) (pl : Placement) : Bool :=
  Cyl.all.any fun d =>
    d != c &&
      match (cyls.get d).place with
      | some q => q.output == pl.output || q.tdc == pl.tdc
      | none => false

/-! ## A pulse list (R50, R177) -/

/-- The position at an offset: empty when its energizing time is 0, `none` inside when a field lies
outside its enumeration or range, may-defer among them (log entry 15); the values clamped. -/
def positionOf (p : List Byte) (i : Nat) : Option (Option PlanSlot) :=
  if wordAt p i = 0 then some none
  else
    match kindOf (byteAt p (i + 2)) with
    | none => none
    | some k =>
      if isFlag (byteAt p (i + 6)) then
        if byteAt p (i + 3) = 0 then
          if -1800 ≤ signedAt p (i + 4) ∧ signedAt p (i + 4) ≤ 1799 then
            some (some { kind := k, anchor := .angle (signedAt p (i + 4)),
                         energizeUs := clampTo 60 5000 (wordAt p i), mayDefer := byteAt p (i + 6) == 1 })
          else none
        else if byteAt p (i + 3) = 1 then
          some (some { kind := k, anchor := .dwell (clampTo 50 5000 (wordAt p (i + 4))),
                       energizeUs := clampTo 60 5000 (wordAt p i), mayDefer := false })
        else none
      else none

/-- `n` positions from an offset on; `none` if one of them is refused. -/
def positionsOf (p : List Byte) : Nat → Nat → Option (List (Option PlanSlot))
  | 0, _ => some []
  | n + 1, i =>
    match positionOf p i, positionsOf p n (i + 7) with
    | some x, some xs => some (x :: xs)
    | _, _ => none

/-- The relative starts of the ANGLE slots of a list, in position order. -/
def angleStarts : List (Option PlanSlot) → List Int
  | [] => []
  | some { kind := _, anchor := .angle r, energizeUs := _, mayDefer := _ } :: xs => r :: angleStarts xs
  | _ :: xs => angleStarts xs

/-- Whether each number is greater than every earlier one. -/
def rising : List Int → Bool
  | [] => true
  | x :: xs => xs.all (fun y => decide (x < y)) && rising xs

/-- Whether the first non-empty slot of a list is placed by dwell. -/
def dwellFirst : List (Option PlanSlot) → Bool
  | [] => false
  | none :: xs => dwellFirst xs
  | some x :: _ =>
    match x.anchor with
    | .dwell _ => true
    | .angle _ => false

/-- The number of MAIN slots of a list. -/
def mainCount (xs : List (Option PlanSlot)) : Nat :=
  xs.countP fun x => match x with | some y => y.kind == .main | none => false

/-- The list checks of R50, check 4: at most one MAIN, no DWELL in the first non-empty slot, and the
ANGLE starts rising. -/
def listSound (xs : List (Option PlanSlot)) : Bool :=
  decide (mainCount xs ≤ 1) && !dwellFirst xs && rising (angleStarts xs)

/-- Fill a list up to five positions with empty ones (R50). -/
def padList (xs : List (Option PlanSlot)) : List (Option PlanSlot) :=
  (xs ++ emptyList).take 5

/-- The list a SET_PULSES payload carries, checked and clamped; `none` is BAD_VALUE (R50, check 4). -/
def pulseListOf (p : List Byte) : Option (List (Option PlanSlot)) :=
  if byteAt p 2 ≤ 5 then
    match positionsOf p (byteAt p 2) 3 with
    | some xs => if listSound xs then some (padList xs) else none
    | none => none
  else none

/-! ## Windows and marks (R59, R60) -/

/-- The window a SET_WINDOW payload carries, with its index. -/
def windowOf (p : List Byte) : Option (Nat × QuietWindow) :=
  match bankSetOf (byteAt p 5) with
  | none => none
  | some set =>
    if byteAt p 0 ≤ 3 ∧ wordAt p 1 ≤ 7199 ∧ wordAt p 3 ≤ 7199 ∧ isFlag (byteAt p 6) then
      some (byteAt p 0, { start := wordAt p 1, stop := wordAt p 3, banks := set, enabled := byteAt p 6 == 1 })
    else none

/-- The mark a SET_MARK payload carries, with its index. -/
def markOf (p : List Byte) : Option (MarkIx × AngleMark) :=
  if h : byteAt p 0 < 8 then
    if wordAt p 1 ≤ 7199 ∧ isFlag (byteAt p 3) ∧ isFlag (byteAt p 4) ∧ isFlag (byteAt p 5) then
      some (⟨byteAt p 0, h⟩,
        { angle := wordAt p 1, enabled := byteAt p 3 == 1, notice := byteAt p 4 == 1,
          strobe := byteAt p 5 == 1 })
    else none
  else none

/-- The bytes of a window as stored, in request order (R59). -/
def windowBytes (i : Nat) (w : QuietWindow) : List Byte :=
  [byte i] ++ be16 w.start ++ be16 w.stop ++ [byte w.banks.code, byte (bit w.enabled)]

/-- The bytes of a mark as stored, in request order (R60). -/
def markBytes (i : MarkIx) (m : AngleMark) : List Byte :=
  [byte i.val] ++ be16 m.angle ++ [byte (bit m.enabled), byte (bit m.notice), byte (bit m.strobe)]

end Sys2Proof.Machine
end

