-- ==== Sys2Proof/WellFormed.lean ====
section
/-! DEFINITION. Which commands can occur on the part's lines: the checks on a command's operands. -/

namespace Sys2Proof

/-- The payload of a frame is 0..60 bytes (R162). -/
def payloadFits (payload : List Byte) : Bool :=
  payload.length ≤ Config.payloadMax

/-- A VBAT sample is 0.00..40.00 V in steps of 0.05 V (R154). -/
def sampleFits (vbat : Nat) : Bool :=
  vbat ≤ Config.sampleMax

/-- A crystal count is held in 16 bits (R158). -/
def countFits (count : Nat) : Bool :=
  count ≤ Config.monitorMax

/-- The kind codes 0x01..0x18 are the requests (R182). -/
def isRequestKind (kind : Byte) : Bool :=
  1 ≤ kind.toNat && kind.toNat ≤ 0x18

/-- A command whose operands the part's lines can carry. -/
def Instr.wellFormed : Instr → Bool
  | .powerOnReset _ _ feed => sampleFits feed.vbat
  | .pinResetAssert => true
  | .pinResetRelease _ feed => sampleFits feed.vbat
  | .crankEdge => true
  | .camEdge => true
  | .crankDeadline => true
  | .camDeadline => true
  | .stallTimeout => true
  | .fire => true
  | .strobeEnd => true
  | .peak _ => true
  | .boostLimitExpiry _ => true
  | .curTest _ _ => true
  | .pulseEnd _ => true
  | .ovc _ => true
  | .decayEnd _ => true
  | .rechargeUnit _ => true
  | .drainTimerExpiry => true
  | .coilCurReport _ => true
  | .coilWindowEnd => true
  | .fuelcutLineChange _ => true
  | .fuelcutAssertion => true
  | .fuelcutRelease => true
  | .vbatSample vbat => sampleFits vbat
  | .monitorWindowEnd count => countFits count
  | .byteReceived _ _ => true
  | .interByteDeadline => true
  | .frameSent => true
  | .unknownKind kind _ payload => !isRequestKind kind && payloadFits payload
  | .identify _ payload => payloadFits payload
  | .getStatus _ payload => payloadFits payload
  | .getTracker _ payload => payloadFits payload
  | .setEngine _ payload => payloadFits payload
  | .getEngine _ payload => payloadFits payload
  | .setCylinder _ payload => payloadFits payload
  | .getCylinder _ payload => payloadFits payload
  | .setPulses _ payload => payloadFits payload
  | .getPulses _ payload => payloadFits payload
  | .copyPage _ payload => payloadFits payload
  | .swapPlan _ payload => payloadFits payload
  | .refreshPlan _ payload => payloadFits payload
  | .setWindow _ payload => payloadFits payload
  | .setMark _ payload => payloadFits payload
  | .setDerate _ payload => payloadFits payload
  | .testCut _ payload => payloadFits payload
  | .setNotices _ payload => payloadFits payload
  | .start _ payload => payloadFits payload
  | .stop _ payload => payloadFits payload
  | .resetRun _ payload => payloadFits payload
  | .getCycle _ payload => payloadFits payload
  | .clearFault _ payload => payloadFits payload
  | .clearLatch _ payload => payloadFits payload
  | .coilCheck _ payload => payloadFits payload

end Sys2Proof
end

