-- ==== Sys2Proof/Machine/LinkRows.lean ====
section
/-! DEFINITION. The link's events: received bytes, the inter-byte deadline, the end of a sent frame, and
the acceptance and serving of a request (R163 to R166, R171, R172). -/

namespace Sys2Proof.Machine

/-! ## Receiving (R163, R164) -/

/-- The framer returns to HUNT with no deadline. -/
def Link.hunt (l : Link) : Link := { l with framer := .hunt, byteDeadline := none }

/-- The frame in progress is discarded and counted (R163). -/
def Link.discard (l : Link) : Link := l.hunt.countError

/-- The framer takes a step within a frame. -/
def Link.toFramer (l : Link) (x : Framer) : Link := { l with framer := x }

/-- The framer's state once a frame's payload is whole or not yet so. -/
def afterPayload (len : Nat) (kind tag : Byte) (got : List Byte) : Framer :=
  if got.length < len then .payload len kind tag got else .crcHigh kind tag got

/-- The check of a whole frame by its CRC: a good frame is accepted, a bad one discarded (R164). -/
def Link.check (l : Link) (f : Frame) (high low : Byte) : Link :=
  if (crc16 f.covered) = (high ++ low : BitVec 16) then l.hunt.accept f else l.discard

/-- A sound byte by the framer's state (R163). -/
def Link.takeByte (l : Link) (x : Byte) : Link :=
  match l.framer with
  | .hunt => if x = 0xA5 then l.toFramer .length else l
  | .length => if x.toNat ≤ Config.payloadMax then l.toFramer (.kind x.toNat) else l.discard
  | .kind len => l.toFramer (.tag len x)
  | .tag len kind => l.toFramer (afterPayload len kind x [])
  | .payload len kind tag got => l.toFramer (afterPayload len kind tag (got ++ [x]))
  | .crcHigh kind tag got => l.toFramer (.crcLow kind tag got x)
  | .crcLow kind tag got high => l.check { kind := kind, tag := tag, payload := got } high x

/-- Whether the framer stands in HUNT. -/
def Link.inHunt (l : Link) : Bool := decide (l.framer = .hunt)

/-- The inter-byte deadline after a byte: set at each byte taken in a state other than HUNT, absent in HUNT
(R163, log entry 12). -/
def Link.setDeadline (l : Link) (wasHunt : Bool) (now : Tick) : Link :=
  if l.inHunt then { l with byteDeadline := none }
  else if wasHunt then l
  else { l with byteDeadline := some (later now Config.byteDeadline) }

/-- A byte arrives, with or without a framing error (R161, R163). -/
def Link.byteArrives (l : Link) (x : Byte) (framingError : Bool) (now : Tick) : Link :=
  if framingError then (if l.inHunt then l else l.discard)
  else (l.takeByte x).setDeadline l.inHunt now

/-- BYTE_RECEIVED (R163). -/
def execByteReceived (x : Byte) (framingError : Bool) (s : State) : Result :=
  takeHeard (fun t => t.withLink (t.link.byteArrives x framingError t.timebase)) s

/-- Whether the inter-byte deadline has passed (R163). -/
def byteDeadlineDue (s : State) : Bool :=
  match s.link.byteDeadline with
  | some t => reached t s.timebase
  | none => false

/-- INTER_BYTE_DEADLINE: the frame in progress is discarded (R163). -/
def execInterByteDeadline (s : State) : Result :=
  takeDue byteDeadlineDue (fun t => t.withLink t.link.discard) s

/-! ## Transmitting (R166) -/

/-- Whether the frame being sent has ended (R161, R166, log entry 9). -/
def frameSentDue (s : State) : Bool :=
  match s.link.sending with
  | some x => reached x.doneAt s.timebase
  | none => false

/-- The transmitter ends its frame and takes the next (R166). -/
def endFrame (s : State) : State := s.withLink ({ s.link with sending := none }.takeFrame s.timebase)

/-- FRAME_SENT (R166). -/
def execFrameSent (s : State) : Result := takeDue frameSentDue endFrame s

/-! ## Serving (R165) -/

/-- What an owner block does with a request: its answer, and the state it leaves. -/
abbrev Owner : Type := List Byte → State → Answer × State

/-- Serve a request of a request kind: the length check, the owner, the reply (R165, steps 3 to 5). -/
def serve (kind : Nat) (owner : Owner) (tag : Byte) (p : List Byte) (s : State) : State :=
  if lengthAllowed kind p then pushReply (byte kind) tag (owner p s).1 (owner p s).2
  else pushReply (byte kind) tag (.refused .badLength) s

/-- Refuse a frame whose kind names no request (R165, step 2). -/
def refuseKind (kind tag : Byte) (s : State) : State := pushReply kind tag (.refused .unknownKind) s

/-- Whether a request that arrives now is served now: none waits before it and the reply queue has room
(R165). -/
def servesNow (l : Link) : Bool := l.inbound.isEmpty && decide (l.replies.length < Config.requestQueue)

/-- A whole request frame arrives. One that the link can serve is served; otherwise it waits in the inbound
queue or finds it full (R164, R165). A payload above 60 bytes makes no frame: it is discarded (R163, log
entry 8). -/
def arrive (f : Frame) (served : State → State) (s : State) : State :=
  if Config.payloadMax < f.payload.length then s.withLink s.link.countError
  else if servesNow s.link then served s
  else s.withLink (s.link.accept f)

/-- A request row: the frame of its kind arrives. -/
def request (kind : Nat) (owner : Owner) (tag : Byte) (p : List Byte) (s : State) : Result :=
  takeHeard (arrive { kind := byte kind, tag := tag, payload := p } (serve kind owner tag p)) s

/-- UNKNOWN_KIND: a frame whose kind code names no request (R165). A request kind's code is no such frame
(log entry 6). -/
def execUnknownKind (kind tag : Byte) (p : List Byte) (s : State) : Result :=
  takeHeard
    (fun t =>
      if isRequestKind kind then t
      else arrive { kind := kind, tag := tag, payload := p } (refuseKind kind tag) t) s

end Sys2Proof.Machine
end

