-- ==== Sys2Proof/Machine/LinkRequests.lean ====
section
/-! DEFINITION. The requests of the link controller and the Angle Tracker: identity, status, the tracker
report, the notice enable set and the latches (R30, R174, R175, R178, R179, R184). -/

namespace Sys2Proof.Machine

/-- IDENTIFY: vendor, part, revision, wheel pattern and clock state (R174). -/
def answerIdentify : Owner := fun _ s =>
  (.ack
    (be16 Config.vendorCode ++ be16 Config.partCode
      ++ [byte Config.revision, byte (wheelCode s.tracker.wheel), byte s.run.clock.code]), s)

/-- IDENTIFY (R174). -/
def execIdentify (tag : Byte) (p : List Byte) (s : State) : Result := request 0x01 answerIdentify tag p s

/-- The status report after its kind byte (R184). -/
def statusBytes (s : State) : List Byte :=
  [byte s.run.mode.code, byte s.tracker.sync.code] ++ be16 (speed s.tracker)
    ++ be16OrAbsent (interpolated s.tracker s.timebase)
    ++ [byte s.run.band.code, byte s.run.clock.code, byte (bit s.run.fuelcut), byte s.plan.active.code]
    ++ be16 s.plan.activePage.serial ++ [byte (planFlags s.plan)] ++ be16 s.plan.expiry
    ++ [byte (disabledFlags s.diag.disabled), byte (latchFlags s.tracker), byte s.link.frameErrors,
        byte s.link.lost]

/-- GET_STATUS: the report, and then the lost notice count is 0 (R168, R175). -/
def answerGetStatus : Owner := fun _ s => (.ack (statusBytes s), s.withLink { s.link with lost := 0 })

/-- GET_STATUS (R175). -/
def execGetStatus (tag : Byte) (p : List Byte) (s : State) : Result := request 0x02 answerGetStatus tag p s

/-- The period of a place in a history, 0 where it holds none (R30). -/
def periodAt (hist : List Nat) (i : Nat) : Nat := hist.getD i 0

/-- The tracker report (R30). -/
def trackerBytes (s : State) : List Byte :=
  [byte s.tracker.sync.code] ++ be16 (speed s.tracker)
    ++ be16OrAbsent (interpolated s.tracker s.timebase)
    ++ [0, 1, 2, 3].flatMap (fun i => be32 (periodAt (histInUse s.tracker) i))
    ++ [byte s.tracker.gapCount, byte (latchFlags s.tracker), byte s.tracker.spurious]

/-- GET_TRACKER: the report, and then the spurious edge count is 0 (R30). -/
def answerGetTracker : Owner := fun _ s =>
  (.ack (trackerBytes s), s.withTracker { s.tracker with spurious := 0 })

/-- GET_TRACKER (R30). -/
def execGetTracker (tag : Byte) (p : List Byte) (s : State) : Result := request 0x03 answerGetTracker tag p s

/-- SET_NOTICES: the carried set replaces the stored one; bits 14 and 15 must be 0 (R167, R178). -/
def answerSetNotices : Owner := fun p s =>
  if wordAt p 0 < 0x4000 then
    (.ack (be16 (wordAt p 0)), s.withLink { s.link with enable := BitVec.ofNat 16 (wordAt p 0) })
  else (.refused .badValue, s)

/-- SET_NOTICES (R178). -/
def execSetNotices (tag : Byte) (p : List Byte) (s : State) : Result := request 0x11 answerSetNotices tag p s

/-- CLEAR_LATCH: both latches are cleared and reported as they stood (R29, R179). -/
def answerClearLatch : Owner := fun _ s =>
  (.ack [byte (latchFlags s.tracker)],
    s.withTracker { s.tracker with crankFault := false, camFault := false })

/-- CLEAR_LATCH (R179). -/
def execClearLatch (tag : Byte) (p : List Byte) (s : State) : Result := request 0x17 answerClearLatch tag p s

end Sys2Proof.Machine
end

