-- ==== Sys2Proof/Machine/Tracker.lean ====
section
/-! DEFINITION. The Angle Tracker: its changes of sync state, crank edges, cam edges and deadlines (R2 to
R29). -/

namespace Sys2Proof.Machine

/-- Replace the cam tooth history. -/
def Tracker.withCam (t : Tracker) (x : CamHistory) : Tracker := { t with cam := x }

/-! ## Changes of the sync state (R20 to R23) -/

/-- What the Firing Queue and the Plan Store are told of a move: a sync gain, a sync loss with the landing
of a pending swap, or a change of the sensor that carries the angle (R21, R22, R23, R55). At a sync loss that both closes
contexts and lands a swap, no rule orders the CYCLE_DONE notices of the closes, nor a STOP_DONE after them, against
PLAN_SWAPPED (R55, R85, R108): the model's choice is the withdrawal first (log entry 13). -/
def tellMove (old new : Sync) (s : State) : State :=
  if old.holdsAngle then
    if new.holdsAngle then
      (if old = .fullSync ∧ new = .camLimp then queueToCam s
       else if old = .camLimp ∧ new = .fullSync then queueToCrank s
       else s)
    else landIfPending none (queueLoss s)
  else if new.holdsAngle then queueGain s
  else s

/-- A sync loss empties the cam period history (R22). -/
def Tracker.lose (old new : Sync) (t : Tracker) : Tracker :=
  if old.holdsAngle && !new.holdsAngle then t.withCam { t.cam with hist := [], tp := none } else t

/-- The tracker changes its sync state: SYNC_CHANGE with its cause, then what follows elsewhere (R20, log
entry 13). -/
def moveTo (new : Sync) (cause : SyncCause) (s : State) : State :=
  tellMove s.tracker.sync new
    (queueNotice (.syncChange s.tracker.sync new cause)
      (s.withTracker { s.tracker.lose s.tracker.sync new with sync := new }))

/-- The cam fault latch is set, with CAM_FAULT if it was clear (R11, R17, R26, R29). -/
def setCamFault (cause : CamFaultCause) (s : State) : State :=
  (fun t => if s.tracker.camFault then t else queueNotice (.camFault cause) t)
    (s.withTracker { s.tracker with camFault := true })

/-! ## Crank edges: measuring, filtering and classifying (R2 to R4) -/

/-- The classes of an accepted crank edge with an interval (R4). -/
inductive CrankClass where
  | pitch
  | gap
  | long
  deriving DecidableEq, Repr

/-- Whether the spurious edge filter rejects a crank edge with this interval (R3, R32). -/
def crankSpurious (t : Tracker) (i : Nat) : Bool :=
  match t.crankTp with
  | some tp => decide (4 * i < tp)
  | none => false

/-- The class of an accepted crank edge (R4). -/
def crankClass (hist : List Nat) (i : Nat) : CrankClass :=
  match hist with
  | [] => .pitch
  | t1 :: _ =>
    if 10 * i < 22 * t1 then .pitch else if 10 * i ≤ 38 * t1 then .gap else .long

/-- The crank period history after an edge of a class (R4, R31). -/
def crankPushed (k : CrankClass) (i : Nat) (hist : List Nat) : List Nat :=
  match k with
  | .pitch => pushPeriod i hist
  | .gap => pushPeriod (roundDiv i 3) hist
  | .long => []

/-- The tracker with an edge's interval taken into the crank history, Tp formed afresh, and the edge the
previous one (R4, R18, R32). -/
def Tracker.measure (t : Tracker) (accel : Bool) (k : CrankClass) (i : Nat) (now : Tick) : Tracker :=
  { t with
    crankHist := crankPushed k i t.crankHist
    crankTp := formTp accel (crankPushed k i t.crankHist)
    prevCrank := some now
    stallRef := some now }

/-- The gap search of R5. -/
def Tracker.gapSearch (t : Tracker) (k : CrankClass) : Tracker :=
  match k with
  | .gap =>
    if !t.refGap then { t with refGap := true, tooth := 0, gapCount := 1 }
    else if t.tooth = lastTooth t.wheel then { t with tooth := 0, gapCount := satAdd 4 t.gapCount 1 }
    else { t with tooth := 0, gapCount := 0 }
  | .pitch =>
    if !t.refGap then t
    else if t.tooth = lastTooth t.wheel then { t with refGap := false, gapCount := 0 }
    else { t with tooth := t.tooth + 1 }
  | .long => { t with refGap := false, gapCount := 0 }

/-- Whether an edge confirms the gap: a gap edge that leaves the count at G or above (R13, R27). -/
def Tracker.confirms (t : Tracker) (g : Nat) (k : CrankClass) : Bool :=
  decide (k = .gap) && decide (g ≤ t.gapCount)

/-- The within-revolution angle of the last accepted crank edge (R6). -/
def withinAngle (gapOffset : Nat) (t : Tracker) : Nat :=
  (gapOffset + t.tooth * pitchSteps t.wheel) % 3600

/-- The cycle angle of the last accepted crank edge in a revolution half (R6). -/
def crankCycleAngle (gapOffset : Nat) (t : Tracker) (half : Bool) : Nat :=
  (gapOffset + t.tooth * pitchSteps t.wheel + halfOffset (some half)) % 7200

/-! ## Crank edges by sync state -/

/-- An accepted crank edge in SEEKING (R13). -/
def crankSeeking (k : CrankClass) (s : State) : State :=
  if (s.tracker.gapSearch k).confirms s.plan.engine.gapConfirm k then
    moveTo .halfSync .gapConfirmed
      (s.withTracker
        (((s.tracker.gapSearch k).withCam { s.tracker.cam with revsNoExtra := 0 }) |> fun t =>
          { t with tooth := 0, half := none, edgeAngle := some (s.plan.engine.gapOffset % 3600) }))
  else s.withTracker (s.tracker.gapSearch k)

/-- Whether an accepted crank edge is a gap error in HALF_SYNC or FULL_SYNC (R15). -/
def gapError (k : CrankClass) (t : Tracker) : Bool :=
  match k with
  | .pitch => decide (t.tooth = lastTooth t.wheel)
  | .gap => decide (t.tooth ≠ lastTooth t.wheel)
  | .long => true

/-- The tracker's counting state after a gap error: a gap becomes the reference, any other edge drops it
(R15). -/
def Tracker.afterGapError (t : Tracker) (k : CrankClass) : Tracker :=
  { t with
    refGap := decide (k = .gap)
    tooth := if k = .gap then 0 else t.tooth
    gapCount := 0
    half := none
    edgeAngle := none }

/-- Tooth counting in HALF_SYNC and FULL_SYNC: a gap returns to tooth 0 and, in FULL_SYNC, toggles the
revolution half (R5, R6). -/
def Tracker.countTooth (t : Tracker) (k : CrankClass) : Tracker :=
  match k with
  | .gap =>
    { t with
      tooth := 0
      gapCount := satAdd 4 t.gapCount 1
      half := if t.sync = .fullSync then t.half.map (!·) else t.half }
  | _ => { t with tooth := t.tooth + 1 }

/-- The edge angle of a counted crank edge (R6). -/
def countedAngle (gapOffset : Nat) (t : Tracker) : Nat :=
  match t.sync, t.half with
  | .fullSync, some h => crankCycleAngle gapOffset t h
  | _, _ => withinAngle gapOffset t

/-- The revolutions-without-extra-tooth count at an accepted crank edge at tooth 0: it rises up to 4, and on
reaching 4 sets the cam fault latch (R11). -/
def countRevolution (s : State) : State :=
  if s.tracker.tooth = 0 ∧ s.tracker.cam.revsNoExtra < 4 then
    (fun t => if s.tracker.cam.revsNoExtra + 1 = 4 then setCamFault .missing t else t)
      (s.withTracker
        (s.tracker.withCam { s.tracker.cam with revsNoExtra := s.tracker.cam.revsNoExtra + 1 }))
  else s

/-- An accepted crank edge in HALF_SYNC or FULL_SYNC: a gap error, or tooth counting and, in FULL_SYNC, the
hand-off (R5, R6, R7, R11, R15). The revolution is counted before the hand-off, so a CAM_FAULT MISSING stands before
the notices of the entries the same edge fires: no rule orders the two, the model's choice (log entry 13). A gap error
counts no revolution (log entry 30) and leaves the candidate count (log entry 29). -/
def crankCounting (k : CrankClass) (s : State) : State :=
  if gapError k s.tracker then moveTo .seeking .gapError (s.withTracker (s.tracker.afterGapError k))
  else
    (fun t => if t.tracker.sync = .fullSync then handOn t else t)
      (countRevolution
        (s.withTracker
          { s.tracker.countTooth k with
            edgeAngle := some (countedAngle s.plan.engine.gapOffset (s.tracker.countTooth k)) }))

/-- The half of the nearer of the two candidate cycle angles of a recovering gap edge, and its distance
from the interpolated angle (R27). -/
def nearerHalf (gapOffset angle : Nat) : Bool × Nat :=
  if distance 7200 angle ((gapOffset + 3600) % 7200) < distance 7200 angle (gapOffset % 7200) then
    (true, distance 7200 angle ((gapOffset + 3600) % 7200))
  else (false, distance 7200 angle (gapOffset % 7200))

/-- The tracker after a recovery that passed the consistency test (R27). -/
def Tracker.restore (t : Tracker) (gapOffset : Nat) (half : Bool) : Tracker :=
  { t with
    tooth := 0
    half := some half
    edgeAngle := some ((gapOffset + halfOffset (some half)) % 7200)
    cam := { t.cam with wrongPhase := 0, revsNoExtra := 0 } }

/-- The consistency test of a confirmed gap in CAM_LIMP and what follows it (R27). -/
def crankRestore (angle : Nat) (s : State) : State :=
  if (nearerHalf s.plan.engine.gapOffset angle).2 ≤ s.plan.engine.camTolerance then
    handOn
      (moveTo .fullSync .crankRestored
        (s.withTracker
          (s.tracker.restore s.plan.engine.gapOffset (nearerHalf s.plan.engine.gapOffset angle).1)))
  else s.withTracker { s.tracker with gapCount := 0 }

/-- An accepted crank edge in CAM_LIMP, taken by the crank recovery search (R27). The interpolated angle of
CAM_LIMP is not moved by it. -/
def crankRecovery (k : CrankClass) (s : State) : State :=
  if (s.tracker.gapSearch k).confirms s.plan.engine.gapConfirm k then
    match interpolated s.tracker s.timebase with
    | some x => crankRestore x (s.withTracker (s.tracker.gapSearch k))
    | none => s.withTracker (s.tracker.gapSearch k)
  else s.withTracker (s.tracker.gapSearch k)

/-- An accepted crank edge with an interval, in the sync state it finds. In STOPPED no crank edge has an
interval. -/
def crankByState (k : CrankClass) (s : State) : State :=
  match s.tracker.sync with
  | .stopped => s
  | .seeking => crankSeeking k s
  | .halfSync => crankCounting k s
  | .fullSync => crankCounting k s
  | .camLimp => crankRecovery k s

/-- A crank edge with no interval: accepted, pushing nothing; in STOPPED the first edge, which drops the cam-only
search (R2, R12; the other entries to SEEKING leave the candidate count, log entry 29). -/
def crankFirst (s : State) : State :=
  if s.tracker.sync = .stopped then
    moveTo .seeking .firstEdge
      (s.withTracker
        { s.tracker with
          prevCrank := some s.timebase, stallRef := some s.timebase, crankHist := [], crankTp := none,
          refGap := false, gapCount := 0, cam := { s.tracker.cam with candidates := 0 } })
  else s.withTracker { s.tracker with prevCrank := some s.timebase, stallRef := some s.timebase }

/-- A crank edge with an interval (R2, R3, R4). -/
def crankMeasured (i : Nat) (s : State) : State :=
  if crankSpurious s.tracker i then
    s.withTracker { s.tracker with spurious := satAdd Config.countMax s.tracker.spurious 1 }
  else
    crankByState (crankClass s.tracker.crankHist i)
      (s.withTracker
        (s.tracker.measure s.plan.engine.accelComp (crankClass s.tracker.crankHist i) i s.timebase))

/-- A crank edge, taken whole at its arrival (R2). -/
def crankEdge (s : State) : State :=
  match s.tracker.prevCrank with
  | none => crankFirst s
  | some p => crankMeasured (rawInterval p s.timebase) s

/-! ## Cam edges: recording and identifying (R8 to R10) -/

/-- The raw interval of a cam edge, absent for the first (R9). -/
def camRaw (c : CamHistory) (now : Tick) : Option Nat := c.lastEdge.map fun p => rawInterval p now

/-- The newest interval of a raw list, four being kept (R9). -/
def pushRaw (i : Option Nat) (raw : List Nat) : List Nat :=
  match i with
  | some n => (n :: raw).take 4
  | none => raw

/-- A cam edge is recorded with its identity, and it holds off the stall timeout (R9, R18). -/
def Tracker.recordCam (t : Tracker) (now : Tick) (x : CamId) : Tracker :=
  { t with
    stallRef := some now
    cam := { t.cam with
      lastEdge := some now, lastAccepted := some now, raw := pushRaw (camRaw t.cam now) t.cam.raw,
      identity := x } }

/-- The candidates of a cam edge in FULL_SYNC, the regular teeth first, so that a tie goes to one (R9). -/
def fullCandidates (camSync : Nat) : List (CamId × Nat) :=
  [CamId.regular 0, .regular 1, .regular 2, .regular 3, .regular 4, .regular 5, .extra, .phantom].map
    fun x => (x, camAngle camSync x)

/-- The candidates of a cam edge in HALF_SYNC, as within-revolution angles (R9, log entry 11). -/
def halfCandidates (camSync : Nat) : List (CamId × Nat) :=
  [CamId.regular 0, .regular 1, .regular 2, .extra].map fun x => (x, camAngle camSync x % 3600)

/-- The nearest candidate, the earlier one of a tie. -/
def nearest (m angle : Nat) : CamId × Nat → List (CamId × Nat) → CamId × Nat
  | best, [] => best
  | best, x :: xs =>
    if distance m angle x.2 < distance m angle best.2 then nearest m angle x xs else nearest m angle best xs

/-- The identity of a cam edge at an interpolated angle: the nearest candidate within the cam tolerance,
unknown otherwise (R9). -/
def identifyAmong (m tolerance angle : Nat) (candidates : List (CamId × Nat)) : CamId :=
  match candidates with
  | [] => .unknown
  | x :: xs =>
    if distance m angle (nearest m angle x xs).2 ≤ tolerance then (nearest m angle x xs).1 else .unknown

/-- The identity of a cam edge in HALF_SYNC or FULL_SYNC (R9). -/
def identifyCam (s : State) : CamId :=
  match interpolated s.tracker s.timebase with
  | none => .unknown
  | some x =>
    if s.tracker.sync = .halfSync then
      identifyAmong 3600 s.plan.engine.camTolerance x (halfCandidates s.plan.engine.camSync)
    else identifyAmong 7200 s.plan.engine.camTolerance x (fullCandidates s.plan.engine.camSync)

/-- The cam period a raw interval over a span gives: round(I × 1200 / span) (R10, R31). -/
def camPeriod (i span : Nat) : Nat := roundDiv (i * 1200) span

/-- The cam period history with a period pushed, its Tp formed afresh (R10, R32). -/
def CamHistory.pushPeriod (c : CamHistory) (accel : Bool) (t : Nat) : CamHistory :=
  { c with hist := Machine.pushPeriod t c.hist, tp := formTp accel (Machine.pushPeriod t c.hist) }

/-- The period a cam edge pushes in FULL_SYNC: only when it is the tooth that follows the previous one
(R10). -/
def fullPeriod (c : CamHistory) (now : Tick) (x : CamId) : Option Nat :=
  match camRaw c now, c.identity.next with
  | some i, some (y, span) => if x = y then some (camPeriod i span) else none
  | _, _ => none

/-- Feed the cam period history in FULL_SYNC (R10). -/
def Tracker.feedFull (t : Tracker) (accel : Bool) (now : Tick) (x : CamId) : Tracker :=
  match fullPeriod t.cam now x with
  | some p => (t.recordCam now x).withCam ((t.recordCam now x).cam.pushPeriod accel p)
  | none => t.recordCam now x

/-! ## Cam edges by sync state -/

/-- The half that places the phasing cam edge nearer to S, from the crank edge and the advance since it
(R14). -/
def phasedHalf (gapOffset camSync adv : Nat) (t : Tracker) : Bool :=
  decide
    (distance 7200 ((crankCycleAngle gapOffset t true + adv) % 7200) camSync
      < distance 7200 ((crankCycleAngle gapOffset t false + adv) % 7200) camSync)

/-- The advance of the interpolated angle since the last edge of the carrying sensor (R39). -/
def advanceNow (s : State) : Nat := ((carrier s.tracker).map fun e => advance e s.timebase).getD 0

/-- The tracker after phasing in a half (R14). -/
def Tracker.phase (t : Tracker) (gapOffset : Nat) (half : Bool) : Tracker :=
  { t with
    half := some half
    edgeAngle := some (crankCycleAngle gapOffset t half)
    cam := { t.cam with wrongPhase := 0, revsNoExtra := 0 } }

/-- A cam edge in HALF_SYNC: only the extra tooth has an effect (R9, R14). -/
def camHalf (s : State) : State :=
  if identifyCam s = .extra then
    moveTo .fullSync .camPhased
      (s.withTracker
        ((s.tracker.recordCam s.timebase .extra).phase s.plan.engine.gapOffset
          (phasedHalf s.plan.engine.gapOffset s.plan.engine.camSync (advanceNow s) s.tracker)))
  else s.withTracker (s.tracker.recordCam s.timebase (identifyCam s))

/-- A wrong-phase observation, on the tracker that has recorded its edge (R11, R17). -/
def camPhantom (s : State) : State :=
  if s.tracker.cam.wrongPhase = 0 then
    s.withTracker (s.tracker.withCam { s.tracker.cam with wrongPhase := 1, revsNoExtra := 0 })
  else
    moveTo .halfSync .camWrongPhase
      (setCamFault .wrongPhase
        (s.withTracker
          { s.tracker with
            half := none
            edgeAngle := some (withinAngle s.plan.engine.gapOffset s.tracker)
            cam := { s.tracker.cam with wrongPhase := 0, revsNoExtra := 0 } }))

/-- What the identity of a recorded cam edge does in FULL_SYNC (R11, R17). -/
def camIdentified (x : CamId) (s : State) : State :=
  match x with
  | .extra => s.withTracker (s.tracker.withCam { s.tracker.cam with wrongPhase := 0, revsNoExtra := 0 })
  | .phantom => camPhantom s
  | .regular _ => s
  | .unknown => s

/-- A cam edge in FULL_SYNC (R9, R10, R11, R17). -/
def camFull (s : State) : State :=
  camIdentified (identifyCam s)
    (s.withTracker (s.tracker.feedFull s.plan.engine.accelComp s.timebase (identifyCam s)))

/-! ## Running on the cam (R25, R26, R28) -/

/-- Whether an interval is less than a third of the preceding raw interval (R26, R28). -/
def extraLike (i : Nat) (raw : List Nat) : Bool :=
  match raw with
  | p :: _ => decide (3 * i < p)
  | [] => false

/-- The estimated angle of an extra-like edge (R26). -/
def estimatedAngle (camSync i tp : Nat) : Nat := (camSync + 6900 + i * 1200 / tp) % 7200

/-- Whether a cam edge passes the test against the expected tooth (R26). -/
def camPasses (e : EngineRec) (t : Tracker) (i : Nat) (x : CamId) : Bool :=
  match x with
  | .extra =>
    extraLike i t.cam.raw
      && decide (distance 7200 (estimatedAngle e.camSync i (t.cam.tp.getD 1)) e.camSync ≤ e.camTolerance)
  | .regular _ => !extraLike i t.cam.raw
  | .phantom => false
  | .unknown => false

/-- A cam mismatch: the latch, and SEEKING as a sync loss; the recovery search is kept (R26). The edge
stands as the last cam edge, unidentified (R9, log entry 11), and the candidate count as it was (log entry 29). -/
def camMismatch (s : State) : State :=
  moveTo .seeking .camMismatch
    (setCamFault .limpMismatch
      (s.withTracker
        { s.tracker with
          stallRef := some s.timebase, half := none, edgeAngle := none,
          cam := { s.tracker.cam with
            lastEdge := some s.timebase, raw := pushRaw (camRaw s.tracker.cam s.timebase) s.tracker.cam.raw,
            identity := .unknown } }))

/-- The tracker with an accepted cam edge of CAM_LIMP (R25). -/
def Tracker.acceptCam (t : Tracker) (e : EngineRec) (now : Tick) (i span : Nat) (x : CamId) : Tracker :=
  { t with
    stallRef := some now
    edgeAngle := some (camAngle e.camSync x)
    cam := { t.cam with
      lastEdge := some now, lastAccepted := some now, raw := pushRaw (some i) t.cam.raw, identity := x,
      hist := pushPeriod (camPeriod i span) t.cam.hist,
      tp := formTp e.accelComp (pushPeriod (camPeriod i span) t.cam.hist) } }

/-- A cam edge in CAM_LIMP that is not rejected: accepted and handed on, or a mismatch (R25, R26). -/
def camTested (i span : Nat) (x : CamId) (s : State) : State :=
  if camPasses s.plan.engine s.tracker i x then
    handOn (s.withTracker (s.tracker.acceptCam s.plan.engine s.timebase i span x))
  else camMismatch s

/-- Whether a cam edge of CAM_LIMP is rejected as spurious (R25). -/
def camSpurious (t : Tracker) (i span : Nat) : Bool :=
  match t.cam.tp with
  | some tp => decide (4 * i < camInterval span tp)
  | none => false

/-- A cam edge in CAM_LIMP (R25). -/
def camLimpEdge (s : State) : State :=
  match s.tracker.cam.lastAccepted, s.tracker.cam.identity.next with
  | some p, some (x, span) =>
    if camSpurious s.tracker (rawInterval p s.timebase) span then
      s.withTracker { s.tracker with spurious := satAdd Config.countMax s.tracker.spurious 1 }
    else camTested (rawInterval p s.timebase) span x s
  | _, _ => camMismatch s

/-- Whether a cam edge is a candidate of the cam-only search (R28). -/
def isCandidate (c : CamHistory) (now : Tick) : Bool :=
  match camRaw c now with
  | some i => extraLike i c.raw
  | none => false

/-- The cam-only search at a cam edge: the candidate count and the edges since the last candidate (R28). That number
counts from 0 at reset and saturates at 7 (log entry 31). -/
def searched (c : CamHistory) (candidate : Bool) : Nat × Nat :=
  if candidate then (if c.candidates = 0 then 1 else if c.sinceCandidate = 6 then 2 else 1, 0)
  else if c.sinceCandidate = 6 then (0, 7)
  else (c.candidates, satAdd 7 c.sinceCandidate 1)

/-- The cam period history of a cam-only start, from the last four raw intervals (R28, R31). -/
def startHistory : List Nat → List Nat
  | [] => []
  | i :: rest => max 1 (camPeriod i 300) :: rest.map (max 1 ·)

/-- The tracker at a cam-only start: the edge is the extra tooth, the histories are built, and the crank
recovery search starts empty (R28). -/
def Tracker.startCam (t : Tracker) (e : EngineRec) : Tracker :=
  { t with
    edgeAngle := some (camAngle e.camSync .extra)
    crankHist := [], crankTp := none, refGap := false, gapCount := 0
    cam := { t.cam with
      identity := .extra, hist := startHistory t.cam.raw,
      tp := formTp e.accelComp (startHistory t.cam.raw) } }

/-- A cam edge in STOPPED feeds the cam-only search, which may start CAM_LIMP (R9, R28). -/
def camStopped (s : State) : State :=
  (fun t =>
    if (isCandidate s.tracker.cam s.timebase && decide (t.tracker.cam.candidates = 2))
        && (t.tracker.crankFault && t.plan.engine.camLimp) then
      handOn (moveTo .camLimp .camStart (t.withTracker (t.tracker.startCam t.plan.engine)))
    else t)
    (s.withTracker
      ((s.tracker.recordCam s.timebase .unknown).withCam
        { (s.tracker.recordCam s.timebase .unknown).cam with
          candidates := (searched s.tracker.cam (isCandidate s.tracker.cam s.timebase)).1
          sinceCandidate := (searched s.tracker.cam (isCandidate s.tracker.cam s.timebase)).2 }))

/-- A cam edge, in the sync state it finds (R9). -/
def camEdge (s : State) : State :=
  match s.tracker.sync with
  | .stopped => camStopped s
  | .seeking => s.withTracker (s.tracker.recordCam s.timebase .unknown)
  | .halfSync => camHalf s
  | .fullSync => camFull s
  | .camLimp => camLimpEdge s

/-! ## Deadlines and the stall timeout (R16, R18, R26) -/

/-- Whether the crank deadline has passed (R16). -/
def crankDeadlineDue (s : State) : Bool :=
  match s.tracker.prevCrank, s.tracker.crankTp with
  | some p, some tp =>
    (decide (s.tracker.sync = .halfSync) || decide (s.tracker.sync = .fullSync))
      && decide (2 * crankInterval s.tracker.wheel s.tracker.tooth tp ≤ elapsed p s.timebase)
  | _, _ => false

/-- The conditions for CAM_LIMP at a crank deadline in FULL_SYNC (R16). -/
def limpAllowed (s : State) : Bool :=
  s.plan.engine.camLimp && !s.tracker.camFault && !s.tracker.cam.hist.isEmpty
    && s.tracker.cam.identity.next.isSome

/-- The crank state a missed crank deadline leaves (R16, R24, log entry 18). -/
def Tracker.emptyCrank (t : Tracker) : Tracker :=
  { t with
    crankFault := true, crankHist := [], crankTp := none, prevCrank := none, refGap := false, gapCount := 0,
    half := none }

/-- The crank deadline passes (R16, R24, log entry 26; the candidate count is left, log entry 29). -/
def crankDeadline (s : State) : State :=
  if s.tracker.sync = .fullSync ∧ limpAllowed s = true then
    moveTo .camLimp .crankDeadline
      (s.withTracker
        { s.tracker.emptyCrank with
          edgeAngle := some (camAngle s.plan.engine.camSync s.tracker.cam.identity)
          cam := { s.tracker.cam with lastAccepted := s.tracker.cam.lastEdge } })
  else moveTo .seeking .crankDeadline (s.withTracker { s.tracker.emptyCrank with edgeAngle := none })

/-- Whether the cam deadline has passed (R26). -/
def camDeadlineDue (s : State) : Bool :=
  match s.tracker.cam.lastAccepted, s.tracker.cam.tp with
  | some p, some tp =>
    decide (s.tracker.sync = .camLimp)
      && decide (2 * camInterval (camSpan s.tracker) tp ≤ elapsed p s.timebase)
  | _, _ => false

/-- The cam deadline passes (R26; the candidate count is left, log entry 29). -/
def camDeadline (s : State) : State :=
  moveTo .seeking .camDeadline
    (setCamFault .limpDeadline (s.withTracker { s.tracker with half := none, edgeAngle := none }))

/-- The stall timeout in ticks (R42). -/
def stallTicks (s : State) : Nat := 2000 * s.plan.engine.stallMs

/-- The edge the stall timeout runs from: the stall reference, and in STOPPED the last cam edge (R18, log
entry 11). -/
def stallFrom (t : Tracker) : Option Tick := if t.sync = .stopped then t.cam.lastEdge else t.stallRef

/-- Whether the stall timeout has passed (R18). -/
def stallDue (s : State) : Bool :=
  match stallFrom s.tracker with
  | some r => decide (stallTicks s ≤ elapsed r s.timebase)
  | none => false

/-- What a stall clears in the tracker (R18). -/
def Tracker.stalled (t : Tracker) : Tracker :=
  { t with
    crankHist := [], crankTp := none, prevCrank := none, refGap := false, tooth := 0, gapCount := 0,
    half := none, edgeAngle := none, stallRef := none, cam := resetCam }

/-- The stall timeout passes (R18). -/
def stall (s : State) : State :=
  if s.tracker.sync = .stopped then s.withTracker (s.tracker.withCam resetCam)
  else moveTo .stopped .stall (s.withTracker s.tracker.stalled)

/-! ## A changed definition (R19) -/

/-- Whether the tracker leaves its state at a changed definition (R19). -/
def Sync.movesOnDefinition : Sync → Bool
  | .halfSync => true
  | .fullSync => true
  | .camLimp => true
  | _ => false

/-- The tracker's move at a changed gap offset or cam sync angle (R19; the candidate count is left, log entry
29). -/
def definitionMove (s : State) : State :=
  if s.tracker.sync.movesOnDefinition then
    moveTo .seeking .definition
      (s.withTracker
        { s.tracker with refGap := false, gapCount := 0, half := none, edgeAngle := none })
  else s

end Sys2Proof.Machine
end

