-- ==== Sys2Proof/Machine/PlanRequests.lean ====
section
/-! DEFINITION. The requests of the Plan Store: the engine definition, the plan pages and their swap, the
quiet windows, the angle marks, the derate pattern and the test cut (R45 to R63). -/

namespace Sys2Proof.Machine

/-! ## The engine-wide record (R45, R18, R19, R58) -/

/-- The expiry count under a record: one whose plan expiry changed holds it down to the new value (R58). -/
def expiryUnder (p : PlanStore) (e : EngineRec) : Nat :=
  if p.engine.planExpiry = e.planExpiry then p.expiry else min p.expiry e.planExpiry

/-- Store the engine-wide record, with the expiry count held down to a changed plan expiry (R45, R58). -/
def storeEngine (e : EngineRec) (s : State) : State :=
  s.withPlan { s.plan with engine := e, expiry := expiryUnder s.plan e }

/-- Whether the wheels' placement changed between two records (R19). -/
def wheelsMoved (x y : EngineRec) : Bool := x.gapOffset != y.gapOffset || x.camSync != y.camSync

/-- The tracker's answer to a changed placement (R19). -/
def moveIfPlaced (old : EngineRec) (s : State) : State :=
  if wheelsMoved old s.plan.engine then definitionMove s else s

/-- A changed plan expiry makes the stale test in the request (R58). -/
def staleIfChanged (old : EngineRec) (s : State) : State :=
  if old.planExpiry = s.plan.engine.planExpiry then s else staleTest s

/-- A stall timeout lowered below the time already elapsed is taken in the request (R18). -/
def stallIfDue (s : State) : State := if stallDue s then stall s else s

/-- The effects of an accepted SET_ENGINE, after the record is stored (log entry 14). -/
def engineStored (old : EngineRec) (s : State) : State := stallIfDue (staleIfChanged old (moveIfPlaced old s))

/-- SET_ENGINE (R45). -/
def answerSetEngine : Owner := fun p s =>
  if !engineInRange p then (.refused .badValue, s)
  else if s.run.mode ≠ .halt ∧ (engineOf p).samePlacement s.plan.engine = false then
    (.refused .wrongMode, s)
  else (.ack (engineBytes (engineOf p)), engineStored s.plan.engine (storeEngine (engineOf p) s))

/-- SET_ENGINE (R45). -/
def execSetEngine (tag : Byte) (p : List Byte) (s : State) : Result := request 0x04 answerSetEngine tag p s

/-- GET_ENGINE (R45). -/
def answerGetEngine : Owner := fun _ s => (.ack (engineBytes s.plan.engine), s)

/-- GET_ENGINE (R45). -/
def execGetEngine (tag : Byte) (p : List Byte) (s : State) : Result := request 0x05 answerGetEngine tag p s

/-! ## The cylinder records (R47, R48) -/

/-- The record a SET_CYLINDER stores: the EOI limit clamped (R47). -/
def cylinderOf (place : Option Placement) (p : List Byte) : CylRec :=
  { place := place, eoiLimit := clampTo 0 1799 (wordAt p 6), disabled := byteAt p 8 == 1 }

/-- A test cut that names a cylinder made undefined becomes none, with no notice (R48). -/
def testCutWithout (c : Cyl) (place : Option Placement) (t : Option (Cyl × Nat)) : Option (Cyl × Nat) :=
  match place with
  | some _ => t
  | none => t.filter fun x => x.1 != c

/-- Store a cylinder record (R47, R48). -/
def storeCylinder (c : Cyl) (r : CylRec) (s : State) : State :=
  s.withPlan
    { s.plan with cyls := s.plan.cyls.set c r, testCut := testCutWithout c r.place s.plan.testCut }

/-- Whether a placement is refused for a bank, output or TDC another defined cylinder has (R47). -/
def placeRefused (c : Cyl) (place : Option Placement) (s : State) : Bool :=
  match place with
  | some q => placementTaken s.plan.cyls c q
  | none => false

/-- SET_CYLINDER with its cylinder and placement read (R47). -/
def setCylinder (c : Cyl) (place : Option Placement) (p : List Byte) (s : State) : Answer × State :=
  if placeRefused c place s || !isFlag (byteAt p 8) then (.refused .badValue, s)
  else if s.run.mode ≠ .halt ∧ place ≠ (s.plan.cyls.get c).place then (.refused .wrongMode, s)
  else (.ack (cylinderBytes c (cylinderOf place p)), storeCylinder c (cylinderOf place p) s)

/-- SET_CYLINDER (R47). -/
def answerSetCylinder : Owner := fun p s =>
  match Cyl.ofNum (byteAt p 0), placementOf p with
  | some c, some place => setCylinder c place p s
  | _, _ => (.refused .badValue, s)

/-- SET_CYLINDER (R47). -/
def execSetCylinder (tag : Byte) (p : List Byte) (s : State) : Result := request 0x06 answerSetCylinder tag p s

/-- GET_CYLINDER (R47). -/
def answerGetCylinder : Owner := fun p s =>
  match Cyl.ofNum (byteAt p 0) with
  | some c => (.ack (cylinderBytes c (s.plan.cyls.get c)), s)
  | none => (.refused .badValue, s)

/-- GET_CYLINDER (R47). -/
def execGetCylinder (tag : Byte) (p : List Byte) (s : State) : Result := request 0x07 answerGetCylinder tag p s

/-! ## The pulse lists (R49 to R52) -/

/-- A page with the list of a cylinder replaced; its serial is kept (R50). -/
def PlanPage.putList (x : PlanPage) (c : Cyl) (xs : List (Option PlanSlot)) : PlanPage :=
  { x with lists := x.lists.set c xs }

/-- SET_PULSES with its page and cylinder read (R50, checks 2 to 4). -/
def setPulses (ix : PageIx) (c : Cyl) (p : List Byte) (s : State) : Answer × State :=
  if s.plan.swapPending then (.refused .swapPending, s)
  else if ix = s.plan.active then (.refused .pageActive, s)
  else
    match pulseListOf p with
    | none => (.refused .badValue, s)
    | some xs =>
      (.ack (pulsesBytes ix c ((s.plan.page ix).putList c xs)),
        s.withPlan (s.plan.setPage ix ((s.plan.page ix).putList c xs)))

/-- SET_PULSES (R50). -/
def answerSetPulses : Owner := fun p s =>
  match pageOf (byteAt p 0), Cyl.ofNum (byteAt p 1) with
  | some ix, some c => setPulses ix c p s
  | _, _ => (.refused .badValue, s)

/-- SET_PULSES (R50). -/
def execSetPulses (tag : Byte) (p : List Byte) (s : State) : Result := request 0x08 answerSetPulses tag p s

/-- GET_PULSES (R49). -/
def answerGetPulses : Owner := fun p s =>
  match pageOf (byteAt p 0), Cyl.ofNum (byteAt p 1) with
  | some ix, some c => (.ack (pulsesBytes ix c (s.plan.page ix)), s)
  | _, _ => (.refused .badValue, s)

/-- GET_PULSES (R49). -/
def execGetPulses (tag : Byte) (p : List Byte) (s : State) : Result := request 0x09 answerGetPulses tag p s

/-- The inactive page with the lists of the active one; its serial is kept (R52). -/
def PlanStore.copied (p : PlanStore) : PlanStore :=
  p.setPage p.active.other { p.page p.active.other with lists := p.activePage.lists }

/-- COPY_PAGE (R52). -/
def answerCopyPage : Owner := fun _ s =>
  if s.plan.swapPending then (.refused .swapPending, s)
  else (.ack [byte s.plan.active.other.code], s.withPlan s.plan.copied)

/-- COPY_PAGE (R52). -/
def execCopyPage (tag : Byte) (p : List Byte) (s : State) : Result := request 0x0A answerCopyPage tag p s

/-! ## The swap and the refresh (R53, R56) -/

/-- The serial stored on the inactive page and the pending swap set (R53). -/
def PlanStore.askSwap (p : PlanStore) (serial : Nat) : PlanStore :=
  { p.setPage p.active.other { p.page p.active.other with serial := serial } with swapPending := true }

/-- Whether a swap waits for an arm event: in RUN with the cycle angle known (R53). -/
def swapDefers (s : State) : Bool := decide (s.run.mode = .run) && s.tracker.sync.holdsAngle

/-- SWAP_PLAN (R53). -/
def answerSwapPlan : Owner := fun p s =>
  if s.plan.swapPending then (.refused .swapPending, s)
  else if swapDefers s then
    (.ack ([0, byte s.plan.active.code] ++ be16 (wordAt p 0)), s.withPlan (s.plan.askSwap (wordAt p 0)))
  else
    (.ack ([1, byte s.plan.active.other.code] ++ be16 (wordAt p 0)),
      s.withPlan (s.plan.askSwap (wordAt p 0)).land)

/-- SWAP_PLAN (R53). -/
def execSwapPlan (tag : Byte) (p : List Byte) (s : State) : Result := request 0x0B answerSwapPlan tag p s

/-- REFRESH_PLAN: the expiry count is 0 and stale is clear (R56). -/
def answerRefreshPlan : Owner := fun _ s =>
  (.ack (be16 0), s.withPlan { s.plan with expiry := 0, stale := false })

/-- REFRESH_PLAN (R56). -/
def execRefreshPlan (tag : Byte) (p : List Byte) (s : State) : Result := request 0x0C answerRefreshPlan tag p s

/-! ## Windows, marks, derate and test cut (R59, R60, R61, R63) -/

/-- SET_WINDOW (R59). -/
def answerSetWindow : Owner := fun p s =>
  match windowOf p with
  | some (i, w) => (.ack (windowBytes i w), s.withPlan { s.plan with windows := s.plan.windows.set i w })
  | none => (.refused .badValue, s)

/-- SET_WINDOW (R59). -/
def execSetWindow (tag : Byte) (p : List Byte) (s : State) : Result := request 0x0D answerSetWindow tag p s

/-- Whether a request changes the angle or the enable of a mark (R60). -/
def markMoved (old : Option AngleMark) (m : AngleMark) : Bool :=
  match old with
  | some x => x.angle != m.angle || x.enabled != m.enabled
  | none => true

/-- Store a mark and tell the Firing Queue if its angle or enable changed (R60). -/
def storeMark (i : MarkIx) (m : AngleMark) (s : State) : State :=
  (fun t => if markMoved (s.plan.marks[i.val]?) m then markChanged i t else t)
    (s.withPlan { s.plan with marks := s.plan.marks.set i.val m })

/-- SET_MARK (R60). -/
def answerSetMark : Owner := fun p s =>
  match markOf p with
  | some (i, m) => (.ack (markBytes i m), storeMark i m s)
  | none => (.refused .badValue, s)

/-- SET_MARK (R60). -/
def execSetMark (tag : Byte) (p : List Byte) (s : State) : Result := request 0x0E answerSetMark tag p s

/-- The stored n of a SET_DERATE: clamped to 1..16 (R61). -/
def derateNOf (p : List Byte) : Nat := clampTo 1 16 (byteAt p 1)

/-- The stored k of a SET_DERATE: clamped to 0..n − 1 (R61). -/
def derateKOf (p : List Byte) : Nat := clampTo 0 (derateNOf p - 1) (byteAt p 0)

/-- SET_DERATE (R61). -/
def answerSetDerate : Owner := fun p s =>
  (.ack [byte (derateKOf p), byte (derateNOf p)],
    s.withPlan { s.plan with derateK := derateKOf p, derateN := derateNOf p, derateAcc := 0 })

/-- SET_DERATE (R61). -/
def execSetDerate (tag : Byte) (p : List Byte) (s : State) : Result := request 0x0F answerSetDerate tag p s

/-- Set the test cut (R63). -/
def setTestCut (t : Option (Cyl × Nat)) (s : State) : State := s.withPlan { s.plan with testCut := t }

/-- TEST_CUT; the ACK of a cancel carries the count 0 (R63, log entry 16). -/
def answerTestCut : Owner := fun p s =>
  if byteAt p 0 = 0 then (.ack [0, 0], setTestCut none s)
  else
    match Cyl.ofNum (byteAt p 0) with
    | none => (.refused .badValue, s)
    | some c =>
      if isDefined s c then
        (.ack [byte c.num, byte (clampTo 1 255 (byteAt p 1))],
          setTestCut (some (c, clampTo 1 255 (byteAt p 1))) s)
      else (.refused .notDefined, s)

/-- TEST_CUT (R63). -/
def execTestCut (tag : Byte) (p : List Byte) (s : State) : Result := request 0x10 answerTestCut tag p s

end Sys2Proof.Machine
end

