-- ==== Sys2Proof/Machine/Resets.lean ====
section
/-! DEFINITION. The resets of the part: power-on reset and the two ends of a pin reset (R1, R44, R65, R89,
R113, R131, R144, R160, R186). RESET_RUN is a request. -/

namespace Sys2Proof.Machine

/-- Every block at its power-on value, with the WHEEL strap's pattern, the level of FUELCUT_N, the first VBAT
sample and the crystal as they are at the end of the reset (R186); the model's waiting commands are kept. -/
def resetState (w : Wheel) (fuelcutLow : Bool) (feed : Feed) (waiting : List Instr) : State :=
  { resetHeld := false, timebase := 0, tracker := resetTracker w, plan := resetPlan,
    contexts := .fill none, records := .fill none, queue := resetQueue, bankA := resetBank,
    bankB := resetBank, diag := resetDiagnosis, run := resetRunControl fuelcutLow feed, link := resetLink,
    pending := waiting }

/-- POWER_ON_RESET: the supply comes up and the power-on reset ends. -/
def execPowerOnReset (w : Wheel) (fuelcutLow : Bool) (feed : Feed) (s : State) : Result :=
  .next (resetState w fuelcutLow feed s.pending)

/-- A bank whose outputs are switched off at once, with no DECAY and no report (R113). -/
def BankState.switchedOff (x : BankState) : BankState := { x with drive := .idle, waiting := none }

/-- RESET_N is asserted: every output is off, a running coil check ends without a notice, STROBE is low and
a frame being sent is cut short; no event is taken from then on (R89, R113, R131, R144, R160, log entry 17). -/
def assertReset (s : State) : State :=
  ((((((s.withResetHeld true).withBank .bankA s.bankA.switchedOff).withBank .bankB
      s.bankB.switchedOff).withDiag { s.diag with coil := none }).withQueue
      { s.queue with strobeUntil := none }).withLink { s.link with sending := none })

/-- PIN_RESET_ASSERT. -/
def execPinResetAssert (s : State) : Result := .next (assertReset s)

/-- PIN_RESET_RELEASE: every block takes its pin-reset value; the wheel pattern is kept (R1). A line that
is not asserted has nothing to release. -/
def execPinResetRelease (fuelcutLow : Bool) (feed : Feed) (s : State) : Result :=
  .next (if s.resetHeld then resetState s.tracker.wheel fuelcutLow feed s.pending else s)

end Sys2Proof.Machine
end

