-- ==== Sys2Proof/Machine/RunRows.lean ====
section
/-! DEFINITION. Run Control's events: the forced end of a drain, the FUELCUT line, the supply samples and
the clock monitor (R84, R148, R151 to R159). -/

namespace Sys2Proof.Machine

/-! ## The forced end of a drain (R84, R112, R148) -/

/-- Whether the drain timer has expired in DRAIN (R148). -/
def drainDue (s : State) : Bool :=
  match s.run.drainAt with
  | some t => decide (s.run.mode = .drain) && reached t s.timebase
  | none => false

/-- Apply a change for each cylinder of a list, in its order. -/
def forCyls (f : Cyl → State → State) : List Cyl → State → State
  | [], s => s
  | c :: cs, s => forCyls f cs (f c s)

/-- The unstarted slots of every open context take DRAIN_FORCED directly (R84). -/
def forceSlots (s : State) : State := forCyls (fun c => updateSlots c (withdrawAllSlots .drainForced)) Cyl.all s

/-- End both banks' pulses by a cut, bank A first, leaving the closes to the caller (R84, R119, R132, R148, log entry
13). -/
def cutWithoutClose (s : State) : State :=
  endPulse .bankB Pulse.markCut false (endPulse .bankA Pulse.markCut false s)

/-- The run is in HALT with the drain timer stopped. -/
def haltRun (s : State) : State := s.withRun { s.run with mode := .halt, drainAt := none }

/-- The forced end of a drain (R148): withdrawals, cuts, closes in cylinder order, STOP_DONE with the number
of contexts open at the expiry. The report that none remains open does not end the drain again, so the run
mode is set before the closes (log entry 20). -/
def forceDrain (s : State) : State :=
  queueNotice (.stopDone true (openCount s))
    (forCyls closeTest Cyl.all (cutWithoutClose (haltRun (forceSlots (dropPulses (fun _ => true) s)))))

/-- DRAIN_TIMER_EXPIRY (R148). -/
def execDrainTimerExpiry (s : State) : Result := takeDue drainDue forceDrain s

/-! ## The fuel cut line (R151 to R153) -/

/-- The FUELCUT_N line takes a level: a change starts the filter's count (R151). -/
def lineChanges (low : Bool) (s : State) : State :=
  if s.run.lineLow = low then s else s.withRun { s.run with lineLow := low, lineSince := s.timebase }

/-- FUELCUT_LINE_CHANGE (R151). -/
def execFuelcutLineChange (low : Bool) (s : State) : Result := take (lineChanges low) s

/-- Whether the line has held a level other than the FUELCUT level for the filter's 4 ticks (R151). -/
def lineHeld (low : Bool) (s : State) : Bool :=
  s.run.lineLow == low && s.run.fuelcut != low
    && decide (Config.fuelcutFilter ≤ elapsed s.run.lineSince s.timebase)

/-- Set the FUELCUT level and send FUELCUT_CHANGE (R152, R153). -/
def setFuelcut (level : Bool) (s : State) : State :=
  queueNotice (.fuelcutChange level) (s.withRun { s.run with fuelcut := level })

/-- Cut the energized pulses of both banks, bank A first (R119, R132, log entry 13). -/
def cutBanks (s : State) : State := cutPulse .bankB (cutPulse .bankA s)

/-- The assertion of FUELCUT_N (R152): a running coil check is aborted, the level set with its notice, the
unstarted pulses withdrawn and the energized ones cut. No rule orders FUELCUT_CHANGE against the notices of the contexts
that the withdrawals and the cuts close, CYCLE_DONE and STOP_DONE (R152, R167): the model's choice is FUELCUT_CHANGE first
(log entry 13). -/
def assertFuelcut (s : State) : State :=
  cutBanks (withdrawPulses (fun _ => true) .fuelcut (setFuelcut true (abortCoilCheck .fuelcut s)))

/-- FUELCUT_ASSERTION (R152). -/
def execFuelcutAssertion (s : State) : Result := takeDue (lineHeld true) assertFuelcut s

/-- FUELCUT_RELEASE (R153). -/
def execFuelcutRelease (s : State) : Result := takeDue (lineHeld false) (setFuelcut false) s

/-! ## The supply band (R154 to R156) -/

/-- The class of a sample against the band in force, in steps of 0.05 V (R154). -/
def classOf (band : SupplyBand) (v : Nat) : SupplyBand :=
  match band with
  | .normal => if v < 280 then .critical else if v < 360 then .low else .normal
  | .low => if v < 280 then .critical else if v < 370 then .low else .normal
  | .critical => if v < 290 then .critical else if v < 370 then .low else .normal

/-- The number of bands between two. -/
def bandGap (x y : SupplyBand) : Nat := (x.code - y.code) + (y.code - x.code)

/-- Of two bands classed in a run, the one that lies nearer to the band in force (R155). -/
def nearerBand (band : SupplyBand) (kept : Option SupplyBand) (x : SupplyBand) : SupplyBand :=
  match kept with
  | some y => if bandGap band x < bandGap band y then x else y
  | none => x

/-- The side of the band in force a class lies on. -/
def sideOf (band x : SupplyBand) : FilterDir :=
  if x.code < band.code then .down else if band.code < x.code then .up else .none

/-- The supply filter with a sample on one side counted (R155). -/
def RunControl.countSample (r : RunControl) (x : SupplyBand) : RunControl :=
  if r.filterDir = sideOf r.band x then
    { r with filterRun := r.filterRun + 1, filterNearest := some (nearerBand r.band r.filterNearest x) }
  else { r with filterRun := 1, filterDir := sideOf r.band x, filterNearest := some x }

/-- The supply filter with no run. -/
def RunControl.clearFilter (r : RunControl) : RunControl :=
  { r with filterRun := 0, filterDir := .none, filterNearest := none }

/-- A band change: the filter is cleared, a bank's unit that the shorter interval finds due is gained, and
SUPPLY_BAND is sent (R126, R155, R156). A bank in BOOST gains that unit on leaving BOOST (R125, log entry 34). -/
def changeBand (new : SupplyBand) (s : State) : State :=
  queueNotice (.supplyBand s.run.band new)
    (settleRecharge .bankB
      (settleRecharge .bankA (s.withRun { s.run.clearFilter with band := new })))

/-- The band a full run leads to, if the run is full (R155). -/
def RunControl.fullRun (r : RunControl) : Option SupplyBand :=
  if r.filterRun = Config.filterLength then r.filterNearest else none

/-- The supply filter takes a classed sample (R155). -/
def filterSample (x : SupplyBand) (s : State) : State :=
  if x = s.run.band then s.withRun s.run.clearFilter
  else
    match (s.run.countSample x).fullRun with
    | some new => changeBand new (s.withRun (s.run.countSample x))
    | none => s.withRun (s.run.countSample x)

/-- Whether a sample of VBAT falls due (R154). -/
def sampleDue (s : State) : Bool := decide (Config.sampleTicks ≤ elapsed s.run.lastSample s.timebase)

/-- A sample of VBAT is taken: classed against the band in force and filtered (R154, R155, log entry 23). -/
def takeSample (v : Nat) (s : State) : State :=
  filterSample (classOf s.run.band (min Config.sampleMax v))
    (s.withRun { s.run with lastSample := later s.run.lastSample Config.sampleTicks })

/-- VBAT_SAMPLE (R155). -/
def execVbatSample (v : Nat) (s : State) : Result := takeDue sampleDue (takeSample v) s

/-! ## The clock monitor (R158, R159) -/

/-- Whether a crystal count passes (R158). -/
def countPasses (n : Nat) : Bool := decide (Config.monitorLow ≤ n) && decide (n ≤ Config.monitorHigh)

/-- A failed window: the clock state becomes BACKUP, the monitor stops, CLOCK_BACKUP is sent (R159). -/
def switchClock (n : Nat) (s : State) : State :=
  queueNotice (.clockBackup n) (s.withRun { s.run with clock := .backup, monitor := false })

/-- A monitor window ends with a count; with the monitor stopped there is no window (R158). The count alone decides: a
crystal that stopped late in the window, after 1400 cycles, passes it, and the timebase stands on into the next window. That
is the model's choice, since R158 also has the timebase stand only until the window ends (log entry 27). -/
def windowEnds (count : Nat) (s : State) : State :=
  if s.run.monitor && !countPasses (min Config.monitorMax count) then
    switchClock (min Config.monitorMax count) s
  else s

/-- MONITOR_WINDOW_END (R158). -/
def execMonitorWindowEnd (count : Nat) (s : State) : Result := take (windowEnds count) s

end Sys2Proof.Machine
end

