-- ==== Sys2Proof/Machine/RunRequests.lean ====
section
/-! DEFINITION. The requests of Run Control, the Cycle Builder and Circuit Diagnosis (R87, R137, R138, R139,
R145, R146, R149, R170). -/

namespace Sys2Proof.Machine

/-! ## START and STOP (R93, R94, R145, R146) -/

/-- Whether any cylinder is defined. -/
def anyDefined (s : State) : Bool := Cyl.all.any (isDefined s)

/-- The run mode becomes RUN and, with the angle known, the ARM entries are inserted (R93, R145). -/
def enterRun (s : State) : State :=
  (fun t => if t.tracker.sync.holdsAngle then insertArms t else t)
    (s.withRun { s.run with mode := .run, drainAt := none })

/-- START (R145). -/
def answerStart : Owner := fun _ s =>
  match s.run.mode with
  | .run => (.ack [byte RunMode.run.code], s)
  | .drain => (.ack [byte RunMode.run.code], enterRun s)
  | .halt =>
    if anyDefined s then (.ack [byte RunMode.run.code], enterRun s) else (.refused .notDefined, s)

/-- START (R145). -/
def execStart (tag : Byte) (p : List Byte) (s : State) : Result := request 0x12 answerStart tag p s

/-- DRAIN with its timer started (R146). -/
def enterDrain (s : State) : State :=
  s.withRun { s.run with mode := .drain, drainAt := some (later s.timebase Config.drainTicks) }

/-- A STOP in RUN: ARM entries removed, a pending swap landed, then DRAIN, or HALT with STOP_DONE (R146). -/
def stopRun (s : State) : State :=
  (fun t => if anyOpen t then enterDrain t else queueNotice (.stopDone false 0) (haltRun t))
    (landIfPending none (removeArms s))

/-- STOP (R146). -/
def answerStop : Owner := fun _ s =>
  match s.run.mode with
  | .run => (.ack [byte (stopRun s).run.mode.code], stopRun s)
  | .drain => (.ack [byte RunMode.drain.code], s)
  | .halt => (.ack [byte RunMode.halt.code], s)

/-- STOP (R146). -/
def execStop (tag : Byte) (p : List Byte) (s : State) : Result := request 0x13 answerStop tag p s

/-! ## RESET_RUN (R44, R65, R89, R112, R113, R142, R149, R170) -/

/-- The Plan Store after RESET_RUN (R44, R55). -/
def PlanStore.resetRun (p : PlanStore) : PlanStore :=
  { p with swapPending := false, expiry := 0, stale := false, derateAcc := 0, testCut := none }

/-- The link gives up its notices and its lost count, first of all (R170, step 1). -/
def emptyNotices (s : State) : State := s.withLink { s.link with notices := [], lost := 0 }

/-- Every context is discarded and every record becomes "none" (R65). -/
def discardCycles (s : State) : State := (s.withContexts (.fill none)).withRecords (.fill none)

/-- The parts of RESET_RUN that take effect before the pulses are cut: run mode, plan, contexts, and the
PULSE and ARM entries and waiting starts (R44, R65, R112, R149). -/
def clearRun (s : State) : State :=
  removeArms (dropPulses (fun _ => true) (discardCycles (haltRun (s.withPlan s.plan.resetRun))))

/-- RESET_RUN in whole (R149, R170). -/
def resetRun (s : State) : State := abortCoilCheck .resetRun (cutBanks (clearRun (emptyNotices s)))

/-- RESET_RUN (R149). -/
def answerResetRun : Owner := fun _ s => (.ack [byte RunMode.halt.code], resetRun s)

/-- RESET_RUN (R149). -/
def execResetRun (tag : Byte) (p : List Byte) (s : State) : Result := request 0x14 answerResetRun tag p s

/-! ## Cycle records (R87) -/

/-- The bytes of a table entry (R183). -/
def entryBytes (c : Cyl) : Option CycleRecord → List Byte
  | some r => recordBytes r
  | none => noRecordBytes c

/-- GET_CYCLE (R87). -/
def answerGetCycle : Owner := fun p s =>
  match Cyl.ofNum (byteAt p 0) with
  | some c => (.ack (entryBytes c (s.records.get c)), s)
  | none => (.refused .badValue, s)

/-- GET_CYCLE (R87). -/
def execGetCycle (tag : Byte) (p : List Byte) (s : State) : Result := request 0x15 answerGetCycle tag p s

/-! ## Circuit Diagnosis (R137 to R139) -/

/-- A cylinder's latch cleared, its score 0, its warning armed (R137). -/
def Diagnosis.clearFault (d : Diagnosis) (c : Cyl) : Diagnosis :=
  { d with
    disabled := d.disabled.set c false, score := d.score.set c 0, warnArmed := d.warnArmed.set c true }

/-- CLEAR_FAULT (R137). -/
def answerClearFault : Owner := fun p s =>
  match Cyl.ofNum (byteAt p 0) with
  | some c =>
    (.ack [byte c.num, byte (s.diag.score.get c), byte (bit (s.diag.disabled.get c))],
      s.withDiag (s.diag.clearFault c))
  | none => (.refused .badValue, s)

/-- CLEAR_FAULT (R137). -/
def execClearFault (tag : Byte) (p : List Byte) (s : State) : Result := request 0x16 answerClearFault tag p s

/-- Checks 4 to 7 of a coil check, that fail with WRONG_MODE (R138). -/
def coilWrongMode (b : Bank) (s : State) : Bool :=
  decide (s.tracker.sync ≠ .stopped) || anyOpen s || !(s.bank b).drive.isIdle || s.run.fuelcut

/-- A coil check starts on a cylinder's bank and output (R139). -/
def startCoilCheck (c : Cyl) (pl : Placement) (s : State) : State :=
  s.withDiag
    { s.diag with
      coil := some { cyl := c, bank := pl.bank, output := pl.output, start := s.timebase, curTime := none } }

/-- COIL_CHECK of a defined cylinder (R138, checks 3 to 7). -/
def coilCheckOf (c : Cyl) (pl : Placement) (s : State) : Answer × State :=
  if s.diag.coil.isSome then (.refused .busy, s)
  else if coilWrongMode pl.bank s then (.refused .wrongMode, s)
  else (.ack [byte c.num, 1], startCoilCheck c pl s)

/-- COIL_CHECK (R138). -/
def answerCoilCheck : Owner := fun p s =>
  match Cyl.ofNum (byteAt p 0) with
  | none => (.refused .badValue, s)
  | some c =>
    match (s.plan.cyls.get c).place with
    | none => (.refused .notDefined, s)
    | some pl => coilCheckOf c pl s

/-- COIL_CHECK (R138). -/
def execCoilCheck (tag : Byte) (p : List Byte) (s : State) : Result := request 0x18 answerCoilCheck tag p s

end Sys2Proof.Machine
end

