-- ==== Sys2Proof/Machine/TrackerRows.lean ====
section
/-! DEFINITION. The tracker's events: crank and cam edges, the two deadlines and the stall timeout. -/

namespace Sys2Proof.Machine

/-- CRANK_EDGE: an edge first aborts a running coil check, then the tracker takes it (R2, R142). -/
def execCrankEdge (s : State) : Result := take (fun t => crankEdge (abortCoilCheck .edge t)) s

/-- CAM_EDGE: an edge first aborts a running coil check, then the tracker takes it (R9, R142). -/
def execCamEdge (s : State) : Result := take (fun t => camEdge (abortCoilCheck .edge t)) s

/-- CRANK_DEADLINE (R16). -/
def execCrankDeadline (s : State) : Result := takeDue crankDeadlineDue crankDeadline s

/-- CAM_DEADLINE (R26). -/
def execCamDeadline (s : State) : Result := takeDue camDeadlineDue camDeadline s

/-- STALL_TIMEOUT (R18). -/
def execStallTimeout (s : State) : Result := takeDue stallDue stall s

end Sys2Proof.Machine
end

