-- ==== Sys2Proof/Machine/Idle.lean ====
section
/-! DEFINITION. What the part does when no command waits: an event of its own that is due, the serving of a
request that waits in the inbound queue, or a tick of the timebase (R125, R157, R165, log entry 7). -/

namespace Sys2Proof.Machine

/-! ## Serving from the inbound queue (R165) -/

/-- The owner of a request kind. -/
def ownerOf : Nat → Option Owner
  | 0x01 => some answerIdentify
  | 0x02 => some answerGetStatus
  | 0x03 => some answerGetTracker
  | 0x04 => some answerSetEngine
  | 0x05 => some answerGetEngine
  | 0x06 => some answerSetCylinder
  | 0x07 => some answerGetCylinder
  | 0x08 => some answerSetPulses
  | 0x09 => some answerGetPulses
  | 0x0A => some answerCopyPage
  | 0x0B => some answerSwapPlan
  | 0x0C => some answerRefreshPlan
  | 0x0D => some answerSetWindow
  | 0x0E => some answerSetMark
  | 0x0F => some answerSetDerate
  | 0x10 => some answerTestCut
  | 0x11 => some answerSetNotices
  | 0x12 => some answerStart
  | 0x13 => some answerStop
  | 0x14 => some answerResetRun
  | 0x15 => some answerGetCycle
  | 0x16 => some answerClearFault
  | 0x17 => some answerClearLatch
  | 0x18 => some answerCoilCheck
  | _ => none

/-- Serve a frame by its kind (R165, steps 2 to 5). -/
def serveFrame (f : Frame) (s : State) : State :=
  match ownerOf f.kind.toNat with
  | some owner => serve f.kind.toNat owner f.tag f.payload s
  | none => refuseKind f.kind f.tag s

/-- The head of the inbound queue, when the reply queue has room for its reply (R165). -/
def servable (l : Link) : Option (Frame × List Frame) :=
  match l.inbound with
  | f :: rest => if l.replies.length < Config.requestQueue then some (f, rest) else none
  | [] => none

/-- Take the head out of the inbound queue and serve it (R165). -/
def serveHead (f : Frame) (rest : List Frame) (s : State) : State :=
  serveFrame f (s.withLink { s.link with inbound := rest })

/-! ## Events of the part itself -/

/-- The events of the part itself, in the order of the opcode table, each with the test that it is due. -/
def ownEvents (s : State) : List (Bool × Instr) :=
  [(crankDeadlineDue s, .crankDeadline), (camDeadlineDue s, .camDeadline), (stallDue s, .stallTimeout),
   ((firstDue s).isSome, .fire), (strobeDue s, .strobeEnd),
   (boostLimitDue .bankA s, .boostLimitExpiry .bankA), (boostLimitDue .bankB s, .boostLimitExpiry .bankB),
   (pulseEndDue .bankA s, .pulseEnd .bankA), (pulseEndDue .bankB s, .pulseEnd .bankB),
   (decayEndDue .bankA s, .decayEnd .bankA), (decayEndDue .bankB s, .decayEnd .bankB),
   (s.bankA.unitDue s.run.band, .rechargeUnit .bankA), (s.bankB.unitDue s.run.band, .rechargeUnit .bankB),
   (drainDue s, .drainTimerExpiry), (coilWindowDue s, .coilWindowEnd),
   (lineHeld true s, .fuelcutAssertion), (lineHeld false s, .fuelcutRelease),
   (byteDeadlineDue s, .interByteDeadline), (frameSentDue s, .frameSent)]

/-- The first event of a list that is due. -/
def firstOwn : List (Bool × Instr) → Option Instr
  | [] => none
  | (due, i) :: rest => if due then some i else firstOwn rest

/-- The event of its own that an idle part takes, if one is due. While RESET_N is asserted none is taken. -/
def ownEvent (s : State) : Option Instr := if s.resetHeld then none else firstOwn (ownEvents s)

/-- Whether time waits for a measured value that only the outside can give: a VBAT sample or a CUR test
that is due (log entry 7). -/
def awaitsValue (s : State) : Bool := sampleDue s || curTestDue .bankA s || curTestDue .bankB s

/-- One tick of the timebase, of the banks' recharge phases and of a crystal that will stop (R125, R157). -/
def tick (s : State) : State :=
  (((s.withTimebase (s.timebase + 1)).withBank .bankA (s.bankA.countPhase s.run.band)).withBank .bankB
    (s.bankB.countPhase s.run.band)).withRun s.run.countCrystal

/-- What an idle part does when no event of its own is due: serve a waiting request, wait for a value, or
tick. While its source stands the timebase stands (R157, R186). -/
def idleOn (s : State) : State :=
  if s.resetHeld then s
  else
    match servable s.link with
    | some (f, rest) => serveHead f rest s
    | none => if awaitsValue s || s.run.stands then s else tick s

end Sys2Proof.Machine
end

