-- ==== Sys2Proof/Machine/Dispatch.lean ====
section
/-! DEFINITION. The dispatch of a command to its meaning. -/

namespace Sys2Proof.Machine

/-- The effect of a command on everything but the queue of waiting commands. -/
def exec (i : Instr) (s : State) : Host.Outcome State Fault Refusal :=
  match i with
  | .powerOnReset wheel fuelcutLow feed => Sys2Proof.Machine.execPowerOnReset wheel fuelcutLow feed s
  | .pinResetAssert => Sys2Proof.Machine.execPinResetAssert s
  | .pinResetRelease fuelcutLow feed => Sys2Proof.Machine.execPinResetRelease fuelcutLow feed s
  | .crankEdge => Sys2Proof.Machine.execCrankEdge s
  | .camEdge => Sys2Proof.Machine.execCamEdge s
  | .crankDeadline => Sys2Proof.Machine.execCrankDeadline s
  | .camDeadline => Sys2Proof.Machine.execCamDeadline s
  | .stallTimeout => Sys2Proof.Machine.execStallTimeout s
  | .fire => Sys2Proof.Machine.execFire s
  | .strobeEnd => Sys2Proof.Machine.execStrobeEnd s
  | .peak bank => Sys2Proof.Machine.execPeak bank s
  | .boostLimitExpiry bank => Sys2Proof.Machine.execBoostLimitExpiry bank s
  | .curTest bank current => Sys2Proof.Machine.execCurTest bank current s
  | .pulseEnd bank => Sys2Proof.Machine.execPulseEnd bank s
  | .ovc bank => Sys2Proof.Machine.execOvc bank s
  | .decayEnd bank => Sys2Proof.Machine.execDecayEnd bank s
  | .rechargeUnit bank => Sys2Proof.Machine.execRechargeUnit bank s
  | .drainTimerExpiry => Sys2Proof.Machine.execDrainTimerExpiry s
  | .coilCurReport bank => Sys2Proof.Machine.execCoilCurReport bank s
  | .coilWindowEnd => Sys2Proof.Machine.execCoilWindowEnd s
  | .fuelcutLineChange low => Sys2Proof.Machine.execFuelcutLineChange low s
  | .fuelcutAssertion => Sys2Proof.Machine.execFuelcutAssertion s
  | .fuelcutRelease => Sys2Proof.Machine.execFuelcutRelease s
  | .vbatSample vbat => Sys2Proof.Machine.execVbatSample vbat s
  | .monitorWindowEnd count => Sys2Proof.Machine.execMonitorWindowEnd count s
  | .byteReceived byte framingError => Sys2Proof.Machine.execByteReceived byte framingError s
  | .interByteDeadline => Sys2Proof.Machine.execInterByteDeadline s
  | .frameSent => Sys2Proof.Machine.execFrameSent s
  | .unknownKind kind tag payload => Sys2Proof.Machine.execUnknownKind kind tag payload s
  | .identify tag payload => Sys2Proof.Machine.execIdentify tag payload s
  | .getStatus tag payload => Sys2Proof.Machine.execGetStatus tag payload s
  | .getTracker tag payload => Sys2Proof.Machine.execGetTracker tag payload s
  | .setEngine tag payload => Sys2Proof.Machine.execSetEngine tag payload s
  | .getEngine tag payload => Sys2Proof.Machine.execGetEngine tag payload s
  | .setCylinder tag payload => Sys2Proof.Machine.execSetCylinder tag payload s
  | .getCylinder tag payload => Sys2Proof.Machine.execGetCylinder tag payload s
  | .setPulses tag payload => Sys2Proof.Machine.execSetPulses tag payload s
  | .getPulses tag payload => Sys2Proof.Machine.execGetPulses tag payload s
  | .copyPage tag payload => Sys2Proof.Machine.execCopyPage tag payload s
  | .swapPlan tag payload => Sys2Proof.Machine.execSwapPlan tag payload s
  | .refreshPlan tag payload => Sys2Proof.Machine.execRefreshPlan tag payload s
  | .setWindow tag payload => Sys2Proof.Machine.execSetWindow tag payload s
  | .setMark tag payload => Sys2Proof.Machine.execSetMark tag payload s
  | .setDerate tag payload => Sys2Proof.Machine.execSetDerate tag payload s
  | .testCut tag payload => Sys2Proof.Machine.execTestCut tag payload s
  | .setNotices tag payload => Sys2Proof.Machine.execSetNotices tag payload s
  | .start tag payload => Sys2Proof.Machine.execStart tag payload s
  | .stop tag payload => Sys2Proof.Machine.execStop tag payload s
  | .resetRun tag payload => Sys2Proof.Machine.execResetRun tag payload s
  | .getCycle tag payload => Sys2Proof.Machine.execGetCycle tag payload s
  | .clearFault tag payload => Sys2Proof.Machine.execClearFault tag payload s
  | .clearLatch tag payload => Sys2Proof.Machine.execClearLatch tag payload s
  | .coilCheck tag payload => Sys2Proof.Machine.execCoilCheck tag payload s

end Sys2Proof.Machine
end

