-- ==== Sys2Proof/Machine/Step.lean ====
section
/-! DEFINITION. One step of the machine, and a table word put at the front of the queue. -/

namespace Sys2Proof.Machine

/-- One step: the oldest waiting command is taken out of the queue and executed; with none waiting the part
takes an event of its own that is due, or idles on (log entries 2 and 7). -/
def step (s : State) : Host.Outcome State Fault Refusal :=
  match s.pending with
  | c :: rest => exec c (s.withPending rest)
  | [] =>
    match ownEvent s with
    | some c => exec c s
    | none => .next (idleOn s)

/-- The state with the command a table word spells put at the front of the queue; the state itself where
the word spells none, as no word does here (log entry 5). -/
def State.withFetchWord (s : State) (nbits w : Nat) : State :=
  match decodeTableWord nbits w with
  | some c => s.withPending (c :: s.pending)
  | none => s

end Sys2Proof.Machine
end

