-- ==== Sys2Proof/Safety.lean ====
section
/-! DEFINITION. What counts as a sound state and a safe step: the bounds of the state tables, the law of the
firing gates, and the law of the outputs, in the terms the statements use. -/

namespace Sys2Proof.Machine

/-! ## The bounds of the state tables -/

/-- The bounds of the link state: queue sizes and saturating counts (Link state, R164, R165, R168). -/
structure Link.Bounded (l : Link) : Prop where
  inbound : l.inbound.length ≤ Config.requestQueue
  replies : l.replies.length ≤ Config.requestQueue
  notices : l.notices.length ≤ Config.noticeQueue
  lost : l.lost ≤ Config.countMax
  frameErrors : l.frameErrors ≤ Config.countMax

/-- The bounds of the tracker state (Tracker state, R3, R5, R9, R11, R17, R28): the tooth index is 0 to N−3. -/
structure Tracker.Bounded (t : Tracker) : Prop where
  crankHist : t.crankHist.length ≤ 4
  camHist : t.cam.hist.length ≤ 4
  raw : t.cam.raw.length ≤ 4
  gapCount : t.gapCount ≤ 4
  spurious : t.spurious ≤ Config.countMax
  revsNoExtra : t.cam.revsNoExtra ≤ 4
  wrongPhase : t.cam.wrongPhase ≤ 1
  candidates : t.cam.candidates ≤ 2
  tooth : t.tooth ≤ lastTooth t.wheel

/-- The bounds of the Plan Store's counts: the derate accumulator and the expiry count (R58, R61, R62). -/
structure PlanStore.Bounded (p : PlanStore) : Prop where
  derateK : p.derateK < p.derateN
  derateAcc : p.derateAcc < p.derateN
  expiry : p.expiry ≤ p.engine.planExpiry

/-- The bounds of a bank's reserve and recharge phase; a phase held through BOOST may stand at the interval
(R124, R125). -/
structure BankState.Bounded (x : BankState) : Prop where
  reserve : x.reserve ≤ Config.reserveFull
  phase : x.phase ≤ 100

/-- Every fault score stays within 0 to 255 (R132). -/
def Diagnosis.Bounded (d : Diagnosis) : Prop := ∀ c, d.score.get c ≤ Config.countMax

/-- The bounds of the Firing Queue: its entries stand in strict key order, so that no key has two (R90), and its
PULSE capacity (R91). -/
structure FiringQueue.Bounded (q : FiringQueue) : Prop where
  sorted : (q.entries.map Entry.key).Pairwise fun x y => x.before y = true
  pulses : q.entries.countP Entry.isPulse ≤ Config.pulseCapacity

/-- The bounds of Run Control: a run of the supply filter is 0 to 3 between samples (R144, R155). -/
def RunControl.Bounded (r : RunControl) : Prop := r.filterRun ≤ 3

/-- All the bounds. -/
structure State.Bounded (s : State) : Prop where
  link : s.link.Bounded
  tracker : s.tracker.Bounded
  plan : s.plan.Bounded
  bankA : s.bankA.Bounded
  bankB : s.bankB.Bounded
  diag : s.diag.Bounded
  queue : s.queue.Bounded
  run : s.run.Bounded

/-! ## The firing gates (R22, R94, R108, R109, R110, R136, R150) -/

/-- Whether an entry is an ARM entry. -/
def Entry.isArm (e : Entry) : Bool :=
  match e.key with
  | .arm _ => true
  | _ => false

/-- What the queue and the waiting slots may hold: entries and waiting starts only while the cycle angle is
known (R22, R108), ARM entries only in RUN (R94), no PULSE entry and no waiting start under the fuel cut
(R109), and none of a cylinder whose fault-disabled latch is set (R110, R136). -/
structure State.Gated (s : State) : Prop where
  entryAngle : ∀ e ∈ s.queue.entries, s.tracker.sync.holdsAngle = true
  waitAngle : ∀ b, (s.bank b).waiting.isSome = true → s.tracker.sync.holdsAngle = true
  armRun : ∀ e ∈ s.queue.entries, e.isArm = true → s.run.mode = .run
  cutEntry : s.run.fuelcut = true → ∀ e ∈ s.queue.entries, e.isPulse = false
  cutWait : s.run.fuelcut = true → ∀ b, (s.bank b).waiting = none
  latchEntry : ∀ e ∈ s.queue.entries, ∀ c n, e.key = .pulse c n → s.diag.disabled.get c = false
  latchWait : ∀ b r, (s.bank b).waiting = some r → s.diag.disabled.get r.cyl = false

/-! ## What ties the cycles, the queue and the banks (R77, R78, R90, R104, R121) -/

/-- The state of a slot of a cylinder's open context. -/
def slotAt (s : State) (c : Cyl) (n : Nat) : Option SlotState :=
  match s.contexts.get c with
  | some x => (findSlot n x.slots).map Slot.st
  | none => none

/-- The bank of a cylinder's open context. -/
def bankAt (s : State) (c : Cyl) : Option Bank := (s.contexts.get c).map CycleContext.bank

/-- What ties the cycles, the queue and the banks together. A context stands under its own cylinder, and its slot
numbers do not repeat (R65, R70). A PULSE entry is that of a WAITING slot, or once committed of a COMMITTED slot with
its committed time (R75, R77). A waiting start is that of a COMMITTED slot of a context of its bank, and has left the
queue (R104, R122). An energized pulse is that of an ENERGIZED slot of a context of its bank, and every ENERGIZED slot
has such a pulse (R78, R121). -/
structure State.Linked (s : State) : Prop where
  numbered : ∀ c x, s.contexts.get c = some x → x.cyl = c ∧ (x.slots.map Slot.num).Nodup
  waitingEntry : ∀ e ∈ s.queue.entries, ∀ c n, e.key = .pulse c n → e.commit = none →
    slotAt s c n = some .waiting
  committedEntry : ∀ e ∈ s.queue.entries, ∀ c n k, e.key = .pulse c n → e.commit = some k →
    slotAt s c n = some (.committed k.time)
  start : ∀ b r, (s.bank b).waiting = some r → bankAt s r.cyl = some b ∧
    slotAt s r.cyl r.slot = some (.committed r.committed) ∧ ∀ e ∈ s.queue.entries, e.key ≠ .pulse r.cyl r.slot
  driven : ∀ b p, (s.bank b).drive.energized = some p → bankAt s p.cyl = some b ∧
    ∃ angle slip, slotAt s p.cyl p.slot = some (.energized p.start angle slip)
  drives : ∀ c n start angle slip, slotAt s c n = some (.energized start angle slip) →
    ∃ b p, (s.bank b).drive.energized = some p ∧ p.cyl = c ∧ p.slot = n

/-- Unless RESET_N is asserted, the cycles, the queue and the banks are tied together, and in HALT no context is
open (R145, R147, R148, R149). -/
def State.Tied (s : State) : Prop :=
  s.resetHeld = false → s.Linked ∧ (s.run.mode = .halt → ∀ c, s.contexts.get c = none)

/-! ## What becomes of a slot (R79, R80, R83 to R86) -/

/-- The outcome a slot state holds, once it is resolved. -/
def SlotState.outcome : SlotState → Option SlotOutcome
  | .resolved o => some o
  | _ => none

/-- The outcome of a slot of a cylinder: in its open context, or with none open in the cylinder's record. -/
def outcomeAt (s : State) (c : Cyl) (n : Nat) : Option SlotOutcome :=
  match s.contexts.get c with
  | some x => (findSlot n x.slots).bind fun y => y.st.outcome
  | none => (s.records.get c).bind fun r => (r.results.find? fun y => y.num == n).map SlotResult.outcome

/-- Every unstarted pulse of a first state, in its queue or in a waiting slot, has one outcome in a second. The slot
numbers are 1 to 5 (R49). -/
def UnstartedEnd (o : SlotOutcome) (s t : State) : Prop :=
  (∀ e ∈ s.queue.entries, ∀ c n, e.key = .pulse c n → 1 ≤ n → n ≤ 5 → outcomeAt t c n = some o) ∧
  ∀ b r, (s.bank b).waiting = some r → 1 ≤ r.slot → r.slot ≤ 5 → outcomeAt t r.cyl r.slot = some o

/-! ## The notices of a withdrawal (R20, R55, R85, R88, R147) -/

/-- The state after the notices of a list are raised one after another (R167). -/
def raised (ns : List NoticeBody) (s : State) : State := ns.foldl (fun t n => queueNotice n t) s

/-- The notice of a pending swap that a sync loss lands: the serial of the page that becomes active, and no cylinder
(R54, R55). -/
def swapNotice (s : State) : List NoticeBody :=
  if s.plan.swapPending then [.planSwapped (s.plan.page s.plan.active.other).serial none] else []

/-- The link of a second state is that of a first after notices raised in this order: those of `first`, those of the
contexts a withdrawal closes, and those of `last`. A closed context raises CYCLE_DONE, and the last of a drain
STOP_DONE. With no unstarted pulse none is closed. The order is the model's reading (log entry 13). -/
def WithdrawalNotices (first last : List NoticeBody) (s t : State) : Prop :=
  ∃ closed : List NoticeBody,
    (∀ n ∈ closed, (∃ r, n = .cycleDone r) ∨ (s.run.mode = .drain ∧ n = .stopDone false 0)) ∧
    ((∀ e ∈ s.queue.entries, e.isPulse = false) → (∀ b, (s.bank b).waiting = none) → closed = []) ∧
    t.link = (raised (first ++ closed ++ last) s).link

/-! ## A safe step -/

/-- A bank starts an injection pulse between two states: it is in BOOST in the second and was not in the
first (R150: a pulse is one that enters BOOST from a start request). -/
def Starts (b : Bank) (s t : State) : Prop :=
  (s.bank b).drive.isBoost = false ∧ (t.bank b).drive.isBoost = true

/-- The gates a start must find open: the angle known, the fuel cut released, the supply not CRITICAL
(R150). -/
def GatesOpen (s : State) : Prop :=
  s.tracker.sync.holdsAngle = true ∧ s.run.fuelcut = false ∧ s.run.band ≠ .critical

/-! ## The outputs (R114) -/

/-- A bank drives nothing: its high side is off and it selects no output. -/
def BankOff (s : State) (b : Bank) : Prop := highSide s b = .off ∧ selectedBy s b = none

/-! ## Requests on a link that serves them at once (R164, R165) -/

/-- The link takes a request and serves it in the same event: RESET_N is released, the source of the timebase
runs, no request waits before it and the reply queue has room (R157, R165). -/
def LinkReady (s : State) : Prop :=
  s.resetHeld = false ∧ s.run.stands = false ∧ s.link.inbound = [] ∧ s.link.replies.length < Config.requestQueue

/-- The answer to a command that is acknowledged: the state the request leaves, with its ACK in the reply queue
(R165, R171). -/
def acked (kind tag : Byte) (contents : List Byte) (s : State) : Result :=
  .next (pushReply kind tag (.ack contents) s)

/-- The answer to a command that is refused: the state as it was, with the REFUSED reply in the reply queue
(R165, R171). -/
def refusedWith (kind tag : Byte) (code : RefusalCode) (s : State) : Result :=
  .next (pushReply kind tag (.refused code) s)

/-- The command that is the request of a kind code (request catalogue). -/
def requestCommand (kind : Nat) (tag : Byte) (p : List Byte) : Option Instr :=
  match kind with
  | 0x01 => some (.identify tag p)
  | 0x02 => some (.getStatus tag p)
  | 0x03 => some (.getTracker tag p)
  | 0x04 => some (.setEngine tag p)
  | 0x05 => some (.getEngine tag p)
  | 0x06 => some (.setCylinder tag p)
  | 0x07 => some (.getCylinder tag p)
  | 0x08 => some (.setPulses tag p)
  | 0x09 => some (.getPulses tag p)
  | 0x0A => some (.copyPage tag p)
  | 0x0B => some (.swapPlan tag p)
  | 0x0C => some (.refreshPlan tag p)
  | 0x0D => some (.setWindow tag p)
  | 0x0E => some (.setMark tag p)
  | 0x0F => some (.setDerate tag p)
  | 0x10 => some (.testCut tag p)
  | 0x11 => some (.setNotices tag p)
  | 0x12 => some (.start tag p)
  | 0x13 => some (.stop tag p)
  | 0x14 => some (.resetRun tag p)
  | 0x15 => some (.getCycle tag p)
  | 0x16 => some (.clearFault tag p)
  | 0x17 => some (.clearLatch tag p)
  | 0x18 => some (.coilCheck tag p)
  | _ => none

end Sys2Proof.Machine
end

