-- ==== Sys2Proof/Certificates/Slice0/Obligations.lean ====
section
/-! DEFINITION. The statements for the provers, in the order of OBLIGATIONS.json. -/

open Sys2Proof Sys2Proof.Machine

/-! ## The machine -/

/-- The model's queue (log entry 2): a step takes the command at the front and is its execution. -/
def Obligations.StepRunsFrontCommand : Prop :=
  ∀ (s : State) (c : Instr) (rest : List Instr), s.pending = c :: rest → step s = exec c (s.withPending rest)

/-- What a step does with no command waiting (log entry 7): an event of the part's own that is due, else the
serving of the inbound queue's head (R165), else it waits for a value from outside, or for its source of time while
that stands (R157, log entry 27), else a tick. -/
def Obligations.IdleStepRunsPart : Prop :=
  ∀ s : State, s.pending = [] →
    (s.resetHeld = true → step s = .next s) ∧
    (∀ c, ownEvent s = some c → step s = exec c s) ∧
    (s.resetHeld = false → ownEvent s = none →
      (∀ f rest, s.link.inbound = f :: rest → s.link.replies.length < 4 →
        step s = .next (serveFrame f (s.withLink { s.link with inbound := rest }))) ∧
      (s.link.inbound = [] ∨ 4 ≤ s.link.replies.length →
        (awaitsValue s = true ∨ s.run.stands = true → step s = .next s) ∧
        (awaitsValue s = false → s.run.stands = false → step s = .next (tick s))))

/-- The bounds of the state tables, the law of the firing gates, and what ties the cycles, the queue and the banks
together hold right after reset. -/
def Obligations.ResetStateSound : Prop :=
  State.reset.Bounded ∧ State.reset.Gated ∧ State.reset.Tied

/-- Every step keeps the bounds of the state tables: queue sizes, saturating counts, histories, the tooth index, the
derate accumulator, the expiry count, the supply filter's run, the reserves, the scores and the PULSE capacity. The
Firing Queue holds at most 38 entries and no two of one key. -/
def Obligations.StepKeepsBounds : Prop :=
  ∀ s t : State, s.Gated → s.Bounded → step s = .next t →
    t.Bounded ∧ t.queue.entries.length ≤ 38 ∧ (t.queue.entries.map Entry.key).Nodup

/-- Every step keeps what the firing gates allow the queue and the waiting slots to hold: entries and waiting
starts only with the cycle angle known, ARM entries only in RUN, no PULSE entry and no waiting start under the
fuel cut, and none of a cylinder whose fault-disabled latch is set. Every step keeps the cycles, the queue and the
banks tied together, with no context open in HALT. No command but CLEAR_FAULT and a reset clears a latch. -/
def Obligations.StepKeepsGates : Prop :=
  (∀ s t : State, s.Gated → step s = .next t →
    t.Gated ∧ (s.Tied → t.Tied) ∧
    (∀ c, t.diag.disabled.get c = true →
      (∀ e ∈ t.queue.entries, ∀ n, e.key ≠ .pulse c n) ∧
      ∀ b r, (t.bank b).waiting = some r → r.cyl ≠ c)) ∧
  (∀ (i : Instr) (s t : State) (c : Cyl), s.Gated → exec i s = .next t → (∀ tag p, i ≠ .clearFault tag p) →
    (∀ w l v, i ≠ .powerOnReset w l v) → (∀ l v, i ≠ .pinResetRelease l v) →
    s.diag.disabled.get c = true → t.diag.disabled.get c = true)

/-- A pulse that a step starts finds the four conditions of R150: the angle known, the fuel cut released, the supply
not CRITICAL, and a run mode other than HALT. No step starts a pulse of a cylinder whose fault-disabled latch is set.
-/
def Obligations.PulseStartsWithGatesOpen : Prop :=
  ∀ (s t : State) (b : Bank), s.Gated → step s = .next t → Starts b s t →
    GatesOpen t ∧ (s.Tied → t.run.mode ≠ .halt) ∧
    ∀ p, (t.bank b).drive = .boost p → s.diag.disabled.get p.cyl = false

/-- A bank drives an output in BOOST, in HOLD, or during a coil check on it while it is IDLE, and the output it
drives is the current pulse's or the check's; its high side gives the boost drive in BOOST alone. -/
def Obligations.BankDrivesByState : Prop :=
  ∀ (s : State) (b : Bank),
    (∀ p, (s.bank b).drive = .boost p → highSide s b = .boost ∧ selectedBy s b = some p.output) ∧
    (∀ p, (s.bank b).drive = .hold p → highSide s b = .hold ∧ selectedBy s b = some p.output) ∧
    (∀ p e i, (s.bank b).drive = .decay p e i → highSide s b = .off ∧ selectedBy s b = none) ∧
    ((s.bank b).drive = .idle →
      (s.diag.coil = none → highSide s b = .off ∧ selectedBy s b = none) ∧
      (∀ x, s.diag.coil = some x →
        (x.bank = b → highSide s b = .hold ∧ selectedBy s b = some x.output) ∧
        (x.bank ≠ b → highSide s b = .off ∧ selectedBy s b = none)))

/-! ## Resets -/

/-- A power-on reset gives every block the values of its reset table; the model's queue is kept. The lines a reset
samples are the command's operands (log entry 3), and keeping the model's queue is its choice (log entry 2). -/
def Obligations.PowerOnResetValues : Prop :=
  ∀ (w : Wheel) (low : Bool) (v : Feed) (s : State), ∃ t,
    exec (.powerOnReset w low v) s = .next t ∧
    t.resetHeld = false ∧ t.timebase = 0 ∧ t.pending = s.pending ∧
    t.tracker =
      { wheel := w, sync := .stopped, crankHist := [], crankTp := none, prevCrank := none, refGap := false
        tooth := 0, gapCount := 0, half := none, edgeAngle := none, crankFault := false, camFault := false
        spurious := 0, stallRef := none
        cam :=
          { lastEdge := none, lastAccepted := none, raw := [], identity := .unknown, hist := [], tp := none
            candidates := 0, sinceCandidate := 0, wrongPhase := 0, revsNoExtra := 0 } } ∧
    engineBytes t.plan.engine = be16 0 ++ be16 0 ++ be16 2700 ++ be16 60 ++ [2] ++ be16 300 ++ [1, 1]
      ++ be16 2800 ++ be16 48 ++ [25, 40, 25] ++ be16 150 ++ be16 100 ++ [64] ∧
    (∀ c, t.plan.cyls.get c = { place := none, eoiLimit := 900, disabled := false }) ∧
    t.plan.active = .p0 ∧ t.plan.swapPending = false ∧ t.plan.expiry = 0 ∧ t.plan.stale = false ∧
    (∀ i, (t.plan.page i).serial = 0 ∧ ∀ c, (t.plan.page i).lists.get c = [none, none, none, none, none]) ∧
    t.plan.windows = List.replicate 4 { start := 0, stop := 0, banks := .both, enabled := false } ∧
    t.plan.marks = List.replicate 8 { angle := 0, enabled := false, notice := false, strobe := false } ∧
    t.plan.derateK = 0 ∧ t.plan.derateN = 1 ∧ t.plan.derateAcc = 0 ∧ t.plan.testCut = none ∧
    (∀ c, t.contexts.get c = none ∧ t.records.get c = none) ∧
    t.queue = { entries := [], commitRef := none, frontier := none, pendingMarks := [], strobeUntil := none } ∧
    (∀ b, t.bank b = { drive := .idle, waiting := none, reserve := 0, phase := 0 }) ∧
    (∀ c, t.diag.score.get c = 0 ∧ t.diag.disabled.get c = false ∧ t.diag.warnArmed.get c = true) ∧
    t.diag.coil = none ∧
    t.run.mode = .halt ∧ t.run.drainAt = none ∧ t.run.fuelcut = low ∧ t.run.lineLow = low ∧
    t.run.filterRun = 0 ∧ t.run.filterDir = .none ∧ t.run.clock = .crystal ∧ t.run.monitor = true ∧
    t.run.band = (if v.vbat < 280 then .critical else if v.vbat < 360 then .low else .normal) ∧
    t.run.crystalLeft = v.crystal ∧
    t.link =
      { framer := .hunt, byteDeadline := none, inbound := [], replies := [], notices := []
        sending := none, enable := 0x3FE7, lost := 0, frameErrors := 0 }

/-- RESET_N asserted switches both banks off with their waiting starts, ends a coil check, puts STROBE low and cuts
the frame being sent short; every other part of the state stands, the banks' reserves and phases and the queue among
it. Its release gives every block its reset value with the wheel pattern kept; released again it has no effect. What
the assertion leaves, and that a release of a released line has no effect, are the model's choices (log entry 17). -/
def Obligations.PinResetSwitchesOff : Prop :=
  (∀ s : State, ∃ t, exec .pinResetAssert s = .next t ∧ t.resetHeld = true ∧
    (∀ b, highSide t b = .off ∧ selectedBy t b = none) ∧
    (∀ b, t.bank b = { s.bank b with drive := .idle, waiting := none }) ∧
    t.queue = { s.queue with strobeUntil := none } ∧ t.link = { s.link with sending := none } ∧
    t.diag = { s.diag with coil := none } ∧ t.timebase = s.timebase ∧ t.tracker = s.tracker ∧
    t.plan = s.plan ∧ t.contexts = s.contexts ∧ t.records = s.records ∧ t.run = s.run ∧
    t.pending = s.pending) ∧
  (∀ (s : State) (low : Bool) (v : Feed),
    (s.resetHeld = true →
      exec (.pinResetRelease low v) s = .next (resetState s.tracker.wheel low v s.pending) ∧
      exec (.pinResetRelease low v) s = exec (.powerOnReset s.tracker.wheel low v) s) ∧
    (s.resetHeld = false → exec (.pinResetRelease low v) s = .next s))

/-- While RESET_N is asserted no event is taken: only a reset command changes the state. -/
def Obligations.HeldResetTakesNoEvent : Prop :=
  ∀ (s : State) (c : Instr), s.resetHeld = true →
    (∀ w l v, c ≠ .powerOnReset w l v) → c ≠ .pinResetAssert → (∀ l v, c ≠ .pinResetRelease l v) →
    exec c s = .next s

/-! ## The Angle Tracker -/

/-- In STOPPED the first crank edge, after a running coil check is aborted, leads to SEEKING with FIRST_EDGE,
and changes nothing else. -/
def Obligations.FirstCrankEdgeSeeks : Prop :=
  ∀ s : State, s.resetHeld = false → s.tracker.sync = .stopped → s.tracker.prevCrank = none →
    exec .crankEdge s = .next
      (queueNotice (.syncChange .stopped .seeking .firstEdge)
        ((abortCoilCheck .edge s).withTracker
          { s.tracker with
            sync := .seeking, prevCrank := some s.timebase, stallRef := some s.timebase, crankHist := [],
            crankTp := none, refGap := false, gapCount := 0, cam := { s.tracker.cam with candidates := 0 } }))

/-- A crank edge whose interval is less than a quarter of Tp is rejected: the spurious edge count rises by one,
up to 255, and nothing else of the tracker or the queue changes. -/
def Obligations.SpuriousCrankEdgeRejected : Prop :=
  ∀ (s : State) (p : Tick) (tp : Nat), s.resetHeld = false → s.tracker.prevCrank = some p →
    s.tracker.crankTp = some tp → 4 * rawInterval p s.timebase < tp →
    exec .crankEdge s = .next
      ((abortCoilCheck .edge s).withTracker { s.tracker with spurious := min 255 (s.tracker.spurious + 1) })

/-- In SEEKING a gap edge at the correct tooth count that brings the confirmation count to G leads to HALF_SYNC at the
gap offset, and changes nothing else. The gap search of SEEKING and CAM_LIMP on every accepted crank edge: the edge's
class, the history, the reference gap, the tooth index and the count. An edge that leaves a gap's count at G confirms:
in SEEKING it leads to HALF_SYNC; in CAM_LIMP the nearer of the two candidate angles within the cam tolerance leads to
FULL_SYNC in its half, with the edge handed on, and one farther off sets the count to 0. Any other edge changes the
search alone. An edge with no interval, as the first after a crank deadline, is accepted and adds nothing. The edge
handed on runs the pending marks, the catch-up, the commit window and the commit reference, which
PitchEdgeCountedHalfSync spells out; that the firings belong to the edge, 68 of them at most, is the model's reading
(log entry 25). -/
def Obligations.GapConfirmedHalfSync : Prop :=
  (∀ s : State, s.resetHeld = false → s.tracker.sync ≠ .stopped → s.tracker.prevCrank = none →
    exec .crankEdge s = .next
      ((abortCoilCheck .edge s).withTracker
        { s.tracker with prevCrank := some s.timebase, stallRef := some s.timebase })) ∧
  (∀ (s : State) (p : Tick) (t1 : Nat) (hist : List Nat),
    s.resetHeld = false → s.tracker.sync = .seeking → s.tracker.prevCrank = some p →
    s.tracker.crankHist = t1 :: hist → crankSpurious s.tracker (rawInterval p s.timebase) = false →
    22 * t1 ≤ 10 * rawInterval p s.timebase → 10 * rawInterval p s.timebase ≤ 38 * t1 →
    s.tracker.refGap = true → s.tracker.tooth = lastTooth s.tracker.wheel →
    s.plan.engine.gapConfirm ≤ min 4 (s.tracker.gapCount + 1) →
    exec .crankEdge s = .next
      (queueNotice (.syncChange .seeking .halfSync .gapConfirmed)
        ((abortCoilCheck .edge s).withTracker
          { s.tracker with
            sync := .halfSync, prevCrank := some s.timebase, stallRef := some s.timebase
            crankHist := pushPeriod (roundDiv (rawInterval p s.timebase) 3) (t1 :: hist)
            crankTp := formTp s.plan.engine.accelComp
              (pushPeriod (roundDiv (rawInterval p s.timebase) 3) (t1 :: hist))
            tooth := 0, gapCount := min 4 (s.tracker.gapCount + 1), half := none
            edgeAngle := some (s.plan.engine.gapOffset % 3600)
            cam := { s.tracker.cam with revsNoExtra := 0 } }))) ∧
  (∀ (s : State) (p : Tick) (i : Nat) (k : CrankClass) (v : Tracker),
    s.resetHeld = false → s.tracker.prevCrank = some p → i = rawInterval p s.timebase →
    crankSpurious s.tracker i = false →
    k = (match s.tracker.crankHist with
      | [] => .pitch
      | t1 :: _ => if 10 * i < 22 * t1 then .pitch else if 10 * i ≤ 38 * t1 then .gap else .long) →
    v = { s.tracker with
      prevCrank := some s.timebase, stallRef := some s.timebase
      crankHist := (match k with
        | .pitch => pushPeriod i s.tracker.crankHist
        | .gap => pushPeriod (roundDiv i 3) s.tracker.crankHist
        | .long => [])
      crankTp := formTp s.plan.engine.accelComp (match k with
        | .pitch => pushPeriod i s.tracker.crankHist
        | .gap => pushPeriod (roundDiv i 3) s.tracker.crankHist
        | .long => [])
      refGap := (match k with
        | .pitch => s.tracker.refGap && decide (s.tracker.tooth ≠ lastTooth s.tracker.wheel)
        | .gap => true
        | .long => false)
      tooth := (match k with
        | .pitch => if s.tracker.refGap ∧ s.tracker.tooth ≠ lastTooth s.tracker.wheel then s.tracker.tooth + 1
            else s.tracker.tooth
        | .gap => 0
        | .long => s.tracker.tooth)
      gapCount := (match k with
        | .pitch => if s.tracker.refGap ∧ s.tracker.tooth = lastTooth s.tracker.wheel then 0
            else s.tracker.gapCount
        | .gap => if s.tracker.refGap then
              (if s.tracker.tooth = lastTooth s.tracker.wheel then min 4 (s.tracker.gapCount + 1) else 0)
            else 1
        | .long => 0) } →
    (s.tracker.sync = .seeking ∨ s.tracker.sync = .camLimp → k ≠ .gap ∨ v.gapCount < s.plan.engine.gapConfirm →
      exec .crankEdge s = .next ((abortCoilCheck .edge s).withTracker v)) ∧
    (s.tracker.sync = .seeking → k = .gap → s.plan.engine.gapConfirm ≤ v.gapCount →
      exec .crankEdge s = .next
        (queueNotice (.syncChange .seeking .halfSync .gapConfirmed)
          ((abortCoilCheck .edge s).withTracker
            { v with
              sync := .halfSync, half := none, edgeAngle := some (s.plan.engine.gapOffset % 3600)
              cam := { s.tracker.cam with revsNoExtra := 0 } }))) ∧
    (s.tracker.sync = .camLimp → k = .gap → s.plan.engine.gapConfirm ≤ v.gapCount → ∀ (x d0 d1 : Nat) (half : Bool),
      interpolated s.tracker s.timebase = some x →
      d0 = distance 7200 x (s.plan.engine.gapOffset % 7200) →
      d1 = distance 7200 x ((s.plan.engine.gapOffset + 3600) % 7200) → half = decide (d1 < d0) →
      (s.plan.engine.camTolerance < min d0 d1 →
        exec .crankEdge s = .next ((abortCoilCheck .edge s).withTracker { v with gapCount := 0 })) ∧
      (min d0 d1 ≤ s.plan.engine.camTolerance → ∀ (tp : Nat) (e : EdgeRef), v.crankTp = some tp →
        e = { angle := (s.plan.engine.gapOffset + (if half then 3600 else 0)) % 7200
              time := s.timebase, tp := tp, perTp := pitchSteps s.tracker.wheel
              span := pitchSteps s.tracker.wheel } →
        exec .crankEdge s = .next
          (fireDue 68 (setCommitRef e (takeWindow e (catchUp e (insertPendingMarks
            ((queueNotice (.syncChange .camLimp .fullSync .crankRestored)
              ((abortCoilCheck .edge s).withTracker
                { v with
                  sync := .fullSync, half := some half, edgeAngle := some e.angle
                  cam := { s.tracker.cam with wrongPhase := 0, revsNoExtra := 0 } })).withQueue
              { s.queue with
                commitRef := none
                frontier := match s.queue.commitRef with
                  | some r => some ((r.angle + r.span) % 7200)
                  | none => s.queue.frontier })))))))))

/-- A pitch edge below tooth N−3 is counted and moves the edge angle one pitch on. In HALF_SYNC nothing else changes.
In FULL_SYNC it is handed on: pending marks, catch-up, commit window, commit reference, firings. A gap edge at tooth
N−3 returns to tooth 0, toggles the half in FULL_SYNC, and raises the revolutions count, whose fourth sets the cam
fault latch with CAM_FAULT MISSING. The window holds the WAITING entries nearer than the span. A WAITING entry is
committed at the edge's time plus the delay to its target; a PULSE below 120 ticks of available time leaves with
LIMIT, and below its energizing time it is TRUNCATED to it. At a catch-up a passed ARM or MARK entry is committed for
the edge's time, and a passed PULSE leaves with LATE. Each pending mark that is enabled is inserted WAITING at its
angle, and the set is emptied. When a limit counts as passed, that the firings belong to the edge, 68 of them at most,
and that CAM_FAULT stands before their notices are the model's readings (log entries 10, 25 and 13). -/
def Obligations.PitchEdgeCountedHalfSync : Prop :=
  (∀ (s : State) (p : Tick) (t1 : Nat) (hist : List Nat),
    s.resetHeld = false → s.tracker.prevCrank = some p →
    s.tracker.crankHist = t1 :: hist → crankSpurious s.tracker (rawInterval p s.timebase) = false →
    10 * rawInterval p s.timebase < 22 * t1 → s.tracker.tooth ≠ lastTooth s.tracker.wheel →
    (s.tracker.sync = .halfSync →
      exec .crankEdge s = .next
        ((abortCoilCheck .edge s).withTracker
          { s.tracker with
            prevCrank := some s.timebase, stallRef := some s.timebase
            crankHist := pushPeriod (rawInterval p s.timebase) (t1 :: hist)
            crankTp := formTp s.plan.engine.accelComp (pushPeriod (rawInterval p s.timebase) (t1 :: hist))
            tooth := s.tracker.tooth + 1
            edgeAngle := some
              ((s.plan.engine.gapOffset + (s.tracker.tooth + 1) * pitchSteps s.tracker.wheel) % 3600) })) ∧
    (∀ (half : Bool) (tp : Nat) (e : EdgeRef), s.tracker.sync = .fullSync → s.tracker.half = some half →
      formTp s.plan.engine.accelComp (pushPeriod (rawInterval p s.timebase) (t1 :: hist)) = some tp →
      e = { angle := (s.plan.engine.gapOffset + (s.tracker.tooth + 1) * pitchSteps s.tracker.wheel
              + (if half then 3600 else 0)) % 7200
            time := s.timebase, tp := tp, perTp := pitchSteps s.tracker.wheel
            span := if s.tracker.tooth + 1 = lastTooth s.tracker.wheel then 3 * pitchSteps s.tracker.wheel
              else pitchSteps s.tracker.wheel } →
      exec .crankEdge s = .next
        (fireDue 68 (setCommitRef e (takeWindow e (catchUp e (insertPendingMarks
          ((abortCoilCheck .edge s).withTracker
            { s.tracker with
              prevCrank := some s.timebase, stallRef := some s.timebase
              crankHist := pushPeriod (rawInterval p s.timebase) (t1 :: hist), crankTp := some tp
              tooth := s.tracker.tooth + 1, edgeAngle := some e.angle })))))))) ∧
  (∀ (s u : State) (p : Tick) (t1 : Nat) (hist : List Nat) (v : Tracker),
    s.resetHeld = false → s.tracker.prevCrank = some p → s.tracker.crankHist = t1 :: hist →
    crankSpurious s.tracker (rawInterval p s.timebase) = false →
    22 * t1 ≤ 10 * rawInterval p s.timebase → 10 * rawInterval p s.timebase ≤ 38 * t1 →
    s.tracker.tooth = lastTooth s.tracker.wheel →
    u = (if s.tracker.cam.revsNoExtra = 3 ∧ s.tracker.camFault = false then
        queueNotice (.camFault .missing) ((abortCoilCheck .edge s).withTracker v)
      else (abortCoilCheck .edge s).withTracker v) →
    v = { s.tracker with
      prevCrank := some s.timebase, stallRef := some s.timebase
      crankHist := pushPeriod (roundDiv (rawInterval p s.timebase) 3) (t1 :: hist)
      crankTp := formTp s.plan.engine.accelComp
        (pushPeriod (roundDiv (rawInterval p s.timebase) 3) (t1 :: hist))
      tooth := 0, gapCount := min 4 (s.tracker.gapCount + 1), half := v.half, edgeAngle := v.edgeAngle
      camFault := s.tracker.camFault || decide (s.tracker.cam.revsNoExtra = 3)
      cam := { s.tracker.cam with
        revsNoExtra := if s.tracker.cam.revsNoExtra < 4 then s.tracker.cam.revsNoExtra + 1
          else s.tracker.cam.revsNoExtra } } →
    (s.tracker.sync = .halfSync → v.half = s.tracker.half →
      v.edgeAngle = some (s.plan.engine.gapOffset % 3600) → exec .crankEdge s = .next u) ∧
    (∀ (half : Bool) (tp : Nat) (e : EdgeRef), s.tracker.sync = .fullSync → s.tracker.half = some half →
      v.half = some (!half) → v.edgeAngle = some e.angle → v.crankTp = some tp →
      e = { angle := (s.plan.engine.gapOffset + (if half then 0 else 3600)) % 7200
            time := s.timebase, tp := tp, perTp := pitchSteps s.tracker.wheel
            span := pitchSteps s.tracker.wheel } →
      exec .crankEdge s = .next
        (fireDue 68 (setCommitRef e (takeWindow e (catchUp e (insertPendingMarks u))))))) ∧
  (∀ (s : State) (e : EdgeRef) (y : Entry) (target d : Nat), s.queue.Bounded → s.Linked →
    findEntry y.key s = some y → y.commit = none → y.target = some target →
    d = (2 * (forward e.angle target * e.tp) + e.perTp) / (2 * e.perTp) →
    (e.span ≤ forward e.angle target → findEntry y.key (takeWindow e s) = some y) ∧
    (forward e.angle target < e.span →
      ((∀ c n, y.key ≠ .pulse c n) →
        findEntry y.key (takeWindow e s) = some { y with commit := some { ref := e.time, delay := d } }) ∧
      (∀ c n k en x, y.key = .pulse c n → y.pulse = some (k, en) → s.contexts.get c = some x →
        (commitAvailable e x.armAngle x.eoiAngle target < 120 → findEntry y.key (takeWindow e s) = none) ∧
        (120 ≤ commitAvailable e x.armAngle x.eoiAngle target →
          findEntry y.key (takeWindow e s) = some { y with
            pulse := some (k, min en (commitAvailable e x.armAngle x.eoiAngle target).toNat)
            commit := some { ref := e.time, delay := d } })))) ∧
  (∀ (s : State) (e : EdgeRef) (y : Entry) (target d : Nat), findEntry y.key s = some y → y.commit = none →
    y.target = some target → d = (2 * (forward e.angle target * e.tp) + e.perTp) / (2 * e.perTp) →
    ((∀ c n, y.key ≠ .pulse c n) →
      commitKey e y.key s = s.withQueue
        { s.queue with
          entries := s.queue.entries.map fun z =>
            if z.key = y.key then { z with commit := some { ref := e.time, delay := d } } else z }) ∧
    (∀ c n k en x z av, y.key = .pulse c n → y.pulse = some (k, en) → s.contexts.get c = some x →
      findSlot n x.slots = some z → z.st = .waiting → av = commitAvailable e x.armAngle x.eoiAngle target →
      (av < 120 →
        commitKey e y.key s = reportUnfired c n (.suppressed .limit)
          (s.withQueue { s.queue with entries := s.queue.entries.filter fun w => !(w.key == y.key) })) ∧
      (120 ≤ av →
        findEntry y.key (commitKey e y.key s)
          = some { y with
              pulse := some (k, min en av.toNat), commit := some { ref := e.time, delay := d } } ∧
        (commitKey e y.key s).contexts = s.contexts.set c (some { x with
          slots := mapSlot n
            (fun w => { w with
              st := .committed (later e.time d), truncated := w.truncated || decide (av < (en : Int)) })
            x.slots })))) ∧
  (∀ (e : EdgeRef) (arm limit target : Nat),
    (forward arm e.angle ≤ forward arm limit ∨ forward e.angle arm ≤ forward e.angle target →
      commitAvailable e arm limit target
        = (delay e (forward e.angle limit) : Int) - (delay e (forward e.angle target) : Int)) ∧
    (forward arm limit < forward arm e.angle → forward e.angle target < forward e.angle arm →
      commitAvailable e arm limit target = 0)) ∧
  (∀ (s : State) (e : EdgeRef) (f : Nat), s.queue.Bounded → s.queue.frontier = some f →
    (catchUp e s).queue.frontier = none ∧
    (∀ y target, findEntry y.key s = some y → y.commit = none → y.target = some target →
      (3600 ≤ forward f e.angle ∨ forward f e.angle ≤ forward f target →
        findEntry y.key (catchUp e s) = some y) ∧
      (forward f e.angle < 3600 → forward f target < forward f e.angle →
        ((∀ c n, y.key ≠ .pulse c n) →
          findEntry y.key (catchUp e s) = some { y with commit := some { ref := e.time, delay := 0 } }) ∧
        (∀ c n, y.key = .pulse c n → findEntry y.key (catchUp e s) = none ∧
          catchUpKey e y.key s = reportUnfired c n (.suppressed .late) (removeKey y.key s))))) ∧
  (∀ s : State, s.queue.Bounded →
    (∃ xs, insertPendingMarks s = s.withQueue { s.queue with entries := xs, pendingMarks := [] }) ∧
    (∀ (i : MarkIx) (m : AngleMark), s.plan.marks[i.val]? = some m →
      findEntry (.mark i) (insertPendingMarks s)
        = (findEntry (.mark i) s).or
            (if i ∈ s.queue.pendingMarks ∧ m.enabled = true then
              some { key := .mark i, target := some m.angle, pulse := none, commit := none }
            else none)) ∧
    (∀ k, (∀ i, k ≠ .mark i) → findEntry k (insertPendingMarks s) = findEntry k s))

/-- In FULL_SYNC a gap error is a sync loss: SEEKING, the angle absent, the queue and the waiting slots empty, and the
pulses under way left to run. The outcome of every unstarted pulse is WITHDRAWN with SYNC_LOST. A slot that ends
unstarted takes the PENDING DWELL slots that follow it with it, as ANCHOR_LOST. In HALF_SYNC a gap error leads to
SEEKING too and changes nothing outside the tracker but for its notice. It is a pitch edge where a gap is expected, a
gap edge where none is, or a long edge; its interval is pushed by its class, and a gap edge becomes the reference.
SYNC_CHANGE with GAP_ERROR is sent, before the notices of the contexts that the loss closes and of a swap that lands.
That a gap edge at the wrong count raises no revolutions count and sets no cam fault latch (log entry 30), that the
candidate count is left (29), and the order of the notices (13) are the model's readings. -/
def Obligations.GapErrorLosesSync : Prop :=
  (∀ (s : State) (p : Tick) (i : Nat) (k : CrankClass) (hist : List Nat) (v : Tracker),
    s.resetHeld = false → s.tracker.prevCrank = some p →
    i = rawInterval p s.timebase → crankSpurious s.tracker i = false →
    k = (match s.tracker.crankHist with
      | [] => .pitch
      | t1 :: _ => if 10 * i < 22 * t1 then .pitch else if 10 * i ≤ 38 * t1 then .gap else .long) →
    hist = (match k with
      | .pitch => pushPeriod i s.tracker.crankHist
      | .gap => pushPeriod (roundDiv i 3) s.tracker.crankHist
      | .long => []) →
    (k = .pitch ∧ s.tracker.tooth = lastTooth s.tracker.wheel ∨ k = .long ∨
      k = .gap ∧ s.tracker.tooth ≠ lastTooth s.tracker.wheel) →
    v = { s.tracker with
      sync := .seeking, prevCrank := some s.timebase, stallRef := some s.timebase, crankHist := hist
      crankTp := formTp s.plan.engine.accelComp hist, refGap := decide (k = .gap)
      tooth := if k = .gap then 0 else s.tracker.tooth
      gapCount := 0, half := none, edgeAngle := none } →
    (s.tracker.sync = .halfSync →
      exec .crankEdge s = .next
        (queueNotice (.syncChange .halfSync .seeking .gapError) ((abortCoilCheck .edge s).withTracker v))) ∧
    (s.tracker.sync = .fullSync →
      ∃ t, exec .crankEdge s = .next t ∧
        t.tracker = { v with cam := { s.tracker.cam with hist := [], tp := none } } ∧
        WithdrawalNotices [.syncChange .fullSync .seeking .gapError] (swapNotice s) (abortCoilCheck .edge s) t ∧
        t.plan = (if s.plan.swapPending then s.plan.land else s.plan))) ∧
  (∀ (s : State) (p : Tick), s.resetHeld = false → s.tracker.sync = .fullSync → s.tracker.prevCrank = some p →
    crankSpurious s.tracker (rawInterval p s.timebase) = false →
    gapError (crankClass s.tracker.crankHist (rawInterval p s.timebase)) s.tracker = true →
    ∃ t, exec .crankEdge s = .next t ∧
      t.tracker.sync = .seeking ∧ t.tracker.half = none ∧ t.tracker.edgeAngle = none ∧
      t.tracker.gapCount = 0 ∧ t.tracker.cam.hist = [] ∧ t.tracker.prevCrank = some s.timebase ∧
      t.tracker.refGap =
        decide (crankClass s.tracker.crankHist (rawInterval p s.timebase) = .gap) ∧
      t.queue.entries = [] ∧ t.queue.pendingMarks = [] ∧ t.queue.commitRef = none ∧
      (∀ b, (t.bank b).waiting = none ∧ (t.bank b).drive = (s.bank b).drive) ∧
      t.run.fuelcut = s.run.fuelcut ∧ t.run.band = s.run.band ∧ t.timebase = s.timebase ∧
      (∀ c, t.diag.score.get c = s.diag.score.get c) ∧
      (s.Tied → UnstartedEnd (.withdrawn .syncLost) s t)) ∧
  (∀ (n : Nat) (o : SlotOutcome) (before deps rest : List Slot) (x : Slot), x.num = n →
    (∀ y ∈ before, y.num ≠ n) → x.st.isUnstarted = true →
    (∀ y ∈ deps, y.st = .pending ∧ y.isDwell = true) →
    (∀ y, rest.head? = some y → y.st ≠ .pending ∨ y.isDwell = false) →
    resolveUnfired n o (before ++ x :: (deps ++ rest))
      = before ++ { x with st := .resolved o }
          :: (deps.map (fun y => { y with st := .resolved (.suppressed .anchorLost) }) ++ rest))

/-- What a cam edge does in each sync state. STOPPED: the cam-only search, which starts CAM_LIMP at a count of 2 with
the crank fault latch set and cam-limp enabled. SEEKING: recorded, no other effect. HALF_SYNC: the extra tooth phases
the tracker. FULL_SYNC: recorded with its period, the extra tooth clears the counts, a second wrong phase leads to
HALF_SYNC. CAM_LIMP: rejected, accepted and handed on, or a mismatch. A cam edge has the identity of the nearest
candidate within the cam tolerance, a tie going to the regular tooth, and unknown beyond it; phasing takes the half
that places it nearer to S. A sync gain inserts a WAITING entry for each enabled mark and, in RUN, for each defined
cylinder. A wrong phase and a mismatch send CAM_FAULT with their cause if the latch was clear, then SYNC_CHANGE with
theirs, then the notices of the contexts closed and of a swap that lands. The order of the last two (log entry 13),
the identity unknown and the last accepted edge outside the rules' words (log entry 11), the absent half
(18), the firings within the edge (25), the candidate count a mismatch leaves (29) and the range of the edge count
(31) are the model's readings. -/
def Obligations.CamEdgePhases : Prop :=
  (∀ (s : State) (m a : Nat) (cs : List CamId) (place dist : CamId → Nat),
    (s.tracker.sync = .halfSync ∧ m = 3600 ∧ cs = [.regular 0, .regular 1, .regular 2, .extra] ∨
      s.tracker.sync = .fullSync ∧ m = 7200 ∧
        cs = [.regular 0, .regular 1, .regular 2, .regular 3, .regular 4, .regular 5, .extra, .phantom]) →
    interpolated s.tracker s.timebase = some a →
    place .extra = s.plan.engine.camSync % m → place .phantom = (s.plan.engine.camSync + 3600) % m →
    place (.regular 0) = (s.plan.engine.camSync + 6900) % m →
    place (.regular 1) = (s.plan.engine.camSync + 900) % m →
    place (.regular 2) = (s.plan.engine.camSync + 2100) % m →
    place (.regular 3) = (s.plan.engine.camSync + 3300) % m →
    place (.regular 4) = (s.plan.engine.camSync + 4500) % m →
    place (.regular 5) = (s.plan.engine.camSync + 5700) % m →
    (∀ x, dist x = min ((place x + (m - a)) % m) ((a + (m - place x)) % m)) →
    ((∀ x ∈ cs, s.plan.engine.camTolerance < dist x) → identifyCam s = .unknown) ∧
    (∀ x ∈ cs, dist x ≤ s.plan.engine.camTolerance →
      (∀ y ∈ cs, y ≠ x → dist x < dist y ∨ (dist x = dist y ∧ (∃ k, x = .regular k) ∧ ∀ k, y ≠ .regular k)) →
      identifyCam s = x)) ∧
  (∀ (s : State) (e : EdgeRef) (adv camSync : Nat) (d : Bool → Nat), carrier s.tracker = some e →
    adv = min (elapsed e.time s.timebase * e.perTp / e.tp) (e.span - 1) →
    (∀ half, d half = distance 7200
      ((s.plan.engine.gapOffset + s.tracker.tooth * pitchSteps s.tracker.wheel + (if half then 3600 else 0) + adv)
        % 7200) camSync) →
    (d true < d false → phasedHalf s.plan.engine.gapOffset camSync (advanceNow s) s.tracker = true) ∧
    (d false < d true → phasedHalf s.plan.engine.gapOffset camSync (advanceNow s) s.tracker = false)) ∧
  (∀ s : State, s.queue.Bounded →
    (∃ xs, queueGain s = s.withQueue { s.queue with entries := xs, commitRef := none }) ∧
    (∀ (i : MarkIx) (m : AngleMark), s.plan.marks[i.val]? = some m →
      findEntry (.mark i) (queueGain s)
        = (findEntry (.mark i) s).or
            (if m.enabled then some { key := .mark i, target := some m.angle, pulse := none, commit := none }
            else none)) ∧
    (∀ c, findEntry (.arm c) (queueGain s)
      = (findEntry (.arm c) s).or
          (match s.run.mode, (s.plan.cyls.get c).place with
          | .run, some pl => some
              { key := .arm c, pulse := none, commit := none
                target := some (((pl.tdc : Int) - (s.plan.engine.armingLead : Int)) % 7200).toNat }
          | _, _ => none)) ∧
    (∀ c n, findEntry (.pulse c n) (queueGain s) = findEntry (.pulse c n) s)) ∧
  ∀ s : State, s.resetHeld = false →
    (s.tracker.sync = .stopped → ∀ (cand : Bool) (n since : Nat) (t : Tracker),
      (cand = true ↔ ∃ p i rest, s.tracker.cam.lastEdge = some p ∧ s.tracker.cam.raw = i :: rest ∧
        3 * rawInterval p s.timebase < i) →
      n = (if cand then
          (if s.tracker.cam.candidates = 0 then 1 else if s.tracker.cam.sinceCandidate = 6 then 2 else 1)
        else if s.tracker.cam.sinceCandidate = 6 then 0 else s.tracker.cam.candidates) →
      since = (if cand then 0 else if s.tracker.cam.sinceCandidate = 6 then 7
        else min 7 (s.tracker.cam.sinceCandidate + 1)) →
      t = { s.tracker with
        stallRef := some s.timebase
        cam := { s.tracker.cam with
          lastEdge := some s.timebase, lastAccepted := some s.timebase
          raw := pushRaw (camRaw s.tracker.cam s.timebase) s.tracker.cam.raw, identity := .unknown
          candidates := n, sinceCandidate := since } } →
      (cand = false ∨ n ≠ 2 ∨ s.tracker.crankFault = false ∨ s.plan.engine.camLimp = false →
        exec .camEdge s = .next ((abortCoilCheck .edge s).withTracker t)) ∧
      (∀ tp, cand = true → n = 2 → s.tracker.crankFault = true → s.plan.engine.camLimp = true →
        formTp s.plan.engine.accelComp (startHistory t.cam.raw) = some tp →
        exec .camEdge s = .next
          (handEdge
            { angle := s.plan.engine.camSync % 7200, time := s.timebase, tp := tp, span := 900, perTp := 1200 }
            (queueGain (queueNotice (.syncChange .stopped .camLimp .camStart)
              ((abortCoilCheck .edge s).withTracker
                { t with
                  sync := .camLimp, edgeAngle := some (s.plan.engine.camSync % 7200), crankHist := []
                  crankTp := none, refGap := false, gapCount := 0
                  cam := { t.cam with
                    identity := .extra, hist := startHistory t.cam.raw, tp := some tp } })))))) ∧
    (s.tracker.sync = .seeking →
      exec .camEdge s = .next
        ((abortCoilCheck .edge s).withTracker
          { s.tracker with
            stallRef := some s.timebase
            cam := { s.tracker.cam with
              lastEdge := some s.timebase, lastAccepted := some s.timebase
              raw := pushRaw (camRaw s.tracker.cam s.timebase) s.tracker.cam.raw, identity := .unknown } })) ∧
    (s.tracker.sync = .halfSync → identifyCam s = .extra →
      exec .camEdge s = .next
        (queueGain (queueNotice (.syncChange .halfSync .fullSync .camPhased)
          ((abortCoilCheck .edge s).withTracker
            { s.tracker with
              sync := .fullSync, stallRef := some s.timebase
              half := some (phasedHalf s.plan.engine.gapOffset s.plan.engine.camSync (advanceNow s) s.tracker)
              edgeAngle := some (crankCycleAngle s.plan.engine.gapOffset s.tracker
                (phasedHalf s.plan.engine.gapOffset s.plan.engine.camSync (advanceNow s) s.tracker))
              cam := { s.tracker.cam with
                lastEdge := some s.timebase, lastAccepted := some s.timebase
                raw := pushRaw (camRaw s.tracker.cam s.timebase) s.tracker.cam.raw, identity := .extra
                wrongPhase := 0, revsNoExtra := 0 } })))) ∧
    (s.tracker.sync = .halfSync → identifyCam s ≠ .extra →
      exec .camEdge s = .next
        ((abortCoilCheck .edge s).withTracker
          { s.tracker with
            stallRef := some s.timebase
            cam := { s.tracker.cam with
              lastEdge := some s.timebase, lastAccepted := some s.timebase
              raw := pushRaw (camRaw s.tracker.cam s.timebase) s.tracker.cam.raw
              identity := identifyCam s } })) ∧
    (s.tracker.sync = .fullSync → ∀ (hist : List Nat) (tp : Option Nat) (t : Tracker),
      (∀ p x span, s.tracker.cam.lastEdge = some p → s.tracker.cam.identity.next = some (x, span) →
        identifyCam s = x →
        hist = pushPeriod ((2 * (rawInterval p s.timebase * 1200) + span) / (2 * span)) s.tracker.cam.hist ∧
        tp = formTp s.plan.engine.accelComp hist) →
      ((∀ p x span, s.tracker.cam.lastEdge = some p → s.tracker.cam.identity.next = some (x, span) →
        identifyCam s ≠ x) → hist = s.tracker.cam.hist ∧ tp = s.tracker.cam.tp) →
      t = { s.tracker with
        stallRef := some s.timebase
        cam := { s.tracker.cam with
          lastEdge := some s.timebase, lastAccepted := some s.timebase
          raw := pushRaw (camRaw s.tracker.cam s.timebase) s.tracker.cam.raw, identity := identifyCam s
          hist := hist, tp := tp } } →
      (identifyCam s = .unknown ∨ (∃ k, identifyCam s = .regular k) →
        exec .camEdge s = .next ((abortCoilCheck .edge s).withTracker t)) ∧
      (identifyCam s = .extra →
        exec .camEdge s = .next
          ((abortCoilCheck .edge s).withTracker
            { t with cam := { t.cam with wrongPhase := 0, revsNoExtra := 0 } })) ∧
      (identifyCam s = .phantom → s.tracker.cam.wrongPhase = 0 →
        exec .camEdge s = .next
          ((abortCoilCheck .edge s).withTracker
            { t with cam := { t.cam with wrongPhase := 1, revsNoExtra := 0 } })) ∧
      (identifyCam s = .phantom → s.tracker.cam.wrongPhase ≠ 0 →
        ∃ u, exec .camEdge s = .next u ∧
          u.tracker = { t with
            sync := .halfSync, half := none, camFault := true
            edgeAngle := some
              ((s.plan.engine.gapOffset + s.tracker.tooth * pitchSteps s.tracker.wheel) % 3600)
            cam := { t.cam with wrongPhase := 0, revsNoExtra := 0, hist := [], tp := none } } ∧
          u.queue.entries = [] ∧ (∀ b, (u.bank b).waiting = none ∧ (u.bank b).drive = (s.bank b).drive) ∧
          u.plan = (if s.plan.swapPending then s.plan.land else s.plan) ∧ u.timebase = s.timebase ∧
          WithdrawalNotices
            ((if s.tracker.camFault then [] else [.camFault .wrongPhase])
              ++ [.syncChange .fullSync .halfSync .camWrongPhase])
            (swapNotice s) (abortCoilCheck .edge s) u)) ∧
    (s.tracker.sync = .camLimp → ∀ (p : Tick) (x : CamId) (span tp i : Nat),
      s.tracker.cam.lastAccepted = some p → s.tracker.cam.identity.next = some (x, span) →
      s.tracker.cam.tp = some tp → i = rawInterval p s.timebase →
      (4 * i < (2 * (span * tp) + 1200) / 2400 →
        exec .camEdge s = .next
          ((abortCoilCheck .edge s).withTracker
            { s.tracker with spurious := min 255 (s.tracker.spurious + 1) })) ∧
      ((2 * (span * tp) + 1200) / 2400 ≤ 4 * i →
        (camPasses s.plan.engine s.tracker i x = true ↔
          (x = .extra ∧ (∃ q rest, s.tracker.cam.raw = q :: rest ∧ 3 * i < q) ∧
            distance 7200 ((s.plan.engine.camSync + 6900 + i * 1200 / tp) % 7200) s.plan.engine.camSync
              ≤ s.plan.engine.camTolerance) ∨
          ((∃ k, x = .regular k) ∧ ∀ q rest, s.tracker.cam.raw = q :: rest → q ≤ 3 * i)) ∧
        (∀ y next hist tp', camPasses s.plan.engine s.tracker i x = true → x.next = some (y, next) →
          hist = pushPeriod ((2 * (i * 1200) + span) / (2 * span)) s.tracker.cam.hist →
          formTp s.plan.engine.accelComp hist = some tp' →
          exec .camEdge s = .next
            (handEdge
              { angle := camAngle s.plan.engine.camSync x, time := s.timebase, tp := tp', span := next
                perTp := 1200 }
              ((abortCoilCheck .edge s).withTracker
                { s.tracker with
                  stallRef := some s.timebase, edgeAngle := some (camAngle s.plan.engine.camSync x)
                  cam := { s.tracker.cam with
                    lastEdge := some s.timebase, lastAccepted := some s.timebase
                    raw := pushRaw (some i) s.tracker.cam.raw, identity := x, hist := hist
                    tp := some tp' } }))) ∧
        (camPasses s.plan.engine s.tracker i x = false →
          ∃ u, exec .camEdge s = .next u ∧
            u.tracker = { s.tracker with
              sync := .seeking, camFault := true, stallRef := some s.timebase, half := none, edgeAngle := none
              cam := { s.tracker.cam with
                lastEdge := some s.timebase
                raw := pushRaw (camRaw s.tracker.cam s.timebase) s.tracker.cam.raw, identity := .unknown
                hist := [], tp := none } } ∧
            u.queue.entries = [] ∧ (∀ b, (u.bank b).waiting = none ∧ (u.bank b).drive = (s.bank b).drive) ∧
            u.plan = (if s.plan.swapPending then s.plan.land else s.plan) ∧ u.timebase = s.timebase ∧
            WithdrawalNotices
              ((if s.tracker.camFault then [] else [.camFault .limpMismatch])
                ++ [.syncChange .camLimp .seeking .camMismatch])
              (swapNotice s) (abortCoilCheck .edge s) u)))

/-- The crank deadline from HALF_SYNC leads to SEEKING with the crank state emptied; from FULL_SYNC with the
conditions of R16 it leads to CAM_LIMP at the last identified tooth, with the PULSE entries and the waiting starts
withdrawn with SYNC_LOST and every other entry kept, the commit reference absent and the end of its window the
catch-up frontier. From FULL_SYNC with a condition of R16 failing it leads to SEEKING, a sync loss that empties the
queue and the waiting slots with SYNC_LOST, leaves the pulses under way and lands a pending swap. Each move sends
SYNC_CHANGE with CRANK_DEADLINE, before the notices of the contexts closed and of a swap that lands; the crank fault
latch sends none. That the half is absent in CAM_LIMP, that Tp is kept as it stands there, that SEEKING leaves the
candidate count, and the order of the notices are the model's readings (log entries 18, 26, 29 and 13). -/
def Obligations.CrankDeadlineTaken : Prop :=
  ∀ (s : State) (p : Tick) (tp : Nat), s.resetHeld = false → s.tracker.prevCrank = some p →
    s.tracker.crankTp = some tp →
    2 * (if s.tracker.tooth = lastTooth s.tracker.wheel then 3 * tp else tp) ≤ elapsed p s.timebase →
    (s.tracker.sync = .halfSync →
      exec .crankDeadline s = .next
        (queueNotice (.syncChange .halfSync .seeking .crankDeadline)
          (s.withTracker
            { s.tracker with
              sync := .seeking, crankFault := true, crankHist := [], crankTp := none, prevCrank := none
              refGap := false, gapCount := 0, half := none, edgeAngle := none }))) ∧
    (s.tracker.sync = .fullSync → s.plan.engine.camLimp = true → s.tracker.camFault = false →
      s.tracker.cam.hist ≠ [] →
      ((∃ k, s.tracker.cam.identity = .regular k) ∨ s.tracker.cam.identity = .extra) →
      ∃ t, exec .crankDeadline s = .next t ∧
        t.tracker = { s.tracker with
          sync := .camLimp, crankFault := true, crankHist := [], crankTp := none, prevCrank := none
          refGap := false, gapCount := 0, half := none
          edgeAngle := some (camAngle s.plan.engine.camSync s.tracker.cam.identity)
          cam := { s.tracker.cam with lastAccepted := s.tracker.cam.lastEdge } } ∧
        t.queue.entries = s.queue.entries.filter (fun e => !e.isPulse) ∧
        t.queue.commitRef = none ∧
        t.queue.frontier = (match s.queue.commitRef with
          | some e => some ((e.angle + e.span) % 7200)
          | none => s.queue.frontier) ∧
        t.queue.pendingMarks = s.queue.pendingMarks ∧
        (∀ b, (t.bank b).waiting = none ∧ (t.bank b).drive = (s.bank b).drive) ∧
        t.plan = s.plan ∧ t.diag = s.diag ∧ t.timebase = s.timebase ∧
        WithdrawalNotices [.syncChange .fullSync .camLimp .crankDeadline] [] s t ∧
        (s.Tied → UnstartedEnd (.withdrawn .syncLost) s t)) ∧
    (s.tracker.sync = .fullSync →
      (s.plan.engine.camLimp = false ∨ s.tracker.camFault = true ∨ s.tracker.cam.hist = [] ∨
        s.tracker.cam.identity = .phantom ∨ s.tracker.cam.identity = .unknown) →
      ∃ t, exec .crankDeadline s = .next t ∧
        t.tracker = { s.tracker with
          sync := .seeking, crankFault := true, crankHist := [], crankTp := none, prevCrank := none
          refGap := false, gapCount := 0, half := none, edgeAngle := none
          cam := { s.tracker.cam with hist := [], tp := none } } ∧
        t.queue = { s.queue with entries := [], pendingMarks := [], commitRef := none, frontier := none } ∧
        (∀ b, t.bank b = { s.bank b with waiting := none }) ∧
        t.plan = (if s.plan.swapPending then s.plan.land else s.plan) ∧ t.diag = s.diag ∧
        t.timebase = s.timebase ∧ t.run.fuelcut = s.run.fuelcut ∧ t.run.band = s.run.band ∧
        WithdrawalNotices [.syncChange .fullSync .seeking .crankDeadline] (swapNotice s) s t ∧
        (s.Tied → UnstartedEnd (.withdrawn .syncLost) s t))

/-- The cam deadline in CAM_LIMP: SEEKING, the cam fault latch set, the angle lost and the queue empty, with CAM_FAULT
LIMP_DEADLINE if the latch was clear, then SYNC_CHANGE with CAM_DEADLINE, then the notices of the contexts closed and
of a swap that lands. That the half, which no rule reads in CAM_LIMP, is absent after it, that the candidate count is
left, and the order of the notices after SYNC_CHANGE are the model's readings (log entries 18, 29 and 13). -/
def Obligations.CamDeadlineTaken : Prop :=
  ∀ (s : State) (p : Tick) (tp : Nat), s.resetHeld = false → s.tracker.sync = .camLimp →
    s.tracker.cam.lastAccepted = some p → s.tracker.cam.tp = some tp →
    2 * roundDiv (camSpan s.tracker * tp) 1200 ≤ elapsed p s.timebase →
    ∃ t, exec .camDeadline s = .next t ∧
      t.tracker = { s.tracker with
        sync := .seeking, camFault := true, half := none, edgeAngle := none
        cam := { s.tracker.cam with hist := [], tp := none } } ∧
      t.queue.entries = [] ∧ t.queue.pendingMarks = [] ∧ t.queue.commitRef = none ∧ t.queue.frontier = none ∧
      (∀ b, (t.bank b).waiting = none ∧ (t.bank b).drive = (s.bank b).drive) ∧
      t.diag = s.diag ∧ t.timebase = s.timebase ∧
      t.plan = (if s.plan.swapPending then s.plan.land else s.plan) ∧
      WithdrawalNotices
        ((if s.tracker.camFault then [] else [.camFault .limpDeadline])
          ++ [.syncChange .camLimp .seeking .camDeadline])
        (swapNotice s) s t ∧
      (s.Tied → UnstartedEnd (.withdrawn .syncLost) s t)

/-- The stall timeout: outside STOPPED the tracker goes to STOPPED with its histories, times, counts and the cam tooth
history cleared, the latches and the spurious edge count kept, and the queue empty when the angle was known; in
STOPPED the cam tooth history alone is cleared. SYNC_CHANGE with STALL is sent; where the angle was known the notices
of the contexts closed and of a swap that lands follow, in the model's order (log entry 13). -/
def Obligations.StallTimeoutTaken : Prop :=
  ∀ (s : State) (r : Tick), s.resetHeld = false →
    2000 * s.plan.engine.stallMs ≤ elapsed r s.timebase →
    (s.tracker.sync ≠ .stopped → s.tracker.stallRef = some r →
      ∃ t, exec .stallTimeout s = .next t ∧
        t.tracker = { s.tracker with
          sync := .stopped, crankHist := [], crankTp := none, prevCrank := none, refGap := false, tooth := 0
          gapCount := 0, half := none, edgeAngle := none, stallRef := none, cam := resetCam } ∧
        (s.tracker.sync.holdsAngle = true →
          t.queue.entries = [] ∧ (∀ b, (t.bank b).waiting = none) ∧
          t.plan = (if s.plan.swapPending then s.plan.land else s.plan) ∧
          WithdrawalNotices [.syncChange s.tracker.sync .stopped .stall] (swapNotice s) s t ∧
          (s.Tied → UnstartedEnd (.withdrawn .syncLost) s t)) ∧
        (s.tracker.sync.holdsAngle = false →
          t.queue = s.queue ∧ (∀ b, t.bank b = s.bank b) ∧ t.plan = s.plan ∧
          t.link = (queueNotice (.syncChange s.tracker.sync .stopped .stall) s).link) ∧
        (∀ b, (t.bank b).drive = (s.bank b).drive) ∧ t.diag = s.diag ∧ t.timebase = s.timebase) ∧
    (s.tracker.sync = .stopped → s.tracker.cam.lastEdge = some r →
      exec .stallTimeout s = .next (s.withTracker { s.tracker with cam := resetCam }))

/-! ## The Firing Queue and the cycles -/

/-- A fired MARK entry is put back WAITING at its angle; the strobe flag sets the line's end time 20 ticks on;
the notice flag raises MARK with the index, the angle and the speed of the moment; nothing else changes. -/
def Obligations.FiredMarkPutBack : Prop :=
  ∀ (s : State) (e : Entry) (i : MarkIx) (m : AngleMark), s.resetHeld = false → firstDue s = some e →
    e.key = .mark i → s.plan.marks[i.val]? = some m →
    ∃ t, exec .fire s = .next t ∧
      t.queue = { s.queue with
        entries := insertByKey { e with commit := none } (s.queue.entries.filter fun x => !(x.key == e.key))
        strobeUntil := if m.strobe then some (s.timebase + 20) else s.queue.strobeUntil } ∧
      t.link = (if m.notice then
          (queueNotice (.mark i.val (interpolated s.tracker s.timebase) (speed s.tracker)) s).link
        else s.link) ∧
      t.tracker = s.tracker ∧ t.plan = s.plan ∧ t.contexts = s.contexts ∧ t.records = s.records ∧
      (∀ b, t.bank b = s.bank b) ∧ t.diag = s.diag ∧ t.run = s.run ∧ t.timebase = s.timebase ∧
      t.pending = s.pending

/-- An ARM entry that fires under the fuel cut writes a CUT record with reason FUELCUT and the serial of the active
page after the swap step, is put back, counts expiry, and opens no context. The expiry step raises the count below the
expiry value, and a count that then equals it sets stale with PLAN_STALE, once. In general the first cut reason of the
list of checks that holds cuts the cycle; with none the arm event opens a context with the latched copies of the
page's slots, shapes them in order and makes the close test. Each shaping test that fails gives its reason; a slot
that passes waits in the queue, or is committed from the commit reference. The quiet window test takes the first
window that holds the start: it suppresses, or moves the start to the window's end, four times at most. An overrun
ends the unstarted slots of the open context with OVERRUN. The checks after the overrun, and the entries inserted as
reached fired first, are the model's readings (log entries 28 and 32). -/
def Obligations.ArmEventCutByFuelcut : Prop :=
  (∀ (s : State) (e : Entry) (c : Cyl) (pl : Placement), s.resetHeld = false → s.Gated →
    firstDue s = some e → e.key = .arm c → (s.plan.cyls.get c).place = some pl → s.contexts.get c = none →
    s.run.fuelcut = true →
    ∃ t, exec .fire s = .next t ∧
      t.records = s.records.set c (some
        { cyl := c, serial := (if s.plan.swapPending then s.plan.land else s.plan).activePage.serial
          armAngle := e.target.getD 0, outcome := .cut .fuelcut, results := [] }) ∧
      t.queue = { s.queue with
        entries := insertByKey (armEntry s c pl) (s.queue.entries.filter fun x => !(x.key == e.key)) } ∧
      t.plan.active = (if s.plan.swapPending then s.plan.active.other else s.plan.active) ∧
      t.plan.expiry =
        (if (if s.plan.swapPending then 0 else s.plan.expiry) < s.plan.engine.planExpiry then
          (if s.plan.swapPending then 0 else s.plan.expiry) + 1
        else (if s.plan.swapPending then 0 else s.plan.expiry)) ∧
      t.contexts = s.contexts ∧ t.tracker = s.tracker ∧ (∀ b, t.bank b = s.bank b) ∧ t.diag = s.diag ∧
      t.run = s.run ∧ t.timebase = s.timebase) ∧
  (∀ (s : State) (n : Nat),
    n = (if s.plan.expiry < s.plan.engine.planExpiry then s.plan.expiry + 1 else s.plan.expiry) →
    (n = s.plan.engine.planExpiry → s.plan.stale = false →
      countExpiry s = queueNotice (.planStale s.plan.activePage.serial s.plan.engine.planExpiry)
        (s.withPlan { s.plan with expiry := n, stale := true })) ∧
    (n ≠ s.plan.engine.planExpiry ∨ s.plan.stale = true →
      countExpiry s = s.withPlan { s.plan with expiry := n })) ∧
  (∀ (s u : State) (e : Entry) (c : Cyl) (pl : Placement) (cut : Option CutReason) (r : CutReason → CycleRecord),
    s.resetHeld = false → s.Tied → firstDue s = some e → e.key = .arm c →
    (s.plan.cyls.get c).place = some pl →
    u = overrun c (countExpiry (landIfPending (some c) (insertArm c (removeKey e.key s)))) →
    cut = (if s.run.fuelcut then some .fuelcut else if s.run.band = .critical then some .supplyCritical
      else if s.plan.engine.overspeed < speed s.tracker then some .overspeed
      else if (s.plan.cyls.get c).disabled then some .controllerDisabled
      else if u.diag.disabled.get c then some .faultDisabled
      else if u.plan.stale then some .stale else none) →
    (∀ k, r k = { cyl := c, serial := u.plan.activePage.serial, armAngle := e.target.getD 0, outcome := .cut k
                  results := [] }) →
    (∀ k, cut = some k → exec .fire s = .next (writeRecord (r k) u)) ∧
    (∀ n, cut = none → s.plan.testCut = some (c, n) →
      (n ≤ 1 → exec .fire s = .next (queueNotice (.testCutDone c)
        (writeRecord (r .testCut) (u.withPlan { u.plan with testCut := none })))) ∧
      (1 < n → exec .fire s = .next
        (writeRecord (r .testCut) (u.withPlan { u.plan with testCut := some (c, n - 1) })))) ∧
    (cut = none → (∀ n, s.plan.testCut ≠ some (c, n)) →
      (s.plan.derateN ≤ s.plan.derateAcc + s.plan.derateK →
        exec .fire s = .next
          (writeRecord (r .derate)
            (u.withPlan { u.plan with derateAcc := s.plan.derateAcc + s.plan.derateK - s.plan.derateN }))) ∧
      (s.plan.derateAcc + s.plan.derateK < s.plan.derateN → ∀ x : CycleContext,
        x = { cyl := c, serial := u.plan.activePage.serial, armAngle := e.target.getD 0
              eoiAngle := (pl.tdc + (s.plan.cyls.get c).eoiLimit) % 7200, bank := pl.bank
              output := pl.output, slots := latchSlots pl.tdc 1 (u.plan.activePage.lists.get c) } →
        exec .fire s = .next
          (fireInserted c 5 (closeTest c
            (shapeSlots c ((interpolated s.tracker s.timebase).getD (e.target.getD 0))
              (x.slots.map Slot.num)
              (openContext c x
                (u.withPlan { u.plan with derateAcc := s.plan.derateAcc + s.plan.derateK })))))))) ∧
  (∀ (tdc i : Nat) (xs : List (Option PlanSlot)),
    (∀ q, xs[i]? = some (some q) →
      findSlot (i + 1) (latchSlots tdc 1 xs) = some
        { num := i + 1, kind := q.kind, energize := 2 * q.energizeUs, mayDefer := q.mayDefer, st := .latched
          deferred := false, truncated := false
          anchor := match q.anchor with
            | .angle rel => .angle (((tdc : Int) + rel) % 7200).toNat
            | .dwell us => .dwell (2 * us) }) ∧
    ((∀ q, xs[i]? ≠ some (some q)) → findSlot (i + 1) (latchSlots tdc 1 xs) = none)) ∧
  (∀ (s t : State) (c : Cyl) (x : CycleContext) (y : Slot) (n now : Nat), s.contexts.get c = some x →
    findSlot n x.slots = some y → y.st = .latched → t = shapeSlot c now n s →
    (y.kind ≠ .main ∧ (s.tracker.sync = .camLimp ∨ s.run.clock = .backup) →
      slotAt t c n = some (.resolved (.suppressed .limp))) ∧
    (y.kind = .main ∨ (s.tracker.sync ≠ .camLimp ∧ s.run.clock ≠ .backup) →
      (∀ start first deferred, y.anchor = .angle first →
        quietTest s.plan.windows x.bank y.mayDefer 4 first false = (start, deferred, false) →
        slotAt t c n = some (.resolved (.suppressed .quiet))) ∧
      (∀ start first deferred, y.anchor = .angle first →
        quietTest s.plan.windows x.bank y.mayDefer 4 first false = (start, deferred, true) →
        (forward x.armAngle x.eoiAngle < forward x.armAngle start →
          slotAt t c n = some (.resolved (.suppressed .limit))) ∧
        (forward x.armAngle start ≤ forward x.armAngle x.eoiAngle →
          (forward now x.eoiAngle < forward now start →
            slotAt t c n = some (.resolved (.suppressed .late))) ∧
          (forward now start ≤ forward now x.eoiAngle →
            (24 ≤ s.queue.entries.countP Entry.isPulse →
              slotAt t c n = some (.resolved (.suppressed .queueFull))) ∧
            (s.queue.entries.countP Entry.isPulse < 24 → ∀ u,
              u = insertEntry
                { key := .pulse c n, target := some start, pulse := some (y.kind, y.energize), commit := none }
                (updateSlots c (mapSlot n fun z => { z with deferred := deferred, st := .waiting }) s) →
              t = match s.queue.commitRef with
                | some e => if forward e.angle start < e.span then commitKey e (.pulse c n) u else u
                | none => u)))) ∧
      (∀ d z, y.anchor = .dwell d → slotBefore n none x.slots = some z →
        (z.st.isResolved = true → z.hasFired = false →
          slotAt t c n = some (.resolved (.suppressed .anchorLost))) ∧
        (z.st.isResolved = false ∨ z.hasFired = true → slotAt t c n = some .pending)))) ∧
  (∀ (ws : List QuietWindow) (b : Bank) (mayDefer deferred : Bool) (moves start : Nat),
    ((∀ w ∈ ws, w.hits b start = false) →
      quietTest ws b mayDefer moves start deferred = (start, deferred, true)) ∧
    (∀ before w rest, ws = before ++ w :: rest → (∀ v ∈ before, v.hits b start = false) →
      w.hits b start = true →
      (mayDefer = false ∨ moves = 0 →
        quietTest ws b mayDefer moves start deferred = (start, deferred, false)) ∧
      (mayDefer = true → ∀ m, moves = m + 1 →
        quietTest ws b mayDefer moves start deferred = quietTest ws b mayDefer m w.stop true)) ∧
    (∀ w : QuietWindow, w.hits b start = true ↔
      w.enabled = true ∧ (w.banks = .both ∨ w.banks = (match b with | .bankA => .onlyA | .bankB => .onlyB)) ∧
        forward w.start start < forward w.start w.stop)) ∧
  (∀ (s : State) (c : Cyl) (x : CycleContext), s.Linked → s.contexts.get c = some x →
    (overrun c s).contexts.get c = none ∧
    ∀ y ∈ x.slots, y.st.isUnstarted = true →
      outcomeAt (overrun c s) c y.num = some (.withdrawn .overrun))

/-- A fired PULSE entry of an open context leaves the queue and, with the gates open and the bank IDLE, starts: the
bank is in BOOST with the pulse latched and its cost taken from the reserve. A MAIN starts whatever the reserve; below
its cost it is marked BOOST_SHORT. A start under the fuel cut is given up with FUELCUT, one in CRITICAL shed SUPPLY,
and a PILOT or POST at an IDLE bank above the reserve shed BOOST. At a busy bank it takes an empty waiting slot, a
MAIN displaces a waiting PILOT or POST, shed COLLISION, and any other is shed COLLISION. A slot reported so has that
outcome. -/
def Obligations.FiredPulseStarts : Prop :=
  (∀ (s : State) (e : Entry) (c : Cyl) (n : Nat) (x : CycleContext) (k : PulseKind) (en : Nat)
    (q : Commitment),
    s.resetHeld = false → firstDue s = some e → e.key = .pulse c n → e.pulse = some (k, en) →
    e.commit = some q → s.contexts.get c = some x → s.run.fuelcut = false → s.run.band ≠ .critical →
    (s.bank x.bank).drive = .idle →
    (k = .main ∨ s.plan.engine.cost k ≤ (s.bank x.bank).reserve) →
    exec .fire s = .next
      (updateSlots c
        (mapSlot n (Slot.energizeAt s.timebase (interpolated s.tracker s.timebase)
          (min 1000 (elapsed q.time s.timebase))))
        ((s.withQueue
            { s.queue with entries := s.queue.entries.filter fun y => !(y.key == e.key) }).withBank x.bank
          { s.bank x.bank with
            drive := .boost
              { cyl := c, slot := n, kind := k, output := x.output, committed := q.time, energize := en
                start := s.timebase, boostLimit := 2 * s.plan.engine.maxBoostUs
                boostShort := decide ((s.bank x.bank).reserve < s.plan.engine.cost k)
                peak := none, curTest := .pending, noPeak := false, ovc := false, cut := false }
            reserve := (s.bank x.bank).reserve - s.plan.engine.cost k }))) ∧
  (∀ (s u : State) (e : Entry) (c : Cyl) (n : Nat) (x : CycleContext) (k : PulseKind) (en : Nat)
    (q : Commitment) (r : StartReq),
    s.resetHeld = false → firstDue s = some e → e.key = .pulse c n → e.pulse = some (k, en) →
    e.commit = some q → s.contexts.get c = some x →
    u = s.withQueue { s.queue with entries := s.queue.entries.filter fun y => !(y.key == e.key) } →
    r = { cyl := c, slot := n, kind := k, output := x.output, bank := x.bank, committed := q.time
          energize := en } →
    (s.run.fuelcut = true → exec .fire s = .next (reportUnfired c n (.withdrawn .fuelcut) u)) ∧
    (s.run.fuelcut = false → s.run.band = .critical →
      exec .fire s = .next (reportUnfired c n (.shed .supply) u)) ∧
    (s.run.fuelcut = false → s.run.band ≠ .critical →
      ((s.bank x.bank).drive = .idle → k ≠ .main → (s.bank x.bank).reserve < s.plan.engine.cost k →
        exec .fire s = .next (reportUnfired c n (.shed .boost) u)) ∧
      ((s.bank x.bank).drive ≠ .idle →
        ((s.bank x.bank).waiting = none →
          exec .fire s = .next (u.withBank x.bank { s.bank x.bank with waiting := some r })) ∧
        (∀ w, (s.bank x.bank).waiting = some w →
          (w.kind ≠ .main → k = .main →
            exec .fire s = .next
              (reportUnfired w.cyl w.slot (.shed .collision)
                (u.withBank x.bank { s.bank x.bank with waiting := some r }))) ∧
          (w.kind = .main ∨ k ≠ .main →
            exec .fire s = .next (reportUnfired c n (.shed .collision) u)))))) ∧
  (∀ (s : State) (c : Cyl) (n : Nat) (o : SlotOutcome) (at_ : Tick), s.Linked →
    slotAt s c n = some (.committed at_) → outcomeAt (reportUnfired c n o s) c n = some o)

/-- STROBE returns low at its end time, and nothing else changes; before it, STROBE_END has no effect. That an
event commanded before it is due has no effect is the model's choice (log entry 7). -/
def Obligations.StrobeEndsAtItsTime : Prop :=
  ∀ (s : State) (u : Tick), s.resetHeld = false → s.queue.strobeUntil = some u →
    (reached u s.timebase = true →
      exec .strobeEnd s = .next (s.withQueue { s.queue with strobeUntil := none })) ∧
    (reached u s.timebase = false → exec .strobeEnd s = .next s)

/-! ## The bank drivers -/

/-- A bank leaves BOOST for HOLD at PEAK with the peak time recorded, and at the boost limit with NO_PEAK; a
recharge unit held through BOOST is gained; PEAK outside BOOST has no effect. That an event commanded before it is
due has no effect is the model's choice (log entry 7). -/
def Obligations.BoostEndsInHold : Prop :=
  ∀ (s : State) (b : Bank), s.resetHeld = false →
    (∀ p, (s.bank b).drive = .boost p →
      exec (.peak b) s = .next
        (settleRecharge b
          (s.withBank b { s.bank b with drive := .hold { p with peak := some s.timebase } })) ∧
      (p.boostLimit ≤ elapsed p.start s.timebase →
        exec (.boostLimitExpiry b) s = .next
          (settleRecharge b (s.withBank b { s.bank b with drive := .hold { p with noPeak := true } })))) ∧
    ((s.bank b).drive.isBoost = false →
      exec (.peak b) s = .next s ∧ exec (.boostLimitExpiry b) s = .next s)

/-- The CUR test 60 ticks after the start records what CUR shows, in BOOST and in HOLD; once recorded, a later
CUR_TEST has no effect. That an event commanded when it is not due has no effect is the model's choice (log entry 7).
-/
def Obligations.CurTestRecorded : Prop :=
  ∀ (s : State) (b : Bank) (p : Pulse) (cur : Bool), s.resetHeld = false →
    (p.curTest = .pending → 60 ≤ elapsed p.start s.timebase →
      ((s.bank b).drive = .boost p →
        exec (.curTest b cur) s = .next
          (s.withBank b
            { s.bank b with drive := .boost { p with curTest := if cur then .present else .absent } })) ∧
      ((s.bank b).drive = .hold p →
        exec (.curTest b cur) s = .next
          (s.withBank b
            { s.bank b with drive := .hold { p with curTest := if cur then .present else .absent } }))) ∧
    (p.curTest ≠ .pending ∨ elapsed p.start s.timebase < 60 →
      ((s.bank b).drive = .boost p ∨ (s.bank b).drive = .hold p) →
      exec (.curTest b cur) s = .next s)

/-- A pulse that reaches its end time in BOOST or HOLD goes to DECAY for 100 ticks with its outputs off, and its
classification changes the score of its own cylinder alone. Its slot resolves FIRED with what the pulse shows. The
classification is the first class that holds, and each class moves the score by its amount within 0 to 255. The next
PENDING DWELL slot is chained from the end, or resolved by the first case of the chain test that holds. A context
whose slots are all resolved closes with its record, FIRED if a slot fired and EMPTY otherwise; any other stays open.
Diagnosis warns at half the threshold when the warning is armed, which a score below half arms again; at the threshold
it sets a clear latch, withdraws the cylinder's pulses with FAULT and sends CYL_DISABLED. A DWELL slot PENDING on a
pulse of a cylinder disabled before or by it is WITHDRAWN with FAULT, whatever its further tests, unless the fuel cut
stands. The available time of a chained slot, and that Diagnosis has the end before the context, are the model's
readings (log entries 10 and 13). The close writes the record with CYCLE_DONE; in DRAIN the close of the last open
context makes HALT, stops the drain timer and sends STOP_DONE after it, not forced and with a count of 0. -/
def Obligations.PulseEndsInDecay : Prop :=
  (∀ (s : State) (b : Bank) (p : Pulse), s.resetHeld = false →
    ((s.bank b).drive = .boost p ∨ (s.bank b).drive = .hold p) →
    p.energize ≤ elapsed p.start s.timebase →
    ∃ t, exec (.pulseEnd b) s = .next t ∧
      t = closeTest p.cyl (endReport p s.timebase (classify p)
        (diagnose p.cyl (classify p) (startDecay b p s))) ∧
      (t.bank b).drive = .decay p s.timebase (s.timebase + 100) ∧
      highSide t b = .off ∧ selectedBy t b = none ∧
      (∀ n, n = scoreAfter (classify p) (s.diag.score.get p.cyl) →
        t.diag = { s.diag with
          score := s.diag.score.set p.cyl n
          warnArmed := s.diag.warnArmed.set p.cyl (decide (n < s.plan.engine.faultThreshold / 2))
          disabled := s.diag.disabled.set p.cyl
            (s.diag.disabled.get p.cyl || decide (s.plan.engine.faultThreshold ≤ n)) } ∧
        (s.plan.engine.faultThreshold ≤ n → s.diag.disabled.get p.cyl = false →
          (∀ e ∈ t.queue.entries, ∀ m, e.key ≠ .pulse p.cyl m) ∧
          ∀ d r, (t.bank d).waiting = some r → r.cyl ≠ p.cyl)) ∧
      (∀ d, d ≠ b → (t.bank d).drive = (s.bank d).drive) ∧
      t.tracker = s.tracker ∧ t.plan = s.plan ∧ t.timebase = s.timebase ∧
      t.run.fuelcut = s.run.fuelcut ∧ t.run.band = s.run.band ∧
      (s.Tied → ∀ x y start angle slip, s.contexts.get p.cyl = some x → findSlot p.slot x.slots = some y →
        y.st = .energized start angle slip → ∀ f : FiredResult,
        f = { startAngle := angle, slip := slip, energized := elapsed p.start s.timebase
              truncated := y.truncated, boostShort := p.boostShort, cut := p.cut, diagnosis := classify p } →
        outcomeAt t p.cyl p.slot = some (.fired f) ∧
        t = closeTest p.cyl (chainAfter p.cyl p.slot s.timebase
          (updateSlots p.cyl (mapSlot p.slot fun z => { z with st := .resolved (.fired f) })
            (diagnose p.cyl (classify p) (startDecay b p s))))) ∧
      (s.Tied → s.run.fuelcut = false →
        (s.diag.disabled.get p.cyl = true ∨
          s.plan.engine.faultThreshold ≤ scoreAfter (classify p) (s.diag.score.get p.cyl)) →
        ∀ x z d, s.contexts.get p.cyl = some x → slotAfter p.slot x.slots = some z → z.st = .pending →
          z.anchor = .dwell d → outcomeAt t p.cyl z.num = some (.withdrawn .fault))) ∧
  (∀ p : Pulse,
    (p.ovc = true → classify p = .overcurrent) ∧
    (p.ovc = false → p.curTest = .absent → classify p = .openCircuit) ∧
    (p.ovc = false → p.curTest ≠ .absent → p.noPeak = true → classify p = .noPeak) ∧
    (∀ k, p.ovc = false → p.curTest ≠ .absent → p.noPeak = false → p.peak = some k →
      (3 * p.boostLimit < 4 * elapsed p.start k → classify p = .slowPeak) ∧
      (4 * elapsed p.start k ≤ 3 * p.boostLimit → classify p = .ok)) ∧
    (p.ovc = false → p.curTest ≠ .absent → p.noPeak = false → p.peak = none → classify p = .ok)) ∧
  (∀ n : Nat, scoreAfter .overcurrent n = min 255 (n + 32) ∧ scoreAfter .openCircuit n = min 255 (n + 16) ∧
    scoreAfter .noPeak n = min 255 (n + 8) ∧ scoreAfter .slowPeak n = min 255 (n + 2) ∧
    scoreAfter .ok n = n - 1) ∧
  (∀ (s u v : State) (c : Cyl) (k : Classification) (n thr : Nat) (warns disables : Bool),
    n = scoreAfter k (s.diag.score.get c) → thr = s.plan.engine.faultThreshold →
    warns = (decide (thr / 2 ≤ n) && s.diag.warnArmed.get c) →
    disables = (decide (thr ≤ n) && !s.diag.disabled.get c) →
    u = s.withDiag { s.diag with
      score := s.diag.score.set c n, warnArmed := s.diag.warnArmed.set c (decide (n < thr / 2))
      disabled := if disables then s.diag.disabled.set c true else s.diag.disabled } →
    v = (if warns then queueNotice (.faultWarn c n thr k) u else u) →
    (disables = false → diagnose c k s = v) ∧
    (disables = true →
      diagnose c k s = queueNotice (.cylDisabled c n thr k) (withdrawPulses (fun d => d == c) .fault v) ∧
      (diagnose c k s).queue.entries
        = s.queue.entries.filter (fun e => match e.key with | .pulse d _ => d != c | _ => true) ∧
      (∀ b, ((diagnose c k s).bank b).waiting = (s.bank b).waiting.filter (fun r => r.cyl != c)) ∧
      (s.Linked → ∀ m, 1 ≤ m → m ≤ 5 →
        ((∃ e ∈ s.queue.entries, e.key = .pulse c m) ∨
          ∃ b r, (s.bank b).waiting = some r ∧ r.cyl = c ∧ r.slot = m) →
        outcomeAt (diagnose c k s) c m = some (.withdrawn .fault)))) ∧
  (∀ (s t : State) (c : Cyl) (x : CycleContext) (y : Slot) (n d : Nat) (ended : Tick) (av : Int),
    s.contexts.get c = some x → (x.slots.map Slot.num).Nodup → slotAfter n x.slots = some y →
    y.st = .pending → y.anchor = .dwell d → t = chainAfter c n ended s →
    av = (match (match s.queue.commitRef with | some e => some e | none => carrier s.tracker) with
      | some e => if forward x.armAngle x.eoiAngle < forward x.armAngle e.angle then 0
          else signedDiff (later e.time (delay e (forward e.angle x.eoiAngle))) (later ended d)
      | none => 0) →
    slotAt t c y.num = some
      (if s.run.fuelcut then .resolved (.withdrawn .fuelcut)
      else if s.diag.disabled.get c then .resolved (.withdrawn .fault)
      else if s.tracker.sync ≠ .fullSync ∧ s.tracker.sync ≠ .camLimp then .resolved (.suppressed .limit)
      else if y.kind ≠ .main ∧ (s.tracker.sync = .camLimp ∨ s.run.clock = .backup) then
        .resolved (.suppressed .limp)
      else if av < 120 then .resolved (.suppressed .limit)
      else if 24 ≤ s.queue.entries.countP Entry.isPulse then .resolved (.suppressed .queueFull)
      else .committed (later ended d)) ∧
    (slotAt t c y.num = some (.committed (later ended d)) → findEntry (.pulse c y.num) s = none →
      findEntry (.pulse c y.num) t = some
        { key := .pulse c y.num, target := none, pulse := some (y.kind, min y.energize av.toNat)
          commit := some { ref := ended, delay := d } })) ∧
  (∀ (s u : State) (c : Cyl) (x : CycleContext) (r : CycleRecord), s.contexts.get c = some x → x.cyl = c →
    r = { cyl := c, serial := x.serial, armAngle := x.armAngle
          outcome := if x.slots.any Slot.hasFired then .fired else .empty
          results := x.slots.filterMap Slot.result } →
    u = (queueNotice (.cycleDone r) (s.withRecords (s.records.set c (some r)))).withContexts
      (s.contexts.set c none) →
    ((∃ y ∈ x.slots, y.st.isResolved = false) → closeTest c s = s) ∧
    ((∀ y ∈ x.slots, y.st.isResolved = true) →
      (closeTest c s).contexts = s.contexts.set c none ∧
      (closeTest c s).records = s.records.set c (some r) ∧
      (s.run.mode = .drain → (∀ d, d ≠ c → s.contexts.get d = none) →
        closeTest c s = queueNotice (.stopDone false 0)
          (u.withRun { s.run with mode := .halt, drainAt := none })) ∧
      (s.run.mode ≠ .drain ∨ (∃ d, d ≠ c ∧ s.contexts.get d ≠ none) → closeTest c s = u)))

/-- OVC in BOOST or HOLD ends the pulse at once with the OVC mark and adds 32 to its cylinder's score, up to 255,
which sets the warning flag and the fault-disabled latch of the cylinder by the threshold; a latch so set leaves the
cylinder no PULSE entry and no waiting start. Its slot resolves FIRED with OVERCURRENT, and the chain step that
PulseEndsInDecay spells out follows: a PENDING DWELL slot after it is WITHDRAWN, with FUELCUT under the fuel cut, else
with FAULT if the latch is set before or by it. During a coil check's window on an undriven bank it ends the check
with OVERCURRENT; with no check, with the check on the other bank, or past the check's 400 ticks it has no effect
there. That the window takes in its 400th tick (log entry 19), and that Circuit Diagnosis has the end before the
context, so that FAULT_WARN and CYL_DISABLED stand before CYCLE_DONE (13), are the model's readings. -/
def Obligations.OvercurrentEndsPulse : Prop :=
  ∀ (s : State) (b : Bank), s.resetHeld = false →
    (∀ p, ((s.bank b).drive = .boost p ∨ (s.bank b).drive = .hold p) →
      ∃ t, exec (.ovc b) s = .next t ∧
        (t.bank b).drive = .decay { p with ovc := true } s.timebase (s.timebase + 100) ∧
        (∀ n, n = min 255 (s.diag.score.get p.cyl + 32) →
          t.diag = { s.diag with
            score := s.diag.score.set p.cyl n
            warnArmed := s.diag.warnArmed.set p.cyl (decide (n < s.plan.engine.faultThreshold / 2))
            disabled := s.diag.disabled.set p.cyl
              (s.diag.disabled.get p.cyl || decide (s.plan.engine.faultThreshold ≤ n)) } ∧
          (s.plan.engine.faultThreshold ≤ n → s.diag.disabled.get p.cyl = false →
            (∀ e ∈ t.queue.entries, ∀ m, e.key ≠ .pulse p.cyl m) ∧
            ∀ d r, (t.bank d).waiting = some r → r.cyl ≠ p.cyl)) ∧
        (∀ d, d ≠ b → (t.bank d).drive = (s.bank d).drive) ∧
        t.tracker = s.tracker ∧ t.plan = s.plan ∧ t.timebase = s.timebase ∧
        (s.Tied → ∀ x y start angle slip, s.contexts.get p.cyl = some x → findSlot p.slot x.slots = some y →
          y.st = .energized start angle slip → ∀ f : FiredResult,
          f = { startAngle := angle, slip := slip, energized := elapsed p.start s.timebase
                truncated := y.truncated, boostShort := p.boostShort, cut := p.cut, diagnosis := .overcurrent } →
          outcomeAt t p.cyl p.slot = some (.fired f) ∧
          t = closeTest p.cyl (chainAfter p.cyl p.slot s.timebase
            (updateSlots p.cyl (mapSlot p.slot fun z => { z with st := .resolved (.fired f) })
              (diagnose p.cyl .overcurrent (startDecay b { p with ovc := true } s)))) ∧
          ∀ z d, slotAfter p.slot x.slots = some z → z.st = .pending → z.anchor = .dwell d →
            (s.run.fuelcut = true → outcomeAt t p.cyl z.num = some (.withdrawn .fuelcut)) ∧
            (s.run.fuelcut = false →
              (s.diag.disabled.get p.cyl = true ∨
                s.plan.engine.faultThreshold ≤ min 255 (s.diag.score.get p.cyl + 32)) →
              outcomeAt t p.cyl z.num = some (.withdrawn .fault)))) ∧
    ((s.bank b).drive.energized = none →
      (∀ x, s.diag.coil = some x →
        (x.bank = b → elapsed x.start s.timebase ≤ 400 →
          exec (.ovc b) s = .next
            (queueNotice (.coilResult x.cyl .overcurrent x.curTime none)
              (s.withDiag { s.diag with coil := none }))) ∧
        (x.bank ≠ b ∨ 400 < elapsed x.start s.timebase → exec (.ovc b) s = .next s)) ∧
      (s.diag.coil = none → exec (.ovc b) s = .next s))

/-- The end of DECAY: IDLE when no start waits; a waiting start within the slip limit and the gates starts in
the same event; one beyond the slip limit is shed with COLLISION. Under the fuel cut it is given up with FUELCUT, in
CRITICAL shed SUPPLY, and a PILOT or POST above the reserve is shed BOOST; each leaves the bank IDLE. -/
def Obligations.DecayEndServesWaiting : Prop :=
  ∀ (s : State) (b : Bank) (p : Pulse) (ended u : Tick), s.resetHeld = false →
    (s.bank b).drive = .decay p ended u → reached u s.timebase = true →
    ((s.bank b).waiting = none →
      exec (.decayEnd b) s = .next (s.withBank b { s.bank b with drive := .idle })) ∧
    (∀ r, (s.bank b).waiting = some r → ∀ v, v = s.withBank b { s.bank b with drive := .idle, waiting := none } →
      (s.run.fuelcut = true → exec (.decayEnd b) s = .next (reportUnfired r.cyl r.slot (.withdrawn .fuelcut) v)) ∧
      (s.run.fuelcut = false → s.run.band = .critical →
        exec (.decayEnd b) s = .next (reportUnfired r.cyl r.slot (.shed .supply) v)) ∧
      (s.run.fuelcut = false → s.run.band ≠ .critical →
        elapsed r.committed s.timebase ≤ 2 * s.plan.engine.maxSlipUs → r.kind ≠ .main →
        (s.bank b).reserve < s.plan.engine.cost r.kind →
        exec (.decayEnd b) s = .next (reportUnfired r.cyl r.slot (.shed .boost) v))) ∧
    (∀ r, (s.bank b).waiting = some r → s.run.fuelcut = false → s.run.band ≠ .critical →
      (2 * s.plan.engine.maxSlipUs < elapsed r.committed s.timebase →
        exec (.decayEnd b) s = .next
          (reportUnfired r.cyl r.slot (.shed .collision)
            (s.withBank b { s.bank b with drive := .idle, waiting := none }))) ∧
      (elapsed r.committed s.timebase ≤ 2 * s.plan.engine.maxSlipUs →
        (r.kind = .main ∨ s.plan.engine.cost r.kind ≤ (s.bank b).reserve) →
        exec (.decayEnd b) s = .next
          (updateSlots r.cyl
            (mapSlot r.slot (Slot.energizeAt s.timebase (interpolated s.tracker s.timebase)
              (min 1000 (elapsed r.committed s.timebase))))
            (s.withBank b
              { s.bank b with
                waiting := none
                drive := .boost
                  { cyl := r.cyl, slot := r.slot, kind := r.kind, output := r.output
                    committed := r.committed, energize := r.energize, start := s.timebase
                    boostLimit := 2 * s.plan.engine.maxBoostUs
                    boostShort := decide ((s.bank b).reserve < s.plan.engine.cost r.kind)
                    peak := none, curTest := .pending, noPeak := false, ovc := false, cut := false }
                reserve := (s.bank b).reserve - s.plan.engine.cost r.kind }))))

/-- Outside BOOST, below 100 units and in NORMAL or LOW, a tick counts the recharge phase up to its interval, 50
or 100 ticks, and at the interval RECHARGE_UNIT gains one unit with the phase back at 0; in BOOST, at 100 units
and in CRITICAL a tick leaves the phase and RECHARGE_UNIT has no effect. That an event commanded before it is due
has no effect is the model's choice (log entry 7). -/
def Obligations.ReserveRecharges : Prop :=
  ∀ (s : State) (b : Bank), s.resetHeld = false →
    (∀ n, (s.run.band = .normal ∧ n = 50 ∨ s.run.band = .low ∧ n = 100) →
      (s.bank b).drive.isBoost = false → (s.bank b).reserve < 100 →
      ((s.bank b).phase < n →
        (tick s).bank b = { s.bank b with phase := (s.bank b).phase + 1 } ∧
        exec (.rechargeUnit b) s = .next s) ∧
      (n ≤ (s.bank b).phase →
        exec (.rechargeUnit b) s = .next
          (s.withBank b { s.bank b with reserve := (s.bank b).reserve + 1, phase := 0 }))) ∧
    ((s.run.band = .critical ∨ (s.bank b).drive.isBoost = true ∨ 100 ≤ (s.bank b).reserve) →
      (tick s).bank b = s.bank b ∧ exec (.rechargeUnit b) s = .next s)

/-! ## Circuit Diagnosis -/

/-- The first CUR report in a coil check's window on its bank is its CUR time, a later one changes nothing, and an
OVC ends the check with OVERCURRENT. At 400 ticks the check ends, FAST below 40 ticks, OK up to 240, SLOW above,
OPEN without a CUR time. With no check running, a CUR report and an OVC on an undriven bank change nothing. -/
def Obligations.CoilCheckMeasures : Prop :=
  ∀ (s : State) (x : CoilCheck), s.resetHeld = false → s.diag.coil = some x →
    (elapsed x.start s.timebase ≤ 400 →
      (x.curTime = none →
        exec (.coilCurReport x.bank) s = .next
          (s.withDiag
            { s.diag with coil := some { x with curTime := some (elapsed x.start s.timebase) } })) ∧
      (x.curTime ≠ none → exec (.coilCurReport x.bank) s = .next s) ∧
      ((s.bank x.bank).drive.energized = none →
        exec (.ovc x.bank) s = .next
          (queueNotice (.coilResult x.cyl .overcurrent x.curTime none)
            (s.withDiag { s.diag with coil := none })))) ∧
    (∀ b, b ≠ x.bank → exec (.coilCurReport b) s = .next s) ∧
    (400 ≤ elapsed x.start s.timebase →
      exec .coilWindowEnd s = .next
        (queueNotice
          (.coilResult x.cyl
            (match x.curTime with
             | none => .openCircuit
             | some t => if t < 40 then .fast else if t ≤ 240 then .ok else .slow)
            x.curTime none)
          (s.withDiag { s.diag with coil := none }))) ∧
    ∀ t b, t.resetHeld = false → t.diag.coil = none →
      exec (.coilCurReport b) t = .next t ∧
      ((t.bank b).drive.energized = none → exec (.ovc b) t = .next t)

/-! ## Run Control -/

/-- The forced end of a drain: HALT with the timer stopped, every PULSE entry and waiting start withdrawn, no
bank left in BOOST or HOLD, and every other entry kept. Every open context closes with its record, its unstarted slots
WITHDRAWN with DRAIN_FORCED, and STOP_DONE follows with forced set and the number of contexts open at the expiry. -/
def Obligations.DrainTimerForcesHalt : Prop :=
  ∀ (s : State) (u : Tick), s.resetHeld = false → s.run.mode = .drain → s.run.drainAt = some u →
    reached u s.timebase = true →
    ∃ t, exec .drainTimerExpiry s = .next t ∧
      t.run = { s.run with mode := .halt, drainAt := none } ∧
      t.queue.entries = s.queue.entries.filter (fun e => !e.isPulse) ∧
      (∀ b, (t.bank b).waiting = none ∧ (t.bank b).drive.energized = none) ∧
      (∀ b, (s.bank b).drive.energized = none → (t.bank b).drive = (s.bank b).drive) ∧
      t.tracker = s.tracker ∧ t.plan = s.plan ∧ t.timebase = s.timebase ∧
      (∃ w, t = queueNotice (.stopDone true (openCount s)) w ∧ w.timebase = s.timebase) ∧
      (s.Tied →
        (∀ c, t.contexts.get c = none ∧ (s.contexts.get c = none → t.records.get c = s.records.get c)) ∧
        ∀ c x, s.contexts.get c = some x →
          (∃ r, t.records.get c = some r ∧ r.cyl = c ∧ r.serial = x.serial ∧ r.armAngle = x.armAngle) ∧
          ∀ y ∈ x.slots, y.st.isUnstarted = true →
            outcomeAt t c y.num = some (.withdrawn .drainForced))

/-- A change of the FUELCUT_N line starts the filter's count, and the same level again changes nothing; with the
line released for 4 ticks the release sets the level and sends FUELCUT_CHANGE, and nothing else changes. That an
event commanded before it is due has no effect is the model's choice (log entry 7). -/
def Obligations.FuelcutLineFiltered : Prop :=
  ∀ s : State, s.resetHeld = false →
    (∀ low, s.run.lineLow ≠ low →
      exec (.fuelcutLineChange low) s = .next
        (s.withRun { s.run with lineLow := low, lineSince := s.timebase })) ∧
    (∀ low, s.run.lineLow = low → exec (.fuelcutLineChange low) s = .next s) ∧
    (elapsed s.run.lineSince s.timebase < 4 →
      exec .fuelcutAssertion s = .next s ∧ exec .fuelcutRelease s = .next s) ∧
    (s.run.lineLow = false → s.run.fuelcut = true → 4 ≤ elapsed s.run.lineSince s.timebase →
      exec .fuelcutRelease s = .next
        (queueNotice (.fuelcutChange false) (s.withRun { s.run with fuelcut := false })))

/-- The assertion of FUELCUT_N, the line low for 4 ticks: the level set, every PULSE entry and waiting start
withdrawn with FUELCUT and ARM and MARK entries kept, both banks' pulses cut to DECAY and their slots FIRED with the
CUT mark, a coil check ended with its COIL_RESULT, and a RUN kept in RUN. FUELCUT_CHANGE is queued, with the level
asserted and the time of the change. That COIL_RESULT stands before FUELCUT_CHANGE, and the notices of the contexts it
closes and of the pulses it cuts after it, is the model's choice (log entry 13). -/
def Obligations.FuelcutAssertionStopsFuel : Prop :=
  ∀ s : State, s.resetHeld = false → s.run.lineLow = true → s.run.fuelcut = false →
    4 ≤ elapsed s.run.lineSince s.timebase →
    ∃ t, exec .fuelcutAssertion s = .next t ∧
      (∀ u v, u = (match s.diag.coil with
          | some x => queueNotice (.coilResult x.cyl .aborted x.curTime (some .fuelcut))
              (s.withDiag { s.diag with coil := none })
          | none => s) →
        v = queueNotice (.fuelcutChange true) (u.withRun { s.run with fuelcut := true }) →
        t = cutBanks (withdrawPulses (fun _ => true) .fuelcut v) ∧
        ((∀ e ∈ s.queue.entries, e.isPulse = false) →
          (∀ b, (s.bank b).waiting = none ∧ (s.bank b).drive.energized = none) → t = v)) ∧
      t.run.fuelcut = true ∧ t.queue.entries = s.queue.entries.filter (fun e => !e.isPulse) ∧
      (∀ b, (t.bank b).waiting = none) ∧
      (∀ b p, (s.bank b).drive.energized = some p →
        (t.bank b).drive = .decay { p with cut := true } s.timebase (s.timebase + 100)) ∧
      (∀ b, (s.bank b).drive.energized = none → (t.bank b).drive = (s.bank b).drive) ∧
      t.diag.coil = none ∧ (s.run.mode ≠ .drain → t.run = { s.run with fuelcut := true }) ∧
      t.tracker = s.tracker ∧ t.plan = s.plan ∧ t.timebase = s.timebase ∧
      (s.Tied → UnstartedEnd (.withdrawn .fuelcut) s t ∧
        ∀ b p, (s.bank b).drive.energized = some p → ∃ angle slip truncated,
          outcomeAt t p.cyl p.slot = some (.fired
            { startAngle := angle, slip := slip, energized := elapsed p.start s.timebase
              truncated := truncated, boostShort := p.boostShort, cut := true
              diagnosis := classify { p with cut := true } }))

/-- A VBAT sample, a number of 0.05 V steps, is classed by the limits of R154: below 280 is CRITICAL, below 360 LOW
and from 360 NORMAL with the band in force NORMAL; an upward class needs 10 steps more, 290 and 370. A sample in the
band in force clears the filter; one on a side counts; the fourth on one side changes the band to the nearest band of
the run, clears the filter, sends SUPPLY_BAND and takes the recharge units the new interval finds due; a bank in BOOST
takes its unit on leaving BOOST, and SUPPLY_BAND follows the units, which are the model's readings (log entries 34 and
13). -/
def Obligations.SupplyFilterTakesSample : Prop :=
  ∀ (s : State) (v low normal : Nat) (x near : SupplyBand) (side : FilterDir) (rank : SupplyBand → Nat)
    (gap : SupplyBand → Nat), s.resetHeld = false →
    2000 ≤ elapsed s.run.lastSample s.timebase →
    low = (match s.run.band with | .normal => 280 | .low => 280 | .critical => 290) →
    normal = (match s.run.band with | .normal => 360 | .low => 370 | .critical => 370) →
    x = (if v < low then .critical else if v < normal then .low else .normal) →
    rank .critical = 0 → rank .low = 1 → rank .normal = 2 →
    side = (if rank x < rank s.run.band then .down else .up) →
    (∀ y, gap y = (rank y - rank s.run.band) + (rank s.run.band - rank y)) →
    near = (match s.run.filterNearest with
      | some y => if gap x < gap y then x else y
      | none => x) →
    (x = s.run.band →
      exec (.vbatSample v) s = .next
        (s.withRun
          { s.run with
            lastSample := s.run.lastSample + 2000, filterRun := 0, filterDir := .none
            filterNearest := none })) ∧
    (x ≠ s.run.band → s.run.filterDir ≠ side →
      exec (.vbatSample v) s = .next
        (s.withRun
          { s.run with
            lastSample := s.run.lastSample + 2000, filterRun := 1, filterDir := side
            filterNearest := some x })) ∧
    (x ≠ s.run.band → s.run.filterDir = side → s.run.filterRun ≠ 3 →
      exec (.vbatSample v) s = .next
        (s.withRun
          { s.run with
            lastSample := s.run.lastSample + 2000, filterRun := s.run.filterRun + 1
            filterNearest := some near })) ∧
    (x ≠ s.run.band → s.run.filterDir = side → s.run.filterRun = 3 →
      exec (.vbatSample v) s = .next
        (queueNotice (.supplyBand s.run.band near)
          (settleRecharge .bankB (settleRecharge .bankA
            (s.withRun
              { s.run with
                lastSample := s.run.lastSample + 2000, filterRun := 0, filterDir := .none
                filterNearest := none, band := near })))))

/-- A crystal count of 1400 to 1800 passes and changes nothing; any other fails: BACKUP, the monitor stopped,
CLOCK_BACKUP with the count; with the monitor stopped a window end has no effect. After a reset with a dead crystal
the source stands, and the first window's count of 0 switches to BACKUP, from where it runs; CLOCK_BACKUP with count 0
and time 0 is the first frame sent. That a window end commanded with the monitor stopped has no effect, and what a
standing source takes, are the model's choices (log entries 7 and 27). -/
def Obligations.MonitorWindowJudged : Prop :=
  (∀ (s : State) (n : Nat), s.resetHeld = false →
    (1400 ≤ n ∧ n ≤ 1800 ∨ s.run.monitor = false → exec (.monitorWindowEnd n) s = .next s) ∧
    (s.run.monitor = true → n < 1400 ∨ 1800 < n →
      exec (.monitorWindowEnd n) s = .next
        (queueNotice (.clockBackup (min 65535 n))
          (s.withRun { s.run with clock := .backup, monitor := false })))) ∧
  (∀ (s : State) (w : Wheel) (low : Bool) (v : Nat), ∃ t u,
    exec (.powerOnReset w low { vbat := v, crystal := some 0 }) s = .next t ∧ t.run.stands = true ∧
    exec (.monitorWindowEnd 0) t = .next u ∧ u.run.stands = false ∧ u.run.clock = .backup ∧
    u.timebase = 0 ∧ u.link.framer = .hunt ∧
    u.link.sending.map Sending.frame = some (Notice.frame { time := 0, body := .clockBackup 0 }))

/-! ## The serial link -/

/-- One byte in the framer's first two states: in HUNT only the start byte counts, a length above 60 or a framing
error in a frame discards it and counts the error, and nothing but the link changes. While the source of the timebase
stands no byte is taken. That the start byte sets no inter-byte deadline, and how a standing source is held, are the
model's readings (log entries 12 and 27). -/
def Obligations.ByteTakenByFramer : Prop :=
  ∀ (s : State) (x : Byte), s.resetHeld = false →
    (s.run.stands = true → ∀ bad, exec (.byteReceived x bad) s = .next s) ∧
    (s.run.stands = false →
      (s.link.framer = .hunt →
        exec (.byteReceived x true) s = .next s ∧
        exec (.byteReceived x false) s = .next
          (s.withLink
            { s.link with
              framer := if x = 0xA5 then .length else .hunt
              byteDeadline := if x = 0xA5 then s.link.byteDeadline else none })) ∧
      (s.link.framer = .length →
        exec (.byteReceived x false) s = .next
          (s.withLink
            (if x.toNat ≤ 60 then
              { s.link with framer := .kind x.toNat, byteDeadline := some (s.timebase + 120) }
            else
              { s.link with
                framer := .hunt, byteDeadline := none, frameErrors := min 255 (s.link.frameErrors + 1) }))) ∧
      (s.link.framer ≠ .hunt →
        exec (.byteReceived x true) s = .next
          (s.withLink
            { s.link with
              framer := .hunt, byteDeadline := none, frameErrors := min 255 (s.link.frameErrors + 1) })))

/-- The bytes of any frame of at most 60 payload bytes, taken one after another from HUNT at any times, are read
back as that frame: it joins the inbound queue while that has room. With any other last byte the frame is
discarded and counted. -/
def Obligations.FrameReadFromItsBytes : Prop :=
  ∀ (l : Link) (f : Frame) (times : List Tick), l.framer = .hunt → f.payload.length ≤ 60 →
    times.length = f.payload.length + 6 →
    (l.inbound.length < 4 →
      (f.wire.zip times).foldl (fun m xt => m.byteArrives xt.1 false xt.2) l
        = { l with framer := .hunt, byteDeadline := none, inbound := l.inbound ++ [f] }) ∧
    (4 ≤ l.inbound.length →
      (f.wire.zip times).foldl (fun m xt => m.byteArrives xt.1 false xt.2) l
        = { l with framer := .hunt, byteDeadline := none, frameErrors := min 255 (l.frameErrors + 1) }) ∧
    (∀ x : Byte, some x ≠ f.wire.getLast? →
      ((f.wire.dropLast ++ [x]).zip times).foldl (fun m xt => m.byteArrives xt.1 false xt.2) l
        = { l with framer := .hunt, byteDeadline := none, frameErrors := min 255 (l.frameErrors + 1) })

/-- A passed inter-byte deadline discards the frame in progress and counts it. That an event commanded before it
is due has no effect is the model's choice (log entry 7). -/
def Obligations.InterByteDeadlineDiscards : Prop :=
  ∀ (s : State) (u : Tick), s.resetHeld = false → s.link.byteDeadline = some u →
    (reached u s.timebase = true →
      exec .interByteDeadline s = .next
        (s.withLink
          { s.link with
            framer := .hunt, byteDeadline := none, frameErrors := min 255 (s.link.frameErrors + 1) })) ∧
    (reached u s.timebase = false → exec .interByteDeadline s = .next s)

/-- At the end of a frame the transmitter takes the oldest reply, else the oldest notice, else is idle; the next
frame takes 20 ticks a byte. TXD gives each byte as a low start bit, 8 data bits least significant first and a high
stop bit, 2 ticks a bit, the bytes of the frame back to back; between frames and while RESET_N is asserted it is high.
The end time of a frame, 20 ticks for each of its bytes, and that its first bit begins as it is taken, are the model's
reading (log entry 9). -/
def Obligations.FrameSentTakesNext : Prop :=
  (∀ s : State, s.resetHeld = true ∨ s.link.sending = none → txd s = true) ∧
  (∀ (s : State) (f : Frame) (begun : Tick) (t : Nat), s.resetHeld = false → f.payload.length ≤ 60 →
    s.link.sending = some { frame := f, doneAt := later begun (20 * (f.payload.length + 6)) } →
    s.timebase = later begun t → t < 4294967296 →
    (∀ (j n : Nat) (x : Byte), t = 20 * j + n → n < 20 →
      ([0xA5, byte f.payload.length, f.kind, f.tag] ++ f.payload ++ be16 (crc16 f.covered).toNat)[j]? = some x →
      txd s = (if n < 2 then false else if n < 18 then x.getLsbD (n / 2 - 1) else true)) ∧
    (20 * (f.payload.length + 6) ≤ t → txd s = true)) ∧
  ∀ (s : State) (x : Sending), s.resetHeld = false → s.link.sending = some x →
    reached x.doneAt s.timebase = true →
    (∀ f rest, s.link.replies = f :: rest →
      exec .frameSent s = .next
        (s.withLink
          { s.link with
            replies := rest
            sending := some
              { frame := f, doneAt := later s.timebase (20 * (f.payload.length + 6)) } })) ∧
    (∀ n rest, s.link.replies = [] → s.link.notices = n :: rest →
      exec .frameSent s = .next
        (s.withLink
          { s.link with
            notices := rest
            sending := some
              { frame := n.frame, doneAt := later s.timebase (20 * (n.frame.payload.length + 6)) } })) ∧
    (s.link.replies = [] → s.link.notices = [] →
      exec .frameSent s = .next (s.withLink { s.link with sending := none }))

/-- How a notice of an enabled kind finds a place in the notice queue (R168), and that one not enabled changes nothing
(R167). The level of each kind is spelled out, and its frame: the kind code, tag 0, the time in 4 bytes and the fields
in their order, with the codes of each enumeration; CYCLE_DONE's record is spelled out in ReadRequestsAnswer. -/
def Obligations.NoticeQueuedBySpace : Prop :=
  ∀ (l : Link) (n : Notice) (x : NoticeBody) (s : State),
    (l.notices.length < 16 → l.enqueueNotice n = { l with notices := l.notices ++ [n] }) ∧
    (16 ≤ l.notices.length → n.body.level = .routine →
      l.enqueueNotice n = { l with lost := min 255 (l.lost + 1) }) ∧
    (16 ≤ l.notices.length → n.body.level = .urgent → (∀ m ∈ l.notices, m.body.level = .urgent) →
      l.enqueueNotice n = { l with lost := min 255 (l.lost + 1) }) ∧
    (∀ old m new, 16 ≤ l.notices.length → n.body.level = .urgent → l.notices = old ++ m :: new →
      (∀ k ∈ old, k.body.level = .urgent) → m.body.level = .routine →
      l.enqueueNotice n = { l with notices := old ++ new ++ [n], lost := min 255 (l.lost + 1) }) ∧
    (s.link.enable.getLsbD x.index = false → queueNotice x s = s) ∧
    (x.level = .urgent ↔
      (∃ o m k, x = .syncChange o m k) ∨ (∃ c i h k, x = .cylDisabled c i h k) ∨ (∃ b, x = .fuelcutChange b) ∨
      (∃ o m, x = .supplyBand o m) ∨ (∃ i, x = .clockBackup i) ∨ (∃ i m, x = .planStale i m) ∨
      ∃ b i, x = .stopDone b i) ∧
    (∀ m : NoticeBody, m.level = .urgent ∨ m.level = .routine) ∧
    (∀ (time : Tick) (f : Byte → List Byte → Frame) (g : NoticeBody → Frame),
      (∀ kind fields, f kind fields = { kind := kind, tag := 0, payload := be32 time.toNat ++ fields }) →
      (∀ m, g m = Notice.frame { time := time, body := m }) →
      (∀ o m k, g (.syncChange o m k) = f 0xC0 [byte o.code, byte m.code, byte k.code]) ∧
      (∀ i, g (.planSwapped i none) = f 0xC1 (be16 i ++ [0])) ∧
      (∀ i c, g (.planSwapped i (some c)) = f 0xC1 (be16 i ++ [byte c.num])) ∧
      (∀ i m, g (.planStale i m) = f 0xC2 (be16 i ++ be16 m)) ∧
      (∀ r, g (.cycleDone r) = f 0xC3 (recordBytes r)) ∧
      (∀ i angle rpm, g (.mark i angle rpm) = f 0xC4 ([byte i] ++ be16 (angle.getD 0xFFFF) ++ be16 rpm)) ∧
      (∀ c i h k, g (.faultWarn c i h k) = f 0xC5 [byte c.num, byte i, byte h, byte k.code] ∧
        g (.cylDisabled c i h k) = f 0xC6 [byte c.num, byte i, byte h, byte k.code]) ∧
      (∀ c r k, g (.coilResult c r none k)
        = f 0xC7 [byte c.num, byte r.code, 0xFF, 0xFF, byte (abortCode k)]) ∧
      (∀ c r i k, g (.coilResult c r (some i) k)
        = f 0xC7 ([byte c.num, byte r.code] ++ be16 ((i + 1) / 2) ++ [byte (abortCode k)])) ∧
      (∀ o m, g (.supplyBand o m) = f 0xC8 [byte o.code, byte m.code]) ∧
      (∀ i, g (.clockBackup i) = f 0xC9 (be16 i)) ∧
      (∀ b, g (.fuelcutChange b) = f 0xCA [if b then 1 else 0]) ∧
      (∀ b i, g (.stopDone b i) = f 0xCB [if b then 1 else 0, byte i]) ∧
      (∀ c, g (.testCutDone c) = f 0xCC [byte c.num]) ∧ (∀ k, g (.camFault k) = f 0xCD [byte k.code])) ∧
    (∀ i : Nat, be16 i = [BitVec.ofNat 8 (i / 256), BitVec.ofNat 8 i] ∧
      be32 i = [BitVec.ofNat 8 (i / 16777216), BitVec.ofNat 8 (i / 65536), BitVec.ofNat 8 (i / 256),
        BitVec.ofNat 8 i] ∧ byte i = BitVec.ofNat 8 i) ∧
    [Cyl.c1, .c2, .c3, .c4, .c5, .c6].map Cyl.num = [1, 2, 3, 4, 5, 6] ∧
    [RunMode.halt, .run, .drain].map RunMode.code = [0, 1, 2] ∧
    [Sync.stopped, .seeking, .halfSync, .fullSync, .camLimp].map Sync.code = [0, 1, 2, 3, 4] ∧
    [SupplyBand.critical, .low, .normal].map SupplyBand.code = [0, 1, 2] ∧
    [ClockState.crystal, .backup].map ClockState.code = [0, 1] ∧ [Wheel.w60, .w36].map wheelCode = [0, 1] ∧
    [SyncCause.firstEdge, .gapConfirmed, .camPhased, .gapError, .crankDeadline, .camWrongPhase, .camMismatch,
      .camDeadline, .crankRestored, .camStart, .stall, .definition].map SyncCause.code
      = [1, 2, 3, 4, 5, 6, 7, 8, 9, 10, 11, 12] ∧
    [CamFaultCause.missing, .wrongPhase, .limpMismatch, .limpDeadline].map CamFaultCause.code = [1, 2, 3, 4] ∧
    [Classification.ok, .slowPeak, .noPeak, .openCircuit, .overcurrent].map Classification.code
      = [0, 1, 2, 3, 4] ∧
    [CoilResult.ok, .fast, .slow, .openCircuit, .overcurrent, .aborted].map CoilResult.code
      = [0, 1, 2, 3, 4, 5] ∧
    [none, some AbortCause.edge, some .fuelcut, some .resetRun].map abortCode = [0, 1, 2, 3] ∧
    [PulseKind.pilot, .main, .post].map PulseKind.code = [1, 2, 3] ∧
    [CutReason.fuelcut, .supplyCritical, .overspeed, .controllerDisabled, .faultDisabled, .stale, .testCut,
      .derate].map CutReason.code = [1, 2, 3, 4, 5, 6, 7, 8] ∧
    [SuppressReason.limp, .quiet, .limit, .late, .queueFull, .anchorLost].map SuppressReason.code
      = [1, 2, 3, 4, 5, 6] ∧
    [ShedReason.collision, .boost, .supply].map ShedReason.code = [1, 2, 3] ∧
    [WithdrawReason.syncLost, .fuelcut, .fault, .drainForced, .overrun].map WithdrawReason.code = [1, 2, 3, 4, 5]

/-- A frame whose kind names no request is refused with UNKNOWN_KIND when served. While the source of the timebase
stands it has no effect. That a request row is the arrival of its frame, and how a standing source is held, are the
model's choices (log entries 8 and 27). -/
def Obligations.UnknownKindRefused : Prop :=
  ∀ (s : State) (kind tag : Byte) (p : List Byte), s.resetHeld = false →
    (kind.toNat = 0 ∨ 0x18 < kind.toNat) → p.length ≤ 60 →
    (LinkReady s → exec (.unknownKind kind tag p) s = refusedWith kind tag .unknownKind s) ∧
    (s.run.stands = false → s.link.inbound ≠ [] ∨ 4 ≤ s.link.replies.length →
      exec (.unknownKind kind tag p) s = .next
        (s.withLink (s.link.accept { kind := kind, tag := tag, payload := p }))) ∧
    (s.run.stands = true → exec (.unknownKind kind tag p) s = .next s)

/-- What the link does with any request before its owner sees it: a length the kind does not allow is refused with
BAD_LENGTH; a request that cannot be served at once waits in the inbound queue, or finds it full and is counted;
while the source of the timebase stands it has no effect. That a request row is the arrival of its frame, and how a
standing source is held, are the model's choices (log entries 8 and 27). -/
def Obligations.RequestAcceptedOrQueued : Prop :=
  ∀ (s : State) (kind : Nat) (tag : Byte) (p : List Byte) (c : Instr), s.resetHeld = false →
    requestCommand kind tag p = some c → p.length ≤ 60 →
    (LinkReady s → lengthAllowed kind p = false →
      exec c s = refusedWith (byte kind) tag .badLength s) ∧
    (s.run.stands = false →
      (s.link.inbound ≠ [] ∨ 4 ≤ s.link.replies.length → s.link.inbound.length < 4 →
        exec c s = .next
          (s.withLink
            { s.link with
              inbound := s.link.inbound ++ [{ kind := byte kind, tag := tag, payload := p }] })) ∧
      (4 ≤ s.link.inbound.length →
        exec c s = .next
          (s.withLink { s.link with frameErrors := min 255 (s.link.frameErrors + 1) }))) ∧
    (s.run.stands = true → exec c s = .next s)

/-! ## The requests -/

/-- The reading requests answer what their owner stores and change nothing: IDENTIFY, GET_ENGINE, GET_CYLINDER,
GET_PULSES and GET_CYCLE. A cylinder outside 1..6, or a page outside 0 and 1, is BAD_VALUE. The bytes of a cylinder
record, of a pulse list and of a cycle record are spelled out; CYCLE_DONE carries the cycle record in the same bytes.
-/
def Obligations.ReadRequestsAnswer : Prop :=
  (∀ (c : Cyl) (r : CylRec),
    (∀ pl, r.place = some pl →
      cylinderBytes c r = [byte c.num, 1] ++ be16 pl.tdc
        ++ [match pl.bank with | .bankA => 0 | .bankB => 1, byte (pl.output.val + 1)] ++ be16 r.eoiLimit
        ++ [if r.disabled then 1 else 0]) ∧
    (r.place = none →
      cylinderBytes c r = [byte c.num, 0, 0xFF, 0xFF, 0xFF, 0] ++ be16 r.eoiLimit
        ++ [if r.disabled then 1 else 0])) ∧
  (∀ (ix : PageIx) (c : Cyl) (q : PlanPage) (f : Option PlanSlot → List Byte), f none = [0, 0, 0, 0, 0, 0, 0] →
    (∀ y, f (some y) = be16 y.energizeUs ++ [match y.kind with | .pilot => (1 : Byte) | .main => 2 | .post => 3]
      ++ (match y.anchor with
        | .angle rel => 0 :: be16 (rel % 65536).toNat
        | .dwell us => 1 :: be16 us)
      ++ [if y.mayDefer then 1 else 0]) →
    pulsesBytes ix c q
      = [match ix with | .p0 => 0 | .p1 => 1, byte c.num] ++ be16 q.serial ++ (q.lists.get c).flatMap f) ∧
  (∀ (c : Cyl) (r : CycleRecord) (f : SlotResult → List Byte),
    (∀ n k d x, f { num := n, kind := k, outcome := .fired x, deferred := d }
      = [byte (16 * n + k.code), 0x10,
          byte ((if d then 128 else 0) + (if x.truncated then 64 else 0) + (if x.boostShort then 32 else 0)
            + (if x.cut then 16 else 0) + x.diagnosis.code)]
        ++ be16 (x.startAngle.getD 0xFFFF) ++ be16 ((x.slip + 1) / 2) ++ be16 ((x.energized + 1) / 2)) →
    (∀ n k d x, f { num := n, kind := k, outcome := .suppressed x, deferred := d }
      = [byte (16 * n + k.code), byte (0x20 + x.code), if d then 0x80 else 0]) →
    (∀ n k d x, f { num := n, kind := k, outcome := .shed x, deferred := d }
      = [byte (16 * n + k.code), byte (0x30 + x.code), 0]) →
    (∀ n k d x, f { num := n, kind := k, outcome := .withdrawn x, deferred := d }
      = [byte (16 * n + k.code), byte (0x40 + x.code), 0]) →
    entryBytes c none = [byte c.num, 0, 0, 0, 0, 0, 0] ∧
    entryBytes c (some r) = [byte r.cyl.num] ++ be16 r.serial ++ be16 r.armAngle
      ++ (match r.outcome with
        | .fired => [1, byte r.results.length]
        | .empty => [2, byte r.results.length]
        | .cut k => [3, byte k.code])
      ++ r.results.flatMap f ∧
    noticeFields (.cycleDone r) = entryBytes c (some r)) ∧
  ∀ (s : State) (tag : Byte), LinkReady s →
    exec (.identify tag []) s = acked 0x01 tag
      (be16 0x0A71 ++ be16 620 ++ [1, byte (wheelCode s.tracker.wheel), byte s.run.clock.code]) s ∧
    exec (.getEngine tag []) s = acked 0x05 tag (engineBytes s.plan.engine) s ∧
    (∀ c : Cyl,
      exec (.getCylinder tag [byte c.num]) s = acked 0x07 tag (cylinderBytes c (s.plan.cyls.get c)) s ∧
      exec (.getCycle tag [byte c.num]) s = acked 0x15 tag (entryBytes c (s.records.get c)) s ∧
      ∀ ix : PageIx, exec (.getPulses tag [byte ix.code, byte c.num]) s
        = acked 0x09 tag (pulsesBytes ix c (s.plan.page ix)) s) ∧
    (∀ x y : Byte, x.toNat = 0 ∨ 6 < x.toNat →
      exec (.getCylinder tag [x]) s = refusedWith 0x07 tag .badValue s ∧
      exec (.getCycle tag [x]) s = refusedWith 0x15 tag .badValue s ∧
      exec (.getPulses tag [y, x]) s = refusedWith 0x09 tag .badValue s) ∧
    (∀ x y : Byte, 1 < x.toNat → exec (.getPulses tag [x, y]) s = refusedWith 0x09 tag .badValue s)

/-- GET_STATUS reports and clears the lost notice count; GET_TRACKER reports and clears the spurious edge count;
nothing else changes. The bytes of both reports are spelled out: an absent angle is 0xFFFF, the periods are T1 to T4
of the history in use with 0 for a missing one, and the flag bytes have one bit a flag from bit 0 on. -/
def Obligations.ReportsClearTheirCount : Prop :=
  ∀ (s : State) (tag : Byte), LinkReady s →
    exec (.getStatus tag []) s = acked 0x02 tag
      ([byte s.run.mode.code, byte s.tracker.sync.code] ++ be16 (speed s.tracker)
        ++ be16 ((interpolated s.tracker s.timebase).getD 0xFFFF)
        ++ [byte s.run.band.code, byte s.run.clock.code, if s.run.fuelcut then 1 else 0,
            match s.plan.active with | .p0 => 0 | .p1 => 1]
        ++ be16 (s.plan.page s.plan.active).serial
        ++ [byte ((if s.plan.swapPending then 1 else 0) + (if s.plan.stale then 2 else 0))] ++ be16 s.plan.expiry
        ++ [byte ((if s.diag.disabled.get .c1 then 1 else 0) + (if s.diag.disabled.get .c2 then 2 else 0)
              + (if s.diag.disabled.get .c3 then 4 else 0) + (if s.diag.disabled.get .c4 then 8 else 0)
              + (if s.diag.disabled.get .c5 then 16 else 0) + (if s.diag.disabled.get .c6 then 32 else 0)),
            byte ((if s.tracker.crankFault then 1 else 0) + (if s.tracker.camFault then 2 else 0)),
            byte s.link.frameErrors, byte s.link.lost])
      (s.withLink { s.link with lost := 0 }) ∧
    (∀ hist : List Nat, hist = (if s.tracker.sync = .camLimp then s.tracker.cam.hist else s.tracker.crankHist) →
      exec (.getTracker tag []) s = acked 0x03 tag
        ([byte s.tracker.sync.code] ++ be16 (speed s.tracker)
          ++ be16 ((interpolated s.tracker s.timebase).getD 0xFFFF)
          ++ be32 (hist[0]?.getD 0) ++ be32 (hist[1]?.getD 0) ++ be32 (hist[2]?.getD 0) ++ be32 (hist[3]?.getD 0)
          ++ [byte s.tracker.gapCount,
              byte ((if s.tracker.crankFault then 1 else 0) + (if s.tracker.camFault then 2 else 0)),
              byte s.tracker.spurious])
        (s.withTracker { s.tracker with spurious := 0 }))

/-- SET_ENGINE: BAD_VALUE for a HALT-only field or flag out of range; WRONG_MODE for a changed HALT-only field outside
HALT; otherwise the clamped record is stored and acknowledged, and when it moves neither wheel, changes no plan expiry
and leaves no stall due, nothing else changes. A changed gap offset or cam sync angle sends the tracker to SEEKING
with DEFINITION, as a sync loss where the angle was known; a changed plan expiry holds the count down to it and, met
by the count, sets stale with PLAN_STALE; a stall timeout the time elapsed has reached is taken in the request. The
fields of a payload, their ranges and their clamps are spelled out, big-endian in their order. The order of the
request's effects (log entry 14), that the definition move leaves the candidate count of the cam-only search (29), and
that the notices of the contexts a sync loss closes stand before that of a swap that lands with it (13) are the
model's readings. -/
def Obligations.SetEngineStoresRecord : Prop :=
  (∀ (gap cam lead tol stall rpm expiry boost slip : Nat) (g accel limp pilot main post thr : Byte) (p : List Byte),
    (∀ n ∈ [gap, cam, lead, tol, stall, rpm, expiry, boost, slip], n < 65536) →
    p = be16 gap ++ be16 cam ++ be16 lead ++ be16 tol ++ [g] ++ be16 stall ++ [accel, limp] ++ be16 rpm
      ++ be16 expiry ++ [pilot, main, post] ++ be16 boost ++ be16 slip ++ [thr] →
    p.length = 25 ∧
    (engineInRange p = true ↔ gap ≤ 3599 ∧ cam ≤ 7199 ∧ 600 ≤ lead ∧ lead ≤ 3600 ∧ accel.toNat ≤ 1 ∧
      limp.toNat ≤ 1) ∧
    engineOf p =
      { gapOffset := gap, camSync := cam, armingLead := lead, camTolerance := max 10 (min 300 tol)
        gapConfirm := max 1 (min 4 g.toNat), stallMs := max 100 (min 1000 stall), accelComp := accel == 1
        camLimp := limp == 1, overspeed := max 1500 (min 4000 rpm), planExpiry := max 6 (min 384 expiry)
        pilotCost := max 1 (min 100 pilot.toNat), mainCost := max 1 (min 100 main.toNat)
        postCost := max 1 (min 100 post.toNat), maxBoostUs := max 50 (min 400 boost)
        maxSlipUs := min 500 slip, faultThreshold := max 16 thr.toNat }) ∧
  (∀ x y : EngineRec, x.samePlacement y = true ↔
    x.gapOffset = y.gapOffset ∧ x.camSync = y.camSync ∧ x.armingLead = y.armingLead) ∧
  ∀ (s : State) (tag : Byte) (p : List Byte), LinkReady s → p.length = 25 →
    (engineInRange p = false → exec (.setEngine tag p) s = refusedWith 0x04 tag .badValue s) ∧
    (engineInRange p = true → s.run.mode ≠ .halt →
      (engineOf p).samePlacement s.plan.engine = false →
      exec (.setEngine tag p) s = refusedWith 0x04 tag .wrongMode s) ∧
    (engineInRange p = true → (s.run.mode = .halt ∨ (engineOf p).samePlacement s.plan.engine = true) →
      (∃ t, exec (.setEngine tag p) s = acked 0x04 tag (engineBytes (engineOf p)) t ∧
        t.plan.engine = engineOf p ∧ t.plan.cyls = s.plan.cyls ∧ t.run.fuelcut = s.run.fuelcut ∧
        (∀ b, (t.bank b).drive = (s.bank b).drive) ∧ t.timebase = s.timebase) ∧
      ((engineOf p).gapOffset = s.plan.engine.gapOffset → (engineOf p).camSync = s.plan.engine.camSync →
        (engineOf p).planExpiry = s.plan.engine.planExpiry →
        stallDue (s.withPlan { s.plan with engine := engineOf p }) = false →
        exec (.setEngine tag p) s = acked 0x04 tag (engineBytes (engineOf p))
          (s.withPlan { s.plan with engine := engineOf p })) ∧
      ∀ (e : EngineRec) (stored moved : State), e = engineOf p →
        stored = s.withPlan
          { s.plan with
            engine := e
            expiry := if e.planExpiry = s.plan.engine.planExpiry then s.plan.expiry
              else min s.plan.expiry e.planExpiry } →
        moved = queueNotice (.syncChange s.tracker.sync .seeking .definition)
          (stored.withTracker
            { s.tracker with
              sync := .seeking, refGap := false, gapCount := 0, half := none, edgeAngle := none
              cam := if s.tracker.sync = .halfSync then s.tracker.cam
                else { s.tracker.cam with hist := [], tp := none } }) →
        ∃ u v w, exec (.setEngine tag p) s = acked 0x04 tag (engineBytes e) w ∧
          (e.gapOffset = s.plan.engine.gapOffset ∧ e.camSync = s.plan.engine.camSync ∨
            s.tracker.sync = .stopped ∨ s.tracker.sync = .seeking → u = stored) ∧
          (e.gapOffset ≠ s.plan.engine.gapOffset ∨ e.camSync ≠ s.plan.engine.camSync →
            (s.tracker.sync = .halfSync → u = moved) ∧
            (s.tracker.sync = .fullSync ∨ s.tracker.sync = .camLimp →
              u = landIfPending none (queueLoss moved) ∧ u.tracker = moved.tracker ∧
              u.queue = { s.queue with entries := [], pendingMarks := [], commitRef := none, frontier := none } ∧
              (∀ b, u.bank b = { s.bank b with waiting := none }) ∧
              u.plan = (if s.plan.swapPending then stored.plan.land else stored.plan) ∧ u.diag = s.diag ∧
              (s.Tied → UnstartedEnd (.withdrawn .syncLost) s u))) ∧
          (e.planExpiry = s.plan.engine.planExpiry → v = u) ∧
          (e.planExpiry ≠ s.plan.engine.planExpiry →
            (u.plan.expiry = e.planExpiry → u.plan.stale = false →
              v = queueNotice (.planStale u.plan.activePage.serial e.planExpiry)
                (u.withPlan { u.plan with stale := true })) ∧
            (u.plan.expiry ≠ e.planExpiry ∨ u.plan.stale = true → v = u)) ∧
          exec .stallTimeout v = .next w ∧
          ∀ from_, from_ = (if v.tracker.sync = .stopped then v.tracker.cam.lastEdge else v.tracker.stallRef) →
            (from_ = none → w = v) ∧
            (∀ r, from_ = some r → elapsed r s.timebase < 2000 * e.stallMs → w = v) ∧
            (∀ r, from_ = some r → 2000 * e.stallMs ≤ elapsed r s.timebase →
              (v.tracker.sync = .stopped → w = v.withTracker { v.tracker with cam := resetCam }) ∧
              (v.tracker.sync ≠ .stopped →
                w.tracker = { v.tracker with
                  sync := .stopped, crankHist := [], crankTp := none, prevCrank := none, refGap := false
                  tooth := 0, gapCount := 0, half := none, edgeAngle := none, stallRef := none
                  cam := resetCam })))

/-- SET_CYLINDER: an accepted record is stored with its EOI limit clamped and acknowledged; made undefined, the
cylinder loses a test cut that names it; a placement that another defined cylinder's output or TDC meets is BAD_VALUE;
a changed placement outside HALT is WRONG_MODE. The fields of a payload are spelled out: with defined = no the
placement is absent and not checked, with defined = yes its TDC, bank and output are; a value out of range there, or a
cylinder number outside 1..6, is BAD_VALUE. -/
def Obligations.SetCylinderStoresRecord : Prop :=
  (∀ (num defined bank out disable : Byte) (tdc eoi : Nat) (p : List Byte), tdc < 65536 → eoi < 65536 →
    p = [num, defined] ++ be16 tdc ++ [bank, out] ++ be16 eoi ++ [disable] →
    byteAt p 0 = num.toNat ∧ wordAt p 6 = eoi ∧ byteAt p 8 = disable.toNat ∧
    (defined.toNat = 0 → placementOf p = some none) ∧
    (1 < defined.toNat → placementOf p = none) ∧
    (defined.toNat = 1 →
      (7199 < tdc ∨ 1 < bank.toNat ∨ out.toNat = 0 ∨ 6 < out.toNat → placementOf p = none) ∧
      (∀ (b : Bank) (o : Output), tdc ≤ 7199 → bankCode b = bank.toNat → o.val + 1 = out.toNat →
        placementOf p = some (some { tdc := tdc, bank := b, output := o })))) ∧
  (∀ (s : State) (tag : Byte) (p : List Byte), LinkReady s → p.length = 9 →
    (byteAt p 0 = 0 ∨ 6 < byteAt p 0 ∨ placementOf p = none →
      exec (.setCylinder tag p) s = refusedWith 0x06 tag .badValue s)) ∧
  ∀ (s : State) (tag : Byte) (p : List Byte) (c : Cyl) (place : Option Placement), LinkReady s →
    p.length = 9 → Cyl.ofNum (byteAt p 0) = some c → placementOf p = some place →
    ((∃ q, place = some q ∧ placementTaken s.plan.cyls c q = true) ∨ 1 < byteAt p 8 →
      exec (.setCylinder tag p) s = refusedWith 0x06 tag .badValue s) ∧
    ((∀ q, place = some q → placementTaken s.plan.cyls c q = false) → byteAt p 8 ≤ 1 →
      (s.run.mode ≠ .halt → place ≠ (s.plan.cyls.get c).place →
        exec (.setCylinder tag p) s = refusedWith 0x06 tag .wrongMode s) ∧
      ((s.run.mode = .halt ∨ place = (s.plan.cyls.get c).place) →
        exec (.setCylinder tag p) s = acked 0x06 tag
          (cylinderBytes c
            { place := place, eoiLimit := min 1799 (wordAt p 6), disabled := byteAt p 8 == 1 })
          (s.withPlan
            { s.plan with
              cyls := s.plan.cyls.set c
                { place := place, eoiLimit := min 1799 (wordAt p 6), disabled := byteAt p 8 == 1 }
              testCut := if place = none then s.plan.testCut.filter (fun x => x.1 != c)
                else s.plan.testCut })))

/-- SET_PULSES: a page or a cylinder that does not exist, a pending swap and the active page refuse it, in that order;
a list that passes its checks replaces the cylinder's list on the inactive page, the page's serial kept, and nothing
else changes. A position of time 0 is empty; a kind, anchor type or relative start out of range fails the list, and
the times and dwells are clamped. A count above 5, two MAIN slots, a DWELL first or ANGLE starts that do not rise fail
it; a list that passes is filled up with empty positions. That a may-defer byte of 2 or more fails the list is the
model's reading (log entry 15). -/
def Obligations.SetPulsesWritesInactivePage : Prop :=
  (∀ (p : List Byte) (i time value : Nat), time = wordAt p i → value = wordAt p (i + 4) →
    (time = 0 → positionOf p i = some none) ∧
    (time ≠ 0 →
      ((∀ k : PulseKind, k.code ≠ byteAt p (i + 2)) ∨ 1 < byteAt p (i + 3) ∨ 1 < byteAt p (i + 6) →
        positionOf p i = none) ∧
      (∀ k : PulseKind, k.code = byteAt p (i + 2) → byteAt p (i + 6) ≤ 1 →
        (byteAt p (i + 3) = 0 → ∀ r : Int, r = (if value < 32768 then (value : Int) else (value : Int) - 65536) →
          (r < -1800 ∨ 1799 < r → positionOf p i = none) ∧
          (-1800 ≤ r → r ≤ 1799 → positionOf p i = some (some
            { kind := k, anchor := .angle r, energizeUs := max 60 (min 5000 time)
              mayDefer := decide (byteAt p (i + 6) = 1) }))) ∧
        (byteAt p (i + 3) = 1 → positionOf p i = some (some
          { kind := k, anchor := .dwell (max 50 (min 5000 value)), energizeUs := max 60 (min 5000 time)
            mayDefer := false }))))) ∧
  (∀ (p : List Byte) (n : Nat), n = byteAt p 2 →
    (5 < n → pulseListOf p = none) ∧
    (n ≤ 5 → (∃ j, j < n ∧ positionOf p (3 + 7 * j) = none) → pulseListOf p = none) ∧
    (n ≤ 5 → ∀ (ys : List (Option PlanSlot)) (sound : Prop), ys.length = n →
      (∀ j, j < n → positionOf p (3 + 7 * j) = ys[j]?) →
      (sound ↔
        (∀ (i j : Nat) (x y : PlanSlot), ys[i]? = some (some x) → ys[j]? = some (some y) →
          x.kind = .main → y.kind = .main → i = j) ∧
        (∀ (j : Nat) (x : PlanSlot) (d : Nat), ys[j]? = some (some x) → (∀ i, i < j → ys[i]? = some none) →
          x.anchor ≠ .dwell d) ∧
        (∀ (i j : Nat) (x y : PlanSlot) (a b : Int), i < j → ys[i]? = some (some x) → ys[j]? = some (some y) →
          x.anchor = .angle a → y.anchor = .angle b → a < b)) →
      (sound → pulseListOf p = some ((ys ++ List.replicate 5 none).take 5)) ∧
      (¬ sound → pulseListOf p = none))) ∧
  ∀ (s : State) (tag : Byte) (p : List Byte), LinkReady s → p.length ≤ 60 → lengthAllowed 0x08 p = true →
    (1 < byteAt p 0 ∨ byteAt p 1 = 0 ∨ 6 < byteAt p 1 →
      exec (.setPulses tag p) s = refusedWith 0x08 tag .badValue s) ∧
    (∀ (ix : PageIx) (c : Cyl), pageOf (byteAt p 0) = some ix → Cyl.ofNum (byteAt p 1) = some c →
      (s.plan.swapPending = true → exec (.setPulses tag p) s = refusedWith 0x08 tag .swapPending s) ∧
      (s.plan.swapPending = false → ix = s.plan.active →
        exec (.setPulses tag p) s = refusedWith 0x08 tag .pageActive s) ∧
      (s.plan.swapPending = false → ix ≠ s.plan.active →
        (pulseListOf p = none → exec (.setPulses tag p) s = refusedWith 0x08 tag .badValue s) ∧
        (∀ xs, pulseListOf p = some xs →
          exec (.setPulses tag p) s = acked 0x08 tag
            (pulsesBytes ix c { s.plan.page ix with lists := (s.plan.page ix).lists.set c xs })
            (s.withPlan
              (s.plan.setPage ix { s.plan.page ix with lists := (s.plan.page ix).lists.set c xs })))))

/-- COPY_PAGE copies the six lists of the active page to the inactive one, whose serial is kept; SWAP_PLAN
waits for an arm event in RUN with the angle known and lands at once otherwise; both are refused with a swap
pending; REFRESH_PLAN sets the expiry count to 0 and clears stale. -/
def Obligations.PagesCopiedSwappedRefreshed : Prop :=
  ∀ (s : State) (tag : Byte) (p : List Byte), LinkReady s → p.length = 2 →
    (s.plan.swapPending = true →
      exec (.copyPage tag []) s = refusedWith 0x0A tag .swapPending s ∧
      exec (.swapPlan tag p) s = refusedWith 0x0B tag .swapPending s) ∧
    (s.plan.swapPending = false →
      exec (.copyPage tag []) s = acked 0x0A tag [byte s.plan.active.other.code]
        (s.withPlan
          (s.plan.setPage s.plan.active.other
            { s.plan.page s.plan.active.other with lists := (s.plan.page s.plan.active).lists })) ∧
      (s.run.mode = .run → (s.tracker.sync = .fullSync ∨ s.tracker.sync = .camLimp) →
        exec (.swapPlan tag p) s = acked 0x0B tag ([0, byte s.plan.active.code] ++ be16 (wordAt p 0))
          (s.withPlan
            { s.plan.setPage s.plan.active.other
                { s.plan.page s.plan.active.other with serial := wordAt p 0 } with swapPending := true })) ∧
      (s.run.mode ≠ .run ∨ (s.tracker.sync ≠ .fullSync ∧ s.tracker.sync ≠ .camLimp) →
        exec (.swapPlan tag p) s = acked 0x0B tag ([1, byte s.plan.active.other.code] ++ be16 (wordAt p 0))
          (s.withPlan
            { s.plan.setPage s.plan.active.other
                { s.plan.page s.plan.active.other with serial := wordAt p 0 } with
              active := s.plan.active.other, swapPending := false, expiry := 0, stale := false }))) ∧
    exec (.refreshPlan tag []) s = acked 0x0C tag [0, 0]
      (s.withPlan { s.plan with expiry := 0, stale := false })

/-- SET_WINDOW and SET_MARK store a whole window and mark of an index and acknowledge it as stored; a field out
of range is BAD_VALUE; a mark whose angle or enable changes leaves the queue and, with the angle known, waits to
be inserted; one whose flags alone change keeps its entry. The fields of both payloads and their ranges are spelled
out. -/
def Obligations.WindowsAndMarksStored : Prop :=
  (∀ (i set enable : Byte) (start stop : Nat) (p : List Byte), start < 65536 → stop < 65536 →
    p = [i] ++ be16 start ++ be16 stop ++ [set, enable] →
    (3 < i.toNat ∨ 7199 < start ∨ 7199 < stop ∨ (∀ b : BankSet, b.code ≠ set.toNat) ∨ 1 < enable.toNat →
      windowOf p = none) ∧
    (∀ b : BankSet, b.code = set.toNat → i.toNat ≤ 3 → start ≤ 7199 → stop ≤ 7199 → enable.toNat ≤ 1 →
      windowOf p = some
        (i.toNat, { start := start, stop := stop, banks := b, enabled := enable == 1 }))) ∧
  (∀ (i enable notice strobe : Byte) (angle : Nat) (p : List Byte), angle < 65536 →
    p = [i] ++ be16 angle ++ [enable, notice, strobe] →
    (7 < i.toNat ∨ 7199 < angle ∨ 1 < enable.toNat ∨ 1 < notice.toNat ∨ 1 < strobe.toNat → markOf p = none) ∧
    (∀ ix : MarkIx, ix.val = i.toNat → angle ≤ 7199 → enable.toNat ≤ 1 → notice.toNat ≤ 1 → strobe.toNat ≤ 1 →
      markOf p = some
        (ix, { angle := angle, enabled := enable == 1, notice := notice == 1, strobe := strobe == 1 }))) ∧
  ∀ (s : State) (tag : Byte) (p : List Byte), LinkReady s →
    (p.length = 7 →
      (windowOf p = none → exec (.setWindow tag p) s = refusedWith 0x0D tag .badValue s) ∧
      (∀ i w, windowOf p = some (i, w) →
        exec (.setWindow tag p) s = acked 0x0D tag (windowBytes i w)
          (s.withPlan { s.plan with windows := s.plan.windows.set i w }))) ∧
    (p.length = 6 →
      (markOf p = none → exec (.setMark tag p) s = refusedWith 0x0E tag .badValue s) ∧
      (∀ i m, markOf p = some (i, m) → s.plan.marks[i.val]?.map AngleMark.angle = some m.angle →
        s.plan.marks[i.val]?.map AngleMark.enabled = some m.enabled →
        exec (.setMark tag p) s = acked 0x0E tag (markBytes i m)
          (s.withPlan { s.plan with marks := s.plan.marks.set i.val m })) ∧
      (∀ i m old, markOf p = some (i, m) → s.plan.marks[i.val]? = some old →
        (old.angle ≠ m.angle ∨ old.enabled ≠ m.enabled) →
        ∃ t, exec (.setMark tag p) s = acked 0x0E tag (markBytes i m) t ∧
          t.plan = { s.plan with marks := s.plan.marks.set i.val m } ∧
          t.queue.entries = s.queue.entries.filter (fun e => !(e.key == .mark i)) ∧
          (s.tracker.sync.holdsAngle = true → i ∈ t.queue.pendingMarks) ∧
          (s.tracker.sync.holdsAngle = false → t.queue.pendingMarks = s.queue.pendingMarks) ∧
          t.tracker = s.tracker ∧ t.run = s.run ∧ t.link = s.link ∧ (∀ b, t.bank b = s.bank b) ∧
          t.contexts = s.contexts ∧ t.diag = s.diag))

/-- SET_DERATE clamps n to 1..16 and then k to 0..n − 1, stores both with the accumulator at 0 and acknowledges
them, and 0 of n derates nothing; TEST_CUT cancels with cylinder 0, is refused for a cylinder outside 0..6 or
undefined, and otherwise is stored with its count clamped to 1..255. The remaining count 0 in the ACK of a cancel
is the model's reading (log entry 16). -/
def Obligations.DerateAndTestCutStored : Prop :=
  ∀ (s : State) (tag x y : Byte), LinkReady s →
    (∀ n k, n = max 1 (min 16 y.toNat) → k = min (n - 1) x.toNat →
      exec (.setDerate tag [x, y]) s = acked 0x0F tag [byte k, byte n]
        (s.withPlan { s.plan with derateK := k, derateN := n, derateAcc := 0 })) ∧
    exec (.testCut tag [0, y]) s = acked 0x10 tag [0, 0] (s.withPlan { s.plan with testCut := none }) ∧
    (6 < x.toNat → exec (.testCut tag [x, y]) s = refusedWith 0x10 tag .badValue s) ∧
    (∀ c : Cyl,
      ((s.plan.cyls.get c).place = none →
        exec (.testCut tag [byte c.num, y]) s = refusedWith 0x10 tag .notDefined s) ∧
      ((s.plan.cyls.get c).place ≠ none →
        exec (.testCut tag [byte c.num, y]) s = acked 0x10 tag [byte c.num, byte (max 1 y.toNat)]
          (s.withPlan { s.plan with testCut := some (c, max 1 y.toNat) }))) ∧
    (∀ q : PlanStore, q.derateK = 0 → q.derateAcc < q.derateN → derateHolds q = false)

/-- The derate check: the accumulator gains k, and at n or more loses n and the check holds; it stays below n. -/
def Obligations.DerateAccumulatorAdvances : Prop :=
  ∀ p : PlanStore, p.derateK < p.derateN → p.derateAcc < p.derateN →
    (p.derateAcc + p.derateK < p.derateN →
      derateHolds p = false ∧ derateAfter p = p.derateAcc + p.derateK) ∧
    (p.derateN ≤ p.derateAcc + p.derateK →
      derateHolds p = true ∧ derateAfter p = p.derateAcc + p.derateK - p.derateN) ∧
    derateAfter p < p.derateN

/-- SET_NOTICES: bit 14 or 15 set is refused and leaves the set; otherwise the carried set replaces the stored
set whole and the ACK carries it; in every run mode and sync state. -/
def Obligations.SetNoticesReplacesSet : Prop :=
  ∀ (s : State) (tag x y : Byte), LinkReady s →
    (0x40 ≤ x.toNat → exec (.setNotices tag [x, y]) s = refusedWith 0x11 tag .badValue s) ∧
    (x.toNat < 0x40 →
      exec (.setNotices tag [x, y]) s = acked 0x11 tag [x, y]
        (s.withLink { s.link with enable := (x ++ y : BitVec 16) })) ∧
    (∀ n : Notice, n.frame.kind = byte (0xC0 + n.body.index) ∧ n.body.index ≤ 13) ∧
    (∀ b : NoticeBody,
      (s.link.enable.getLsbD b.index = false → queueNotice b s = s) ∧
      (s.link.enable.getLsbD b.index = true →
        queueNotice b s = s.withLink
          ((s.link.enqueueNotice { time := s.timebase, body := b }).takeFrame s.timebase))) ∧
    (∀ w low v u, exec (.powerOnReset w low v) s = .next u → u.link.enable = 0x3FE7#16) ∧
    (∀ low v u t, exec .pinResetAssert s = .next u → exec (.pinResetRelease low v) u = .next t →
      t.link.enable = 0x3FE7#16)

/-- START: in HALT with no cylinder defined it is refused; in RUN it changes nothing; otherwise the mode becomes
RUN with the drain timer stopped, and with the angle known an ARM entry is inserted for each defined cylinder, WAITING
at its TDC less the arming lead, modulo 7200; every other entry is kept. -/
def Obligations.StartEntersRun : Prop :=
  ∀ (s : State) (tag : Byte), LinkReady s →
    (s.run.mode = .halt → (∀ c, (s.plan.cyls.get c).place = none) →
      exec (.start tag []) s = refusedWith 0x12 tag .notDefined s) ∧
    (s.run.mode = .run → exec (.start tag []) s = acked 0x12 tag [1] s) ∧
    ((s.run.mode = .drain ∨ (s.run.mode = .halt ∧ ∃ c, (s.plan.cyls.get c).place ≠ none)) →
      (s.tracker.sync.holdsAngle = false →
        exec (.start tag []) s = acked 0x12 tag [1]
          (s.withRun { s.run with mode := .run, drainAt := none })) ∧
      (s.tracker.sync.holdsAngle = true →
        ∃ t, exec (.start tag []) s = acked 0x12 tag [1] t ∧
          t = insertArms (s.withRun { s.run with mode := .run, drainAt := none }) ∧
          (∃ xs, t = (s.withRun { s.run with mode := .run, drainAt := none }).withQueue
            { s.queue with entries := xs }) ∧
          (s.queue.Bounded →
            (∀ c, (s.plan.cyls.get c).place = none → findEntry (.arm c) t = findEntry (.arm c) s) ∧
            (∀ c pl, (s.plan.cyls.get c).place = some pl →
              findEntry (.arm c) t = (findEntry (.arm c) s).or (some
                { key := .arm c, pulse := none, commit := none
                  target := some (((pl.tdc : Int) - (s.plan.engine.armingLead : Int)) % 7200).toNat })) ∧
            ∀ k, (∀ c, k ≠ .arm c) → findEntry k t = findEntry k s)))

/-- STOP: outside RUN it changes nothing; in RUN the ARM entries go, a pending swap lands with PLAN_SWAPPED, and the
mode becomes DRAIN with its timer 200,000 ticks on if a context is open, else HALT with STOP_DONE after it, not forced
and with a count of 0. -/
def Obligations.StopDrainsOrHalts : Prop :=
  ∀ (s : State) (tag : Byte), LinkReady s →
    (s.run.mode = .halt → exec (.stop tag []) s = acked 0x13 tag [0] s) ∧
    (s.run.mode = .drain → exec (.stop tag []) s = acked 0x13 tag [2] s) ∧
    (s.run.mode = .run → ∀ u : State,
      u = (if s.plan.swapPending then queueNotice (.planSwapped s.plan.land.activePage.serial none) s else s) →
      ((∃ c, s.contexts.get c ≠ none) → ∃ t, exec (.stop tag []) s = acked 0x13 tag [2] t ∧
        t.run = { s.run with mode := .drain, drainAt := some (s.timebase + 200000) } ∧
        t.queue.entries = s.queue.entries.filter (fun e => !e.isArm) ∧
        t.plan = (if s.plan.swapPending then s.plan.land else s.plan) ∧ t.link = u.link ∧
        t.contexts = s.contexts ∧ t.tracker = s.tracker ∧ (∀ b, t.bank b = s.bank b) ∧ t.diag = s.diag) ∧
      ((∀ c, s.contexts.get c = none) → ∃ t, exec (.stop tag []) s = acked 0x13 tag [0] t ∧
        t.run = { s.run with mode := .halt, drainAt := none } ∧
        t.queue.entries = s.queue.entries.filter (fun e => !e.isArm) ∧
        t.plan = (if s.plan.swapPending then s.plan.land else s.plan) ∧
        t.link = (queueNotice (.stopDone false 0) u).link ∧
        t.contexts = s.contexts ∧ t.tracker = s.tracker ∧ (∀ b, t.bank b = s.bank b) ∧ t.diag = s.diag))

/-- RESET_RUN, in every run mode and sync state: HALT, the drain timer stopped, no context, no record, no ARM and no
PULSE entry, no waiting start, the energized pulses cut, a coil check ended, the swap, expiry, stale, derate
accumulator and test cut cleared; the tracker, the MARK entries and the rest of the plan kept. First of all the notice
queue is emptied and the lost count is 0; the notices of the cut pulses' classifications, bank A's first, and the
COIL_RESULT of a check it ends join the emptied queue. That order is the model's reading (log entry 13). -/
def Obligations.ResetRunClearsRun : Prop :=
  ∀ (s : State) (tag : Byte), LinkReady s → ∃ t u, exec (.resetRun tag []) s = acked 0x14 tag [0] t ∧
    u.link = { s.link with notices := [], lost := 0 } ∧ u.diag = s.diag ∧ u.timebase = s.timebase ∧
    u.plan = t.plan ∧ u.queue.entries = t.queue.entries ∧ (∀ c, u.contexts.get c = none) ∧
    (∀ b, (u.bank b).drive = (s.bank b).drive ∧ (u.bank b).waiting = none) ∧
    (∀ f : Bank → State → State,
      (∀ b v, f b v = match (v.bank b).drive.energized with
        | some p => diagnose p.cyl (classify { p with cut := true }) (startDecay b { p with cut := true } v)
        | none => v) →
      t = match s.diag.coil with
        | some x => queueNotice (.coilResult x.cyl .aborted x.curTime (some .resetRun))
            ((f .bankB (f .bankA u)).withDiag { (f .bankB (f .bankA u)).diag with coil := none })
        | none => f .bankB (f .bankA u)) ∧
    ((∀ b, (s.bank b).drive.energized = none) → s.diag.coil = none →
      t.link = { s.link with notices := [], lost := 0 }) ∧
    (∀ x, (∀ b, (s.bank b).drive.energized = none) → s.diag.coil = some x →
      t.link = (queueNotice (.coilResult x.cyl .aborted x.curTime (some .resetRun))
        (s.withLink { s.link with notices := [], lost := 0 })).link) ∧
    t.run = { s.run with mode := .halt, drainAt := none } ∧
    (∀ c, t.contexts.get c = none ∧ t.records.get c = none) ∧
    t.queue.entries = s.queue.entries.filter (fun e => !e.isPulse && !e.isArm) ∧
    (∀ b, (t.bank b).waiting = none) ∧
    (∀ b p, (s.bank b).drive.energized = some p →
      (t.bank b).drive = .decay { p with cut := true } s.timebase (s.timebase + 100)) ∧
    (∀ b, (s.bank b).drive.energized = none → (t.bank b).drive = (s.bank b).drive) ∧
    t.diag.coil = none ∧ t.tracker = s.tracker ∧ t.timebase = s.timebase ∧
    t.plan = { s.plan with
      swapPending := false, expiry := 0, stale := false, derateAcc := 0, testCut := none } ∧
    t.link.inbound = s.link.inbound ∧ t.link.enable = s.link.enable ∧
    t.link.frameErrors = s.link.frameErrors ∧ t.link.framer = s.link.framer

/-- CLEAR_FAULT clears one cylinder's latch and score and arms its warning, and reports the score and latch as
they stood; CLEAR_LATCH clears both tracker latches and reports them as they stood; nothing else changes. -/
def Obligations.ClearsReportWhatTheyClear : Prop :=
  ∀ (s : State) (tag : Byte), LinkReady s →
    (∀ c : Cyl,
      exec (.clearFault tag [byte c.num]) s = acked 0x16 tag
        [byte c.num, byte (s.diag.score.get c), byte (bit (s.diag.disabled.get c))]
        (s.withDiag
          { s.diag with
            disabled := s.diag.disabled.set c false, score := s.diag.score.set c 0
            warnArmed := s.diag.warnArmed.set c true })) ∧
    (∀ x : Byte, x.toNat = 0 ∨ 6 < x.toNat →
      exec (.clearFault tag [x]) s = refusedWith 0x16 tag .badValue s) ∧
    exec (.clearLatch tag []) s = acked 0x17 tag
      [byte (bit s.tracker.crankFault + 2 * bit s.tracker.camFault)]
      (s.withTracker { s.tracker with crankFault := false, camFault := false })

/-- COIL_CHECK: the refusals of R138 in their order; an accepted check runs from now on the cylinder's bank and
output, and nothing else changes; a SET_CYLINDER leaves the running check as it is. -/
def Obligations.CoilCheckStartsOrRefuses : Prop :=
  ∀ (s : State) (tag : Byte), LinkReady s →
    (∀ x : Byte, x.toNat = 0 ∨ 6 < x.toNat →
      exec (.coilCheck tag [x]) s = refusedWith 0x18 tag .badValue s) ∧
    (∀ c : Cyl,
      ((s.plan.cyls.get c).place = none →
        exec (.coilCheck tag [byte c.num]) s = refusedWith 0x18 tag .notDefined s) ∧
      (∀ pl, (s.plan.cyls.get c).place = some pl →
        (s.diag.coil ≠ none → exec (.coilCheck tag [byte c.num]) s = refusedWith 0x18 tag .busy s) ∧
        (s.diag.coil = none →
          (s.tracker.sync ≠ .stopped ∨ (∃ d, s.contexts.get d ≠ none) ∨ (s.bank pl.bank).drive ≠ .idle
              ∨ s.run.fuelcut = true →
            exec (.coilCheck tag [byte c.num]) s = refusedWith 0x18 tag .wrongMode s) ∧
          (s.tracker.sync = .stopped → (∀ d, s.contexts.get d = none) → (s.bank pl.bank).drive = .idle →
            s.run.fuelcut = false →
            exec (.coilCheck tag [byte c.num]) s = acked 0x18 tag [byte c.num, 1]
              (s.withDiag
                { s.diag with
                  coil := some
                    { cyl := c, bank := pl.bank, output := pl.output, start := s.timebase
                      curTime := none } }))))) ∧
    (∀ p u, exec (.setCylinder tag p) s = .next u → u.diag = s.diag)

/-! ## Arithmetic -/

/-- Tp from T1 and T2: round(T1 × T1 / T2) clamped to three quarters and five quarters of T1 with compensation
on and two periods, T1 otherwise, and at least 1 tick. -/
def Obligations.PredictedPeriodFormed : Prop :=
  ∀ (t1 t2 : Nat) (rest : List Nat), 1 ≤ t2 →
    formTp true (t1 :: t2 :: rest) = some (max 1
      (max ((3 * t1 + 3) / 4) (min (5 * t1 / 4) ((2 * (t1 * t1) + t2) / (2 * t2))))) ∧
    formTp false (t1 :: t2 :: rest) = some (max 1 t1) ∧
    (∀ accel, formTp accel [t1] = some (max 1 t1)) ∧ (∀ accel, formTp accel [] = none) ∧
    (t1 ≤ 67108860 → t2 ≤ 67108860 → ∀ tp, formTp true (t1 :: t2 :: rest) = some tp → tp ≤ 83886075)

/-- The speed in rpm from T1 of the history in use, 0 in STOPPED and with fewer than two periods, at most
65,535. -/
def Obligations.SpeedFromNewestPeriod : Prop :=
  ∀ t : Tracker,
    (t.sync = .stopped → speed t = 0) ∧
    (t.sync ≠ .stopped → (if t.sync = .camLimp then t.cam.hist else t.crankHist).length < 2 → speed t = 0) ∧
    (∀ t1 t2 rest, t.sync = .camLimp → t.cam.hist = t1 :: t2 :: rest →
      speed t = min 65535 (40000000 / t1)) ∧
    (∀ t1 t2 rest, t.sync ≠ .stopped → t.sync ≠ .camLimp → t.crankHist = t1 :: t2 :: rest →
      speed t = min 65535 ((match t.wheel with | .w60 => 2000000 | .w36 => 3333333) / t1))

/-- The interpolated angle is absent in STOPPED and SEEKING; elsewhere it is formed from the carrying edge, its
advance held one step short of the next edge, within the cycle or, in HALF_SYNC, within the revolution. The carrying
edge of HALF_SYNC and FULL_SYNC is the last accepted crank edge with the crank Tp, P and the span P, or 3P before the
gap. In CAM_LIMP it is the last accepted cam edge with the cam Tp, 1200 and the span to the next cam tooth. -/
def Obligations.InterpolatedAngleHeld : Prop :=
  ∀ (t : Tracker) (now : Tick),
    (t.sync = .stopped ∨ t.sync = .seeking → carrier t = none ∧ interpolated t now = none) ∧
    (∀ (a pitch : Nat) (time : Tick) (tp : Nat), t.sync = .halfSync ∨ t.sync = .fullSync →
      t.edgeAngle = some a → t.prevCrank = some time → t.crankTp = some tp →
      pitch = (match t.wheel with | .w60 => 60 | .w36 => 100) →
      carrier t = some
        { angle := a, time := time, tp := tp, perTp := pitch
          span := if t.tooth = (match t.wheel with | .w60 => 57 | .w36 => 33) then 3 * pitch else pitch }) ∧
    (∀ (a : Nat) (time : Tick) (tp : Nat), t.sync = .camLimp →
      t.edgeAngle = some a → t.cam.lastAccepted = some time → t.cam.tp = some tp →
      (t.cam.identity = .regular 0 →
        carrier t = some { angle := a, time := time, tp := tp, perTp := 1200, span := 300 }) ∧
      (t.cam.identity = .extra →
        carrier t = some { angle := a, time := time, tp := tp, perTp := 1200, span := 900 }) ∧
      (∀ k, t.cam.identity = .regular k → k ≠ 0 →
        carrier t = some { angle := a, time := time, tp := tp, perTp := 1200, span := 1200 })) ∧
    (∀ e, carrier t = some e →
      interpolated t now = some
        ((e.angle + min (elapsed e.time now * e.perTp / e.tp) (e.span - 1))
          % (if t.sync = .halfSync then 3600 else 7200))) ∧
    (∀ x, interpolated t now = some x → x < (if t.sync = .halfSync then 3600 else 7200))
end

