-- ==== Sys2Proof/Laws/State.lean ====
section
/-! SUPPORT. One lemma per field and named update of the state, each true by rfl, so that no later proof
unfolds a record update; and the laws of the per-cylinder tables. -/

namespace Sys2Proof.Machine

@[simp] theorem State.withResetHeld_resetHeld (s : State) (x : Bool) : (s.withResetHeld x).resetHeld = x := rfl
@[simp] theorem State.withResetHeld_timebase (s : State) (x : Bool) : (s.withResetHeld x).timebase = s.timebase := rfl
@[simp] theorem State.withResetHeld_tracker (s : State) (x : Bool) : (s.withResetHeld x).tracker = s.tracker := rfl
@[simp] theorem State.withResetHeld_plan (s : State) (x : Bool) : (s.withResetHeld x).plan = s.plan := rfl
@[simp] theorem State.withResetHeld_contexts (s : State) (x : Bool) : (s.withResetHeld x).contexts = s.contexts := rfl
@[simp] theorem State.withResetHeld_records (s : State) (x : Bool) : (s.withResetHeld x).records = s.records := rfl
@[simp] theorem State.withResetHeld_queue (s : State) (x : Bool) : (s.withResetHeld x).queue = s.queue := rfl
@[simp] theorem State.withResetHeld_bankA (s : State) (x : Bool) : (s.withResetHeld x).bankA = s.bankA := rfl
@[simp] theorem State.withResetHeld_bankB (s : State) (x : Bool) : (s.withResetHeld x).bankB = s.bankB := rfl
@[simp] theorem State.withResetHeld_diag (s : State) (x : Bool) : (s.withResetHeld x).diag = s.diag := rfl
@[simp] theorem State.withResetHeld_run (s : State) (x : Bool) : (s.withResetHeld x).run = s.run := rfl
@[simp] theorem State.withResetHeld_link (s : State) (x : Bool) : (s.withResetHeld x).link = s.link := rfl
@[simp] theorem State.withResetHeld_pending (s : State) (x : Bool) : (s.withResetHeld x).pending = s.pending := rfl
@[simp] theorem State.withResetHeld_bank (s : State) (x : Bool) (b : Bank) : (s.withResetHeld x).bank b = s.bank b := by
  cases b <;> rfl
@[simp] theorem State.withResetHeld_withResetHeld (s : State) (x y : Bool) :
    (s.withResetHeld x).withResetHeld y = s.withResetHeld y := rfl

@[simp] theorem State.withTimebase_resetHeld (s : State) (x : Tick) : (s.withTimebase x).resetHeld = s.resetHeld := rfl
@[simp] theorem State.withTimebase_timebase (s : State) (x : Tick) : (s.withTimebase x).timebase = x := rfl
@[simp] theorem State.withTimebase_tracker (s : State) (x : Tick) : (s.withTimebase x).tracker = s.tracker := rfl
@[simp] theorem State.withTimebase_plan (s : State) (x : Tick) : (s.withTimebase x).plan = s.plan := rfl
@[simp] theorem State.withTimebase_contexts (s : State) (x : Tick) : (s.withTimebase x).contexts = s.contexts := rfl
@[simp] theorem State.withTimebase_records (s : State) (x : Tick) : (s.withTimebase x).records = s.records := rfl
@[simp] theorem State.withTimebase_queue (s : State) (x : Tick) : (s.withTimebase x).queue = s.queue := rfl
@[simp] theorem State.withTimebase_bankA (s : State) (x : Tick) : (s.withTimebase x).bankA = s.bankA := rfl
@[simp] theorem State.withTimebase_bankB (s : State) (x : Tick) : (s.withTimebase x).bankB = s.bankB := rfl
@[simp] theorem State.withTimebase_diag (s : State) (x : Tick) : (s.withTimebase x).diag = s.diag := rfl
@[simp] theorem State.withTimebase_run (s : State) (x : Tick) : (s.withTimebase x).run = s.run := rfl
@[simp] theorem State.withTimebase_link (s : State) (x : Tick) : (s.withTimebase x).link = s.link := rfl
@[simp] theorem State.withTimebase_pending (s : State) (x : Tick) : (s.withTimebase x).pending = s.pending := rfl
@[simp] theorem State.withTimebase_bank (s : State) (x : Tick) (b : Bank) : (s.withTimebase x).bank b = s.bank b := by
  cases b <;> rfl
@[simp] theorem State.withTimebase_withTimebase (s : State) (x y : Tick) :
    (s.withTimebase x).withTimebase y = s.withTimebase y := rfl

@[simp] theorem State.withTracker_resetHeld (s : State) (x : Tracker) : (s.withTracker x).resetHeld = s.resetHeld := rfl
@[simp] theorem State.withTracker_timebase (s : State) (x : Tracker) : (s.withTracker x).timebase = s.timebase := rfl
@[simp] theorem State.withTracker_tracker (s : State) (x : Tracker) : (s.withTracker x).tracker = x := rfl
@[simp] theorem State.withTracker_plan (s : State) (x : Tracker) : (s.withTracker x).plan = s.plan := rfl
@[simp] theorem State.withTracker_contexts (s : State) (x : Tracker) : (s.withTracker x).contexts = s.contexts := rfl
@[simp] theorem State.withTracker_records (s : State) (x : Tracker) : (s.withTracker x).records = s.records := rfl
@[simp] theorem State.withTracker_queue (s : State) (x : Tracker) : (s.withTracker x).queue = s.queue := rfl
@[simp] theorem State.withTracker_bankA (s : State) (x : Tracker) : (s.withTracker x).bankA = s.bankA := rfl
@[simp] theorem State.withTracker_bankB (s : State) (x : Tracker) : (s.withTracker x).bankB = s.bankB := rfl
@[simp] theorem State.withTracker_diag (s : State) (x : Tracker) : (s.withTracker x).diag = s.diag := rfl
@[simp] theorem State.withTracker_run (s : State) (x : Tracker) : (s.withTracker x).run = s.run := rfl
@[simp] theorem State.withTracker_link (s : State) (x : Tracker) : (s.withTracker x).link = s.link := rfl
@[simp] theorem State.withTracker_pending (s : State) (x : Tracker) : (s.withTracker x).pending = s.pending := rfl
@[simp] theorem State.withTracker_bank (s : State) (x : Tracker) (b : Bank) : (s.withTracker x).bank b = s.bank b := by
  cases b <;> rfl
@[simp] theorem State.withTracker_withTracker (s : State) (x y : Tracker) :
    (s.withTracker x).withTracker y = s.withTracker y := rfl

@[simp] theorem State.withPlan_resetHeld (s : State) (x : PlanStore) : (s.withPlan x).resetHeld = s.resetHeld := rfl
@[simp] theorem State.withPlan_timebase (s : State) (x : PlanStore) : (s.withPlan x).timebase = s.timebase := rfl
@[simp] theorem State.withPlan_tracker (s : State) (x : PlanStore) : (s.withPlan x).tracker = s.tracker := rfl
@[simp] theorem State.withPlan_plan (s : State) (x : PlanStore) : (s.withPlan x).plan = x := rfl
@[simp] theorem State.withPlan_contexts (s : State) (x : PlanStore) : (s.withPlan x).contexts = s.contexts := rfl
@[simp] theorem State.withPlan_records (s : State) (x : PlanStore) : (s.withPlan x).records = s.records := rfl
@[simp] theorem State.withPlan_queue (s : State) (x : PlanStore) : (s.withPlan x).queue = s.queue := rfl
@[simp] theorem State.withPlan_bankA (s : State) (x : PlanStore) : (s.withPlan x).bankA = s.bankA := rfl
@[simp] theorem State.withPlan_bankB (s : State) (x : PlanStore) : (s.withPlan x).bankB = s.bankB := rfl
@[simp] theorem State.withPlan_diag (s : State) (x : PlanStore) : (s.withPlan x).diag = s.diag := rfl
@[simp] theorem State.withPlan_run (s : State) (x : PlanStore) : (s.withPlan x).run = s.run := rfl
@[simp] theorem State.withPlan_link (s : State) (x : PlanStore) : (s.withPlan x).link = s.link := rfl
@[simp] theorem State.withPlan_pending (s : State) (x : PlanStore) : (s.withPlan x).pending = s.pending := rfl
@[simp] theorem State.withPlan_bank (s : State) (x : PlanStore) (b : Bank) : (s.withPlan x).bank b = s.bank b := by
  cases b <;> rfl
@[simp] theorem State.withPlan_withPlan (s : State) (x y : PlanStore) :
    (s.withPlan x).withPlan y = s.withPlan y := rfl

@[simp] theorem State.withContexts_resetHeld (s : State) (x : PerCyl (Option CycleContext)) : (s.withContexts x).resetHeld = s.resetHeld := rfl
@[simp] theorem State.withContexts_timebase (s : State) (x : PerCyl (Option CycleContext)) : (s.withContexts x).timebase = s.timebase := rfl
@[simp] theorem State.withContexts_tracker (s : State) (x : PerCyl (Option CycleContext)) : (s.withContexts x).tracker = s.tracker := rfl
@[simp] theorem State.withContexts_plan (s : State) (x : PerCyl (Option CycleContext)) : (s.withContexts x).plan = s.plan := rfl
@[simp] theorem State.withContexts_contexts (s : State) (x : PerCyl (Option CycleContext)) : (s.withContexts x).contexts = x := rfl
@[simp] theorem State.withContexts_records (s : State) (x : PerCyl (Option CycleContext)) : (s.withContexts x).records = s.records := rfl
@[simp] theorem State.withContexts_queue (s : State) (x : PerCyl (Option CycleContext)) : (s.withContexts x).queue = s.queue := rfl
@[simp] theorem State.withContexts_bankA (s : State) (x : PerCyl (Option CycleContext)) : (s.withContexts x).bankA = s.bankA := rfl
@[simp] theorem State.withContexts_bankB (s : State) (x : PerCyl (Option CycleContext)) : (s.withContexts x).bankB = s.bankB := rfl
@[simp] theorem State.withContexts_diag (s : State) (x : PerCyl (Option CycleContext)) : (s.withContexts x).diag = s.diag := rfl
@[simp] theorem State.withContexts_run (s : State) (x : PerCyl (Option CycleContext)) : (s.withContexts x).run = s.run := rfl
@[simp] theorem State.withContexts_link (s : State) (x : PerCyl (Option CycleContext)) : (s.withContexts x).link = s.link := rfl
@[simp] theorem State.withContexts_pending (s : State) (x : PerCyl (Option CycleContext)) : (s.withContexts x).pending = s.pending := rfl
@[simp] theorem State.withContexts_bank (s : State) (x : PerCyl (Option CycleContext)) (b : Bank) : (s.withContexts x).bank b = s.bank b := by
  cases b <;> rfl
@[simp] theorem State.withContexts_withContexts (s : State) (x y : PerCyl (Option CycleContext)) :
    (s.withContexts x).withContexts y = s.withContexts y := rfl

@[simp] theorem State.withRecords_resetHeld (s : State) (x : PerCyl (Option CycleRecord)) : (s.withRecords x).resetHeld = s.resetHeld := rfl
@[simp] theorem State.withRecords_timebase (s : State) (x : PerCyl (Option CycleRecord)) : (s.withRecords x).timebase = s.timebase := rfl
@[simp] theorem State.withRecords_tracker (s : State) (x : PerCyl (Option CycleRecord)) : (s.withRecords x).tracker = s.tracker := rfl
@[simp] theorem State.withRecords_plan (s : State) (x : PerCyl (Option CycleRecord)) : (s.withRecords x).plan = s.plan := rfl
@[simp] theorem State.withRecords_contexts (s : State) (x : PerCyl (Option CycleRecord)) : (s.withRecords x).contexts = s.contexts := rfl
@[simp] theorem State.withRecords_records (s : State) (x : PerCyl (Option CycleRecord)) : (s.withRecords x).records = x := rfl
@[simp] theorem State.withRecords_queue (s : State) (x : PerCyl (Option CycleRecord)) : (s.withRecords x).queue = s.queue := rfl
@[simp] theorem State.withRecords_bankA (s : State) (x : PerCyl (Option CycleRecord)) : (s.withRecords x).bankA = s.bankA := rfl
@[simp] theorem State.withRecords_bankB (s : State) (x : PerCyl (Option CycleRecord)) : (s.withRecords x).bankB = s.bankB := rfl
@[simp] theorem State.withRecords_diag (s : State) (x : PerCyl (Option CycleRecord)) : (s.withRecords x).diag = s.diag := rfl
@[simp] theorem State.withRecords_run (s : State) (x : PerCyl (Option CycleRecord)) : (s.withRecords x).run = s.run := rfl
@[simp] theorem State.withRecords_link (s : State) (x : PerCyl (Option CycleRecord)) : (s.withRecords x).link = s.link := rfl
@[simp] theorem State.withRecords_pending (s : State) (x : PerCyl (Option CycleRecord)) : (s.withRecords x).pending = s.pending := rfl
@[simp] theorem State.withRecords_bank (s : State) (x : PerCyl (Option CycleRecord)) (b : Bank) : (s.withRecords x).bank b = s.bank b := by
  cases b <;> rfl
@[simp] theorem State.withRecords_withRecords (s : State) (x y : PerCyl (Option CycleRecord)) :
    (s.withRecords x).withRecords y = s.withRecords y := rfl

@[simp] theorem State.withQueue_resetHeld (s : State) (x : FiringQueue) : (s.withQueue x).resetHeld = s.resetHeld := rfl
@[simp] theorem State.withQueue_timebase (s : State) (x : FiringQueue) : (s.withQueue x).timebase = s.timebase := rfl
@[simp] theorem State.withQueue_tracker (s : State) (x : FiringQueue) : (s.withQueue x).tracker = s.tracker := rfl
@[simp] theorem State.withQueue_plan (s : State) (x : FiringQueue) : (s.withQueue x).plan = s.plan := rfl
@[simp] theorem State.withQueue_contexts (s : State) (x : FiringQueue) : (s.withQueue x).contexts = s.contexts := rfl
@[simp] theorem State.withQueue_records (s : State) (x : FiringQueue) : (s.withQueue x).records = s.records := rfl
@[simp] theorem State.withQueue_queue (s : State) (x : FiringQueue) : (s.withQueue x).queue = x := rfl
@[simp] theorem State.withQueue_bankA (s : State) (x : FiringQueue) : (s.withQueue x).bankA = s.bankA := rfl
@[simp] theorem State.withQueue_bankB (s : State) (x : FiringQueue) : (s.withQueue x).bankB = s.bankB := rfl
@[simp] theorem State.withQueue_diag (s : State) (x : FiringQueue) : (s.withQueue x).diag = s.diag := rfl
@[simp] theorem State.withQueue_run (s : State) (x : FiringQueue) : (s.withQueue x).run = s.run := rfl
@[simp] theorem State.withQueue_link (s : State) (x : FiringQueue) : (s.withQueue x).link = s.link := rfl
@[simp] theorem State.withQueue_pending (s : State) (x : FiringQueue) : (s.withQueue x).pending = s.pending := rfl
@[simp] theorem State.withQueue_bank (s : State) (x : FiringQueue) (b : Bank) : (s.withQueue x).bank b = s.bank b := by
  cases b <;> rfl
@[simp] theorem State.withQueue_withQueue (s : State) (x y : FiringQueue) :
    (s.withQueue x).withQueue y = s.withQueue y := rfl

@[simp] theorem State.withDiag_resetHeld (s : State) (x : Diagnosis) : (s.withDiag x).resetHeld = s.resetHeld := rfl
@[simp] theorem State.withDiag_timebase (s : State) (x : Diagnosis) : (s.withDiag x).timebase = s.timebase := rfl
@[simp] theorem State.withDiag_tracker (s : State) (x : Diagnosis) : (s.withDiag x).tracker = s.tracker := rfl
@[simp] theorem State.withDiag_plan (s : State) (x : Diagnosis) : (s.withDiag x).plan = s.plan := rfl
@[simp] theorem State.withDiag_contexts (s : State) (x : Diagnosis) : (s.withDiag x).contexts = s.contexts := rfl
@[simp] theorem State.withDiag_records (s : State) (x : Diagnosis) : (s.withDiag x).records = s.records := rfl
@[simp] theorem State.withDiag_queue (s : State) (x : Diagnosis) : (s.withDiag x).queue = s.queue := rfl
@[simp] theorem State.withDiag_bankA (s : State) (x : Diagnosis) : (s.withDiag x).bankA = s.bankA := rfl
@[simp] theorem State.withDiag_bankB (s : State) (x : Diagnosis) : (s.withDiag x).bankB = s.bankB := rfl
@[simp] theorem State.withDiag_diag (s : State) (x : Diagnosis) : (s.withDiag x).diag = x := rfl
@[simp] theorem State.withDiag_run (s : State) (x : Diagnosis) : (s.withDiag x).run = s.run := rfl
@[simp] theorem State.withDiag_link (s : State) (x : Diagnosis) : (s.withDiag x).link = s.link := rfl
@[simp] theorem State.withDiag_pending (s : State) (x : Diagnosis) : (s.withDiag x).pending = s.pending := rfl
@[simp] theorem State.withDiag_bank (s : State) (x : Diagnosis) (b : Bank) : (s.withDiag x).bank b = s.bank b := by
  cases b <;> rfl
@[simp] theorem State.withDiag_withDiag (s : State) (x y : Diagnosis) :
    (s.withDiag x).withDiag y = s.withDiag y := rfl

@[simp] theorem State.withRun_resetHeld (s : State) (x : RunControl) : (s.withRun x).resetHeld = s.resetHeld := rfl
@[simp] theorem State.withRun_timebase (s : State) (x : RunControl) : (s.withRun x).timebase = s.timebase := rfl
@[simp] theorem State.withRun_tracker (s : State) (x : RunControl) : (s.withRun x).tracker = s.tracker := rfl
@[simp] theorem State.withRun_plan (s : State) (x : RunControl) : (s.withRun x).plan = s.plan := rfl
@[simp] theorem State.withRun_contexts (s : State) (x : RunControl) : (s.withRun x).contexts = s.contexts := rfl
@[simp] theorem State.withRun_records (s : State) (x : RunControl) : (s.withRun x).records = s.records := rfl
@[simp] theorem State.withRun_queue (s : State) (x : RunControl) : (s.withRun x).queue = s.queue := rfl
@[simp] theorem State.withRun_bankA (s : State) (x : RunControl) : (s.withRun x).bankA = s.bankA := rfl
@[simp] theorem State.withRun_bankB (s : State) (x : RunControl) : (s.withRun x).bankB = s.bankB := rfl
@[simp] theorem State.withRun_diag (s : State) (x : RunControl) : (s.withRun x).diag = s.diag := rfl
@[simp] theorem State.withRun_run (s : State) (x : RunControl) : (s.withRun x).run = x := rfl
@[simp] theorem State.withRun_link (s : State) (x : RunControl) : (s.withRun x).link = s.link := rfl
@[simp] theorem State.withRun_pending (s : State) (x : RunControl) : (s.withRun x).pending = s.pending := rfl
@[simp] theorem State.withRun_bank (s : State) (x : RunControl) (b : Bank) : (s.withRun x).bank b = s.bank b := by
  cases b <;> rfl
@[simp] theorem State.withRun_withRun (s : State) (x y : RunControl) :
    (s.withRun x).withRun y = s.withRun y := rfl

@[simp] theorem State.withLink_resetHeld (s : State) (x : Link) : (s.withLink x).resetHeld = s.resetHeld := rfl
@[simp] theorem State.withLink_timebase (s : State) (x : Link) : (s.withLink x).timebase = s.timebase := rfl
@[simp] theorem State.withLink_tracker (s : State) (x : Link) : (s.withLink x).tracker = s.tracker := rfl
@[simp] theorem State.withLink_plan (s : State) (x : Link) : (s.withLink x).plan = s.plan := rfl
@[simp] theorem State.withLink_contexts (s : State) (x : Link) : (s.withLink x).contexts = s.contexts := rfl
@[simp] theorem State.withLink_records (s : State) (x : Link) : (s.withLink x).records = s.records := rfl
@[simp] theorem State.withLink_queue (s : State) (x : Link) : (s.withLink x).queue = s.queue := rfl
@[simp] theorem State.withLink_bankA (s : State) (x : Link) : (s.withLink x).bankA = s.bankA := rfl
@[simp] theorem State.withLink_bankB (s : State) (x : Link) : (s.withLink x).bankB = s.bankB := rfl
@[simp] theorem State.withLink_diag (s : State) (x : Link) : (s.withLink x).diag = s.diag := rfl
@[simp] theorem State.withLink_run (s : State) (x : Link) : (s.withLink x).run = s.run := rfl
@[simp] theorem State.withLink_link (s : State) (x : Link) : (s.withLink x).link = x := rfl
@[simp] theorem State.withLink_pending (s : State) (x : Link) : (s.withLink x).pending = s.pending := rfl
@[simp] theorem State.withLink_bank (s : State) (x : Link) (b : Bank) : (s.withLink x).bank b = s.bank b := by
  cases b <;> rfl
@[simp] theorem State.withLink_withLink (s : State) (x y : Link) :
    (s.withLink x).withLink y = s.withLink y := rfl

@[simp] theorem State.withPending_resetHeld (s : State) (x : List Instr) : (s.withPending x).resetHeld = s.resetHeld := rfl
@[simp] theorem State.withPending_timebase (s : State) (x : List Instr) : (s.withPending x).timebase = s.timebase := rfl
@[simp] theorem State.withPending_tracker (s : State) (x : List Instr) : (s.withPending x).tracker = s.tracker := rfl
@[simp] theorem State.withPending_plan (s : State) (x : List Instr) : (s.withPending x).plan = s.plan := rfl
@[simp] theorem State.withPending_contexts (s : State) (x : List Instr) : (s.withPending x).contexts = s.contexts := rfl
@[simp] theorem State.withPending_records (s : State) (x : List Instr) : (s.withPending x).records = s.records := rfl
@[simp] theorem State.withPending_queue (s : State) (x : List Instr) : (s.withPending x).queue = s.queue := rfl
@[simp] theorem State.withPending_bankA (s : State) (x : List Instr) : (s.withPending x).bankA = s.bankA := rfl
@[simp] theorem State.withPending_bankB (s : State) (x : List Instr) : (s.withPending x).bankB = s.bankB := rfl
@[simp] theorem State.withPending_diag (s : State) (x : List Instr) : (s.withPending x).diag = s.diag := rfl
@[simp] theorem State.withPending_run (s : State) (x : List Instr) : (s.withPending x).run = s.run := rfl
@[simp] theorem State.withPending_link (s : State) (x : List Instr) : (s.withPending x).link = s.link := rfl
@[simp] theorem State.withPending_pending (s : State) (x : List Instr) : (s.withPending x).pending = x := rfl
@[simp] theorem State.withPending_bank (s : State) (x : List Instr) (b : Bank) : (s.withPending x).bank b = s.bank b := by
  cases b <;> rfl
@[simp] theorem State.withPending_withPending (s : State) (x y : List Instr) :
    (s.withPending x).withPending y = s.withPending y := rfl

@[simp] theorem State.withBank_resetHeld (s : State) (b : Bank) (x : BankState) : (s.withBank b x).resetHeld = s.resetHeld := by
  cases b <;> rfl
@[simp] theorem State.withBank_timebase (s : State) (b : Bank) (x : BankState) : (s.withBank b x).timebase = s.timebase := by
  cases b <;> rfl
@[simp] theorem State.withBank_tracker (s : State) (b : Bank) (x : BankState) : (s.withBank b x).tracker = s.tracker := by
  cases b <;> rfl
@[simp] theorem State.withBank_plan (s : State) (b : Bank) (x : BankState) : (s.withBank b x).plan = s.plan := by
  cases b <;> rfl
@[simp] theorem State.withBank_contexts (s : State) (b : Bank) (x : BankState) : (s.withBank b x).contexts = s.contexts := by
  cases b <;> rfl
@[simp] theorem State.withBank_records (s : State) (b : Bank) (x : BankState) : (s.withBank b x).records = s.records := by
  cases b <;> rfl
@[simp] theorem State.withBank_queue (s : State) (b : Bank) (x : BankState) : (s.withBank b x).queue = s.queue := by
  cases b <;> rfl
@[simp] theorem State.withBank_diag (s : State) (b : Bank) (x : BankState) : (s.withBank b x).diag = s.diag := by
  cases b <;> rfl
@[simp] theorem State.withBank_run (s : State) (b : Bank) (x : BankState) : (s.withBank b x).run = s.run := by
  cases b <;> rfl
@[simp] theorem State.withBank_link (s : State) (b : Bank) (x : BankState) : (s.withBank b x).link = s.link := by
  cases b <;> rfl
@[simp] theorem State.withBank_pending (s : State) (b : Bank) (x : BankState) : (s.withBank b x).pending = s.pending := by
  cases b <;> rfl
@[simp] theorem State.withBank_bank_same (s : State) (b : Bank) (x : BankState) : (s.withBank b x).bank b = x := by
  cases b <;> rfl
theorem State.withBank_bank_other (s : State) {b d : Bank} (x : BankState) (h : d ≠ b) :
    (s.withBank b x).bank d = s.bank d := by
  cases b <;> cases d <;> first | rfl | exact absurd rfl h
theorem State.withBank_bank (s : State) (b d : Bank) (x : BankState) :
    (s.withBank b x).bank d = if d = b then x else s.bank d := by
  cases b <;> cases d <;> rfl

@[simp] theorem PerCyl.get_set_same {α : Type} (p : PerCyl α) (c : Cyl) (x : α) : (p.set c x).get c = x := by
  cases c <;> rfl
theorem PerCyl.get_set_other {α : Type} (p : PerCyl α) {c d : Cyl} (x : α) (h : d ≠ c) :
    (p.set c x).get d = p.get d := by
  cases c <;> cases d <;> first | rfl | exact absurd rfl h
theorem PerCyl.get_set {α : Type} (p : PerCyl α) (c d : Cyl) (x : α) :
    (p.set c x).get d = if d = c then x else p.get d := by
  cases c <;> cases d <;> rfl
@[simp] theorem PerCyl.get_fill {α : Type} (x : α) (c : Cyl) : (PerCyl.fill x).get c = x := by
  cases c <;> rfl
@[simp] theorem Cyl.ofNum_num (c : Cyl) : Cyl.ofNum c.num = some c := by
  cases c <;> rfl
theorem Cyl.mem_all (c : Cyl) : c ∈ Cyl.all := by
  cases c <;> decide
theorem Cyl.num_injective {c d : Cyl} (h : c.num = d.num) : c = d := by
  cases c <;> cases d <;> first | rfl | exact absurd h (by decide)

@[simp] theorem State.withBank_withBank (s : State) (b : Bank) (x y : BankState) :
    (s.withBank b x).withBank b y = s.withBank b y := by cases b <;> rfl

/-! ## An update of one field and of a bank, in either order -/

theorem State.withBank_withContexts (s : State) (b : Bank) (x : BankState) (y : PerCyl (Option CycleContext)) :
    (s.withBank b x).withContexts y = (s.withContexts y).withBank b x := by cases b <;> rfl
theorem State.withBank_withRecords (s : State) (b : Bank) (x : BankState) (y : PerCyl (Option CycleRecord)) :
    (s.withBank b x).withRecords y = (s.withRecords y).withBank b x := by cases b <;> rfl
theorem State.withBank_withDiag (s : State) (b : Bank) (x : BankState) (y : Diagnosis) :
    (s.withBank b x).withDiag y = (s.withDiag y).withBank b x := by cases b <;> rfl
theorem State.withBank_withRun (s : State) (b : Bank) (x : BankState) (y : RunControl) :
    (s.withBank b x).withRun y = (s.withRun y).withBank b x := by cases b <;> rfl
theorem State.withBank_withLink (s : State) (b : Bank) (x : BankState) (y : Link) :
    (s.withBank b x).withLink y = (s.withLink y).withBank b x := by cases b <;> rfl

end Sys2Proof.Machine
end

