-- ==== Sys2Proof/Laws/Notices.lean ====
section
/-! SUPPORT. What the shared operations of the link can do: its bounds are kept, and the reply queue grows
by a reply alone. -/

namespace Sys2Proof.Machine

theorem satAdd_le (top x n : Nat) : satAdd top x n ≤ top := Nat.min_le_left _ _

/-- Taking a frame shortens a queue at most, and changes nothing else that is bounded. -/
theorem takeFrame_spec (l : Link) (now : Tick) :
    (l.takeFrame now).inbound = l.inbound ∧ (l.takeFrame now).lost = l.lost
      ∧ (l.takeFrame now).frameErrors = l.frameErrors ∧ (l.takeFrame now).enable = l.enable
      ∧ (l.takeFrame now).framer = l.framer ∧ (l.takeFrame now).byteDeadline = l.byteDeadline
      ∧ (l.takeFrame now).replies.length ≤ l.replies.length
      ∧ (l.takeFrame now).notices.length ≤ l.notices.length := by
  unfold Link.takeFrame
  split
  · simp
  · split
    · rename_i h; simp [h]
    · split
      · rename_i h; simp [h]
      · simp

theorem takeFrame_bounded {l : Link} (now : Tick) (h : l.Bounded) : (l.takeFrame now).Bounded := by
  obtain ⟨h1, h2, h3, -, -, -, h4, h5⟩ := takeFrame_spec l now
  exact ⟨h1 ▸ h.inbound, h4.trans h.replies, h5.trans h.notices, h2 ▸ h.lost, h3 ▸ h.frameErrors⟩

theorem countLost_bounded {l : Link} (h : l.Bounded) : l.countLost.Bounded :=
  ⟨h.inbound, h.replies, h.notices, satAdd_le _ _ _, h.frameErrors⟩

theorem countError_bounded {l : Link} (h : l.Bounded) : l.countError.Bounded :=
  ⟨h.inbound, h.replies, h.notices, h.lost, satAdd_le _ _ _⟩

/-- Queuing a notice changes the notice queue and the lost count alone (R168). -/
theorem enqueueNotice_spec (l : Link) (n : Notice) :
    (l.enqueueNotice n).inbound = l.inbound ∧ (l.enqueueNotice n).replies = l.replies
      ∧ (l.enqueueNotice n).sending = l.sending ∧ (l.enqueueNotice n).enable = l.enable
      ∧ (l.enqueueNotice n).frameErrors = l.frameErrors ∧ (l.enqueueNotice n).framer = l.framer := by
  unfold Link.enqueueNotice
  split
  · simp
  · split
    · simp [Link.countLost]
    · split <;> simp [Link.countLost]

theorem enqueueNotice_bounded {l : Link} (n : Notice) (h : l.Bounded) : (l.enqueueNotice n).Bounded := by
  unfold Link.enqueueNotice
  split
  · rename_i hn
    exact ⟨h.inbound, h.replies, by simp; omega, h.lost, h.frameErrors⟩
  · split
    · exact countLost_bounded h
    · split
      · rename_i ha
        refine countLost_bounded ⟨h.inbound, h.replies, ?_, h.lost, h.frameErrors⟩
        have h1 := h.notices
        obtain ⟨a, ha1, ha2⟩ := List.any_eq_true.mp ha
        have h2 := List.length_eraseP_of_mem ha1 ha2
        have h3 : 0 < l.notices.length := List.length_pos_of_mem ha1
        simp only [List.length_append, List.length_singleton, h2]
        omega
      · exact countLost_bounded h

theorem enqueue_take_replies (l : Link) (n : Notice) (now : Tick) :
    ((l.enqueueNotice n).takeFrame now).replies.length ≤ l.replies.length := by
  have h := (takeFrame_spec (l.enqueueNotice n) now).2.2.2.2.2.2.1
  rwa [(enqueueNotice_spec l n).2.1] at h

/-- A good frame finds a place or is counted (R164). -/
theorem accept_bounded {l : Link} (f : Frame) (h : l.Bounded) : (l.accept f).Bounded := by
  unfold Link.accept
  split
  · exact ⟨by simp; omega, h.replies, h.notices, h.lost, h.frameErrors⟩
  · exact countError_bounded h

theorem accept_replies (l : Link) (f : Frame) : (l.accept f).replies = l.replies := by
  unfold Link.accept; split <;> rfl

theorem hunt_bounded {l : Link} (h : l.Bounded) : l.hunt.Bounded :=
  ⟨h.inbound, h.replies, h.notices, h.lost, h.frameErrors⟩

theorem toFramer_bounded {l : Link} (x : Framer) (h : l.Bounded) : (l.toFramer x).Bounded :=
  ⟨h.inbound, h.replies, h.notices, h.lost, h.frameErrors⟩

theorem discard_bounded {l : Link} (h : l.Bounded) : l.discard.Bounded := countError_bounded (hunt_bounded h)

theorem setDeadline_bounded {l : Link} (w : Bool) (now : Tick) (h : l.Bounded) :
    (l.setDeadline w now).Bounded := by
  unfold Link.setDeadline
  split
  · exact ⟨h.inbound, h.replies, h.notices, h.lost, h.frameErrors⟩
  · split
    · exact h
    · exact ⟨h.inbound, h.replies, h.notices, h.lost, h.frameErrors⟩

theorem takeByte_bounded {l : Link} (x : Byte) (h : l.Bounded) : (l.takeByte x).Bounded := by
  unfold Link.takeByte Link.check
  split <;> (try split) <;>
    first
    | exact toFramer_bounded _ h
    | exact h
    | exact discard_bounded h
    | exact accept_bounded _ (hunt_bounded h)

/-- A byte keeps the link's bounds (R163, R164). -/
theorem byteArrives_bounded {l : Link} (x : Byte) (e : Bool) (now : Tick) (h : l.Bounded) :
    (l.byteArrives x e now).Bounded := by
  unfold Link.byteArrives
  split
  · split
    · exact h
    · exact discard_bounded h
  · exact setDeadline_bounded _ _ (takeByte_bounded _ h)

/-- A byte leaves the reply queue as it was. -/
theorem byteArrives_replies (l : Link) (x : Byte) (e : Bool) (now : Tick) :
    (l.byteArrives x e now).replies = l.replies := by
  have h1 : ∀ (m : Link) w, (m.setDeadline w now).replies = m.replies := by
    intro m w; unfold Link.setDeadline; split; rfl; split <;> rfl
  have h2 : (l.takeByte x).replies = l.replies := by
    unfold Link.takeByte Link.check
    split <;> (try split) <;> first | rfl | exact accept_replies _ _
  unfold Link.byteArrives
  split
  · split <;> rfl
  · rw [h1, h2]

/-- A reply joins the reply queue and the transmitter takes a frame if it is idle (R165, R166). -/
theorem pushReply_bounded {s : State} (kind tag : Byte) (x : Answer) (h : s.link.Bounded)
    (hr : s.link.replies.length < Config.requestQueue) : (pushReply kind tag x s).link.Bounded := by
  unfold pushReply
  refine takeFrame_bounded _ ⟨h.inbound, ?_, h.notices, h.lost, h.frameErrors⟩
  simp; omega

end Sys2Proof.Machine
end

