-- ==== Sys2Proof/Laws/Moves.lean ====
section
/-! SUPPORT. What the shared operations can do to the state, said once: they close cycles (`Closes`), or make
a chain of elementary moves (`Moves`). Every invariant of the machine is a fact about the elementary moves. -/

namespace Sys2Proof.Machine

/-! ## Closing cycles -/

/-- What resolving slots, closing contexts, writing records and queuing notices can change: contexts,
records, the link's notices, and the end of a drain. -/
structure Closes (s t : State) : Prop where
  rest : t = { s with contexts := t.contexts, records := t.records, run := t.run, link := t.link }
  run : t.run = s.run ∨ s.run.mode = .drain ∧ t.run = { s.run with mode := .halt, drainAt := none }
  link : s.link.Bounded → t.link.Bounded
  replies : t.link.replies.length ≤ s.link.replies.length

namespace Closes

theorem refl (s : State) : Closes s s := ⟨rfl, .inl rfl, id, le_rfl⟩

theorem trans {s t u : State} (h : Closes s t) (k : Closes t u) : Closes s u := by
  refine ⟨?_, ?_, k.link ∘ h.link, k.replies.trans h.replies⟩
  · rw [k.rest, h.rest]
  · rcases k.run with h1 | ⟨h1, h2⟩
    · rw [h1]; exact h.run
    · rcases h.run with h3 | ⟨_, h4⟩
      · rw [h3] at h1 h2; exact .inr ⟨h1, h2⟩
      · rw [h4] at h1; cases h1

theorem resetHeld {s t : State} (h : Closes s t) : t.resetHeld = s.resetHeld := by rw [h.rest]
theorem timebase {s t : State} (h : Closes s t) : t.timebase = s.timebase := by rw [h.rest]
theorem tracker {s t : State} (h : Closes s t) : t.tracker = s.tracker := by rw [h.rest]
theorem plan {s t : State} (h : Closes s t) : t.plan = s.plan := by rw [h.rest]
theorem queue {s t : State} (h : Closes s t) : t.queue = s.queue := by rw [h.rest]
theorem bankA {s t : State} (h : Closes s t) : t.bankA = s.bankA := by rw [h.rest]
theorem bankB {s t : State} (h : Closes s t) : t.bankB = s.bankB := by rw [h.rest]
theorem bank {s t : State} (h : Closes s t) (b : Bank) : t.bank b = s.bank b := by
  cases b
  · exact h.bankA
  · exact h.bankB
theorem diag {s t : State} (h : Closes s t) : t.diag = s.diag := by rw [h.rest]
theorem pending {s t : State} (h : Closes s t) : t.pending = s.pending := by rw [h.rest]
theorem fuelcut {s t : State} (h : Closes s t) : t.run.fuelcut = s.run.fuelcut := by
  rcases h.run with h1 | ⟨_, h1⟩ <;> rw [h1]
theorem band {s t : State} (h : Closes s t) : t.run.band = s.run.band := by
  rcases h.run with h1 | ⟨_, h1⟩ <;> rw [h1]
theorem clock {s t : State} (h : Closes s t) : t.run.clock = s.run.clock := by
  rcases h.run with h1 | ⟨_, h1⟩ <;> rw [h1]
theorem filterRun {s t : State} (h : Closes s t) : t.run.filterRun = s.run.filterRun := by
  rcases h.run with h1 | ⟨_, h1⟩ <;> rw [h1]
theorem mode_run {s t : State} (h : Closes s t) (m : s.run.mode = .run) : t.run.mode = .run := by
  rcases h.run with h1 | ⟨h1, _⟩
  · rw [h1]; exact m
  · rw [m] at h1; cases h1

end Closes

/-- Raising a notice changes the link alone. -/
theorem queueNotice_closes (x : NoticeBody) (s : State) : Closes s (queueNotice x s) := by
  unfold queueNotice
  split
  · exact ⟨rfl, .inl rfl, fun h => takeFrame_bounded _ (enqueueNotice_bounded _ h),
      enqueue_take_replies _ _ _⟩
  · exact .refl s

theorem withContexts_closes (x : PerCyl (Option CycleContext)) (s : State) : Closes s (s.withContexts x) :=
  ⟨rfl, .inl rfl, id, le_rfl⟩

theorem withRecords_closes (x : PerCyl (Option CycleRecord)) (s : State) : Closes s (s.withRecords x) :=
  ⟨rfl, .inl rfl, id, le_rfl⟩

theorem writeRecord_closes (r : CycleRecord) (s : State) : Closes s (writeRecord r s) :=
  (withRecords_closes _ s).trans (queueNotice_closes _ _)

theorem updateSlots_closes (c : Cyl) (f : List Slot → List Slot) (s : State) :
    Closes s (updateSlots c f s) := by
  unfold updateSlots
  split
  · exact .refl s
  · exact withContexts_closes _ s

theorem noContextOpen_closes (s : State) : Closes s (noContextOpen s) := by
  unfold noContextOpen
  split
  · rename_i h
    have h1 : Closes s (s.withRun { s.run with mode := .halt, drainAt := none }) :=
      ⟨rfl, .inr ⟨h, rfl⟩, id, le_rfl⟩
    exact h1.trans (queueNotice_closes _ _)
  · exact .refl s

/-- The close test closes at most one context (R85). -/
theorem closeTest_closes (c : Cyl) (s : State) : Closes s (closeTest c s) := by
  unfold closeTest
  split
  · exact .refl s
  · split
    · rename_i x _ _
      have h1 := (writeRecord_closes x.record s).trans (withContexts_closes
        ((writeRecord x.record s).contexts.set c none) _)
      refine h1.trans ?_
      show Closes _ (tellIfNoneOpen _)
      unfold tellIfNoneOpen
      split
      · exact .refl _
      · exact noContextOpen_closes _
    · exact .refl s

theorem reportUnfired_closes (c : Cyl) (n : Nat) (o : SlotOutcome) (s : State) :
    Closes s (reportUnfired c n o s) :=
  (updateSlots_closes _ _ s).trans (closeTest_closes _ _)

theorem reportWithdrawn_closes (r : WithdrawReason) (xs : List (Cyl × Nat)) :
    ∀ s : State, Closes s (reportWithdrawn r xs s) := by
  induction xs with
  | nil => exact Closes.refl
  | cons x xs ih => exact fun s => (reportUnfired_closes _ _ _ s).trans (ih _)

/-! ## Withdrawals and the banks -/

theorem emptyWaiting_drive (scope : Cyl → Bool) (x : BankState) : (x.emptyWaiting scope).drive = x.drive := by
  unfold BankState.emptyWaiting
  split
  · split <;> rfl
  · rfl

theorem emptyWaiting_bounded (scope : Cyl → Bool) (x : BankState) (h : x.Bounded) : (x.emptyWaiting scope).Bounded := by
  unfold BankState.emptyWaiting
  split
  · split
    · exact ⟨h.1, h.2⟩
    · exact h
  · exact h

theorem dropPulses_bank (scope : Cyl → Bool) (s : State) (b : Bank) :
    (dropPulses scope s).bank b = (s.bank b).emptyWaiting scope := by
  cases b <;> rfl

theorem withdrawPulses_bank (scope : Cyl → Bool) (r : WithdrawReason) (s : State) (b : Bank) :
    (withdrawPulses scope r s).bank b = (s.bank b).emptyWaiting scope := by
  rw [withdrawPulses, (reportWithdrawn_closes r _ _).bank]
  cases b <;> rfl

theorem isArm_of_key {d e : Entry} (h : d.key = e.key) : d.isArm = e.isArm := by
  simp [Entry.isArm, h]

theorem isPulse_of_key {d e : Entry} (h : d.key = e.key) : d.isPulse = e.isPulse := by
  simp [Entry.isPulse, h]

/-- Whether a key is a PULSE entry's. -/
def Key.isPulse : Key → Bool
  | .pulse _ _ => true
  | _ => false

theorem countP_isPulse (xs : List Entry) : xs.countP Entry.isPulse = (xs.map Entry.key).countP Key.isPulse := by
  induction xs with
  | nil => rfl
  | cons x xs ih =>
    have : x.isPulse = x.key.isPulse := by
      unfold Entry.isPulse Key.isPulse; cases x.key <;> rfl
    simp only [List.map_cons, List.countP_cons, ih, this]

/-! ## Elementary moves -/

/-- The cylinder of the pulse of a bank in BOOST. -/
def BankState.boosts (x : BankState) : Option Cyl :=
  match x.drive with
  | .boost p => some p.cyl
  | _ => none

theorem BankState.isBoost_iff (x : BankState) : x.drive.isBoost = true ↔ ∃ c, x.boosts = some c := by
  unfold BankState.boosts Drive.isBoost
  cases x.drive <;> simp

theorem BankState.boosts_of_drive {x y : BankState} (h : x.drive = y.drive) : x.boosts = y.boosts := by
  unfold BankState.boosts; rw [h]

/-- A change of a bank that starts nothing: no new BOOST, and the waiting slot kept or emptied. -/
structure BankState.Quiet (x y : BankState) : Prop where
  boost : ∀ c, y.boosts = some c → x.boosts = some c
  waiting : y.waiting = x.waiting ∨ y.waiting = none
  bounded : x.Bounded → y.Bounded

/-- A change of the queue that adds no entry: every key it holds was held, in the order it stood. -/
def FiringQueue.Shrinks (q r : FiringQueue) : Prop :=
  (r.entries.map Entry.key).Sublist (q.entries.map Entry.key)

namespace FiringQueue.Shrinks

theorem keys {q r : FiringQueue} (h : q.Shrinks r) : ∀ e ∈ r.entries, ∃ d ∈ q.entries, d.key = e.key :=
  fun _ he => List.mem_map.mp (h.subset (List.mem_map_of_mem he))

theorem pulses {q r : FiringQueue} (h : q.Shrinks r) :
    r.entries.countP Entry.isPulse ≤ q.entries.countP Entry.isPulse := by
  rw [countP_isPulse, countP_isPulse]; exact h.countP_le

end FiringQueue.Shrinks

/-- The conditions under which an entry is inserted. -/
structure Insertable (s : State) (e : Entry) : Prop where
  angle : s.tracker.sync.holdsAngle = true
  arm : e.isArm = true → s.run.mode = .run
  pulse : e.isPulse = true → s.run.fuelcut = false ∧ pulsesFull s = false
  latch : ∀ c n, e.key = .pulse c n → s.diag.disabled.get c = false

/-- A change of Run Control that leaves the firing gates as they are and RUN in RUN. -/
structure RunControl.Quiet (r x : RunControl) : Prop where
  bounded : r.Bounded → x.Bounded
  fuelcut : x.fuelcut = r.fuelcut
  band : x.band = r.band
  mode : r.mode = .run → x.mode = .run

/-- One elementary move of the machine. With `k` true a bank may start a pulse; with `k` false a gate may
close. -/
inductive Move (k : Bool) (s : State) : State → Prop
  | closes (t : State) (h : Closes s t) : Move k s t
  | tracker (x : Tracker) (b : s.tracker.Bounded → x.Bounded)
      (h : s.tracker.sync.holdsAngle = true → x.sync.holdsAngle = true) : Move k s (s.withTracker x)
  | plan (x : PlanStore) (b : s.plan.Bounded → x.Bounded) : Move k s (s.withPlan x)
  | diag (x : Diagnosis) (b : s.diag.Bounded → x.Bounded) (d : x.disabled = s.diag.disabled) :
      Move k s (s.withDiag x)
  | latch (c : Cyl) :
      Move k s (dropPulses (fun d => d == c) (s.withDiag { s.diag with disabled := s.diag.disabled.set c true }))
  | run (x : RunControl) (h : s.run.Quiet x) : Move k s (s.withRun x)
  | queue (x : FiringQueue) (h : s.queue.Shrinks x) : Move k s (s.withQueue x)
  | insert (e : Entry) (h : Insertable s e) : Move k s (insertEntry e s)
  | bank (b : Bank) (x : BankState) (h : (s.bank b).Quiet x) : Move k s (s.withBank b x)
  | wait (b : Bank) (r : StartReq) (h : s.tracker.sync.holdsAngle = true) (f : s.run.fuelcut = false)
      (d : s.diag.disabled.get r.cyl = false) : Move k s (s.withBank b { s.bank b with waiting := some r })
  | boost (b : Bank) (x : BankState) (hk : k = true) (g : GatesOpen s) (w : x.waiting = (s.bank b).waiting)
      (bd : (s.bank b).Bounded → x.Bounded) (d : ∀ c, x.boosts = some c → s.diag.disabled.get c = false) :
      Move k s (s.withBank b x)
  | gate (t : State) (hk : k = false)
      (boost : ∀ b c, (t.bank b).boosts = some c → (s.bank b).boosts = some c)
      (bounded : s.Bounded → t.Bounded) (gated : s.Gated → t.Gated)
      (replies : t.link.replies.length ≤ s.link.replies.length) (held : t.resetHeld = s.resetHeld)
      (diag : t.diag.disabled = s.diag.disabled) : Move k s t

/-- A chain of elementary moves. -/
inductive Moves (k : Bool) : State → State → Prop
  | refl (s : State) : Moves k s s
  | step {s t u : State} (h : Move k s t) (r : Moves k t u) : Moves k s u

namespace Moves

theorem one {k : Bool} {s t : State} (h : Move k s t) : Moves k s t := .step h (.refl t)

theorem trans {k : Bool} {s t u : State} (h : Moves k s t) (r : Moves k t u) : Moves k s u := by
  induction h with
  | refl => exact r
  | step h _ ih => exact .step h (ih r)

theorem closes {k : Bool} {s t : State} (h : Closes s t) : Moves k s t := one (.closes t h)

end Moves

/-! ## What a move keeps -/

theorem insertByKey_mem (e : Entry) (xs : List Entry) : ∀ y ∈ insertByKey e xs, y = e ∨ y ∈ xs := by
  induction xs with
  | nil => intro y h; left; simpa [insertByKey] using h
  | cons x xs ih =>
    intro y h
    unfold insertByKey at h
    split at h
    · exact .inr h
    · split at h
      · rcases List.mem_cons.mp h with h | h
        · exact .inl h
        · exact .inr h
      · rcases List.mem_cons.mp h with h | h
        · exact .inr (h ▸ List.mem_cons_self ..)
        · rcases ih y h with h | h
          · exact .inl h
          · exact .inr (List.mem_cons_of_mem _ h)

/-! The key order is a strict order of all keys (R92). -/

theorem Key.before_irrefl (x : Key) : x.before x = false := by
  cases x <;> simp [Key.before]

theorem Key.before_trans {x y z : Key} (h : x.before y = true) (k : y.before z = true) : x.before z = true := by
  cases x <;> cases y <;> cases z <;> simp_all [Key.before] <;> first | omega | exact lt_trans h k | skip
  rcases h with h | ⟨rfl, h⟩
  · rcases k with k | ⟨rfl, k⟩ <;> exact .inl (by omega)
  · rcases k with k | ⟨rfl, k⟩
    · exact .inl k
    · exact .inr ⟨rfl, by omega⟩

theorem Cyl.num_lt_of {c d : Cyl} (h : c ≠ d) (k : ¬ c.num < d.num) : d.num < c.num :=
  Nat.lt_of_le_of_ne (Nat.le_of_not_lt k) fun e => h (Cyl.num_injective e.symm)

theorem Key.before_total {x y : Key} (h : x ≠ y) (k : x.before y = false) : y.before x = true := by
  cases x with
  | arm c => cases y with
    | arm d => simpa [Key.before] using Cyl.num_lt_of (by rintro rfl; exact h rfl) (by simpa [Key.before] using k)
    | _ => cases k
  | pulse c m => cases y with
    | arm d => rfl
    | pulse d n =>
      simp only [Key.before, Bool.or_eq_false_iff, decide_eq_false_iff_not, Bool.and_eq_false_iff, beq_eq_false_iff_ne]
        at k
      simp only [Key.before, Bool.or_eq_true, decide_eq_true_eq, Bool.and_eq_true, beq_iff_eq]
      by_cases hcd : c = d
      · subst hcd
        have h1 : m ≠ n := by rintro rfl; exact h rfl
        have h2 : ¬ m < n := by rcases k.2 with h2 | h2; exacts [absurd rfl h2, h2]
        exact .inr ⟨rfl, by omega⟩
      · exact .inl (Cyl.num_lt_of hcd k.1)
    | mark j => cases k
  | mark i => cases y with
    | mark j =>
      have h1 : i ≠ j := by rintro rfl; exact h rfl
      simp only [Key.before, decide_eq_false_iff_not] at k
      simpa [Key.before] using lt_of_le_of_ne (not_lt.mp k) h1.symm
    | _ => rfl

/-- Inserting by key keeps the strict key order (R90). -/
theorem insertByKey_sorted (e : Entry) (xs : List Entry)
    (h : (xs.map Entry.key).Pairwise fun x y => x.before y = true) :
    ((insertByKey e xs).map Entry.key).Pairwise fun x y => x.before y = true := by
  induction xs with
  | nil => simp [insertByKey]
  | cons x xs ih =>
    rw [List.map_cons, List.pairwise_cons] at h
    unfold insertByKey
    split
    · rw [List.map_cons, List.pairwise_cons]; exact h
    · rename_i hk
      split
      · rename_i hb
        rw [List.map_cons, List.pairwise_cons, List.map_cons, List.pairwise_cons]
        refine ⟨fun k hm => ?_, h⟩
        rcases List.mem_cons.mp hm with rfl | hm
        · exact hb
        · exact Key.before_trans hb (h.1 k hm)
      · rename_i hb
        rw [List.map_cons, List.pairwise_cons]
        refine ⟨fun k hm => ?_, ih h.2⟩
        obtain ⟨y, hy, rfl⟩ := List.mem_map.mp hm
        rcases insertByKey_mem e xs y hy with rfl | hy
        · exact Key.before_total (fun q => hk q.symm) (by simpa using hb)
        · exact h.1 _ (List.mem_map_of_mem hy)

theorem insertByKey_count (p : Entry → Bool) (e : Entry) (xs : List Entry) :
    (insertByKey e xs).countP p ≤ xs.countP p + (if p e then 1 else 0) := by
  induction xs with
  | nil => simp [insertByKey, List.countP_cons]
  | cons x xs ih =>
    unfold insertByKey
    split
    · omega
    · split
      · simp only [List.countP_cons]; omega
      · simp only [List.countP_cons]; omega

/-- A queue within its bounds holds no key twice (R90). -/
theorem FiringQueue.Bounded.nodup {q : FiringQueue} (h : q.Bounded) : (q.entries.map Entry.key).Nodup := by
  refine h.sorted.imp ?_
  rintro x _ hb rfl
  rw [Key.before_irrefl] at hb; cases hb

/-- A list of keys without repeats that holds at most `n` PULSE keys holds at most 6 ARM and 8 MARK keys beside. -/
theorem keys_length {ks : List Key} {n : Nat} (h : ks.Nodup) (p : ks.countP Key.isPulse ≤ n) :
    ks.length ≤ n + 14 := by
  have h1 : (ks.filter fun k => !k.isPulse).length ≤
      (Cyl.all.map Key.arm ++ (List.finRange 8).map Key.mark).length := by
    refine ((h.filter _).subperm fun k hk => ?_).length_le
    have hk := (List.mem_filter.mp hk).2
    cases k with
    | arm c => exact List.mem_append_left _ (List.mem_map_of_mem (Cyl.mem_all c))
    | pulse c m => cases hk
    | mark i => exact List.mem_append_right _ (List.mem_map_of_mem (List.mem_finRange i))
  have h2 : (ks.filter fun k => !k.isPulse).length = ks.countP fun k => !k.isPulse :=
    (List.countP_eq_length_filter ..).symm
  have h3 := List.length_eq_countP_add_countP Key.isPulse (l := ks)
  simp only [List.length_append, List.length_map, List.length_finRange] at h1
  have h4 : Cyl.all.length = 6 := rfl
  have h5 : (ks.countP fun k => decide ¬ Key.isPulse k = true) = ks.countP fun k => !k.isPulse := by
    congr 1; funext k; simp
  omega

/-- The queue holds at most 38 entries (R91). -/
theorem FiringQueue.Bounded.length {q : FiringQueue} (h : q.Bounded) : q.entries.length ≤ 38 := by
  have h1 := h.pulses
  rw [countP_isPulse] at h1
  simpa [Config.pulseCapacity] using keys_length h.nodup h1
/-- A move keeps the bounds of the state tables. -/
theorem Move.bounded {k : Bool} {s t : State} (h : Move k s t) (b : s.Bounded) : t.Bounded := by
  cases h with
  | closes _ h =>
    exact ⟨h.link b.link, h.tracker ▸ b.tracker, h.plan ▸ b.plan, h.bankA ▸ b.bankA, h.bankB ▸ b.bankB,
      h.diag ▸ b.diag, h.queue ▸ b.queue, h.filterRun.trans_le b.run⟩
  | tracker x hb h => exact { b with tracker := hb b.tracker }
  | plan x hb => exact { b with plan := hb b.plan }
  | diag x hb _ => exact { b with diag := hb b.diag }
  | latch c =>
    refine { b with bankA := ?_, bankB := ?_, diag := b.diag,
                    queue := ⟨b.queue.sorted.sublist (List.filter_sublist.map _),
                      List.filter_sublist.countP_le.trans b.queue.pulses⟩ }
    · exact emptyWaiting_bounded (fun d => d == c) s.bankA b.bankA
    · exact emptyWaiting_bounded (fun d => d == c) s.bankB b.bankB
  | run x h => exact { b with run := h.bounded b.run }
  | queue x h => exact { b with queue := ⟨b.queue.sorted.sublist h, h.pulses.trans b.queue.pulses⟩ }
  | insert e h =>
    refine { b with queue := ⟨insertByKey_sorted e _ b.queue.sorted, ?_⟩ }
    have h1 := insertByKey_count Entry.isPulse e s.queue.entries
    have h2 := b.queue.pulses
    show (insertByKey e s.queue.entries).countP Entry.isPulse ≤ _
    by_cases hp : e.isPulse = true
    · have h3 := (h.pulse hp).2
      rw [pulsesFull, decide_eq_false_iff_not, pulseCount] at h3
      simp only [hp, if_true] at h1
      omega
    · simp only [hp] at h1
      simpa using h1.trans (by simpa using h2)
  | bank b' x h =>
    cases b'
    · exact { b with bankA := h.bounded b.bankA }
    · exact { b with bankB := h.bounded b.bankB }
  | wait b' r h f d =>
    cases b'
    · exact { b with bankA := ⟨b.bankA.1, b.bankA.2⟩ }
    · exact { b with bankB := ⟨b.bankB.1, b.bankB.2⟩ }
  | boost b' x hk g w bd d =>
    cases b'
    · exact { b with bankA := bd b.bankA }
    · exact { b with bankB := bd b.bankB }
  | gate _ _ _ hb _ _ _ _ => exact hb b

theorem Moves.bounded {k : Bool} {s t : State} (h : Moves k s t) (b : s.Bounded) : t.Bounded := by
  induction h with
  | refl => exact b
  | step h _ ih => exact ih (h.bounded b)

theorem Gated.ofBank {s : State} (g : s.Gated) (b : Bank) (x : BankState)
    (h : ∀ r, x.waiting = some r → s.tracker.sync.holdsAngle = true ∧ s.run.fuelcut = false
      ∧ s.diag.disabled.get r.cyl = false) :
    (s.withBank b x).Gated := by
  refine ⟨?_, ?_, ?_, ?_, ?_, by simpa using g.latchEntry, ?_⟩
  · simpa using g.entryAngle
  · intro d hd
    rw [State.withBank_bank] at hd
    rw [State.withBank_tracker]
    split at hd
    · obtain ⟨r, hr⟩ := Option.isSome_iff_exists.mp hd
      exact (h r hr).1
    · exact g.waitAngle d hd
  · simpa using g.armRun
  · simpa using g.cutEntry
  · intro hf d
    rw [State.withBank_run] at hf
    rw [State.withBank_bank]
    split
    · rcases hw : x.waiting with _ | w
      · rfl
      · have := (h w hw).2.1
        rw [hf] at this; cases this
    · exact g.cutWait hf d
  · intro d r hr
    rw [State.withBank_bank] at hr
    rw [State.withBank_diag]
    split at hr
    · exact (h r hr).2.2
    · exact g.latchWait d r hr

/-- A move keeps what the queue and the waiting slots may hold. -/
theorem Move.gated {k : Bool} {s t : State} (h : Move k s t) (g : s.Gated) : t.Gated := by
  cases h with
  | closes _ h =>
    refine ⟨?_, ?_, ?_, ?_, ?_, by rw [h.queue, h.diag]; exact g.latchEntry,
      by intro b; rw [h.bank, h.diag]; exact g.latchWait b⟩
    · rw [h.queue, h.tracker]; exact g.entryAngle
    · intro b; rw [h.bank, h.tracker]; exact g.waitAngle b
    · rw [h.queue]; exact fun e he ha => h.mode_run (g.armRun e he ha)
    · rw [h.queue, h.fuelcut]; exact g.cutEntry
    · rw [h.fuelcut]; intro hf b; rw [h.bank]; exact g.cutWait hf b
  | tracker x hb h =>
    exact ⟨fun e he => h (g.entryAngle e he), fun b hb => h (g.waitAngle b (by simpa using hb)), g.armRun,
      g.cutEntry, fun hf b => by simpa using g.cutWait hf b, g.latchEntry,
      fun b r hr => g.latchWait b r (by simpa using hr)⟩
  | plan x hb =>
    exact ⟨g.entryAngle, fun b h => g.waitAngle b (by simpa using h), g.armRun, g.cutEntry,
      fun hf b => by simpa using g.cutWait hf b, g.latchEntry, fun b r hr => g.latchWait b r (by simpa using hr)⟩
  | diag x hb hd =>
    refine ⟨g.entryAngle, fun b h => g.waitAngle b (by simpa using h), g.armRun, g.cutEntry,
      fun hf b => by simpa using g.cutWait hf b, ?_, fun b r hr => ?_⟩
    · rw [State.withDiag_diag, hd]; exact g.latchEntry
    · rw [State.withDiag_diag, hd]; exact g.latchWait b r (by simpa using hr)
  | latch c =>
    have hb : ∀ b, ((dropPulses (fun d => d == c) (s.withDiag
        { s.diag with disabled := s.diag.disabled.set c true })).bank b) = (s.bank b).emptyWaiting (fun d => d == c) := by
      intro b; rw [dropPulses_bank]; simp
    have hw : ∀ b r, ((s.bank b).emptyWaiting (fun d => d == c)).waiting = some r →
        (s.bank b).waiting = some r ∧ r.cyl ≠ c := by
      intro b r h
      unfold BankState.emptyWaiting at h
      split at h
      · rename_i w hw
        split at h
        · cases h
        · rename_i hc
          rw [hw] at h; cases h
          exact ⟨hw, by simpa using hc⟩
      · rename_i hw; rw [hw] at h; cases h
    refine ⟨fun e he => g.entryAngle e (List.mem_filter.mp he).1, ?_,
      fun e he => g.armRun e (List.mem_filter.mp he).1, fun hf e he => g.cutEntry hf e (List.mem_filter.mp he).1, ?_,
      ?_, ?_⟩
    · intro b h
      rw [hb] at h
      obtain ⟨r, hr⟩ := Option.isSome_iff_exists.mp h
      exact g.waitAngle b (by rw [(hw b r hr).1]; rfl)
    · intro hf b
      rw [hb]
      rcases hx : ((s.bank b).emptyWaiting fun d => d == c).waiting with _ | r
      · rfl
      · have h1 := (hw b r hx).1
        rw [g.cutWait hf b] at h1; cases h1
    · intro e he d n hk
      obtain ⟨h1, h2⟩ := List.mem_filter.mp he
      show (s.diag.disabled.set c true).get d = false
      have : d ≠ c := by rintro rfl; simp [Entry.pulseIn, hk] at h2
      rw [PerCyl.get_set, if_neg this]
      exact g.latchEntry e h1 d n hk
    · intro b r hr
      rw [hb] at hr
      show (s.diag.disabled.set c true).get r.cyl = false
      rw [PerCyl.get_set, if_neg (hw b r hr).2]
      exact g.latchWait b r (hw b r hr).1
  | run x h =>
    exact ⟨g.entryAngle, fun b hb => g.waitAngle b (by simpa using hb),
      fun e he ha => h.mode (g.armRun e he ha), fun hf => g.cutEntry (h.fuelcut ▸ hf),
      fun hf b => by simpa using g.cutWait (h.fuelcut ▸ hf) b, g.latchEntry,
      fun b r hr => g.latchWait b r (by simpa using hr)⟩
  | queue x h =>
    refine ⟨?_, fun b hb => g.waitAngle b (by simpa using hb), ?_, ?_, fun hf b => by simpa using g.cutWait hf b, ?_,
      fun b r hr => g.latchWait b r (by simpa using hr)⟩
    · intro e he
      obtain ⟨d, hd, _⟩ := h.keys e he
      exact g.entryAngle d hd
    · intro e he ha
      obtain ⟨d, hd, hk⟩ := h.keys e he
      exact g.armRun d hd (isArm_of_key hk ▸ ha)
    · intro hf e he
      obtain ⟨d, hd, hk⟩ := h.keys e he
      exact isPulse_of_key hk ▸ g.cutEntry hf d hd
    · intro e he c n hc
      obtain ⟨d, hd, hk⟩ := h.keys e he
      exact g.latchEntry d hd c n (hk.trans hc)
  | insert e h =>
    refine ⟨fun _ _ => h.angle, fun b hb => g.waitAngle b (by simpa [insertEntry] using hb), ?_, ?_,
      fun hf b => by simpa [insertEntry] using g.cutWait hf b, ?_,
      fun b r hr => g.latchWait b r (by simpa [insertEntry] using hr)⟩
    · intro y hy ha
      rcases insertByKey_mem e _ y hy with rfl | hy
      · exact h.arm ha
      · exact g.armRun y hy ha
    · intro hf y hy
      rcases insertByKey_mem e _ y hy with rfl | hy
      · rcases hp : y.isPulse with _ | _
        · rfl
        · have := (h.pulse hp).1
          rw [show s.run.fuelcut = true from hf] at this; cases this
      · exact g.cutEntry hf y hy
    · intro y hy c n hc
      rcases insertByKey_mem e _ y hy with rfl | hy
      · exact h.latch c n hc
      · exact g.latchEntry y hy c n hc
  | bank b x h =>
    refine Gated.ofBank g b x fun r hx => ?_
    rcases h.waiting with hw | hw
    · rw [hw] at hx
      refine ⟨g.waitAngle b (by rw [hx]; rfl), ?_, g.latchWait b r hx⟩
      rcases hf : s.run.fuelcut with _ | _
      · rfl
      · rw [g.cutWait hf b] at hx; cases hx
    · rw [hw] at hx; cases hx
  | wait b r h f d => exact Gated.ofBank g b _ fun q hq => by cases hq; exact ⟨h, f, d⟩
  | boost b x hk go w bd d =>
    exact Gated.ofBank g b x fun r hr => ⟨go.1, go.2.1, g.latchWait b r (w ▸ hr)⟩
  | gate _ _ _ _ hg _ _ _ => exact hg g

theorem Moves.gated {k : Bool} {s t : State} (h : Moves k s t) (g : s.Gated) : t.Gated := by
  induction h with
  | refl => exact g
  | step h _ ih => exact ih (h.gated g)

/-- A latch that is set stays set: no move clears one (R136). -/
theorem Move.latched {k : Bool} {s t : State} (h : Move k s t) (c : Cyl) (l : s.diag.disabled.get c = true) :
    t.diag.disabled.get c = true := by
  cases h with
  | closes _ h => rw [h.diag]; exact l
  | diag x hb d => rw [State.withDiag_diag, d]; exact l
  | latch d =>
    show (s.diag.disabled.set d true).get c = true
    rw [PerCyl.get_set]; split
    · rfl
    · exact l
  | bank b x h => simpa using l
  | wait b r h f d => simpa using l
  | boost b x hk g w bd d => simpa using l
  | gate _ _ _ _ _ _ _ hd => rw [hd]; exact l
  | _ => exact l

theorem Moves.latched {k : Bool} {s t : State} (h : Moves k s t) (c : Cyl) (l : s.diag.disabled.get c = true) :
    t.diag.disabled.get c = true := by
  induction h with
  | refl => exact l
  | step h _ ih => exact ih (h.latched c l)

theorem Moves.unlatched {k : Bool} {s t : State} (h : Moves k s t) (c : Cyl) (l : t.diag.disabled.get c = false) :
    s.diag.disabled.get c = false := by
  by_contra hs
  rw [h.latched c (by simpa using hs)] at l; cases l

/-- A move sends no reply. -/
theorem Move.replies {k : Bool} {s t : State} (h : Move k s t) :
    t.link.replies.length ≤ s.link.replies.length := by
  cases h with
  | closes _ h => exact h.replies
  | bank b x h => simp
  | wait b r h f d => simp
  | boost b x hk g w bd d => simp
  | gate _ _ _ _ _ hr _ _ => exact hr
  | _ => exact le_rfl

theorem Moves.replies {k : Bool} {s t : State} (h : Moves k s t) :
    t.link.replies.length ≤ s.link.replies.length := by
  induction h with
  | refl => exact le_rfl
  | step h _ ih => exact ih.trans h.replies

/-- A move leaves RESET_N as it is. -/
theorem Move.resetHeld {k : Bool} {s t : State} (h : Move k s t) : t.resetHeld = s.resetHeld := by
  cases h with
  | closes _ h => exact h.resetHeld
  | bank b x h => simp
  | wait b r h f d => simp
  | boost b x hk g w bd d => simp
  | gate _ _ _ _ _ _ hr _ => exact hr
  | _ => rfl

theorem Moves.resetHeld {k : Bool} {s t : State} (h : Moves k s t) : t.resetHeld = s.resetHeld := by
  induction h with
  | refl => rfl
  | step h _ ih => exact ih.trans h.resetHeld

/-- A firing move keeps the gates that are open open. -/
theorem Move.keeps {s t : State} (h : Move true s t) :
    (s.tracker.sync.holdsAngle = true → t.tracker.sync.holdsAngle = true) ∧ t.run.fuelcut = s.run.fuelcut
      ∧ t.run.band = s.run.band ∧ (s.run.mode = .run → t.run.mode = .run) := by
  cases h with
  | closes _ h => exact ⟨fun a => h.tracker ▸ a, h.fuelcut, h.band, h.mode_run⟩
  | tracker x hb h => exact ⟨h, rfl, rfl, id⟩
  | run x h => exact ⟨id, h.fuelcut, h.band, h.mode⟩
  | bank b x h => simp
  | wait b r h f d => simp
  | boost b x hk g w bd d => simp
  | gate _ hk _ _ _ _ _ _ => cases hk
  | _ => exact ⟨id, rfl, rfl, id⟩

theorem Moves.keeps {s t : State} (h : Moves true s t) :
    (s.tracker.sync.holdsAngle = true → t.tracker.sync.holdsAngle = true) ∧ t.run.fuelcut = s.run.fuelcut
      ∧ t.run.band = s.run.band ∧ (s.run.mode = .run → t.run.mode = .run) := by
  induction h with
  | refl => exact ⟨id, rfl, rfl, id⟩
  | step h _ ih =>
    exact ⟨fun a => ih.1 (h.keeps.1 a), ih.2.1.trans h.keeps.2.1, ih.2.2.1.trans h.keeps.2.2.1,
      fun a => ih.2.2.2 (h.keeps.2.2.2 a)⟩

theorem Moves.keeps_gates {s t : State} (h : Moves true s t) (g : GatesOpen s) : GatesOpen t :=
  ⟨h.keeps.1 g.1, h.keeps.2.1 ▸ g.2.1, h.keeps.2.2.1 ▸ g.2.2⟩

/-- A bank that is in BOOST for a cylinder after a move was so before it, or started with the gates open and the
cylinder's latch clear. -/
theorem Move.boost_of {k : Bool} {s t : State} (h : Move k s t) (b : Bank) (c : Cyl)
    (hb : (t.bank b).boosts = some c) :
    (s.bank b).boosts = some c ∨ k = true ∧ GatesOpen s ∧ s.diag.disabled.get c = false := by
  cases h with
  | closes _ h => rw [h.bank] at hb; exact .inl hb
  | latch d =>
    rw [dropPulses_bank, BankState.boosts_of_drive (emptyWaiting_drive _ _)] at hb
    exact .inl (by simpa using hb)
  | bank d x h =>
    rw [State.withBank_bank] at hb
    split at hb
    · rename_i e; subst e; exact .inl (h.boost c hb)
    · exact .inl hb
  | wait d r h f _ =>
    rw [State.withBank_bank] at hb
    split at hb
    · rename_i e; subst e; exact .inl hb
    · exact .inl hb
  | boost d x hk g w bd l =>
    rw [State.withBank_bank] at hb
    split at hb
    · exact .inr ⟨hk, g, l c hb⟩
    · exact .inl hb
  | gate _ _ h _ _ _ _ _ => exact .inl (h b c hb)
  | insert e h => exact .inl (by simpa [insertEntry] using hb)
  | _ => exact .inl (by simpa using hb)

/-- The same of a chain of moves, whose firing moves leave the gates open. -/
theorem Moves.boost_of {k : Bool} {s t : State} (h : Moves k s t) (b : Bank) (c : Cyl)
    (hb : (t.bank b).boosts = some c) :
    (s.bank b).boosts = some c ∨ k = true ∧ GatesOpen t ∧ s.diag.disabled.get c = false := by
  induction h with
  | refl => exact .inl hb
  | @step s t u h r ih =>
    rcases ih hb with h1 | ⟨hk, g, l⟩
    · rcases h.boost_of b c h1 with h2 | ⟨rfl, g, l⟩
      · exact .inl h2
      · exact .inr ⟨rfl, (Moves.step h r).keeps_gates g, l⟩
    · exact .inr ⟨hk, g, (Moves.one h).unlatched c l⟩

/-- No pulse starts in a chain of moves that may close a gate. -/
theorem Moves.no_start {s t : State} (h : Moves false s t) (b : Bank) (c : Cyl)
    (hb : (t.bank b).boosts = some c) : (s.bank b).boosts = some c := by
  rcases h.boost_of b c hb with h | ⟨h, _⟩
  · exact h
  · cases h

end Sys2Proof.Machine
end

