-- ==== Sys2Proof/Laws/QueueMoves.lean ====
section
/-! SUPPORT. The operations of the Cycle Builder, Circuit Diagnosis, the Plan Store and the Firing Queue as
moves. -/

namespace Sys2Proof.Machine

variable {k : Bool}

/-! ## Shrinking the queue -/

theorem FiringQueue.Shrinks.of_filter (q r : FiringQueue) (p : Entry → Bool) (h : r.entries = q.entries.filter p) :
    q.Shrinks r := by
  unfold FiringQueue.Shrinks
  rw [h]
  exact List.filter_sublist.map _

theorem FiringQueue.Shrinks.of_eq (q r : FiringQueue) (h : r.entries = q.entries) : q.Shrinks r :=
  by unfold FiringQueue.Shrinks; rw [h]

theorem FiringQueue.Shrinks.of_map (q r : FiringQueue) (f : Entry → Entry) (hf : ∀ e, (f e).key = e.key)
    (h : r.entries = q.entries.map f) : q.Shrinks r := by
  unfold FiringQueue.Shrinks
  rw [h, List.map_map, show Entry.key ∘ f = Entry.key from funext hf]

theorem removeKey_moves (x : Key) (s : State) : Moves k s (removeKey x s) :=
  .one (.queue _ (.of_filter _ _ _ rfl))

theorem removeArms_moves (s : State) : Moves k s (removeArms s) :=
  .one (.queue _ (.of_filter _ _ _ rfl))

theorem setCommit_moves (x : Key) (f : Entry → Entry) (hf : ∀ e, (f e).key = e.key) (s : State) :
    Moves k s (setCommit x f s) := by
  refine .one (.queue _ (.of_map _ _ (fun e => if e.key = x then f e else e) ?_ rfl))
  intro e
  split
  · exact hf e
  · rfl

theorem setQueue_moves (x : FiringQueue) (s : State) (h : x.entries = s.queue.entries) :
    Moves k s (s.withQueue x) := .one (.queue _ (.of_eq _ _ h))

/-! ## Withdrawals and diagnosis -/

theorem emptyWaiting_quiet (scope : Cyl → Bool) (x : BankState) : x.Quiet (x.emptyWaiting scope) := by
  unfold BankState.emptyWaiting
  split
  · split
    · exact ⟨fun _ h => h, .inr rfl, fun h => ⟨h.1, h.2⟩⟩
    · exact ⟨fun _ h => h, .inl rfl, id⟩
  · exact ⟨fun _ h => h, .inl rfl, id⟩

/-- Dropping pulses removes PULSE entries and waiting starts alone (R106). -/
theorem dropPulses_moves (scope : Cyl → Bool) (s : State) : Moves k s (dropPulses scope s) := by
  unfold dropPulses
  refine .step (.queue { s.queue with entries := s.queue.entries.filter fun e => !e.pulseIn scope }
    (.of_filter _ _ _ rfl)) ?_
  refine .step (.bank .bankA _ (emptyWaiting_quiet scope s.bankA)) ?_
  exact .one (.bank .bankB _ (emptyWaiting_quiet scope s.bankB))

theorem withdrawPulses_moves (scope : Cyl → Bool) (r : WithdrawReason) (s : State) :
    Moves k s (withdrawPulses scope r s) :=
  (dropPulses_moves scope s).trans (.closes (reportWithdrawn_closes _ _ _))

theorem scoreAfter_le (x : Classification) (n : Nat) (h : n ≤ 255) : scoreAfter x n ≤ 255 := by
  cases x <;> simp only [scoreAfter] <;> first | exact satAdd_le _ _ _ | omega

theorem scoreAndRearm_moves (c : Cyl) (x : Classification) (s : State) :
    Moves k s (scoreAndRearm c x s) := by
  refine .one (.diag _ (fun h d => ?_) rfl)
  show (s.diag.score.set c _).get d ≤ _
  rw [PerCyl.get_set]
  split
  · exact scoreAfter_le _ _ (h c)
  · exact h d

theorem warnTest_moves (c : Cyl) (x : Classification) (s : State) : Moves k s (warnTest c x s) := by
  unfold warnTest
  split
  · exact .step (.diag { s.diag with warnArmed := s.diag.warnArmed.set c false } id rfl)
      (.closes (queueNotice_closes _ _))
  · exact .refl s

theorem disableTest_moves (c : Cyl) (x : Classification) (s : State) : Moves k s (disableTest c x s) := by
  unfold disableTest
  split
  · exact (Moves.step (.latch c) (.closes (reportWithdrawn_closes _ _ _))).trans (.closes (queueNotice_closes _ _))
  · exact .refl s

/-- A classification changes the scores, flags and latches, and may withdraw pulses (R132 to R135). -/
theorem diagnose_moves (c : Cyl) (x : Classification) (s : State) : Moves k s (diagnose c x s) :=
  ((scoreAndRearm_moves c x s).trans (warnTest_moves c x _)).trans (disableTest_moves c x _)

theorem endCoilCheck_moves (r : CoilResult) (a : Option AbortCause) (s : State) :
    Moves k s (endCoilCheck r a s) := by
  unfold endCoilCheck
  split
  · exact .refl s
  · exact .step (.diag { s.diag with coil := none } id rfl) (.closes (queueNotice_closes _ _))

theorem abortCoilCheck_moves (a : AbortCause) (s : State) : Moves k s (abortCoilCheck a s) :=
  endCoilCheck_moves _ _ s

/-! ## The Plan Store -/

theorem land_bounded {p : PlanStore} (h : p.Bounded) : p.land.Bounded :=
  ⟨h.derateK, h.derateAcc, Nat.zero_le _⟩

theorem landSwap_moves (c : Option Cyl) (s : State) : Moves k s (landSwap c s) :=
  .step (.plan _ land_bounded) (.closes (queueNotice_closes _ _))

theorem landIfPending_moves (c : Option Cyl) (s : State) : Moves k s (landIfPending c s) := by
  unfold landIfPending
  split
  · exact landSwap_moves c s
  · exact .refl s

theorem staleTest_moves (s : State) : Moves k s (staleTest s) := by
  unfold staleTest
  split
  · exact .step (.plan { s.plan with stale := true } fun h => ⟨h.1, h.2, h.3⟩)
      (.closes (queueNotice_closes _ _))
  · exact .refl s

theorem countExpiry_moves (s : State) : Moves k s (countExpiry s) := by
  unfold countExpiry
  split
  · rename_i he
    exact .step (.plan { s.plan with expiry := s.plan.expiry + 1 } fun h => ⟨h.1, h.2, he⟩)
      (staleTest_moves _)
  · exact staleTest_moves s

/-- The derate accumulator stays below n (R62). -/
theorem derateAfter_lt {p : PlanStore} (h : p.Bounded) : derateAfter p < p.derateN := by
  have h1 := h.derateK
  have h2 := h.derateAcc
  unfold derateAfter
  split <;> omega

/-! ## Insertion -/

theorem insertArm_moves (c : Cyl) (s : State) (h : s.tracker.sync.holdsAngle = true)
    (m : s.run.mode = .run) : Moves k s (insertArm c s) := by
  unfold insertArm
  split
  · exact .one (.insert _ ⟨h, (fun _ => m), (fun hp => by cases hp), (fun _ _ hk => by cases hk)⟩)
  · exact .refl s

theorem insertArm_same (c : Cyl) (s : State) :
    (insertArm c s).tracker = s.tracker ∧ (insertArm c s).run = s.run := by
  unfold insertArm
  split <;> exact ⟨rfl, rfl⟩

theorem insertArmList_moves (cs : List Cyl) : ∀ (s : State), s.tracker.sync.holdsAngle = true →
    s.run.mode = .run → Moves k s (insertArmList cs s) := by
  induction cs with
  | nil => exact fun s _ _ => .refl s
  | cons c cs ih =>
    intro s h m
    exact (insertArm_moves c s h m).trans
      (ih _ (by rw [(insertArm_same c s).1]; exact h) (by rw [(insertArm_same c s).2]; exact m))

theorem insertMark_moves (i : MarkIx) (s : State) (h : s.tracker.sync.holdsAngle = true) :
    Moves k s (insertMark i s) := by
  unfold insertMark
  split
  · split
    · exact .one (.insert _ ⟨h, (fun ha => by cases ha), (fun hp => by cases hp), (fun _ _ hk => by cases hk)⟩)
    · exact .refl s
  · exact .refl s

theorem insertMark_same (i : MarkIx) (s : State) :
    (insertMark i s).tracker = s.tracker ∧ (insertMark i s).run = s.run := by
  unfold insertMark
  split
  · split <;> exact ⟨rfl, rfl⟩
  · exact ⟨rfl, rfl⟩

theorem insertMarkList_same (is : List MarkIx) : ∀ s : State,
    (insertMarkList is s).tracker = s.tracker ∧ (insertMarkList is s).run = s.run := by
  induction is with
  | nil => exact fun s => ⟨rfl, rfl⟩
  | cons i is ih =>
    intro s
    exact ⟨(ih _).1.trans (insertMark_same i s).1, (ih _).2.trans (insertMark_same i s).2⟩

theorem insertMarkList_moves (is : List MarkIx) : ∀ s : State, s.tracker.sync.holdsAngle = true →
    Moves k s (insertMarkList is s) := by
  induction is with
  | nil => exact fun s _ => .refl s
  | cons i is ih =>
    intro s h
    exact (insertMark_moves i s h).trans (ih _ (by rw [(insertMark_same i s).1]; exact h))

theorem insertPendingMarks_moves (s : State) (h : s.tracker.sync.holdsAngle = true) :
    Moves k s (insertPendingMarks s) :=
  (setQueue_moves { s.queue with pendingMarks := [] } s rfl).trans (insertMarkList_moves _ _ h)

theorem markChanged_moves (i : MarkIx) (s : State) : Moves k s (markChanged i s) := by
  unfold markChanged
  split
  · exact (removeKey_moves _ s).trans (setQueue_moves _ _ rfl)
  · exact removeKey_moves _ s

/-! ## Commit -/

theorem commitPulse_moves (e : EdgeRef) (c : Cyl) (n target energize : Nat) (s : State) :
    Moves k s (commitPulse e c n target energize s) := by
  unfold commitPulse
  split
  · exact removeKey_moves _ s
  · split
    · exact (removeKey_moves _ s).trans (.closes (reportUnfired_closes _ _ _ _))
    · refine Moves.trans (setCommit_moves _ _ ?_ s) (.closes (updateSlots_closes _ _ _))
      intro; rfl

theorem commitKey_moves (e : EdgeRef) (x : Key) (s : State) : Moves k s (commitKey e x s) := by
  unfold commitKey
  split
  · exact .refl s
  · split
    · split
      · exact commitPulse_moves _ _ _ _ _ s
      · exact .refl s
      · exact setCommit_moves _ _ (by intro; rfl) s
    · exact .refl s

/-- A commit leaves Circuit Diagnosis as it is. -/
theorem commitKey_diag (e : EdgeRef) (x : Key) (s : State) : (commitKey e x s).diag = s.diag := by
  unfold commitKey
  split
  · rfl
  · split
    · split
      · unfold commitPulse
        split
        · rfl
        · split
          · exact (reportUnfired_closes _ _ _ _).diag
          · exact (updateSlots_closes _ _ _).diag
      · rfl
      · rfl
    · rfl

theorem commitKeys_moves (e : EdgeRef) (xs : List Key) : ∀ s : State, Moves k s (commitKeys e xs s) := by
  induction xs with
  | nil => exact fun s => .refl s
  | cons x xs ih => exact fun s => (commitKey_moves e x s).trans (ih _)

theorem catchUpKey_moves (e : EdgeRef) (x : Key) (s : State) : Moves k s (catchUpKey e x s) := by
  unfold catchUpKey
  split
  · exact (removeKey_moves _ s).trans (.closes (reportUnfired_closes _ _ _ _))
  · exact setCommit_moves _ _ (by intro; rfl) s

theorem catchUpKeys_moves (e : EdgeRef) (xs : List Key) : ∀ s : State, Moves k s (catchUpKeys e xs s) := by
  induction xs with
  | nil => exact fun s => .refl s
  | cons x xs ih => exact fun s => (catchUpKey_moves e x s).trans (ih _)

theorem catchUp_moves (e : EdgeRef) (s : State) : Moves k s (catchUp e s) := by
  unfold catchUp
  split
  · exact .refl s
  · split
    · exact setQueue_moves _ s rfl
    · exact (catchUpKeys_moves e _ s).trans (setQueue_moves _ _ rfl)

theorem takeWindow_moves (e : EdgeRef) (s : State) : Moves k s (takeWindow e s) := commitKeys_moves _ _ s

theorem setCommitRef_moves (e : EdgeRef) (s : State) : Moves k s (setCommitRef e s) := setQueue_moves _ s rfl

/-! ## The tracker's moves on the queue -/

theorem atMove_entries (q : FiringQueue) : q.atMove.entries = q.entries := by
  unfold FiringQueue.atMove
  split <;> rfl

theorem queueGain_moves (s : State) (h : s.tracker.sync.holdsAngle = true) : Moves k s (queueGain s) := by
  have h0 : Moves k s (s.withQueue { s.queue with commitRef := none }) := setQueue_moves _ s rfl
  have h1 : Moves k s (insertMarks (s.withQueue { s.queue with commitRef := none })) :=
    h0.trans (insertMarkList_moves _ _ h)
  have h2 : (insertMarks (s.withQueue { s.queue with commitRef := none })).tracker.sync.holdsAngle = true := by
    rw [insertMarks, (insertMarkList_same _ _).1]; exact h
  unfold queueGain
  generalize insertMarks (s.withQueue { s.queue with commitRef := none }) = t at h1 h2 ⊢
  refine h1.trans ?_
  show Moves k t (if _ then _ else _)
  split
  · rename_i m; exact insertArmList_moves _ _ h2 m
  · exact .refl _

theorem queueLoss_moves (s : State) : Moves k s (queueLoss s) := by
  exact (withdrawPulses_moves (fun _ => true) .syncLost s).trans (.one (.queue _ (List.nil_sublist _)))

theorem queueToCam_moves (s : State) : Moves k s (queueToCam s) :=
  (withdrawPulses_moves (fun _ => true) .syncLost s).trans (setQueue_moves _ _ (atMove_entries _))

theorem queueToCrank_moves (s : State) : Moves k s (queueToCrank s) := setQueue_moves _ s (atMove_entries _)

/-! ## The queue's order -/

theorem insertSorted_mem (before : Entry → Entry → Bool) (e : Entry) (xs : List Entry) :
    ∀ y, y ∈ insertSorted before e xs ↔ y = e ∨ y ∈ xs := by
  induction xs with
  | nil => intro y; simp [insertSorted]
  | cons x xs ih =>
    intro y
    unfold insertSorted
    split
    · simp
    · simp only [List.mem_cons, ih]
      tauto

theorem sortEntries_mem (before : Entry → Entry → Bool) (xs : List Entry) :
    ∀ y, y ∈ sortEntries before xs ↔ y ∈ xs := by
  induction xs with
  | nil => intro y; rfl
  | cons x xs ih => intro y; simp only [sortEntries, insertSorted_mem, ih, List.mem_cons]

/-- The queue's order holds the queue's entries. -/
theorem queueOrder_mem (s : State) (e : Entry) : e ∈ queueOrder s ↔ e ∈ s.queue.entries :=
  sortEntries_mem _ _ e

end Sys2Proof.Machine
end

