-- ==== Sys2Proof/Laws/BankMoves.lean ====
section
/-! SUPPORT. The bank drivers' operations as moves. -/

namespace Sys2Proof.Machine

variable {k : Bool}

/-! ## Recharge -/

theorem gainUnit_bounded (x : BankState) (band : SupplyBand) (h : x.Bounded) : (x.gainUnit band).Bounded := by
  unfold BankState.gainUnit
  split
  · rename_i hu
    simp only [BankState.unitDue, BankState.recharging, Bool.and_eq_true, decide_eq_true_eq] at hu
    have h1 : x.reserve < Config.reserveFull := hu.1.2
    exact ⟨h1, Nat.zero_le _⟩
  · exact h

theorem gainUnit_same (x : BankState) (band : SupplyBand) :
    (x.gainUnit band).drive = x.drive ∧ (x.gainUnit band).waiting = x.waiting := by
  unfold BankState.gainUnit
  split <;> exact ⟨rfl, rfl⟩

theorem gainUnit_quiet (x : BankState) (band : SupplyBand) : x.Quiet (x.gainUnit band) :=
  ⟨fun _ h => BankState.boosts_of_drive (gainUnit_same x band).1 ▸ h, .inl (gainUnit_same x band).2, gainUnit_bounded x band⟩

/-- A tick keeps the phase at or below its interval (R125). -/
theorem countPhase_quiet (x : BankState) (band : SupplyBand) : x.Quiet (x.countPhase band) := by
  unfold BankState.countPhase
  split
  · rename_i hu
    refine ⟨fun _ h => h, .inl rfl, fun h => ⟨h.1, ?_⟩⟩
    have h2 := h.phase
    by_cases h3 : x.phase < 100
    · exact h3
    · exfalso
      have hr := hu
      simp only [BankState.unitDue, Bool.and_eq_true, Bool.not_eq_true', Bool.and_eq_false_iff] at hr
      obtain ⟨hr1, hr2⟩ := hr
      rcases hr2 with hr2 | hr2
      · rw [hr1] at hr2; cases hr2
      · have h4 : x.phase = 100 := by omega
        cases band <;> simp [rechargeInterval, h4] at hr2
        simp [BankState.recharging] at hr1
  · exact ⟨fun _ h => h, .inl rfl, id⟩

theorem settleRecharge_moves (b : Bank) (s : State) : Moves k s (settleRecharge b s) :=
  .one (.bank _ _ (gainUnit_quiet _ _))

/-! ## The chain step -/

theorem chainBlock_none {s : State} {c : Cyl} {x : CycleContext} {y : Slot} {t : Tick}
    (h : chainBlock s c x y t = none) :
    s.run.fuelcut = false ∧ s.diag.disabled.get c = false ∧ s.tracker.sync.holdsAngle = true
      ∧ pulsesFull s = false := by
  unfold chainBlock at h
  split at h
  · cases h
  · rename_i h1
    split at h
    · cases h
    · rename_i h2
      split at h
      · cases h
      · rename_i h3
        split at h
        · cases h
        · split at h
          · cases h
          · split at h
            · cases h
            · split at h
              · cases h
              · rename_i h4
                exact ⟨by simpa using h1, by simpa using h2, by simpa using h3, by simpa using h4⟩

theorem chainSlot_moves (c : Cyl) (x : CycleContext) (y : Slot) (d : Nat) (t : Tick) (s : State) :
    Moves k s (chainSlot c x y d t s) := by
  unfold chainSlot
  split
  · exact .closes (updateSlots_closes _ _ s)
  · rename_i h
    obtain ⟨h1, hd, h2, h3⟩ := chainBlock_none h
    have hc := updateSlots_closes c
      (mapSlot y.num (Slot.commitTo (later t d) (decide (chainEnergize s x y (later t d) < y.energize)))) s
    refine (Moves.closes hc).trans (.one (.insert _ ⟨hc.tracker ▸ h2, (fun ha => by cases ha), fun _ =>
      ⟨hc.fuelcut ▸ h1, ?_⟩, (fun _ _ hk => by cases hk; rw [hc.diag]; exact hd)⟩))
    rw [← h3]
    unfold pulsesFull pulseCount
    rw [hc.queue]

theorem chainAfter_moves (c : Cyl) (n : Nat) (t : Tick) (s : State) : Moves k s (chainAfter c n t s) := by
  unfold chainAfter
  split
  · exact .refl s
  · split
    · exact .refl s
    · split
      · exact chainSlot_moves _ _ _ _ _ s
      · exact .refl s

/-! ## The end of a pulse -/

theorem endReport_moves (p : Pulse) (t : Tick) (x : Classification) (s : State) :
    Moves k s (endReport p t x s) := by
  unfold endReport
  split
  · exact .refl s
  · split
    · exact (Moves.closes (updateSlots_closes _ _ s)).trans (chainAfter_moves _ _ _ _)
    · exact .refl s

theorem closeTestIf_moves (close : Bool) (c : Cyl) (s : State) : Moves k s (closeTestIf close c s) := by
  unfold closeTestIf
  split
  · exact .closes (closeTest_closes _ _)
  · exact .refl s

theorem reportEnd_moves (close : Bool) (p : Pulse) (t : Tick) (s : State) : Moves k s (reportEnd close p t s) :=
  ((diagnose_moves _ _ _).trans (endReport_moves _ _ _ _)).trans (closeTestIf_moves _ _ _)

theorem startDecay_moves (b : Bank) (p : Pulse) (s : State) : Moves k s (startDecay b p s) := by
  have h : Moves k s (s.withBank b
      { s.bank b with drive := .decay p s.timebase (later s.timebase Config.decayTicks) }) :=
    .one (.bank _ _ ⟨(fun _ hb => by cases hb), .inl rfl, fun hx => ⟨hx.1, hx.2⟩⟩)
  refine h.trans ?_
  show Moves k _ (if _ then _ else _)
  split
  · exact settleRecharge_moves _ _
  · exact .refl _

theorem endPulse_moves (b : Bank) (f : Pulse → Pulse) (close : Bool) (s : State) :
    Moves k s (endPulse b f close s) := by
  unfold endPulse
  split
  · exact .refl s
  · exact (startDecay_moves _ _ s).trans (reportEnd_moves _ _ _ _)

theorem cutPulse_moves (b : Bank) (s : State) : Moves k s (cutPulse b s) := endPulse_moves _ _ _ s

theorem cutPulseOf_moves (c : Cyl) (b : Bank) (s : State) : Moves k s (cutPulseOf c b s) := by
  unfold cutPulseOf
  split
  · split
    · exact cutPulse_moves b s
    · exact .refl s
  · exact .refl s

/-! ## Starts -/

theorem enterBoost_moves (b : Bank) (r : StartReq) (s : State) (g : GatesOpen s)
    (d : s.diag.disabled.get r.cyl = false) : Moves true s (enterBoost b r s) := by
  unfold enterBoost
  refine Moves.trans (Moves.one (.boost b _ rfl g ?_ ?_ ?_)) (.closes (updateSlots_closes _ _ _))
  · rfl
  · exact fun h => ⟨(Nat.sub_le _ _).trans h.reserve, h.phase⟩
  · intro c hc; cases hc; exact d

theorem serveStart_moves (b : Bank) (r : StartReq) (s : State) (g : GatesOpen s)
    (d : s.diag.disabled.get r.cyl = false) : Moves true s (serveStart b r s) := by
  unfold serveStart
  split
  · exact .closes (reportUnfired_closes _ _ _ s)
  · exact enterBoost_moves b r s g d

theorem serveWaiting_moves (b : Bank) (r : StartReq) (s : State) (h : s.tracker.sync.holdsAngle = true)
    (d : s.diag.disabled.get r.cyl = false) : Moves true s (serveWaiting b r s) := by
  unfold serveWaiting
  split
  · exact .closes (reportUnfired_closes _ _ _ s)
  · rename_i h1
    split
    · exact .closes (reportUnfired_closes _ _ _ s)
    · rename_i h2
      split
      · exact .closes (reportUnfired_closes _ _ _ s)
      · exact serveStart_moves b r s ⟨h, by simpa using h1, h2⟩ d

theorem startArrives_moves (b : Bank) (r : StartReq) (s : State) (h : s.tracker.sync.holdsAngle = true)
    (d : s.diag.disabled.get r.cyl = false) : Moves true s (startArrives b r s) := by
  unfold startArrives
  split
  · exact .closes (reportUnfired_closes _ _ _ s)
  · rename_i h1
    have h1 : s.run.fuelcut = false := by simpa using h1
    split
    · exact .closes (reportUnfired_closes _ _ _ s)
    · rename_i h2
      split
      · exact serveStart_moves b r s ⟨h, h1, h2⟩ d
      · split
        · exact .one (.wait b r h h1 d)
        · split
          · exact (Moves.one (.wait b r h h1 d)).trans (.closes (reportUnfired_closes _ _ _ _))
          · exact .closes (reportUnfired_closes _ _ _ s)

theorem endDecay_moves (b : Bank) (s : State) (g : s.Gated) : Moves true s (endDecay b s) := by
  unfold endDecay
  split
  · exact .one (.bank _ _ ⟨(fun _ hb => by cases hb), .inl rfl, fun hx => ⟨hx.1, hx.2⟩⟩)
  · rename_i r hr
    refine Moves.trans (.one (.bank b { s.bank b with drive := .idle, waiting := none }
      ⟨(fun _ hb => by cases hb), .inr rfl, fun hx => ⟨hx.1, hx.2⟩⟩)) ?_
    refine serveWaiting_moves b r _ ?_ ?_
    · rw [State.withBank_tracker]
      exact g.waitAngle b (by rw [hr]; rfl)
    · rw [State.withBank_diag]
      exact g.latchWait b r hr

end Sys2Proof.Machine
end

