-- ==== Sys2Proof/Laws/BankReports.lean ====
section
/-! SUPPORT. What does not depend on the banks, and the two orders in which the entry of DECAY and Circuit Diagnosis can
be taken. -/

namespace Sys2Proof.Machine

/-- A change that neither reads nor writes the banks. -/
def BankBlind (f : State → State) : Prop := ∀ s b x, f (s.withBank b x) = (f s).withBank b x

theorem BankBlind.comp {f g : State → State} (h : BankBlind f) (k : BankBlind g) : BankBlind (fun s => g (f s)) :=
  fun s b x => by dsimp only; rw [h, k]

theorem queueNotice_blind (n : NoticeBody) : BankBlind (queueNotice n) := by
  intro s b x
  unfold queueNotice
  rw [State.withBank_link, State.withBank_timebase, State.withBank_withLink]
  split <;> rfl

theorem updateSlots_blind (c : Cyl) (f : List Slot → List Slot) : BankBlind (updateSlots c f) := by
  intro s b x
  unfold updateSlots
  rw [State.withBank_contexts]
  split
  · rfl
  · rw [State.withBank_withContexts]

theorem writeRecord_blind (r : CycleRecord) : BankBlind (writeRecord r) := by
  intro s b x
  unfold writeRecord
  rw [State.withBank_records, State.withBank_withRecords, queueNotice_blind]

theorem tellIfNoneOpen_blind : BankBlind tellIfNoneOpen := by
  intro s b x
  have h : anyOpen (s.withBank b x) = anyOpen s := by cases b <;> rfl
  unfold tellIfNoneOpen
  rw [h]
  split
  · rfl
  · unfold noContextOpen
    rw [State.withBank_run]
    split
    · rw [State.withBank_withRun, queueNotice_blind]
    · rfl

theorem closeTest_blind (c : Cyl) : BankBlind (closeTest c) := by
  intro s b x
  have hr : ∀ t : State, removeContext c (t.withBank b x) = (removeContext c t).withBank b x := fun t => by
    rw [removeContext, State.withBank_contexts, State.withBank_withContexts, removeContext]
  unfold closeTest
  rw [State.withBank_contexts]
  split
  · rfl
  · split
    · rw [writeRecord_blind, hr, tellIfNoneOpen_blind]
    · rfl

theorem reportWithdrawn_blind (r : WithdrawReason) (xs : List (Cyl × Nat)) : BankBlind (reportWithdrawn r xs) := by
  induction xs with
  | nil => exact fun _ _ _ => rfl
  | cons y ys ih =>
    intro s b x
    have h : BankBlind (reportUnfired y.1 y.2 (.withdrawn r)) :=
      (updateSlots_blind y.1 (resolveUnfired y.2 (.withdrawn r))).comp (closeTest_blind y.1)
    show reportWithdrawn r ys _ = (reportWithdrawn r ys _).withBank b x
    rw [h, ih]

/-- A withdrawal and a change of a bank that leaves its waiting start: the change is the same before and after, on a
bank with the start taken. -/
theorem withdrawPulses_withBank (scope : Cyl → Bool) (r : WithdrawReason) (s : State) (b : Bank) (x : BankState)
    (h : x.waiting = (s.bank b).waiting) :
    withdrawPulses scope r (s.withBank b x) = (withdrawPulses scope r s).withBank b (x.emptyWaiting scope) := by
  have h1 : unstartedPulses scope (s.withBank b x) = unstartedPulses scope s := by
    have : isUnstartedPulse (s.withBank b x) = isUnstartedPulse s := by
      funext c n
      unfold isUnstartedPulse
      cases b <;> simp only [State.withBank, h] <;> rfl
    unfold unstartedPulses
    rw [this]
  have h2 : dropPulses scope (s.withBank b x) = (dropPulses scope s).withBank b (x.emptyWaiting scope) := by
    cases b <;> rfl
  unfold withdrawPulses
  rw [h1, h2, reportWithdrawn_blind]

theorem emptyWaiting_eq (scope : Cyl → Bool) (x : BankState) :
    x.emptyWaiting scope = { x with waiting := x.waiting.filter fun r => !scope r.cyl } := by
  unfold BankState.emptyWaiting
  cases h : x.waiting with
  | none => cases x; cases h; rfl
  | some r =>
    dsimp only
    cases hs : scope r.cyl
    · simp only [Bool.false_eq_true, if_false, Option.filter, hs, Bool.not_false, if_true]; cases x; cases h; rfl
    · simp [Option.filter, hs]

/-- Circuit Diagnosis leaves one waiting start, or none, in a bank, and a change of the bank that leaves its waiting
start can be made before or after it. -/
theorem diagnose_withBank (c : Cyl) (k : Classification) (s : State) (b : Bank) :
    ∃ w, (∀ x : BankState, x.waiting = (s.bank b).waiting →
        diagnose c k (s.withBank b x) = (diagnose c k s).withBank b { x with waiting := w }) ∧
      (diagnose c k s).bank b = { s.bank b with waiting := w } ∧
      (diagnose c k s).timebase = s.timebase ∧ (diagnose c k s).run.band = s.run.band := by
  have hw : ∀ (t : State) (y), warnTest c k (t.withBank b y) = (warnTest c k t).withBank b y := by
    intro t y
    unfold warnTest
    rw [State.withBank_plan, State.withBank_diag]
    split
    · rw [State.withBank_withDiag, queueNotice_blind]
    · rfl
  have ht : ∀ t : State, (warnTest c k t).bank b = t.bank b ∧ (warnTest c k t).timebase = t.timebase ∧
      (warnTest c k t).run.band = t.run.band := by
    intro t; unfold warnTest; split
    · rw [(queueNotice_closes _ _).bank, (queueNotice_closes _ _).timebase, (queueNotice_closes _ _).band]; simp
    · exact ⟨rfl, rfl, rfl⟩
  have h0 : ∀ x, scoreAndRearm c k (s.withBank b x) = (scoreAndRearm c k s).withBank b x := fun x => by
    rw [scoreAndRearm, State.withBank_diag, State.withBank_plan, State.withBank_withDiag, scoreAndRearm]
  obtain ⟨h1, h2⟩ := ht (scoreAndRearm c k s)
  have h1 : (warnTest c k (scoreAndRearm c k s)).bank b = s.bank b := by rw [h1]; simp [scoreAndRearm]
  unfold diagnose
  simp only [h0, hw]
  generalize warnTest c k (scoreAndRearm c k s) = t at h1 h2
  unfold disableTest
  simp only [State.withBank_plan, State.withBank_diag]
  split
  · refine ⟨(s.bank b).waiting.filter fun r => !(r.cyl == c), fun x hx => ?_, ?_, ?_, ?_⟩
    · rw [State.withBank_withDiag, withdrawPulses_withBank _ _ _ _ _ (by rw [State.withDiag_bank, h1, hx]),
        queueNotice_blind, emptyWaiting_eq, hx]
    · rw [(queueNotice_closes _ _).bank, withdrawPulses_bank, State.withDiag_bank, h1, emptyWaiting_eq]
    · rw [(queueNotice_closes _ _).timebase, withdrawPulses, (reportWithdrawn_closes _ _ _).timebase]
      exact h2.1
    · rw [(queueNotice_closes _ _).band, withdrawPulses, (reportWithdrawn_closes _ _ _).band]
      exact h2.2
  · exact ⟨(s.bank b).waiting, fun x hx => by rw [← hx], h1, h2⟩

theorem diagnose_drive (c : Cyl) (k : Classification) (s : State) (b : Bank) :
    ((diagnose c k s).bank b).drive = (s.bank b).drive := by
  obtain ⟨_, _, h, _⟩ := diagnose_withBank c k s b
  rw [h]

theorem gainUnit_waiting (x : BankState) (w : Option StartReq) (band : SupplyBand) :
    ({ x with waiting := w } : BankState).gainUnit band = { x.gainUnit band with waiting := w } := by
  unfold BankState.gainUnit
  have h : ({ x with waiting := w } : BankState).unitDue band = x.unitDue band := rfl
  rw [h]
  split <;> rfl

/-- Circuit Diagnosis and the entry of DECAY, taken in either order, come to the same (R117, R121). -/
theorem diagnose_startDecay (c : Cyl) (k : Classification) (b : Bank) (p : Pulse) (s : State) :
    diagnose c k (startDecay b p s) = startDecay b p (diagnose c k s) := by
  have hd : ∀ t : State, startDecay b p t = t.withBank b
      (if (t.bank b).drive.isBoost then
        BankState.gainUnit { t.bank b with drive := .decay p t.timebase (later t.timebase Config.decayTicks) } t.run.band
      else { t.bank b with drive := .decay p t.timebase (later t.timebase Config.decayTicks) }) := by
    intro t
    unfold startDecay
    dsimp only
    split
    · rw [settleRecharge, State.withBank_withBank, State.withBank_bank_same, State.withBank_run]
    · rfl
  obtain ⟨w, h1, h2, h3, h4⟩ := diagnose_withBank c k s b
  rw [hd s, h1 _ (by split; exact (gainUnit_same _ _).2; rfl), hd (diagnose c k s), h2, h3, h4]
  congr 1
  split
  · rw [← gainUnit_waiting]
  · rfl

end Sys2Proof.Machine
end

