-- ==== Sys2Proof/Laws/Ties.lean ====
section
/-! SUPPORT. What ties the cycles, the queue and the banks (`State.Linked`) is kept by the operations on slots, by
the close test and by withdrawals. -/

namespace Sys2Proof.Machine

/-! ## Slots of a context -/

/-- Two slot lists with the same numbers in which each slot is related to its successor. -/
abbrev SlotsTo (R : Slot → Slot → Prop) : List Slot → List Slot → Prop :=
  List.Forall₂ fun x y => y.num = x.num ∧ R x y

theorem SlotsTo.nums {R : Slot → Slot → Prop} {xs ys : List Slot} (h : SlotsTo R xs ys) :
    ys.map Slot.num = xs.map Slot.num := by
  induction h with
  | nil => rfl
  | cons h _ ih => simp [h.1, ih]

/-- Related lists hold related slots of each number. -/
theorem SlotsTo.find {R : Slot → Slot → Prop} {xs ys : List Slot} (h : SlotsTo R xs ys) (n : Nat) :
    (findSlot n xs = none ∧ findSlot n ys = none) ∨
      ∃ x y, findSlot n xs = some x ∧ findSlot n ys = some y ∧ R x y ∧ x.num = n := by
  induction h with
  | nil => exact .inl ⟨rfl, rfl⟩
  | @cons x y xs ys h _ ih =>
    unfold findSlot at ih ⊢
    by_cases hx : x.num = n
    · exact .inr ⟨x, y, by simp [hx], by simp [h.1, hx], h.2, hx⟩
    · simpa [List.find?_cons, h.1, hx] using ih

theorem SlotsTo.mem {R : Slot → Slot → Prop} {xs ys : List Slot} (h : SlotsTo R xs ys) :
    ∀ y ∈ ys, ∃ x ∈ xs, R x y := by
  induction h with
  | nil => intro y hy; cases hy
  | cons h _ ih =>
    intro z hz
    rcases List.mem_cons.mp hz with rfl | hz
    · exact ⟨_, List.mem_cons_self .., h.2⟩
    · obtain ⟨x, hx, hr⟩ := ih z hz
      exact ⟨x, List.mem_cons_of_mem _ hx, hr⟩

theorem SlotsTo.of_eq (xs : List Slot) {R : Slot → Slot → Prop} (h : ∀ x, R x x) : SlotsTo R xs xs := by
  induction xs with
  | nil => exact .nil
  | cons x xs ih => exact .cons ⟨rfl, h x⟩ ih

theorem SlotsTo.mono {R S : Slot → Slot → Prop} {xs ys : List Slot} (h : SlotsTo R xs ys)
    (i : ∀ x y, R x y → S x y) : SlotsTo S xs ys := by
  induction h with
  | nil => exact .nil
  | cons h _ ih => exact .cons ⟨h.1, i _ _ h.2⟩ ih

theorem mapSlot_to (n : Nat) (f : Slot → Slot) (hf : ∀ x, (f x).num = x.num) (xs : List Slot) :
    SlotsTo (fun x y => y = x ∨ x.num = n ∧ y = f x) xs (mapSlot n f xs) := by
  induction xs with
  | nil => exact .nil
  | cons x xs ih =>
    unfold mapSlot
    split
    · rename_i h; exact .cons ⟨hf x, .inr ⟨h, rfl⟩⟩ (SlotsTo.of_eq _ fun _ => .inl rfl)
    · exact .cons ⟨rfl, .inl rfl⟩ ih

theorem findSlot_mapSlot (n m : Nat) (f : Slot → Slot) (hf : ∀ x, (f x).num = x.num) (xs : List Slot) :
    findSlot n (mapSlot m f xs) = if n = m then (findSlot n xs).map f else findSlot n xs := by
  induction xs with
  | nil => simp [mapSlot, findSlot]
  | cons x xs ih =>
    unfold findSlot at ih ⊢
    by_cases hx : x.num = m
    · by_cases hn : n = m
      · subst hn; simp [mapSlot, hx, hf]
      · have h1 : ¬ m = n := fun e => hn e.symm
        simp [mapSlot, hx, hf, h1, hn]
    · by_cases hn : x.num = n
      · have h1 : n ≠ m := fun e => hx (hn.trans e)
        simp [mapSlot, hn, h1]
      · simpa [mapSlot, hx, hn] using ih

theorem loseAnchor_to (xs : List Slot) :
    SlotsTo (fun x y => y = x ∨ x.st = .pending ∧ y.st.isResolved = true) xs (loseAnchor xs) := by
  induction xs with
  | nil => exact .nil
  | cons x xs ih =>
    unfold loseAnchor
    split
    · rename_i h
      refine .cons ⟨rfl, .inr ⟨?_, rfl⟩⟩ ih
      have h1 := (Bool.and_eq_true_iff.mp h).1
      cases hs : x.st <;> simp [hs, SlotState.isPending] at h1
      rfl
    · exact SlotsTo.of_eq _ fun _ => .inl rfl

/-- What resolving a slot unfired does to a context (R82): the slot, if it was unstarted, and PENDING slots after it
are resolved. -/
theorem resolveUnfired_to (n : Nat) (o : SlotOutcome) (xs : List Slot) :
    SlotsTo (fun x y => y = x ∨ x.st = .pending ∧ y.st.isResolved = true ∨
      x.num = n ∧ x.st.isUnstarted = true ∧ y.st.isResolved = true) xs (resolveUnfired n o xs) := by
  induction xs with
  | nil => exact .nil
  | cons x xs ih =>
    unfold resolveUnfired
    split
    · rename_i hn
      split
      · rename_i hu
        exact .cons ⟨rfl, .inr (.inr ⟨hn, hu, rfl⟩)⟩ ((loseAnchor_to xs).mono fun _ _ h => h.imp_right .inl)
      · exact SlotsTo.of_eq _ fun _ => .inl rfl
    · exact .cons ⟨rfl, .inl rfl⟩ ih

theorem withdrawAllSlots_to (r : WithdrawReason) (xs : List Slot) :
    SlotsTo (fun x y => y = x ∧ x.st.isUnstarted = false ∨ x.st.isUnstarted = true ∧ y.st.isResolved = true) xs
      (withdrawAllSlots r xs) := by
  induction xs with
  | nil => exact .nil
  | cons x xs ih =>
    refine .cons ?_ ih
    dsimp only
    split
    · rename_i h; exact ⟨rfl, .inr ⟨h, rfl⟩⟩
    · rename_i h; exact ⟨rfl, .inl ⟨rfl, by simpa using h⟩⟩

/-- Where numbers do not repeat, a slot of the list is the slot of its number. -/
theorem findSlot_of_mem {xs : List Slot} (h : (xs.map Slot.num).Nodup) {x : Slot} (hx : x ∈ xs) :
    findSlot x.num xs = some x := by
  induction xs with
  | nil => cases hx
  | cons y ys ih =>
    rw [List.map_cons, List.nodup_cons] at h
    unfold findSlot at ih ⊢
    rcases List.mem_cons.mp hx with rfl | hx
    · simp
    · have h1 : y.num ≠ x.num := fun e => h.1 (e ▸ List.mem_map_of_mem hx)
      simpa [h1] using ih h.2 hx

theorem findSlot_mem {n : Nat} {xs : List Slot} {x : Slot} (h : findSlot n xs = some x) : x ∈ xs ∧ x.num = n :=
  ⟨List.mem_of_find?_eq_some h, by simpa using List.find?_some h⟩

theorem slotAfter_mem {n : Nat} {xs : List Slot} {x : Slot} (h : slotAfter n xs = some x) : x ∈ xs := by
  induction xs with
  | nil => cases h
  | cons y ys ih =>
    unfold slotAfter at h
    split at h
    · exact List.mem_cons_of_mem _ (List.mem_of_head? h)
    · exact List.mem_cons_of_mem _ (ih h)

/-! ## The slot of a state -/

theorem updateSlots_get (c d : Cyl) (f : List Slot → List Slot) (s : State) :
    (updateSlots c f s).contexts.get d =
      if d = c then (s.contexts.get c).map fun x => { x with slots := f x.slots } else s.contexts.get d := by
  unfold updateSlots
  split
  · rename_i h
    split
    · rename_i e; subst e; rw [h]; rfl
    · rfl
  · rename_i x h
    rw [State.withContexts_contexts, PerCyl.get_set]
    split
    · rw [h]; rfl
    · rfl

theorem updateSlots_none (c d : Cyl) (f : List Slot → List Slot) (s : State) :
    (updateSlots c f s).contexts.get d = none ↔ s.contexts.get d = none := by
  rw [updateSlots_get]
  split
  · rename_i e; subst e; simp
  · rfl

theorem updateSlots_bankAt (c d : Cyl) (f : List Slot → List Slot) (s : State) :
    bankAt (updateSlots c f s) d = bankAt s d := by
  unfold bankAt
  rw [updateSlots_get]
  split
  · rename_i e; subst e; cases s.contexts.get d <;> rfl
  · rfl

theorem slotAt_of_contexts {s t : State} (h : t.contexts = s.contexts) (c : Cyl) (n : Nat) :
    slotAt t c n = slotAt s c n := by
  unfold slotAt; rw [h]

theorem bankAt_of_contexts {s t : State} (h : t.contexts = s.contexts) (c : Cyl) : bankAt t c = bankAt s c := by
  unfold bankAt; rw [h]

theorem updateSlots_slotAt_other {c d : Cyl} (h : d ≠ c) (f : List Slot → List Slot) (s : State) (n : Nat) :
    slotAt (updateSlots c f s) d n = slotAt s d n := by
  unfold slotAt
  rw [updateSlots_get, if_neg h]

/-- A related change of a context's slots relates the states of each slot. -/
theorem updateSlots_slotAt {R : Slot → Slot → Prop} (c : Cyl) (f : List Slot → List Slot)
    (hf : ∀ xs, SlotsTo R xs (f xs)) (s : State) (n : Nat) :
    (slotAt s c n = none ∧ slotAt (updateSlots c f s) c n = none) ∨
      ∃ x y, slotAt s c n = some x.st ∧ slotAt (updateSlots c f s) c n = some y.st ∧ R x y ∧ x.num = n := by
  unfold slotAt
  rw [updateSlots_get, if_pos rfl]
  cases s.contexts.get c with
  | none => exact .inl ⟨rfl, rfl⟩
  | some x =>
    rcases (hf x.slots).find n with ⟨h1, h2⟩ | ⟨y, z, h1, h2, h3, h4⟩
    · left; simp [h1, h2]
    · right; exact ⟨y, z, by simp [h1], by simp [h2], h3, h4⟩

theorem mapSlot_slotAt (c d : Cyl) (m n : Nat) (f : Slot → Slot) (g : SlotState → SlotState)
    (hf : ∀ x, (f x).num = x.num) (hg : ∀ x, (f x).st = g x.st) (s : State) :
    slotAt (updateSlots c (mapSlot m f) s) d n =
      if d = c ∧ n = m then (slotAt s c m).map g else slotAt s d n := by
  by_cases hd : d = c
  · subst hd
    unfold slotAt
    rw [updateSlots_get, if_pos rfl]
    cases s.contexts.get d with
    | none => simp
    | some x =>
      simp only [Option.map_some, findSlot_mapSlot _ _ _ hf, true_and]
      by_cases hn : n = m
      · subst hn
        simp only [if_true, Option.map_map]
        congr 1; funext y; exact hg y
      · simp [hn]
  · rw [updateSlots_slotAt_other hd, if_neg (fun h => hd h.1)]

/-- A slot's change leaves every other slot's state. -/
theorem mapSlot_slotAt_other (c d : Cyl) (m n : Nat) (f : Slot → Slot) (hf : ∀ x, (f x).num = x.num) (s : State)
    (h : ¬ (d = c ∧ n = m)) : slotAt (updateSlots c (mapSlot m f) s) d n = slotAt s d n := by
  by_cases hd : d = c
  · subst hd
    unfold slotAt
    rw [updateSlots_get, if_pos rfl]
    cases s.contexts.get d with
    | none => rfl
    | some x => simp only [Option.map_some, findSlot_mapSlot _ _ _ hf, if_neg fun e => h ⟨rfl, e⟩]
  · exact updateSlots_slotAt_other hd _ s n

/-- A slot's change changes its own state. -/
theorem mapSlot_slotAt_self (c : Cyl) (m : Nat) (f : Slot → Slot) (hf : ∀ x, (f x).num = x.num) (s : State)
    {st : SlotState} (h : slotAt s c m = some st) :
    ∃ x : Slot, x.st = st ∧ slotAt (updateSlots c (mapSlot m f) s) c m = some (f x).st := by
  unfold slotAt at h ⊢
  rw [updateSlots_get, if_pos rfl]
  cases hc : s.contexts.get c with
  | none => rw [hc] at h; cases h
  | some x =>
    rw [hc] at h
    simp only [Option.map_some, findSlot_mapSlot _ _ _ hf, if_true]
    cases hy : findSlot m x.slots with
    | none => simp [hy] at h
    | some y => exact ⟨y, by simpa [hy] using h, rfl⟩

/-! ## Calm changes -/

/-- The pulse a bank energizes, by cylinder, slot and start. -/
def Drive.pulseKey (d : Drive) : Option (Cyl × Nat × Tick) := d.energized.map fun p => (p.cyl, p.slot, p.start)

/-- A change that keeps the contexts and the energized pulses, inserts no PULSE entry and takes in no waiting start,
and enters HALT only with no context open. -/
structure Calm (s t : State) : Prop where
  contexts : t.contexts = s.contexts
  pulses : ∀ e ∈ t.queue.entries, ∀ c n, e.key = .pulse c n → e ∈ s.queue.entries
  waiting : ∀ b r, (t.bank b).waiting = some r → (s.bank b).waiting = some r
  drive : ∀ b, (t.bank b).drive.pulseKey = (s.bank b).drive.pulseKey
  halt : t.run.mode = .halt → s.run.mode = .halt ∨ ∀ c, t.contexts.get c = none

namespace Calm

theorem refl (s : State) : Calm s s := ⟨rfl, fun _ h _ _ _ => h, fun _ _ h => h, fun _ => rfl, .inl⟩

theorem trans {s t u : State} (h : Calm s t) (k : Calm t u) : Calm s u :=
  ⟨k.contexts.trans h.contexts, fun e he c n hk => h.pulses e (k.pulses e he c n hk) c n hk,
    fun b r hr => h.waiting b r (k.waiting b r hr), fun b => (k.drive b).trans (h.drive b), fun hm => by
      rcases k.halt hm with h1 | h1
      · rcases h.halt h1 with h2 | h2
        · exact .inl h2
        · right; rw [k.contexts]; exact h2
      · exact .inr h1⟩

/-- A change of fields the ties do not speak of. -/
theorem of_eq {s t : State} (h1 : t.contexts = s.contexts) (h2 : t.queue = s.queue)
    (h3 : ∀ b, t.bank b = s.bank b) (h4 : t.run.mode = s.run.mode) : Calm s t :=
  ⟨h1, fun e he _ _ _ => h2 ▸ he, fun b r hr => h3 b ▸ hr, fun b => by rw [h3], fun h => .inl (h4 ▸ h)⟩

theorem ofQueue {s : State} (x : FiringQueue)
    (h : ∀ e ∈ x.entries, ∀ c n, e.key = .pulse c n → e ∈ s.queue.entries) : Calm s (s.withQueue x) :=
  ⟨rfl, h, fun b r hr => by simpa using hr, fun b => by simp, fun h => .inl h⟩

theorem ofBank {s : State} (b : Bank) (x : BankState)
    (hw : ∀ r, x.waiting = some r → (s.bank b).waiting = some r)
    (hd : x.drive.pulseKey = (s.bank b).drive.pulseKey) : Calm s (s.withBank b x) := by
  refine ⟨by simp, fun e he _ _ _ => by simpa using he, fun d r hr => ?_, fun d => ?_, fun h => .inl (by simpa using h)⟩
  · rw [State.withBank_bank] at hr
    split at hr
    · rename_i e; subst e; exact hw r hr
    · exact hr
  · rw [State.withBank_bank]
    split
    · rename_i e; subst e; exact hd
    · rfl

end Calm

/-- The energized pulse of a bank after a change that keeps its key. -/
theorem energized_of_pulseKey {x y : Drive} (h : y.pulseKey = x.pulseKey) {p : Pulse} (hp : y.energized = some p) :
    ∃ q, x.energized = some q ∧ q.cyl = p.cyl ∧ q.slot = p.slot ∧ q.start = p.start := by
  unfold Drive.pulseKey at h
  rw [hp] at h
  cases hx : x.energized with
  | none => rw [hx] at h; cases h
  | some q =>
    rw [hx] at h
    simp only [Option.map_some, Option.some.injEq, Prod.mk.injEq] at h
    exact ⟨q, rfl, h.1.symm, h.2.1.symm, h.2.2.symm⟩

theorem Calm.linked {s t : State} (h : Calm s t) (l : s.Linked) : t.Linked := by
  have hs := slotAt_of_contexts h.contexts
  have hb := bankAt_of_contexts h.contexts
  refine ⟨?_, ?_, ?_, ?_, ?_, ?_⟩
  · rw [h.contexts]; exact l.numbered
  · intro e he c n hk hc; rw [hs]; exact l.waitingEntry e (h.pulses e he c n hk) c n hk hc
  · intro e he c n k hk hc; rw [hs]; exact l.committedEntry e (h.pulses e he c n hk) c n k hk hc
  · intro b r hr
    obtain ⟨h1, h2, h3⟩ := l.start b r (h.waiting b r hr)
    exact ⟨by rw [hb]; exact h1, by rw [hs]; exact h2, fun e he hk => h3 e (h.pulses e he _ _ hk) hk⟩
  · intro b p hp
    obtain ⟨q, hq, h1, h2, h3⟩ := energized_of_pulseKey (h.drive b) hp
    rw [hb, hs, ← h1, ← h2, ← h3]
    exact l.driven b q hq
  · intro c n st a p hn
    rw [hs] at hn
    obtain ⟨b, p, hp, h1, h2⟩ := l.drives c n st a p hn
    obtain ⟨q, hq, h3, h4, -⟩ := energized_of_pulseKey (h.drive b).symm hp
    exact ⟨b, q, hq, h3.trans h1, h4.trans h2⟩

/-! ## Changes that keep the ties -/

/-- A change that opens no context, and enters HALT only with none open. -/
def Shut (s t : State) : Prop :=
  t.run.mode = .halt →
    (s.run.mode = .halt ∧ ∀ c, s.contexts.get c = none → t.contexts.get c = none) ∨ ∀ c, t.contexts.get c = none

theorem Shut.trans {s t u : State} (h : Shut s t) (k : Shut t u) : Shut s u := by
  intro m
  rcases k m with ⟨m1, k1⟩ | k1
  · rcases h m1 with ⟨m2, h1⟩ | h1
    · exact .inl ⟨m2, fun c hc => k1 c (h1 c hc)⟩
    · exact .inr fun c => k1 c (h1 c)
  · exact .inr k1

/-- A change that, where the ties hold, keeps them and is shut. -/
def Keeps (s t : State) : Prop := s.Linked → t.Linked ∧ Shut s t

namespace Keeps

theorem refl (s : State) : Keeps s s := fun l => ⟨l, fun h => .inl ⟨h, fun _ h => h⟩⟩

theorem trans {s t u : State} (h : Keeps s t) (k : Keeps t u) : Keeps s u := fun l =>
  ⟨(k (h l).1).1, (h l).2.trans (k (h l).1).2⟩

/-- What the ties give may be used. -/
theorem of {s t : State} (h : s.Linked → Keeps s t) : Keeps s t := fun l => h l l

end Keeps

theorem Calm.shut {s t : State} (h : Calm s t) : Shut s t := by
  intro m
  rcases h.halt m with h1 | h1
  · exact .inl ⟨h1, fun c hc => by rw [h.contexts]; exact hc⟩
  · exact .inr h1

theorem Calm.keeps {s t : State} (h : Calm s t) : Keeps s t := fun l => ⟨h.linked l, h.shut⟩

theorem queueNotice_same (x : NoticeBody) (s : State) :
    (queueNotice x s).contexts = s.contexts ∧ (queueNotice x s).run = s.run := by
  unfold queueNotice
  split <;> exact ⟨rfl, rfl⟩

theorem queueNotice_calm (x : NoticeBody) (s : State) : Calm s (queueNotice x s) := by
  have h := queueNotice_closes x s
  exact .of_eq (queueNotice_same x s).1 h.queue h.bank (by rw [(queueNotice_same x s).2])

theorem writeRecord_calm (r : CycleRecord) (s : State) : Calm s (writeRecord r s) :=
  (Calm.of_eq rfl rfl (fun _ => by simp) rfl : Calm s (s.withRecords (s.records.set r.cyl (some r)))).trans
    (queueNotice_calm _ _)

/-! ## Slots changed -/

/-- No entry and no waiting start is that of a slot. -/
structure Free (s : State) (c : Cyl) (n : Nat) : Prop where
  entry : ∀ e ∈ s.queue.entries, e.key ≠ .pulse c n
  start : ∀ b r, (s.bank b).waiting = some r → ¬ (r.cyl = c ∧ r.slot = n)

theorem Free.of_closes {s t : State} (h : Closes s t) {c : Cyl} {n : Nat} (f : Free s c n) : Free t c n :=
  ⟨by rw [h.queue]; exact f.entry, fun b => by rw [h.bank]; exact f.start b⟩

theorem updateSlots_shut (c : Cyl) (f : List Slot → List Slot) (s : State) : Shut s (updateSlots c f s) := by
  have h : (updateSlots c f s).run = s.run := by unfold updateSlots; split <;> rfl
  intro m
  rw [h] at m
  exact .inl ⟨m, fun d hd => (updateSlots_none c d f s).mpr hd⟩

theorem updateSlots_same (c : Cyl) (f : List Slot → List Slot) (s : State) :
    (updateSlots c f s).queue = s.queue ∧ ∀ b, (updateSlots c f s).bank b = s.bank b :=
  ⟨(updateSlots_closes c f s).queue, (updateSlots_closes c f s).bank⟩

theorem numbered_updateSlots {R : Slot → Slot → Prop} {s : State}
    (l : ∀ d x, s.contexts.get d = some x → x.cyl = d ∧ (x.slots.map Slot.num).Nodup) (c : Cyl)
    (f : List Slot → List Slot) (hf : ∀ xs, SlotsTo R xs (f xs)) :
    ∀ d x, (updateSlots c f s).contexts.get d = some x → x.cyl = d ∧ (x.slots.map Slot.num).Nodup := by
  intro d x hx
  rw [updateSlots_get] at hx
  split at hx
  · rename_i e; subst e
    cases hy : s.contexts.get d with
    | none => rw [hy] at hx; cases hx
    | some y =>
      rw [hy] at hx; cases hx
      exact ⟨(l d y hy).1, by rw [(hf y.slots).nums]; exact (l d y hy).2⟩
  · exact l d x hx

/-- A slot that is neither in the queue nor with a bank. -/
def SlotState.isIdle : SlotState → Bool
  | .latched => true
  | .pending => true
  | _ => false

/-- Whether a slot is ENERGIZED. -/
def SlotState.isEnergized : SlotState → Bool
  | .energized _ _ _ => true
  | _ => false

/-- Slots that change only between states that tie nothing, or are resolved while no entry or start is theirs,
keep the ties. -/
theorem updateSlots_linked {R : Slot → Slot → Prop} {s : State} (l : s.Linked) (c : Cyl)
    (f : List Slot → List Slot) (hf : ∀ xs, SlotsTo R xs (f xs))
    (hR : ∀ x y, R x y → slotAt s c x.num = some x.st → y.st = x.st ∨
      x.st.isIdle = true ∧ y.st.isEnergized = false ∨
      Free s c x.num ∧ x.st.isUnstarted = true ∧ y.st.isResolved = true) :
    (updateSlots c f s).Linked := by
  obtain ⟨hq, hb⟩ := updateSlots_same c f s
  have ha : ∀ d n st, slotAt s d n = some st → (st.isIdle = false) → (Free s d n → st.isUnstarted = false) →
      slotAt (updateSlots c f s) d n = some st := by
    intro d n st h hi hfree
    by_cases hd : d = c
    · subst hd
      rcases updateSlots_slotAt d f hf s n with ⟨h1, _⟩ | ⟨x, y, h1, h2, h3, h4⟩
      · rw [h] at h1; cases h1
      · rw [h] at h1; cases h1
        subst h4
        rcases hR x y h3 h with h5 | ⟨h5, _⟩ | ⟨h5, h6, _⟩
        · rw [h2, h5]
        · rw [hi] at h5; cases h5
        · rw [hfree h5] at h6; cases h6
    · rw [updateSlots_slotAt_other hd]; exact h
  refine ⟨numbered_updateSlots l.numbered c f hf, ?_, ?_, ?_, ?_, ?_⟩
  · intro e he d n hk hc
    rw [hq] at he
    exact ha d n _ (l.waitingEntry e he d n hk hc) rfl fun fr => absurd hk (fr.entry e he)
  · intro e he d n k hk hc
    rw [hq] at he
    exact ha d n _ (l.committedEntry e he d n k hk hc) rfl fun fr => absurd hk (fr.entry e he)
  · intro b r hr
    rw [hb] at hr
    obtain ⟨h1, h2, h3⟩ := l.start b r hr
    rw [updateSlots_bankAt, hq]
    exact ⟨h1, ha _ _ _ h2 rfl fun fr => absurd ⟨rfl, rfl⟩ (fr.start b r hr), h3⟩
  · intro b p hp
    rw [hb] at hp
    obtain ⟨h1, a, sl, h2⟩ := l.driven b p hp
    rw [updateSlots_bankAt]
    exact ⟨h1, a, sl, ha _ _ _ h2 rfl fun _ => rfl⟩
  · intro d n st a sl hn
    have hx : slotAt s d n = some (.energized st a sl) := by
      by_cases hd : d = c
      · subst hd
        rcases updateSlots_slotAt d f hf s n with ⟨_, h1⟩ | ⟨x, y, h1, h2, h3, h4⟩
        · rw [hn] at h1; cases h1
        · rw [hn] at h2
          have h2 : y.st = .energized st a sl := by injection h2.symm
          subst h4
          rcases hR x y h3 h1 with h5 | ⟨_, h5⟩ | ⟨_, _, h5⟩
          · rw [h1, ← h5, h2]
          · rw [h2] at h5; cases h5
          · rw [h2] at h5; cases h5
      · rw [updateSlots_slotAt_other hd] at hn; exact hn
    obtain ⟨b, p, h1, h2⟩ := l.drives d n st a sl hx
    exact ⟨b, p, by rw [hb]; exact h1, h2⟩

theorem isIdle_pending {x : SlotState} (h : x = .pending) : x.isIdle = true := by subst h; rfl

theorem notEnergized_of_resolved {x : SlotState} (h : x.isResolved = true) : x.isEnergized = false := by
  cases x <;> first | rfl | cases h

theorem resolveUnfired_linked {s : State} (c : Cyl) (n : Nat) (o : SlotOutcome)
    (hf : Free s c n ∨ ∀ st, slotAt s c n = some st → st.isIdle = true) (l : s.Linked) :
    (updateSlots c (resolveUnfired n o) s).Linked := by
  refine updateSlots_linked l c _ (resolveUnfired_to n o) fun x y h hx => ?_
  rcases h with rfl | ⟨h1, h2⟩ | ⟨h1, h2, h3⟩
  · exact .inl rfl
  · exact .inr (.inl ⟨isIdle_pending h1, notEnergized_of_resolved h2⟩)
  · subst h1
    rcases hf with hf | hf
    · exact .inr (.inr ⟨hf, h2, h3⟩)
    · exact .inr (.inl ⟨hf _ hx, notEnergized_of_resolved h3⟩)

theorem resolveUnfired_keeps {s : State} (c : Cyl) (n : Nat) (o : SlotOutcome)
    (hf : Free s c n ∨ ∀ st, slotAt s c n = some st → st.isIdle = true) :
    Keeps s (updateSlots c (resolveUnfired n o) s) :=
  fun l => ⟨resolveUnfired_linked c n o hf l, updateSlots_shut _ _ _⟩

/-! ## The close test -/

theorem anyOpen_false {s : State} (h : anyOpen s = false) (c : Cyl) : s.contexts.get c = none := by
  unfold anyOpen at h
  rw [List.any_eq_false] at h
  have := h c (Cyl.mem_all c)
  cases hx : s.contexts.get c with
  | none => rfl
  | some x => rw [hx] at this; simp at this

theorem noContextOpen_calm {s : State} (h : ∀ c, s.contexts.get c = none) : Calm s (noContextOpen s) := by
  unfold noContextOpen
  split
  · refine Calm.trans ?_ (queueNotice_calm _ _)
    exact ⟨rfl, fun _ he _ _ _ => he, fun b r hr => by simpa using hr, fun b => by simp, fun _ => .inr h⟩
  · exact .refl s

theorem tellIfNoneOpen_calm (s : State) : Calm s (tellIfNoneOpen s) := by
  unfold tellIfNoneOpen
  split
  · exact .refl s
  · rename_i h; exact noContextOpen_calm (anyOpen_false (by simpa using h))

/-- A context whose slots are all resolved may be removed. -/
theorem removeContext_linked {s : State} (l : s.Linked) (c : Cyl)
    (h : ∀ n st, slotAt s c n = some st → st.isResolved = true) : (removeContext c s).Linked := by
  have hb : ∀ b, (removeContext c s).bank b = s.bank b := fun b => by simp [removeContext]
  have hs : ∀ d n st, slotAt s d n = some st → st.isResolved = false →
      d ≠ c ∧ slotAt (removeContext c s) d n = some st := by
    intro d n st hd hr
    have hne : d ≠ c := by
      rintro rfl
      rw [h n st hd] at hr; cases hr
    refine ⟨hne, ?_⟩
    rw [← hd]
    unfold slotAt removeContext
    rw [State.withContexts_contexts, PerCyl.get_set_other _ _ hne]
  have hk : ∀ d, d ≠ c → bankAt (removeContext c s) d = bankAt s d := by
    intro d hd
    unfold bankAt removeContext
    rw [State.withContexts_contexts, PerCyl.get_set_other _ _ hd]
  have hg : ∀ d x, (removeContext c s).contexts.get d = some x → s.contexts.get d = some x := by
    intro d x hx
    unfold removeContext at hx
    rw [State.withContexts_contexts, PerCyl.get_set] at hx
    split at hx
    · cases hx
    · exact hx
  refine ⟨fun d x hx => l.numbered d x (hg d x hx), ?_, ?_, ?_, ?_, ?_⟩
  · intro e he d n k1 k2; exact (hs d n _ (l.waitingEntry e he d n k1 k2) rfl).2
  · intro e he d n k k1 k2; exact (hs d n _ (l.committedEntry e he d n k k1 k2) rfl).2
  · intro b r hr
    rw [hb] at hr
    obtain ⟨h1, h2, h3⟩ := l.start b r hr
    obtain ⟨h4, h5⟩ := hs _ _ _ h2 rfl
    exact ⟨by rw [hk _ h4]; exact h1, h5, h3⟩
  · intro b p hp
    rw [hb] at hp
    obtain ⟨h1, a, sl, h2⟩ := l.driven b p hp
    obtain ⟨h4, h5⟩ := hs _ _ _ h2 rfl
    exact ⟨by rw [hk _ h4]; exact h1, a, sl, h5⟩
  · intro d n st a sl hn
    have hx : slotAt s d n = some (.energized st a sl) := by
      rw [← hn]
      unfold slotAt at hn ⊢
      cases hc : (removeContext c s).contexts.get d with
      | none => rw [hc] at hn; cases hn
      | some x => rw [hg d x hc]
    obtain ⟨b, p, h1, h2⟩ := l.drives d n st a sl hx
    exact ⟨b, p, by rw [hb]; exact h1, h2⟩

theorem finished_slotAt {s : State} {c : Cyl} {x : CycleContext} (h : s.contexts.get c = some x)
    (hf : x.finished = true) (n : Nat) (st : SlotState) (hs : slotAt s c n = some st) : st.isResolved = true := by
  unfold slotAt at hs
  rw [h] at hs
  dsimp only at hs
  cases hy : findSlot n x.slots with
  | none => rw [hy] at hs; cases hs
  | some y =>
    rw [hy] at hs; cases hs
    exact List.all_eq_true.mp hf y (findSlot_mem hy).1

theorem removeContext_shut (c : Cyl) (s : State) : Shut s (removeContext c s) := by
  intro m
  refine .inl ⟨m, fun d hd => ?_⟩
  unfold removeContext
  rw [State.withContexts_contexts, PerCyl.get_set]
  split
  · rfl
  · exact hd

/-- The close test keeps the ties (R85). -/
theorem closeTest_keeps (c : Cyl) (s : State) : Keeps s (closeTest c s) := by
  unfold closeTest
  split
  · exact .refl s
  · rename_i x hx
    split
    · rename_i hf
      have hc := writeRecord_calm x.record s
      refine (hc.keeps.trans fun l => ⟨removeContext_linked l c ?_, removeContext_shut c _⟩).trans
        (tellIfNoneOpen_calm _).keeps
      have hx' : (writeRecord x.record s).contexts.get c = some x := by rw [hc.contexts]; exact hx
      exact finished_slotAt hx' hf
    · exact .refl s

/-- A slot reported unfired keeps the ties, when no entry or start is its own (R79, R82, R83). -/
theorem reportUnfired_keeps {s : State} (c : Cyl) (n : Nat) (o : SlotOutcome) (hf : Free s c n) :
    Keeps s (reportUnfired c n o s) :=
  (resolveUnfired_keeps c n o (.inl hf)).trans (closeTest_keeps _ _)

/-! ## Withdrawals -/

theorem reportWithdrawn_keeps (r : WithdrawReason) (xs : List (Cyl × Nat)) :
    ∀ s : State, (∀ p ∈ xs, Free s p.1 p.2) → Keeps s (reportWithdrawn r xs s) := by
  induction xs with
  | nil => exact fun s _ => .refl s
  | cons p xs ih =>
    intro s h
    refine (reportUnfired_keeps p.1 p.2 (.withdrawn r) (h p (List.mem_cons_self ..))).trans (ih _ fun q hq => ?_)
    exact (h q (List.mem_cons_of_mem _ hq)).of_closes (reportUnfired_closes _ _ _ s)

theorem emptyWaiting_spec (scope : Cyl → Bool) (x : BankState) :
    (x.emptyWaiting scope).drive = x.drive ∧
      ∀ r, (x.emptyWaiting scope).waiting = some r → x.waiting = some r ∧ scope r.cyl = false := by
  unfold BankState.emptyWaiting
  split
  · rename_i r hr
    split
    · exact ⟨rfl, fun q hq => by cases hq⟩
    · rename_i h
      refine ⟨rfl, fun q hq => ⟨hq, ?_⟩⟩
      rw [hr] at hq; cases hq; simpa using h
  · rename_i h
    exact ⟨rfl, fun q hq => by rw [h] at hq; cases hq⟩

theorem dropPulses_calm (scope : Cyl → Bool) (s : State) : Calm s (dropPulses scope s) := by
  refine ⟨rfl, fun e he _ _ _ => (List.mem_filter.mp he).1, fun b r hr => ?_, fun b => ?_, fun h => .inl h⟩
  · rw [dropPulses_bank] at hr; exact ((emptyWaiting_spec scope _).2 r hr).1
  · rw [dropPulses_bank, (emptyWaiting_spec scope _).1]

/-- Once the pulses of a scope are dropped, no entry or start is that of a slot within it (R106). -/
theorem dropPulses_free (scope : Cyl → Bool) (s : State) (c : Cyl) (n : Nat) (h : scope c = true) :
    Free (dropPulses scope s) c n := by
  refine ⟨fun e he hk => ?_, fun b r hr hc => ?_⟩
  · have := (List.mem_filter.mp he).2
    simp [Entry.pulseIn, hk, h] at this
  · rw [dropPulses_bank] at hr
    have := ((emptyWaiting_spec scope _).2 r hr).2
    rw [hc.1, h] at this; cases this

theorem unstartedPulses_scope {scope : Cyl → Bool} {s : State} {p : Cyl × Nat} (h : p ∈ unstartedPulses scope s) :
    scope p.1 = true := by
  unfold unstartedPulses at h
  obtain ⟨c, hc, hp⟩ := List.mem_flatMap.mp h
  obtain ⟨n, _, rfl⟩ := List.mem_map.mp hp
  exact (List.mem_filter.mp hc).2

/-- A withdrawal keeps the ties (R83, R106). -/
theorem withdrawPulses_keeps (scope : Cyl → Bool) (r : WithdrawReason) (s : State) :
    Keeps s (withdrawPulses scope r s) :=
  (dropPulses_calm scope s).keeps.trans
    (reportWithdrawn_keeps r _ _ fun p hp => dropPulses_free scope s p.1 p.2 (unstartedPulses_scope hp))

/-! ## Circuit Diagnosis and the Plan Store -/

theorem withDiag_calm (x : Diagnosis) (s : State) : Calm s (s.withDiag x) :=
  .of_eq rfl rfl (fun _ => by simp) rfl

theorem withPlan_calm (x : PlanStore) (s : State) : Calm s (s.withPlan x) :=
  .of_eq rfl rfl (fun _ => by simp) rfl

theorem withTracker_calm (x : Tracker) (s : State) : Calm s (s.withTracker x) :=
  .of_eq rfl rfl (fun _ => by simp) rfl

theorem withLink_calm (x : Link) (s : State) : Calm s (s.withLink x) :=
  .of_eq rfl rfl (fun _ => by simp) rfl

theorem withRun_calm (x : RunControl) (s : State) (h : x.mode = .halt → s.run.mode = .halt) :
    Calm s (s.withRun x) :=
  ⟨rfl, fun _ he _ _ _ => he, fun b r hr => by simpa using hr, fun b => by simp, fun m => .inl (h m)⟩

/-- A classification keeps the ties (R132 to R135). -/
theorem diagnose_keeps (c : Cyl) (x : Classification) (s : State) : Keeps s (diagnose c x s) := by
  have h1 : Calm s (scoreAndRearm c x s) := withDiag_calm _ s
  have h2 : ∀ t, Calm t (warnTest c x t) := by
    intro t
    unfold warnTest
    split
    · exact (withDiag_calm _ t).trans (queueNotice_calm _ _)
    · exact .refl t
  have h3 : ∀ t, Keeps t (disableTest c x t) := by
    intro t
    unfold disableTest
    split
    · exact ((withDiag_calm _ t).keeps.trans (withdrawPulses_keeps _ _ _)).trans (queueNotice_calm _ _).keeps
    · exact .refl t
  exact ((h1.trans (h2 _)).keeps).trans (h3 _)

theorem endCoilCheck_calm (r : CoilResult) (a : Option AbortCause) (s : State) : Calm s (endCoilCheck r a s) := by
  unfold endCoilCheck
  split
  · exact .refl s
  · exact (withDiag_calm _ s).trans (queueNotice_calm _ _)

theorem landIfPending_calm (c : Option Cyl) (s : State) : Calm s (landIfPending c s) := by
  unfold landIfPending
  split
  · exact (withPlan_calm _ s).trans (queueNotice_calm _ _)
  · exact .refl s

theorem staleTest_calm (s : State) : Calm s (staleTest s) := by
  unfold staleTest
  split
  · exact (withPlan_calm _ s).trans (queueNotice_calm _ _)
  · exact .refl s

theorem countExpiry_calm (s : State) : Calm s (countExpiry s) := by
  unfold countExpiry
  split
  · exact (withPlan_calm _ s).trans (staleTest_calm _)
  · exact staleTest_calm s

end Sys2Proof.Machine
end

