-- ==== Sys2Proof/Laws/QueueTies.lean ====
section
/-! SUPPORT. The Firing Queue's operations keep what ties the cycles, the queue and the banks. -/

namespace Sys2Proof.Machine

/-! ## Removal and insertion -/

theorem removeKey_calm (k : Key) (s : State) : Calm s (removeKey k s) :=
  .ofQueue _ fun _ he _ _ _ => (List.mem_filter.mp he).1

theorem removeArms_calm (s : State) : Calm s (removeArms s) := .ofQueue _ fun _ he _ _ _ => (List.mem_filter.mp he).1

theorem setQueue_calm (x : FiringQueue) (s : State) (h : x.entries = s.queue.entries) : Calm s (s.withQueue x) :=
  .ofQueue x fun _ he _ _ _ => h ▸ he

/-- An entry that is no PULSE entry ties nothing. -/
theorem insertEntry_calm (e : Entry) (s : State) (h : ∀ c n, e.key ≠ .pulse c n) : Calm s (insertEntry e s) :=
  .ofQueue _ fun y hy c n hk => by
    rcases insertByKey_mem e _ y hy with rfl | hy
    · exact absurd hk (h c n)
    · exact hy

theorem insertArm_calm (c : Cyl) (s : State) : Calm s (insertArm c s) := by
  unfold insertArm
  split
  · exact insertEntry_calm _ s fun _ _ h => by cases h
  · exact .refl s

theorem insertArmList_calm (cs : List Cyl) : ∀ s, Calm s (insertArmList cs s) := by
  induction cs with
  | nil => exact Calm.refl
  | cons c cs ih => exact fun s => (insertArm_calm c s).trans (ih _)

theorem insertMark_calm (i : MarkIx) (s : State) : Calm s (insertMark i s) := by
  unfold insertMark
  split
  · split
    · exact insertEntry_calm _ s fun _ _ h => by cases h
    · exact .refl s
  · exact .refl s

theorem insertMarkList_calm (is : List MarkIx) : ∀ s, Calm s (insertMarkList is s) := by
  induction is with
  | nil => exact Calm.refl
  | cons i is ih => exact fun s => (insertMark_calm i s).trans (ih _)

theorem insertPendingMarks_calm (s : State) : Calm s (insertPendingMarks s) :=
  (setQueue_calm { s.queue with pendingMarks := [] } s rfl).trans (insertMarkList_calm _ _)

theorem markChanged_calm (i : MarkIx) (s : State) : Calm s (markChanged i s) := by
  unfold markChanged
  split
  · exact (removeKey_calm _ s).trans (setQueue_calm _ _ rfl)
  · exact removeKey_calm _ s

/-- A PULSE entry of a slot in its state, with no waiting start of that slot, may join the queue. -/
theorem insertEntry_linked {s : State} (l : s.Linked) (e : Entry) (c : Cyl) (n : Nat) (hk : e.key = .pulse c n)
    (hw : e.commit = none → slotAt s c n = some .waiting)
    (hc : ∀ k, e.commit = some k → slotAt s c n = some (.committed k.time))
    (hf : ∀ b r, (s.bank b).waiting = some r → ¬ (r.cyl = c ∧ r.slot = n)) : (insertEntry e s).Linked := by
  have hs : ∀ d m, slotAt (insertEntry e s) d m = slotAt s d m := fun d m => slotAt_of_contexts rfl d m
  have hb : ∀ b, (insertEntry e s).bank b = s.bank b := fun b => by simp [insertEntry]
  refine ⟨l.numbered, ?_, ?_, ?_, ?_, ?_⟩
  · intro y hy d m k1 k2
    rw [hs]
    rcases insertByKey_mem e _ y hy with rfl | hy
    · rw [hk] at k1; cases k1; exact hw k2
    · exact l.waitingEntry y hy d m k1 k2
  · intro y hy d m k k1 k2
    rw [hs]
    rcases insertByKey_mem e _ y hy with rfl | hy
    · rw [hk] at k1; cases k1; exact hc k k2
    · exact l.committedEntry y hy d m k k1 k2
  · intro b r hr
    rw [hb] at hr
    obtain ⟨h1, h2, h3⟩ := l.start b r hr
    refine ⟨h1, by rw [hs]; exact h2, fun y hy hyk => ?_⟩
    rcases insertByKey_mem e _ y hy with rfl | hy
    · rw [hk] at hyk; cases hyk; exact hf b r hr ⟨rfl, rfl⟩
    · exact h3 y hy hyk
  · intro b p hp; rw [hb] at hp; rw [hs]; exact l.driven b p hp
  · intro d m st a sl h
    rw [hs] at h
    obtain ⟨b, p, h1, h2⟩ := l.drives d m st a sl h
    exact ⟨b, p, by rw [hb]; exact h1, h2⟩

theorem insertEntry_shut (e : Entry) (s : State) : Shut s (insertEntry e s) := fun m => .inl ⟨m, fun _ h => h⟩

/-! ## Commit -/

theorem setCommit_calm (k : Key) (f : Entry → Entry) (hf : ∀ e, (f e).key = e.key)
    (hk : ∀ c n, k ≠ .pulse c n) (s : State) : Calm s (setCommit k f s) := by
  refine .ofQueue _ fun y hy c n hyk => ?_
  obtain ⟨e, he, rfl⟩ := List.mem_map.mp hy
  split
  · rename_i h
    rw [if_pos h, hf, h] at hyk
    exact absurd hyk (hk c n)
  · exact he

/-- A slot that is WAITING has no waiting start. -/
theorem noStart_of_slotAt {s : State} (l : s.Linked) {c : Cyl} {n : Nat} {st : SlotState}
    (h : slotAt s c n = some st) (hc : ∀ t, st ≠ .committed t) :
    ∀ b r, (s.bank b).waiting = some r → ¬ (r.cyl = c ∧ r.slot = n) := by
  rintro b r hr ⟨rfl, rfl⟩
  have := (l.start b r hr).2.1
  rw [h] at this
  cases this
  exact hc _ rfl

/-- The state of a slot that a commit reaches (R77). -/
def SlotState.committedAt (time : Tick) : SlotState → SlotState
  | .waiting => .committed time
  | .pending => .committed time
  | x => x

theorem commitTo_num (time : Tick) (trunc : Bool) (x : Slot) : (x.commitTo time trunc).num = x.num := by
  unfold Slot.commitTo; split <;> rfl

theorem commitTo_st (time : Tick) (trunc : Bool) (x : Slot) :
    (x.commitTo time trunc).st = x.st.committedAt time := by
  cases h : x.st <;> simp [Slot.commitTo, SlotState.committedAt, h]

/-- A WAITING entry and its slot may be committed together (R77, R99). -/
theorem commit_linked {s : State} (l : s.Linked) (c : Cyl) (n : Nat) (q : Commitment) (f : Entry → Entry)
    (trunc : Bool) (hf : ∀ e, (f e).key = e.key) (hq : ∀ e, (f e).commit = some q)
    (hs : slotAt s c n = some .waiting) :
    (updateSlots c (mapSlot n (Slot.commitTo q.time trunc)) (setCommit (.pulse c n) f s)).Linked := by
  obtain ⟨h1, h2⟩ := updateSlots_same c (mapSlot n (Slot.commitTo q.time trunc)) (setCommit (.pulse c n) f s)
  have hb : ∀ b, (updateSlots c (mapSlot n (Slot.commitTo q.time trunc)) (setCommit (.pulse c n) f s)).bank b
      = s.bank b := fun b => by rw [h2]; simp [setCommit]
  have hat : ∀ d m, slotAt (updateSlots c (mapSlot n (Slot.commitTo q.time trunc)) (setCommit (.pulse c n) f s)) d m
      = if d = c ∧ m = n then some (.committed q.time) else slotAt s d m := by
    intro d m
    rw [mapSlot_slotAt c d n m _ (SlotState.committedAt q.time) (commitTo_num _ _) (commitTo_st _ _), show slotAt (setCommit (.pulse c n) f s) = slotAt s from
      funext fun d => funext fun m => slotAt_of_contexts rfl d m, hs]
    rfl
  have hnone : ∀ d m, ¬ (d = c ∧ m = n) →
      slotAt (updateSlots c (mapSlot n (Slot.commitTo q.time trunc)) (setCommit (.pulse c n) f s)) d m
        = slotAt s d m := fun d m h => by rw [hat, if_neg h]
  have hent : ∀ y ∈ (setCommit (.pulse c n) f s).queue.entries, ∃ e ∈ s.queue.entries,
      (e.key = .pulse c n ∧ y = f e) ∨ (e.key ≠ .pulse c n ∧ y = e) := by
    intro y hy
    obtain ⟨e, he, rfl⟩ := List.mem_map.mp hy
    refine ⟨e, he, ?_⟩
    split
    · exact .inl ⟨‹_›, rfl⟩
    · exact .inr ⟨‹_›, rfl⟩
  refine ⟨?_, ?_, ?_, ?_, ?_, ?_⟩
  · exact numbered_updateSlots (s := setCommit (.pulse c n) f s) l.numbered c _ (mapSlot_to n _ (commitTo_num _ _))
  · intro y hy d m k1 k2
    rw [h1] at hy
    obtain ⟨e, he, ⟨_, rfl⟩ | ⟨h4, rfl⟩⟩ := hent y hy
    · rw [hq] at k2; cases k2
    · rw [hnone d m (by rintro ⟨rfl, rfl⟩; exact h4 k1)]
      exact l.waitingEntry y he d m k1 k2
  · intro y hy d m k k1 k2
    rw [h1] at hy
    obtain ⟨e, he, ⟨h4, rfl⟩ | ⟨h4, rfl⟩⟩ := hent y hy
    · rw [hf, h4] at k1; cases k1
      rw [hq] at k2; cases k2
      rw [hat, if_pos ⟨rfl, rfl⟩]
    · rw [hnone d m (by rintro ⟨rfl, rfl⟩; exact h4 k1)]
      exact l.committedEntry y he d m k k1 k2
  · intro b r hr
    rw [hb] at hr
    obtain ⟨h3, h4, h5⟩ := l.start b r hr
    have hne := noStart_of_slotAt l hs (fun t h => by cases h) b r hr
    refine ⟨by rw [updateSlots_bankAt]; exact h3, by rw [hnone _ _ hne]; exact h4, fun y hy hyk => ?_⟩
    rw [h1] at hy
    obtain ⟨e, he, ⟨_, rfl⟩ | ⟨_, rfl⟩⟩ := hent y hy
    · rw [hf] at hyk; exact h5 e he hyk
    · exact h5 y he hyk
  · intro b p hp
    rw [hb] at hp
    obtain ⟨h3, a, sl, h4⟩ := l.driven b p hp
    refine ⟨by rw [updateSlots_bankAt]; exact h3, a, sl, ?_⟩
    rw [hnone]
    · exact h4
    · rintro ⟨h5, h6⟩; rw [h5, h6, hs] at h4; cases h4
  · intro d m st a sl h
    rw [hat] at h
    split at h
    · cases h
    · obtain ⟨b, p, h3, h4⟩ := l.drives d m st a sl h
      exact ⟨b, p, by rw [hb]; exact h3, h4⟩

theorem removeKey_free {s : State} (l : s.Linked) {e : Entry} {c : Cyl} {n : Nat} (he : e ∈ s.queue.entries)
    (hk : e.key = .pulse c n) : Free (removeKey (.pulse c n) s) c n := by
  refine ⟨fun y hy h => ?_, fun b r hr hc => ?_⟩
  · have := (List.mem_filter.mp hy).2
    simp [h] at this
  · have hb : (removeKey (.pulse c n) s).bank b = s.bank b := by simp [removeKey]
    rw [hb] at hr
    exact (l.start b r hr).2.2 e he (by rw [hk, hc.1, hc.2])

theorem findEntry_spec {k : Key} {s : State} {e : Entry} (h : findEntry k s = some e) :
    e ∈ s.queue.entries ∧ e.key = k :=
  ⟨List.mem_of_find?_eq_some h, by simpa using List.find?_some h⟩

theorem setCommit_shut (k : Key) (f : Entry → Entry) (s : State) : Shut s (setCommit k f s) :=
  fun m => .inl ⟨m, fun _ h => h⟩

/-- The commit of a WAITING PULSE entry keeps the ties (R99). -/
theorem commitPulse_keeps (e : EdgeRef) (c : Cyl) (n target energize : Nat) (s : State) (y : Entry)
    (hy : y ∈ s.queue.entries) (hk : y.key = .pulse c n) (hc : y.commit = none) :
    Keeps s (commitPulse e c n target energize s) := by
  unfold commitPulse
  split
  · exact (removeKey_calm (.pulse c n) s).keeps
  · split
    · have hr := removeKey_calm (.pulse c n) s
      exact .of fun l => hr.keeps.trans (reportUnfired_keeps c n _ (removeKey_free l hy hk))
    · exact fun l => ⟨commit_linked l c n { ref := e.time, delay := delay e (forward e.angle target) } _ _
          (fun _ => rfl) (fun _ => rfl) (l.waitingEntry y hy c n hk hc),
        (setCommit_shut _ _ s).trans (updateSlots_shut _ _ _)⟩

/-- The commit of an entry keeps the ties (R98, R99). -/
theorem commitKey_keeps (e : EdgeRef) (k : Key) (s : State) : Keeps s (commitKey e k s) := by
  unfold commitKey
  split
  · exact .refl s
  · rename_i y hy
    obtain ⟨h1, h2⟩ := findEntry_spec hy
    split
    · rename_i target ht hc
      cases k with
      | pulse c n =>
        cases hp : y.pulse with
        | none => exact .refl s
        | some q => exact commitPulse_keeps e c n target q.2 s y h1 h2 hc
      | arm c =>
        cases y.pulse <;> exact (setCommit_calm (.arm c) _ (by intro; rfl) (fun _ _ h => by cases h) s).keeps
      | mark i =>
        cases y.pulse <;> exact (setCommit_calm (.mark i) _ (by intro; rfl) (fun _ _ h => by cases h) s).keeps
    · exact .refl s

theorem commitKeys_keeps (e : EdgeRef) (ks : List Key) : ∀ s : State, Keeps s (commitKeys e ks s) := by
  induction ks with
  | nil => exact Keeps.refl
  | cons k ks ih => exact fun s => (commitKey_keeps e k s).trans (ih _)

theorem takeWindow_keeps (e : EdgeRef) (s : State) : Keeps s (takeWindow e s) := commitKeys_keeps _ _ s

/-! ## Catch-up -/

/-- No waiting start is that of a PULSE key of a list. -/
def NoStarts (ks : List Key) (s : State) : Prop :=
  ∀ c n, Key.pulse c n ∈ ks → ∀ b r, (s.bank b).waiting = some r → ¬ (r.cyl = c ∧ r.slot = n)

theorem removeKey_noEntry (k : Key) (s : State) : ∀ e ∈ (removeKey k s).queue.entries, e.key ≠ k := by
  intro e he h
  have := (List.mem_filter.mp he).2
  simp [h] at this

theorem removeKey_bank (k : Key) (s : State) (b : Bank) : (removeKey k s).bank b = s.bank b := by simp [removeKey]

theorem catchUpKey_bank (e : EdgeRef) (k : Key) (s : State) (b : Bank) : (catchUpKey e k s).bank b = s.bank b := by
  unfold catchUpKey
  split
  · rw [(reportUnfired_closes _ _ _ _).bank, removeKey_bank]
  · simp [setCommit]

theorem catchUpKey_keeps (e : EdgeRef) (k : Key) (s : State) (h : NoStarts [k] s) : Keeps s (catchUpKey e k s) := by
  cases k with
  | pulse c n =>
    refine (removeKey_calm (.pulse c n) s).keeps.trans (reportUnfired_keeps c n _ ⟨removeKey_noEntry _ s, ?_⟩)
    intro b r hr
    rw [removeKey_bank] at hr
    exact h c n (List.mem_cons_self ..) b r hr
  | arm c => exact (setCommit_calm (.arm c) _ (by intro; rfl) (fun _ _ h => by cases h) s).keeps
  | mark i => exact (setCommit_calm (.mark i) _ (by intro; rfl) (fun _ _ h => by cases h) s).keeps

theorem catchUpKeys_keeps (e : EdgeRef) (ks : List Key) :
    ∀ s : State, NoStarts ks s → Keeps s (catchUpKeys e ks s) := by
  induction ks with
  | nil => exact fun s _ => .refl s
  | cons k ks ih =>
    intro s h
    refine (catchUpKey_keeps e k s fun c n hc => h c n ?_).trans (ih _ fun c n hc b r hr => ?_)
    · rw [List.mem_singleton] at hc; rw [hc]; exact List.mem_cons_self ..
    · rw [catchUpKey_bank] at hr; exact h c n (List.mem_cons_of_mem _ hc) b r hr

/-- The keys of entries of the queue have no waiting start. -/
theorem keysWithin_noStarts {s : State} (l : s.Linked) (a n : Nat) : NoStarts (keysWithin a n s) s := by
  rintro c m hk b r hr ⟨rfl, rfl⟩
  obtain ⟨e, he, hek⟩ := List.mem_map.mp hk
  exact (l.start b r hr).2.2 e ((queueOrder_mem s e).mp (List.mem_filter.mp he).1) hek

theorem dropFrontier_calm (s : State) : Calm s (dropFrontier s) :=
  setQueue_calm { s.queue with frontier := none } s rfl

theorem catchUp_keeps (e : EdgeRef) (s : State) : Keeps s (catchUp e s) := by
  unfold catchUp
  split
  · exact .refl s
  · rename_i f _
    split
    · exact (dropFrontier_calm s).keeps
    · exact .of fun l => (catchUpKeys_keeps e _ s (keysWithin_noStarts l _ _)).trans (dropFrontier_calm _).keeps

theorem setCommitRef_calm (e : EdgeRef) (s : State) : Calm s (setCommitRef e s) := setQueue_calm _ s rfl

/-! ## The tracker's moves -/

theorem queueGain_calm (s : State) : Calm s (queueGain s) := by
  have h : Calm s (insertMarks (s.withQueue { s.queue with commitRef := none })) :=
    (setQueue_calm { s.queue with commitRef := none } s rfl).trans (insertMarkList_calm _ _)
  unfold queueGain
  generalize insertMarks (s.withQueue { s.queue with commitRef := none }) = t at h ⊢
  refine h.trans ?_
  show Calm t (if _ then _ else _)
  split
  · exact insertArmList_calm _ _
  · exact .refl _

theorem queueLoss_keeps (s : State) : Keeps s (queueLoss s) :=
  (withdrawPulses_keeps _ _ s).trans (Calm.ofQueue _ fun _ h => by cases h).keeps

theorem queueToCam_keeps (s : State) : Keeps s (queueToCam s) :=
  (withdrawPulses_keeps _ _ s).trans (setQueue_calm _ _ (atMove_entries _)).keeps

theorem queueToCrank_calm (s : State) : Calm s (queueToCrank s) := setQueue_calm _ s (atMove_entries _)

end Sys2Proof.Machine
end

