-- ==== Sys2Proof/Laws/BankTies.lean ====
section
/-! SUPPORT. The bank drivers' operations keep what ties the cycles, the queue and the banks. -/

namespace Sys2Proof.Machine

/-! ## Recharge -/

theorem settleRecharge_calm (b : Bank) (s : State) : Calm s (settleRecharge b s) :=
  .ofBank b _ (fun r h => by rw [(gainUnit_same _ _).2] at h; exact h) (by rw [(gainUnit_same _ _).1])

/-! ## The chain step -/

/-- A PENDING slot chained as a COMMITTED entry keeps the ties (R81). -/
theorem chainSlot_keeps (c : Cyl) (x : CycleContext) (y : Slot) (d : Nat) (ended : Tick) (s : State)
    (hs : slotAt s c y.num = some .pending) : Keeps s (chainSlot c x y d ended s) := by
  unfold chainSlot
  split
  · exact resolveUnfired_keeps c y.num _ (.inr fun st h => by rw [hs] at h; cases h; rfl)
  · intro l
    have h1 : (updateSlots c (mapSlot y.num (Slot.commitTo (later ended d)
        (decide (chainEnergize s x y (later ended d) < y.energize)))) s).Linked := by
      refine updateSlots_linked l c _ (mapSlot_to y.num _ (commitTo_num _ _)) fun z w h hz => ?_
      rcases h with rfl | ⟨h1, rfl⟩
      · exact .inl rfl
      · rw [h1, hs] at hz
        have hz : z.st = .pending := by injection hz.symm
        exact .inr (.inl ⟨isIdle_pending hz, by rw [commitTo_st, hz]; rfl⟩)
    have h2 := mapSlot_slotAt c c y.num y.num _ _ (commitTo_num (later ended d)
      (decide (chainEnergize s x y (later ended d) < y.energize))) (commitTo_st _ _) s
    rw [if_pos ⟨rfl, rfl⟩, hs] at h2
    refine ⟨insertEntry_linked h1 _ c y.num rfl (fun h => by cases h) (fun k hk => by cases hk; exact h2) ?_, ?_⟩
    · intro b r hr
      rw [(updateSlots_same _ _ _).2] at hr
      exact noStart_of_slotAt l hs (fun _ h => by cases h) b r hr
    · exact (updateSlots_shut _ _ _).trans (insertEntry_shut _ _)

theorem slotAt_of_mem {s : State} (l : s.Linked) {c : Cyl} {x : CycleContext} {y : Slot}
    (hx : s.contexts.get c = some x) (hy : y ∈ x.slots) : slotAt s c y.num = some y.st := by
  unfold slotAt
  rw [hx]
  simp [findSlot_of_mem (l.numbered c x hx).2 hy]

theorem chainAfter_keeps (c : Cyl) (n : Nat) (ended : Tick) (s : State) : Keeps s (chainAfter c n ended s) := by
  refine .of fun l => ?_
  unfold chainAfter
  split
  · exact .refl s
  · rename_i x hx
    split
    · exact .refl s
    · rename_i y hy
      split
      · rename_i d hst _
        exact chainSlot_keeps c x y d ended s (by rw [slotAt_of_mem l hx (slotAfter_mem hy), hst])
      · exact .refl s

/-! ## The end of a pulse -/

/-- What entering DECAY leaves: the bank drives nothing, and its waiting start stands (R117). -/
theorem startDecay_shape (b : Bank) (p : Pulse) (s : State) :
    ∃ x, startDecay b p s = s.withBank b x ∧ x.waiting = (s.bank b).waiting ∧ x.drive.energized = none := by
  unfold startDecay
  dsimp only
  split
  · refine ⟨_, by rw [settleRecharge, State.withBank_withBank], ?_, ?_⟩
    · rw [(gainUnit_same _ _).2, State.withBank_bank, if_pos rfl]
    · rw [(gainUnit_same _ _).1, State.withBank_bank, if_pos rfl]; rfl
  · exact ⟨_, rfl, rfl, rfl⟩

theorem fire_num (p : Pulse) (ended : Tick) (k : Classification) (x : Slot) : (x.fire p ended k).num = x.num := by
  unfold Slot.fire; split <;> rfl

theorem fire_st {x : Slot} (p : Pulse) (ended : Tick) (k : Classification) {t : Tick} {a : Option Nat} {n : Nat}
    (h : x.st = .energized t a n) : (x.fire p ended k).st.isResolved = true := by
  unfold Slot.fire; rw [h]; rfl

/-- A pulse that ends and its slot that fires keep the ties together (R80, R121). -/
theorem fired_linked {s : State} (l : s.Linked) (b : Bank) (p q : Pulse) (x : BankState) (ended : Tick)
    (k : Classification) (hp : (s.bank b).drive.energized = some p) (hw : x.waiting = (s.bank b).waiting)
    (hx : x.drive.energized = none) :
    (updateSlots p.cyl (mapSlot p.slot (Slot.fire q ended k)) (s.withBank b x)).Linked := by
  obtain ⟨hpb, a, sl, hps⟩ := l.driven b p hp
  have hc : (s.withBank b x).contexts = s.contexts := by simp
  have hps' : slotAt (s.withBank b x) p.cyl p.slot = some (.energized p.start a sl) := by
    rw [slotAt_of_contexts hc]; exact hps
  obtain ⟨h1, h2⟩ := updateSlots_same p.cyl (mapSlot p.slot (Slot.fire q ended k)) (s.withBank b x)
  obtain ⟨y, hy, hself⟩ := mapSlot_slotAt_self p.cyl p.slot _ (fire_num q ended k) _ hps'
  have hr : (y.fire q ended k).st.isResolved = true := fire_st q ended k hy
  have hoth : ∀ d m, ¬ (d = p.cyl ∧ m = p.slot) →
      slotAt (updateSlots p.cyl (mapSlot p.slot (Slot.fire q ended k)) (s.withBank b x)) d m = slotAt s d m := by
    intro d m h
    rw [mapSlot_slotAt_other _ _ _ _ _ (fire_num q ended k) _ h, slotAt_of_contexts hc]
  have hkeep : ∀ d m st, slotAt s d m = some st → (∀ t a n, st ≠ .energized t a n) →
      slotAt (updateSlots p.cyl (mapSlot p.slot (Slot.fire q ended k)) (s.withBank b x)) d m = some st := by
    intro d m st h hn
    rw [hoth, h]
    rintro ⟨rfl, rfl⟩
    rw [hps] at h; cases h
    exact hn _ _ _ rfl
  have hent : (updateSlots p.cyl (mapSlot p.slot (Slot.fire q ended k)) (s.withBank b x)).queue = s.queue := by
    rw [h1]; simp
  have hba : ∀ d, bankAt (updateSlots p.cyl (mapSlot p.slot (Slot.fire q ended k)) (s.withBank b x)) d
      = bankAt s d := fun d => by rw [updateSlots_bankAt, bankAt_of_contexts hc]
  refine ⟨?_, ?_, ?_, ?_, ?_, ?_⟩
  · exact numbered_updateSlots (by rw [hc]; exact l.numbered) _ _ (mapSlot_to _ _ (fire_num q ended k))
  · intro e he c n k1 k2
    rw [hent] at he
    exact hkeep _ _ _ (l.waitingEntry e he c n k1 k2) (fun _ _ _ h => by cases h)
  · intro e he c n k k1 k2
    rw [hent] at he
    exact hkeep _ _ _ (l.committedEntry e he c n k k1 k2) (fun _ _ _ h => by cases h)
  · intro d r hd
    have hd : (s.bank d).waiting = some r := by
      rw [h2, State.withBank_bank] at hd
      split at hd
      · rename_i e; subst e; rw [← hw]; exact hd
      · exact hd
    obtain ⟨h3, h4, h5⟩ := l.start d r hd
    rw [hba, hent]
    exact ⟨h3, hkeep _ _ _ h4 (fun _ _ _ h => by cases h), h5⟩
  · intro d r hd
    rw [h2, State.withBank_bank] at hd
    split at hd
    · rw [hx] at hd; cases hd
    · rename_i hne
      obtain ⟨h3, a', sl', h4⟩ := l.driven d r hd
      refine ⟨by rw [hba]; exact h3, a', sl', ?_⟩
      rw [hoth]
      · exact h4
      · rintro ⟨e1, -⟩
        rw [e1, hpb] at h3; cases h3; exact hne rfl
  · intro c n st a' sl' h
    have hne : ¬ (c = p.cyl ∧ n = p.slot) := by
      rintro ⟨rfl, rfl⟩
      rw [hself] at h
      injection h with h
      rw [h] at hr; cases hr
    rw [hoth c n hne] at h
    obtain ⟨d, r, h3, h4, h5⟩ := l.drives c n st a' sl' h
    refine ⟨d, r, ?_, h4, h5⟩
    rw [h2, State.withBank_bank]
    split
    · rename_i e; subst e
      rw [hp] at h3; cases h3
      exact absurd ⟨h4.symm, h5.symm⟩ hne
    · exact h3

/-- What the end of a pulse does first: the slot of the pulse fires, and the slot after it is chained (R80, R81). -/
theorem endReport_keeps {s : State} (l : s.Linked) (b : Bank) (p q : Pulse) (ended : Tick) (k : Classification)
    (hp : (s.bank b).drive.energized = some p) (hq : q.cyl = p.cyl ∧ q.slot = p.slot) :
    (endReport q ended k (startDecay b q s)).Linked ∧ Shut s (endReport q ended k (startDecay b q s)) := by
  obtain ⟨x, hx, hw, he⟩ := startDecay_shape b q s
  obtain ⟨hpb, a, sl, hps⟩ := l.driven b p hp
  have hlk := fired_linked l b p q x ended k hp hw he
  rw [← hx] at hlk
  have hc : (startDecay b q s).contexts = s.contexts := by rw [hx]; simp
  have hr : (startDecay b q s).run = s.run := by rw [hx]; simp
  have hsh : Shut s (updateSlots p.cyl (mapSlot p.slot (Slot.fire q ended k)) (startDecay b q s)) :=
    Shut.trans (t := startDecay b q s) (fun m => .inl ⟨hr ▸ m, fun c h => by rw [hc]; exact h⟩)
      (updateSlots_shut _ _ _)
  unfold endReport
  rw [hq.1, hc]
  unfold slotAt at hps
  cases hcx : s.contexts.get p.cyl with
  | none => rw [hcx] at hps; cases hps
  | some y =>
    rw [hcx] at hps
    have hd : y.drives q = true := by
      unfold CycleContext.drives
      rw [hq.2]
      cases hf : findSlot p.slot y.slots with
      | none => simp [hf] at hps
      | some z => simp only [hf, Option.map_some, Option.some.injEq] at hps; simp [hps]
    simp only [hd, if_true, hq.2]
    have hch := chainAfter_keeps p.cyl p.slot ended _ hlk
    exact ⟨hch.1, hsh.trans hch.2⟩

/-- The end of a pulse keeps the ties (R117 to R121). -/
theorem endPulse_keeps (b : Bank) (f : Pulse → Pulse) (close : Bool) (s : State)
    (hf : ∀ p, (f p).cyl = p.cyl ∧ (f p).slot = p.slot) : Keeps s (endPulse b f close s) := by
  unfold endPulse
  split
  · exact .refl s
  · rename_i p hp
    have hp : ((diagnose (f p).cyl (classify (f p)) s).bank b).drive.energized = some p := by rw [diagnose_drive, hp]
    rw [reportEnd, diagnose_startDecay]
    have h := (diagnose_keeps (f p).cyl (classify (f p)) s).trans
      fun l => endReport_keeps l b p (f p) s.timebase (classify (f p)) hp (hf p)
    unfold closeTestIf
    split
    · exact h.trans (closeTest_keeps _ _)
    · exact h

theorem cutPulse_keeps (b : Bank) (s : State) : Keeps s (cutPulse b s) :=
  endPulse_keeps b _ _ s fun _ => ⟨rfl, rfl⟩

theorem cutPulseOf_keeps (c : Cyl) (b : Bank) (s : State) : Keeps s (cutPulseOf c b s) := by
  unfold cutPulseOf
  split
  · split
    · exact cutPulse_keeps b s
    · exact .refl s
  · exact .refl s

/-! ## The phases of a pulse -/

theorem pulseKey_of_energized {x y : Drive} {p q : Pulse} (hx : x.energized = some p) (hy : y.energized = some q)
    (h : q.cyl = p.cyl ∧ q.slot = p.slot ∧ q.start = p.start) : y.pulseKey = x.pulseKey := by
  simp [Drive.pulseKey, hx, hy, h.1, h.2.1, h.2.2]

theorem enterHold_calm (b : Bank) (p q : Pulse) (s : State) (h : (s.bank b).drive.energized = some p)
    (hq : q.cyl = p.cyl ∧ q.slot = p.slot ∧ q.start = p.start) : Calm s (enterHold b q s) :=
  (Calm.ofBank b { s.bank b with drive := .hold q } (fun _ h => h)
    (pulseKey_of_energized (y := .hold q) h rfl hq)).trans (settleRecharge_calm _ _)

theorem peakArrives_calm (b : Bank) (s : State) : Calm s (peakArrives b s) := by
  unfold peakArrives
  split
  · rename_i p hp; exact enterHold_calm b p _ s (by rw [hp]; rfl) ⟨rfl, rfl, rfl⟩
  · exact .refl s

theorem boostLimitExpires_calm (b : Bank) (s : State) : Calm s (boostLimitExpires b s) := by
  unfold boostLimitExpires
  split
  · rename_i p hp; exact enterHold_calm b p _ s (by rw [hp]; rfl) ⟨rfl, rfl, rfl⟩
  · exact .refl s

theorem recordCur_calm (b : Bank) (x : Bool) (s : State) : Calm s (recordCur b x s) := by
  refine .ofBank b _ (fun _ h => h) ?_
  cases (s.bank b).drive <;> rfl

theorem overcurrentArrives_keeps (b : Bank) (s : State) : Keeps s (overcurrentArrives b s) := by
  unfold overcurrentArrives
  split
  · exact endPulse_keeps b _ _ s fun _ => ⟨rfl, rfl⟩
  · split
    · exact (endCoilCheck_calm _ _ s).keeps
    · exact .refl s

/-! ## Starts (R104, R122, R123) -/

/-- A start request in hand: its slot is COMMITTED with its committed time in a context of its bank, and neither an
entry nor a waiting start is that slot's. -/
structure Handed (s : State) (b : Bank) (r : StartReq) : Prop where
  bank : bankAt s r.cyl = some b
  slot : slotAt s r.cyl r.slot = some (.committed r.committed)
  free : Free s r.cyl r.slot

theorem energizeAt_num (t : Tick) (a : Option Nat) (n : Nat) (x : Slot) : (x.energizeAt t a n).num = x.num := by
  unfold Slot.energizeAt; split <;> rfl

theorem energizeAt_st {x : Slot} (t : Tick) (a : Option Nat) (n : Nat) {k : Tick} (h : x.st = .committed k) :
    (x.energizeAt t a n).st = .energized t a n := by
  unfold Slot.energizeAt; rw [h]

theorem updateSlots_withBank_shut (c : Cyl) (f : List Slot → List Slot) (b : Bank) (x : BankState) (s : State) :
    Shut s (updateSlots c f (s.withBank b x)) :=
  Shut.trans (t := s.withBank b x) (fun m => .inl ⟨by simpa using m, fun c h => by simpa using h⟩)
    (updateSlots_shut _ _ _)

/-- A start energizes its slot and its bank together (R78, R115). -/
theorem enterBoost_keeps (b : Bank) (r : StartReq) (s : State) (h : Handed s b r)
    (hd : (s.bank b).drive.energized = none) : Keeps s (enterBoost b r s) := by
  intro l
  unfold enterBoost
  generalize hx : ({ s.bank b with
        drive := .boost (pulseOf r (decide ((s.bank b).reserve < s.plan.engine.cost r.kind)) s)
        reserve := (s.bank b).reserve - s.plan.engine.cost r.kind } : BankState) = x
  generalize interpolated s.tracker s.timebase = a
  generalize slipOf r s.timebase = sl
  have hxw : x.waiting = (s.bank b).waiting := by rw [← hx]
  have hxd : x.drive = .boost (pulseOf r (decide ((s.bank b).reserve < s.plan.engine.cost r.kind)) s) := by
    rw [← hx]
  refine ⟨?_, updateSlots_withBank_shut _ _ _ _ _⟩
  have hc : (s.withBank b x).contexts = s.contexts := by simp
  have hs' : slotAt (s.withBank b x) r.cyl r.slot = some (.committed r.committed) := by
    rw [slotAt_of_contexts hc]; exact h.slot
  obtain ⟨h1, h2⟩ := updateSlots_same r.cyl (mapSlot r.slot (Slot.energizeAt s.timebase a sl)) (s.withBank b x)
  obtain ⟨y, hy, hself⟩ := mapSlot_slotAt_self r.cyl r.slot _ (energizeAt_num s.timebase a sl) _ hs'
  rw [energizeAt_st _ _ _ hy] at hself
  have hoth : ∀ d m, ¬ (d = r.cyl ∧ m = r.slot) →
      slotAt (updateSlots r.cyl (mapSlot r.slot (Slot.energizeAt s.timebase a sl)) (s.withBank b x)) d m
        = slotAt s d m := by
    intro d m hn
    rw [mapSlot_slotAt_other _ _ _ _ _ (energizeAt_num _ _ _) _ hn, slotAt_of_contexts hc]
  have hent : (updateSlots r.cyl (mapSlot r.slot (Slot.energizeAt s.timebase a sl)) (s.withBank b x)).queue
      = s.queue := by rw [h1]; simp
  have hba : ∀ d, bankAt (updateSlots r.cyl (mapSlot r.slot (Slot.energizeAt s.timebase a sl)) (s.withBank b x)) d
      = bankAt s d := fun d => by rw [updateSlots_bankAt, bankAt_of_contexts hc]
  have hne : ∀ e ∈ s.queue.entries, ∀ c n, e.key = .pulse c n → ¬ (c = r.cyl ∧ n = r.slot) := by
    rintro e he c n hk ⟨rfl, rfl⟩; exact h.free.entry e he hk
  refine ⟨?_, ?_, ?_, ?_, ?_, ?_⟩
  · exact numbered_updateSlots (by rw [hc]; exact l.numbered) _ _ (mapSlot_to _ _ (energizeAt_num _ _ _))
  · intro e he c n k1 k2
    rw [hent] at he
    rw [hoth _ _ (hne e he c n k1)]
    exact l.waitingEntry e he c n k1 k2
  · intro e he c n k k1 k2
    rw [hent] at he
    rw [hoth _ _ (hne e he c n k1)]
    exact l.committedEntry e he c n k k1 k2
  · intro d w hw
    have hw : (s.bank d).waiting = some w := by
      rw [h2, State.withBank_bank] at hw
      split at hw
      · rename_i e; subst e; rw [← hxw]; exact hw
      · exact hw
    obtain ⟨h3, h4, h5⟩ := l.start d w hw
    rw [hba, hent, hoth _ _ (h.free.start d w hw)]
    exact ⟨h3, h4, h5⟩
  · intro d p hp
    rw [h2, State.withBank_bank] at hp
    split at hp
    · rename_i e
      rw [hxd] at hp; cases hp
      exact ⟨by rw [hba, e]; exact h.bank, a, sl, hself⟩
    · obtain ⟨h3, a', sl', h4⟩ := l.driven d p hp
      refine ⟨by rw [hba]; exact h3, a', sl', ?_⟩
      rw [hoth]
      · exact h4
      · rintro ⟨e1, e2⟩; rw [e1, e2, h.slot] at h4; cases h4
  · intro c n st a' sl' hn
    by_cases hcn : c = r.cyl ∧ n = r.slot
    · exact ⟨b, _, by rw [h2, State.withBank_bank, if_pos rfl, hxd]; rfl, hcn.1.symm, hcn.2.symm⟩
    · rw [hoth c n hcn] at hn
      obtain ⟨d, p, h3, h4⟩ := l.drives c n st a' sl' hn
      refine ⟨d, p, ?_, h4⟩
      rw [h2, State.withBank_bank]
      split
      · rename_i e; subst e; rw [hd] at h3; cases h3
      · exact h3

theorem shedStart_keeps (r : StartReq) (k : ShedReason) (s : State) (h : Free s r.cyl r.slot) :
    Keeps s (shedStart r k s) := reportUnfired_keeps _ _ _ h

theorem giveUpStart_keeps (r : StartReq) (s : State) (h : Free s r.cyl r.slot) : Keeps s (giveUpStart r s) :=
  reportUnfired_keeps _ _ _ h

theorem serveStart_keeps (b : Bank) (r : StartReq) (s : State) (h : Handed s b r)
    (hd : (s.bank b).drive.energized = none) : Keeps s (serveStart b r s) := by
  unfold serveStart
  split
  · exact shedStart_keeps _ _ s h.free
  · exact enterBoost_keeps b r s h hd

theorem serveWaiting_keeps (b : Bank) (r : StartReq) (s : State) (h : Handed s b r)
    (hd : (s.bank b).drive.energized = none) : Keeps s (serveWaiting b r s) := by
  unfold serveWaiting
  split
  · exact giveUpStart_keeps _ s h.free
  · split
    · exact shedStart_keeps _ _ s h.free
    · split
      · exact shedStart_keeps _ _ s h.free
      · exact serveStart_keeps b r s h hd

/-- A start held in the waiting slot is tied, and frees the one it takes the place of (R122). -/
theorem holdStart_keeps (b : Bank) (r : StartReq) (s : State) (h : Handed s b r) : Keeps s (holdStart b r s) := by
  intro l
  unfold holdStart
  generalize hx : ({ s.bank b with waiting := some r } : BankState) = x
  have hxw : x.waiting = some r := by rw [← hx]
  have hxd : x.drive = (s.bank b).drive := by rw [← hx]
  have hc : (s.withBank b x).contexts = s.contexts := by simp
  have hs : ∀ c n, slotAt (s.withBank b x) c n = slotAt s c n := slotAt_of_contexts hc
  have hba : ∀ c, bankAt (s.withBank b x) c = bankAt s c := bankAt_of_contexts hc
  have hdr : ∀ d, ((s.withBank b x).bank d).drive = (s.bank d).drive := by
    intro d
    rw [State.withBank_bank]
    split
    · rename_i e; subst e; exact hxd
    · rfl
  refine ⟨⟨?_, ?_, ?_, ?_, ?_, ?_⟩, fun m => .inl ⟨by simpa using m, fun c h => by simpa using h⟩⟩
  · rw [hc]; exact l.numbered
  · intro e he c n k1 k2
    rw [hs]; exact l.waitingEntry e (by simpa using he) c n k1 k2
  · intro e he c n k k1 k2
    rw [hs]; exact l.committedEntry e (by simpa using he) c n k k1 k2
  · intro d w hw
    rw [hs, hba]
    rw [State.withBank_bank] at hw
    split at hw
    · rename_i e
      rw [hxw] at hw; cases hw
      exact ⟨e ▸ h.bank, h.slot, fun e he => h.free.entry e (by simpa using he)⟩
    · obtain ⟨h3, h4, h5⟩ := l.start d w hw
      exact ⟨h3, h4, fun e he => h5 e (by simpa using he)⟩
  · intro d p hp
    rw [hdr] at hp
    rw [hs, hba]; exact l.driven d p hp
  · intro c n st a sl hn
    rw [hs] at hn
    obtain ⟨d, p, h3, h4⟩ := l.drives c n st a sl hn
    exact ⟨d, p, by rw [hdr]; exact h3, h4⟩

/-- The start that leaves a waiting slot belongs to no other bank and to no entry. -/
theorem displaced_free {s : State} (l : s.Linked) (b : Bank) (w : StartReq) (hw : (s.bank b).waiting = some w)
    (x : BankState) (hx : ∀ r, x.waiting = some r → ¬ (r.cyl = w.cyl ∧ r.slot = w.slot)) :
    Free (s.withBank b x) w.cyl w.slot := by
  obtain ⟨h1, h2, h3⟩ := l.start b w hw
  refine ⟨fun e he => h3 e (by simpa using he), fun d r hr => ?_⟩
  rw [State.withBank_bank] at hr
  split at hr
  · exact hx r hr
  · rename_i hne
    rintro ⟨e1, -⟩
    have h4 := (l.start d r hr).1
    rw [e1, h1] at h4; cases h4; exact hne rfl

/-- The arrival of a start request keeps the ties (R122). -/
theorem startArrives_keeps (b : Bank) (r : StartReq) (s : State) (h : Handed s b r) :
    Keeps s (startArrives b r s) := by
  unfold startArrives
  split
  · exact giveUpStart_keeps _ s h.free
  · split
    · exact shedStart_keeps _ _ s h.free
    · split
      · rename_i hi
        refine serveStart_keeps b r s h ?_
        revert hi; cases (s.bank b).drive <;> simp [Drive.isIdle, Drive.energized]
      · split
        · exact holdStart_keeps b r s h
        · rename_i w hw
          split
          · refine .of fun l => (holdStart_keeps b r s h).trans (shedStart_keeps w _ _ ?_)
            refine displaced_free l b w hw _ ?_
            rintro q hq ⟨e1, e2⟩
            cases hq
            exact h.free.start b w hw ⟨e1.symm, e2.symm⟩
          · exact shedStart_keeps _ _ s h.free

/-- The end of DECAY keeps the ties (R120). -/
theorem endDecay_keeps (b : Bank) (s : State) (hd : (s.bank b).drive.energized = none) :
    Keeps s (endDecay b s) := by
  have hk : ∀ x : BankState, x.drive = .idle → x.drive.pulseKey = (s.bank b).drive.pulseKey := by
    intro x hx; unfold Drive.pulseKey; rw [hx, hd]; rfl
  unfold endDecay
  split
  · exact (Calm.ofBank b { s.bank b with drive := .idle } (fun _ h => h) (hk _ rfl)).keeps
  · rename_i r hr
    refine .of fun l => ?_
    obtain ⟨h1, h2, h3⟩ := l.start b r hr
    have hc : (s.withBank b { s.bank b with drive := .idle, waiting := none }).contexts = s.contexts := by simp
    refine (Calm.ofBank b { s.bank b with drive := .idle, waiting := none } (fun _ h => by cases h)
      (hk _ rfl)).keeps.trans (serveWaiting_keeps b r _ ⟨?_, ?_, ?_⟩ (by simp [Drive.energized]))
    · rw [bankAt_of_contexts hc]; exact h1
    · rw [slotAt_of_contexts hc]; exact h2
    · exact displaced_free l b r hr _ fun q hq => by cases hq

end Sys2Proof.Machine
end

