-- ==== Sys2Proof/Laws/FiringMoves.lean ====
section
/-! SUPPORT. The arm event, the firing of entries and the hand-off of an edge as moves. -/

namespace Sys2Proof.Machine

/-! ## Shaping -/

theorem suppressSlot_moves {k : Bool} (c : Cyl) (n : Nat) (r : SuppressReason) (s : State) :
    Moves k s (suppressSlot c n r s) := .closes (updateSlots_closes _ _ s)

theorem commitInserted_moves {k : Bool} (x : Key) (t : Nat) (s : State) : Moves k s (commitInserted x t s) := by
  unfold commitInserted
  split
  · split
    · exact commitKey_moves _ _ s
    · exact .refl s
  · exact .refl s

theorem commitInserted_diag (x : Key) (t : Nat) (s : State) : (commitInserted x t s).diag = s.diag := by
  unfold commitInserted
  split
  · split
    · exact commitKey_diag _ _ s
    · rfl
  · rfl

theorem insertPulse_moves (c : Cyl) (x : Slot) (n : Nat) (s : State)
    (h : s.tracker.sync.holdsAngle = true) (f : s.run.fuelcut = false) (d : s.diag.disabled.get c = false) :
    Moves true s (insertPulse c x n s) := by
  unfold insertPulse
  split
  · exact suppressSlot_moves _ _ _ s
  · rename_i hf
    have h1 := updateSlots_closes c (mapSlot x.num fun y => { y with st := .waiting }) s
    refine (Moves.closes h1).trans (Moves.trans ?_ (commitInserted_moves _ _ _))
    refine .one (.insert _ ⟨h1.tracker ▸ h, (fun ha => by cases ha), fun _ => ⟨h1.fuelcut ▸ f, ?_⟩,
      (fun _ _ hk => by cases hk; rw [h1.diag]; exact d)⟩)
    have h2 : pulsesFull (updateSlots c (mapSlot x.num fun y => { y with st := .waiting }) s) = pulsesFull s := by
      unfold pulsesFull pulseCount
      rw [h1.queue]
    rw [h2]
    simpa using hf

theorem insertPulse_diag (c : Cyl) (x : Slot) (n : Nat) (s : State) : (insertPulse c x n s).diag = s.diag := by
  unfold insertPulse
  split
  · exact (updateSlots_closes _ _ _).diag
  · rw [commitInserted_diag]
    exact (updateSlots_closes c (mapSlot x.num fun y => { y with st := .waiting }) s).diag

theorem shapeAngle_moves (c : Cyl) (ctx : CycleContext) (cur : Nat) (x : Slot) (n : Nat) (s : State)
    (h : s.tracker.sync.holdsAngle = true) (f : s.run.fuelcut = false) (d : s.diag.disabled.get c = false) :
    Moves true s (shapeAngle c ctx cur x n s) := by
  unfold shapeAngle
  split
  rename_i n' q p _
  have h1 := updateSlots_closes c (mapSlot x.num fun y => { y with deferred := q }) s
  refine (Moves.closes h1).trans ?_
  dsimp only
  split
  · exact suppressSlot_moves _ _ _ _
  · split
    · exact suppressSlot_moves _ _ _ _
    · split
      · exact suppressSlot_moves _ _ _ _
      · exact insertPulse_moves _ _ _ _ (h1.tracker ▸ h) (h1.fuelcut ▸ f) (h1.diag ▸ d)

theorem shapeAngle_diag (c : Cyl) (ctx : CycleContext) (cur : Nat) (x : Slot) (n : Nat) (s : State) :
    (shapeAngle c ctx cur x n s).diag = s.diag := by
  unfold shapeAngle
  split
  rename_i n' q p _
  have h1 := (updateSlots_closes c (mapSlot x.num fun y => { y with deferred := q }) s).diag
  have h2 : ∀ r t, (suppressSlot c x.num r t).diag = t.diag := fun r t => (updateSlots_closes _ _ t).diag
  dsimp only
  split
  · rw [h2, h1]
  · split
    · rw [h2, h1]
    · split
      · rw [h2, h1]
      · rw [insertPulse_diag, h1]

theorem shapeDwell_moves {k : Bool} (c : Cyl) (a : Option Slot) (x : Slot) (s : State) :
    Moves k s (shapeDwell c a x s) := by
  unfold shapeDwell
  split
  · exact suppressSlot_moves _ _ _ s
  · split
    · exact suppressSlot_moves _ _ _ s
    · exact .closes (updateSlots_closes _ _ s)

theorem shapeSlot_moves (c : Cyl) (cur n : Nat) (s : State)
    (h : s.tracker.sync.holdsAngle = true) (f : s.run.fuelcut = false) (d : s.diag.disabled.get c = false) :
    Moves true s (shapeSlot c cur n s) := by
  unfold shapeSlot
  split
  · exact .refl s
  · split
    · exact .refl s
    · split
      · exact suppressSlot_moves _ _ _ s
      · split
        · exact shapeAngle_moves _ _ _ _ _ s h f d
        · exact shapeDwell_moves _ _ _ s

theorem shapeSlot_diag (c : Cyl) (cur n : Nat) (s : State) : (shapeSlot c cur n s).diag = s.diag := by
  have h : ∀ f t, (updateSlots c f t).diag = t.diag := fun f t => (updateSlots_closes c f t).diag
  unfold shapeSlot
  split
  · rfl
  · split
    · rfl
    · split
      · exact h _ s
      · split
        · exact shapeAngle_diag _ _ _ _ _ s
        · unfold shapeDwell
          split
          · exact h _ s
          · split <;> exact h _ s

theorem shapeSlots_moves (c : Cyl) (cur : Nat) (ns : List Nat) : ∀ s : State,
    s.tracker.sync.holdsAngle = true → s.run.fuelcut = false → s.diag.disabled.get c = false →
    Moves true s (shapeSlots c cur ns s) := by
  induction ns with
  | nil => exact fun s _ _ _ => .refl s
  | cons n ns ih =>
    intro s h f d
    have h1 := shapeSlot_moves c cur n s h f d
    exact h1.trans (ih _ (h1.keeps.1 h) (h1.keeps.2.1 ▸ f) (by rw [shapeSlot_diag]; exact d))

/-! ## The arm event -/

theorem overrun_moves {k : Bool} (c : Cyl) (s : State) : Moves k s (overrun c s) := by
  unfold overrun
  split
  · exact .refl s
  · exact ((((dropPulses_moves _ s).trans (.closes (updateSlots_closes _ _ _))).trans
      (cutPulseOf_moves _ _ _)).trans (cutPulseOf_moves _ _ _)).trans (.closes (closeTest_closes _ _))

theorem cutCycle_closes (c : Cyl) (a : Nat) (r : CutReason) (s : State) : Closes s (cutCycle c a r s) :=
  writeRecord_closes _ s

theorem testCutCycle_moves {k : Bool} (c : Cyl) (a n : Nat) (s : State) :
    Moves k s (testCutCycle c a n s) := by
  refine Moves.trans (.one (.plan { s.plan with testCut := testCutAfter c n } fun h => ⟨h.1, h.2, h.3⟩)) ?_
  refine (Moves.closes (cutCycle_closes c a .testCut _)).trans ?_
  show Moves k _ (if _ then _ else _)
  split
  · exact .closes (queueNotice_closes _ _)
  · exact .refl _

theorem standingCut_none {c : Cyl} {rpm : Nat} {s : State} (h : standingCut c rpm s = none) :
    s.run.fuelcut = false ∧ s.run.band ≠ .critical ∧ s.diag.disabled.get c = false ∧ s.plan.stale = false := by
  unfold standingCut at h
  split at h
  · cases h
  · rename_i h1
    split at h
    · cases h
    · rename_i h2
      split at h
      · cases h
      · split at h
        · cases h
        · split at h
          · cases h
          · rename_i h3
            split at h
            · cases h
            · rename_i h4
              exact ⟨by simpa using h1, h2, by simpa using h3, by simpa using h4⟩

theorem buildCycle_moves (c : Cyl) (pl : Placement) (a cur : Nat) (s : State)
    (h : s.tracker.sync.holdsAngle = true) (f : s.run.fuelcut = false) (d : s.diag.disabled.get c = false) :
    Moves true s (buildCycle c pl a cur s) := by
  unfold buildCycle
  refine Moves.trans (t := openContext c (newContext c pl a s) s) (.closes (withContexts_closes _ s)) ?_
  exact (shapeSlots_moves c cur _ (openContext c (newContext c pl a s) s) h f d).trans
    (.closes (closeTest_closes _ _))

theorem decideCycle_moves (c : Cyl) (pl : Placement) (a cur rpm : Nat) (s : State)
    (h : s.tracker.sync.holdsAngle = true) : Moves true s (decideCycle c pl a cur rpm s) := by
  unfold decideCycle
  split
  · exact .closes (cutCycle_closes _ _ _ s)
  · rename_i hs
    obtain ⟨f, -, d, -⟩ := standingCut_none hs
    split
    · exact testCutCycle_moves _ _ _ s
    · refine Moves.trans (.one (.plan { s.plan with derateAcc := derateAfter s.plan }
        fun hb => ⟨hb.1, derateAfter_lt hb, hb.3⟩)) ?_
      show Moves true _ (if _ then _ else _)
      split
      · exact .closes (cutCycle_closes _ _ _ _)
      · exact buildCycle_moves _ _ _ _ _ h f d

/-- The arm event starts nothing itself and inserts only where it may (R66). -/
theorem armEvent_moves (c : Cyl) (a : Nat) (s : State) (h : s.tracker.sync.holdsAngle = true) :
    Moves true s (armEvent c a s) := by
  unfold armEvent
  split
  · exact .refl s
  · have h1 : Moves true s (overrun c (countExpiry (landIfPending (some c) s))) :=
      ((landIfPending_moves (some c) s).trans (countExpiry_moves _)).trans (overrun_moves c _)
    exact h1.trans (decideCycle_moves _ _ _ _ _ _ (h1.keeps.1 h))

/-! ## Firing -/

theorem markOutputs_moves {k : Bool} (i : MarkIx) (s : State) : Moves k s (markOutputs i s) := by
  unfold markOutputs
  split
  · exact .refl s
  · rename_i m _
    have h1 : Moves k s (if m.notice then
        queueNotice (.mark i.val (interpolated s.tracker s.timebase) (speed s.tracker)) s else s) := by
      split
      · exact .closes (queueNotice_closes _ s)
      · exact .refl s
    refine h1.trans ?_
    generalize (if m.notice then
        queueNotice (.mark i.val (interpolated s.tracker s.timebase) (speed s.tracker)) s else s) = t
    show Moves k t (if _ then _ else _)
    split
    · exact setQueue_moves _ _ rfl
    · exact .refl _

theorem firstDue_mem {s : State} {e : Entry} (h : firstDue s = some e) : e ∈ queueOrder s := by
  unfold firstDue at h
  split at h
  · rename_i d rest hd
    split at h
    · cases h; rw [hd]; exact List.mem_cons_self ..
    · cases h
  · cases h

theorem isArm_arm {e : Entry} {c : Cyl} (h : e.key = .arm c) : e.isArm = true := by
  simp [Entry.isArm, h]

/-- The firing of an entry the queue holds (R102 to R104). -/
theorem fireEntry_moves (e : Entry) (s : State) (g : s.Gated) (he : e ∈ s.queue.entries) :
    Moves true s (fireEntry e s) := by
  have h := g.entryAngle e he
  unfold fireEntry
  split
  · rename_i c hk
    have m := g.armRun e he (isArm_arm hk)
    refine (removeKey_moves e.key s).trans ?_
    refine Moves.trans (insertArm_moves c (removeKey e.key s) h m) (armEvent_moves _ _ _ ?_)
    rw [(insertArm_same c _).1]
    exact h
  · rename_i i hk
    refine (removeKey_moves e.key s).trans (Moves.trans ?_ (markOutputs_moves _ _))
    refine .one (.insert _ ⟨h, (fun ha => ?_), (fun hp => ?_), (fun _ _ hc => ?_)⟩)
    · rw [isArm_of_key (d := { e with commit := none }) (e := e) rfl] at ha
      simp [Entry.isArm, hk] at ha
    · rw [isPulse_of_key (d := { e with commit := none }) (e := e) rfl] at hp
      simp [Entry.isPulse, hk] at hp
    · exact absurd (hk.symm.trans hc) (by simp)
  · rename_i c n hk
    refine (removeKey_moves e.key s).trans ?_
    unfold firePulse
    split
    · exact startArrives_moves _ _ _ h (g.latchEntry e he c n hk)
    · exact .refl _

theorem firstDuePulse_mem {c : Cyl} {s : State} {e : Entry} (h : firstDuePulse c s = some e) :
    e ∈ s.queue.entries :=
  (queueOrder_mem s e).mp (List.mem_of_find?_eq_some h)

theorem fireInserted_moves (c : Cyl) (n : Nat) : ∀ s : State, s.Gated → Moves true s (fireInserted c n s) := by
  induction n with
  | zero => exact fun s _ => .refl s
  | succ n ih =>
    intro s g
    unfold fireInserted
    split
    · rename_i e he
      have h1 := fireEntry_moves e s g (firstDuePulse_mem he)
      exact h1.trans (ih _ (h1.gated g))
    · exact .refl s

theorem fireFirst_moves (s : State) (g : s.Gated) : Moves true s (fireFirst s) := by
  unfold fireFirst
  split
  · exact .refl s
  · rename_i e he
    have h1 := fireEntry_moves e s g ((queueOrder_mem s e).mp (firstDue_mem he))
    split
    · exact h1.trans (fireInserted_moves _ _ _ (h1.gated g))
    · exact h1

theorem fireDue_moves (n : Nat) : ∀ s : State, s.Gated → Moves true s (fireDue n s) := by
  induction n with
  | zero => exact fun s _ => .refl s
  | succ n ih =>
    intro s g
    unfold fireDue
    split
    · exact .refl s
    · have h1 := fireFirst_moves s g
      exact h1.trans (ih _ (h1.gated g))

/-- An edge handed on (R98). -/
theorem handEdge_moves (e : EdgeRef) (s : State) (g : s.Gated) (h : s.tracker.sync.holdsAngle = true) :
    Moves true s (handEdge e s) := by
  have h1 : Moves true s (setCommitRef e (takeWindow e (catchUp e (insertPendingMarks s)))) :=
    (((insertPendingMarks_moves s h).trans (catchUp_moves e _)).trans (takeWindow_moves e _)).trans
      (setCommitRef_moves e _)
  exact h1.trans (fireDue_moves _ _ (h1.gated g))

theorem handOn_moves (s : State) (g : s.Gated) (h : s.tracker.sync.holdsAngle = true) :
    Moves true s (handOn s) := by
  unfold handOn
  split
  · exact handEdge_moves _ s g h
  · exact .refl s

end Sys2Proof.Machine
end

