-- ==== Sys2Proof/Laws/FiringTies.lean ====
section
/-! SUPPORT. The arm event, the firing of entries and the hand-off of an edge keep what ties the cycles, the queue
and the banks; and what becomes of the slots of a cylinder that an overrun or a forced end reaches. -/

namespace Sys2Proof.Machine

/-! ## Slots that only go on to their outcome -/

/-- The open context of a cylinder, if it stays open, keeps its slots, each as it was or resolved. -/
def Onward (c : Cyl) (s t : State) : Prop :=
  ∀ n st, slotAt t c n = some st → slotAt s c n = some st ∨
    st.isResolved = true ∧ ∃ st', slotAt s c n = some st' 

namespace Onward

theorem refl (c : Cyl) (s : State) : Onward c s s := fun _ _ h => .inl h

theorem trans {c : Cyl} {s t u : State} (h : Onward c s t) (k : Onward c t u) : Onward c s u := by
  intro n st hn
  rcases k n st hn with h1 | ⟨h1, st', h2⟩
  · exact h n st h1
  · rcases h n st' h2 with h3 | ⟨_, h3⟩
    · exact .inr ⟨h1, st', h3⟩
    · exact .inr ⟨h1, h3⟩

end Onward

theorem Calm.onward {s t : State} (h : Calm s t) (c : Cyl) : Onward c s t := by
  intro n st hn
  rw [slotAt_of_contexts h.contexts] at hn
  exact .inl hn

theorem updateSlots_onward {R : Slot → Slot → Prop} (c d : Cyl) (f : List Slot → List Slot)
    (hf : ∀ xs, SlotsTo R xs (f xs)) (hR : ∀ x y, R x y → y.st = x.st ∨ y.st.isResolved = true) (s : State) :
    Onward c s (updateSlots d f s) := by
  intro n st hn
  by_cases hd : c = d
  · subst hd
    rcases updateSlots_slotAt c f hf s n with ⟨_, h2⟩ | ⟨x, y, h1, h2, h3, _⟩
    · rw [hn] at h2; cases h2
    · rw [hn] at h2; injection h2 with h2
      rcases hR x y h3 with h4 | h4
      · left; rw [h1, ← h4, h2]
      · right; exact ⟨h2 ▸ h4, _, h1⟩
  · rw [updateSlots_slotAt_other hd] at hn; exact .inl hn

theorem resolveUnfired_onward (c d : Cyl) (n : Nat) (o : SlotOutcome) (s : State) :
    Onward c s (updateSlots d (resolveUnfired n o) s) :=
  updateSlots_onward c d _ (resolveUnfired_to n o)
    (fun x y h => by rcases h with rfl | ⟨_, h⟩ | ⟨_, _, h⟩; exacts [.inl rfl, .inr h, .inr h]) s

theorem removeContext_onward (c d : Cyl) (s : State) : Onward c s (removeContext d s) := by
  intro n st hn
  left
  by_cases h : c = d
  · subst h
    unfold slotAt removeContext at hn
    rw [State.withContexts_contexts, PerCyl.get_set, if_pos rfl] at hn
    cases hn
  · rw [← hn]
    unfold slotAt removeContext
    rw [State.withContexts_contexts, PerCyl.get_set_other _ _ h]

theorem closeTest_onward (c d : Cyl) (s : State) : Onward c s (closeTest d s) := by
  unfold closeTest
  split
  · exact .refl c s
  · split
    · exact (((writeRecord_calm _ s).onward c).trans (removeContext_onward c d _)).trans
        ((tellIfNoneOpen_calm _).onward c)
    · exact .refl c s

theorem reportUnfired_onward (c d : Cyl) (n : Nat) (o : SlotOutcome) (s : State) :
    Onward c s (reportUnfired d n o s) :=
  (resolveUnfired_onward c d n o s).trans (closeTest_onward c d _)

theorem reportWithdrawn_onward (c : Cyl) (r : WithdrawReason) (xs : List (Cyl × Nat)) :
    ∀ s, Onward c s (reportWithdrawn r xs s) := by
  induction xs with
  | nil => exact .refl c
  | cons x xs ih => exact fun s => (reportUnfired_onward c x.1 x.2 _ s).trans (ih _)

theorem withdrawPulses_onward (c : Cyl) (scope : Cyl → Bool) (r : WithdrawReason) (s : State) :
    Onward c s (withdrawPulses scope r s) :=
  ((dropPulses_calm scope s).onward c).trans (reportWithdrawn_onward c r _ _)

theorem diagnose_onward (c d : Cyl) (k : Classification) (s : State) : Onward c s (diagnose d k s) := by
  have h1 : Calm s (scoreAndRearm d k s) := withDiag_calm _ s
  have h2 : ∀ t, Onward c t (warnTest d k t) := by
    intro t
    unfold warnTest
    split
    · exact ((withDiag_calm _ t).trans (queueNotice_calm _ _)).onward c
    · exact .refl c t
  have h3 : ∀ t, Onward c t (disableTest d k t) := by
    intro t
    unfold disableTest
    split
    · exact (((withDiag_calm _ t).onward c).trans (withdrawPulses_onward c _ _ _)).trans
        ((queueNotice_calm _ _).onward c)
    · exact .refl c t
  exact ((h1.onward c).trans (h2 _)).trans (h3 _)

/-- No slot of a cylinder's open context is unstarted. -/
def Spent (c : Cyl) (s : State) : Prop := ∀ n st, slotAt s c n = some st → st.isUnstarted = false

theorem notUnstarted_of_resolved {x : SlotState} (h : x.isResolved = true) : x.isUnstarted = false := by
  cases x <;> first | rfl | cases h

theorem Onward.spent {c : Cyl} {s t : State} (h : Onward c s t) (k : Spent c s) : Spent c t := by
  intro n st hn
  rcases h n st hn with h1 | ⟨h1, _⟩
  · exact k n st h1
  · exact notUnstarted_of_resolved h1

theorem withdrawAll_spent (c d : Cyl) (r : WithdrawReason) (s : State) (h : d ≠ c → Spent c s) :
    Spent c (updateSlots d (withdrawAllSlots r) s) := by
  intro n st hn
  by_cases hd : c = d
  · subst hd
    rcases updateSlots_slotAt c _ (withdrawAllSlots_to r) s n with ⟨_, h2⟩ | ⟨x, y, h1, h2, h3, _⟩
    · rw [hn] at h2; cases h2
    · rw [hn] at h2; injection h2 with h2
      rcases h3 with ⟨rfl, h4⟩ | ⟨_, h4⟩
      · rw [h2]; exact h4
      · rw [h2]; exact notUnstarted_of_resolved h4
  · rw [updateSlots_slotAt_other hd] at hn
    exact h (fun e => hd e.symm) n st hn

/-- The chain step finds nothing to chain in a context with no unstarted slot. -/
theorem chainAfter_spent {c : Cyl} {s : State} (l : s.Linked) (h : Spent c s) (n : Nat) (ended : Tick) :
    chainAfter c n ended s = s := by
  unfold chainAfter
  split
  · rfl
  · rename_i x hx
    split
    · rfl
    · rename_i y hy
      split
      · rename_i hst _
        have := h y.num _ (slotAt_of_mem l hx (slotAfter_mem hy))
        rw [hst] at this; cases this
      · rfl

/-- A change that leaves what each bank drives. -/
def SameDrives (s t : State) : Prop := ∀ b, (t.bank b).drive = (s.bank b).drive

theorem Closes.drives {s t : State} (h : Closes s t) : SameDrives s t := fun b => by rw [h.bank]

theorem withdrawPulses_drives (scope : Cyl → Bool) (r : WithdrawReason) (s : State) :
    SameDrives s (withdrawPulses scope r s) := fun b => by
  rw [withdrawPulses_bank, (emptyWaiting_spec scope _).1]

theorem diagnose_drives (c : Cyl) (k : Classification) (s : State) : SameDrives s (diagnose c k s) :=
  fun b => diagnose_drive c k s b

/-- The end of a pulse whose context has no unstarted slot chains nothing: slots only go on, and the bank drives
nothing more. -/
theorem endPulse_spent {s : State} (l : s.Linked) (b : Bank) (f : Pulse → Pulse) (close : Bool)
    (hf : ∀ p, (f p).cyl = p.cyl ∧ (f p).slot = p.slot)
    (hs : ∀ p, (s.bank b).drive.energized = some p → Spent p.cyl s) :
    (∀ c, Onward c s (endPulse b f close s)) ∧
      ∀ d, ((endPulse b f close s).bank d).drive.energized
        = if d = b then none else (s.bank d).drive.energized := by
  unfold endPulse
  split
  · rename_i hn
    refine ⟨fun c => .refl c s, fun d => ?_⟩
    split
    · rename_i e; subst e; exact hn
    · rfl
  · rename_i p hp
    rw [reportEnd, diagnose_startDecay]
    have hon := fun c => diagnose_onward c (f p).cyl (classify (f p)) s
    have hlk := (diagnose_keeps (f p).cyl (classify (f p)) s l).1
    have hdr := diagnose_drives (f p).cyl (classify (f p)) s
    generalize diagnose (f p).cyl (classify (f p)) s = u at hon hlk hdr
    have hp : (u.bank b).drive.energized = some p := by rw [hdr, hp]
    obtain ⟨x, hx, hw, he⟩ := startDecay_shape b (f p) u
    have h1 : ∀ c, Onward c s (startDecay b (f p) u) := by
      intro c
      have hc : (startDecay b (f p) u).contexts = u.contexts := by rw [hx]; simp
      exact (hon c).trans fun n st hn => .inl (by rw [← hn, slotAt_of_contexts hc])
    have h2 : ∀ d, ((startDecay b (f p) u).bank d).drive.energized
        = if d = b then none else (s.bank d).drive.energized := by
      intro d
      rw [hx, State.withBank_bank]
      split
      · exact he
      · rw [hdr]
    have hu : (∀ c, Onward c s (endReport (f p) s.timebase (classify (f p)) (startDecay b (f p) u))) ∧
        ∀ d, ((endReport (f p) s.timebase (classify (f p)) (startDecay b (f p) u)).bank d).drive.energized
          = if d = b then none else (s.bank d).drive.energized := by
      unfold endReport
      split
      · exact ⟨h1, h2⟩
      · split
        · rw [(hf p).1, (hf p).2]
          have h3 : ∀ c, Onward c (startDecay b (f p) u) (updateSlots p.cyl
              (mapSlot p.slot (Slot.fire (f p) s.timebase (classify (f p)))) (startDecay b (f p) u)) := by
            intro c
            refine updateSlots_onward c p.cyl _ (mapSlot_to _ _ (fire_num _ _ _)) ?_ _
            rintro y z (rfl | ⟨_, rfl⟩)
            · exact .inl rfl
            · cases hst : y.st <;> simp [Slot.fire, hst, Slot.resolve, SlotState.isResolved]
          have hlk := fired_linked hlk b p (f p) x s.timebase (classify (f p)) hp hw he
          rw [← hx] at hlk
          rw [chainAfter_spent hlk (((h1 _).trans (h3 _)).spent (hs p (by rw [← hdr, hp])))]
          exact ⟨fun c => (h1 c).trans (h3 c), fun d => by rw [(updateSlots_same _ _ _).2]; exact h2 d⟩
        · exact ⟨h1, h2⟩
    unfold closeTestIf
    cases close
    · exact hu
    · exact ⟨fun c => (hu.1 c).trans (closeTest_onward c _ _), fun d => by
        simp only [if_true]; rw [(closeTest_closes _ _).bank]; exact hu.2 d⟩

theorem cutPulseOf_spent {s : State} (l : s.Linked) (c : Cyl) (b : Bank) (hs : Spent c s) :
    Spent c (cutPulseOf c b s) ∧
      (∀ p, ((cutPulseOf c b s).bank b).drive.energized = some p → p.cyl ≠ c) ∧
      ∀ d, d ≠ b → ((cutPulseOf c b s).bank d).drive.energized = (s.bank d).drive.energized := by
  unfold cutPulseOf
  split
  · rename_i p hp
    split
    · rename_i hpc
      have h := endPulse_spent l b Pulse.markCut true (fun _ => ⟨rfl, rfl⟩)
        (fun q hq => by rw [hp] at hq; cases hq; rw [hpc]; exact hs)
      refine ⟨(h.1 c).spent hs, fun q hq => ?_, fun d hd => ?_⟩
      · have h2 := h.2 b
        rw [if_pos rfl] at h2
        rw [cutPulse, h2] at hq; cases hq
      · have h2 := h.2 d
        rw [if_neg hd] at h2; exact h2
    · rename_i hpc
      exact ⟨hs, fun q hq => by rw [hp] at hq; cases hq; exact hpc, fun _ _ => rfl⟩
  · rename_i hn
    exact ⟨hs, (fun q hq => by rw [hn] at hq; cases hq), fun _ _ => rfl⟩

/-- A context with no unstarted slot and no energized pulse closes at its close test (R85). -/
theorem closeTest_spent {s : State} (l : s.Linked) (c : Cyl) (hs : Spent c s)
    (hd : ∀ b p, (s.bank b).drive.energized = some p → p.cyl ≠ c) : (closeTest c s).contexts.get c = none := by
  unfold closeTest
  split
  · assumption
  · rename_i x hx
    have hfin : x.finished = true := by
      refine List.all_eq_true.mpr fun y hy => ?_
      have h1 := slotAt_of_mem l hx hy
      have h2 := hs _ _ h1
      cases hst : y.st with
      | energized t a n =>
        rw [hst] at h1
        obtain ⟨b, p, h3, h4, _⟩ := l.drives _ _ _ _ _ h1
        exact absurd h4 (hd b p h3)
      | resolved o => rfl
      | _ => rw [hst] at h2; cases h2
    rw [if_pos hfin, (tellIfNoneOpen_calm _).contexts]
    unfold removeContext
    rw [State.withContexts_contexts, PerCyl.get_set, if_pos rfl]

/-! ## The overrun (R67) -/

/-- Every unstarted slot of a context withdrawn at once keeps the ties, when no entry or start is theirs. -/
theorem withdrawAllSlots_keeps (c : Cyl) (r : WithdrawReason) (s : State) (h : ∀ n, Free s c n) :
    Keeps s (updateSlots c (withdrawAllSlots r) s) := fun l =>
  ⟨updateSlots_linked l c _ (withdrawAllSlots_to r) fun x y hxy _ => by
      rcases hxy with ⟨rfl, _⟩ | ⟨h1, h2⟩
      · exact .inl rfl
      · exact .inr (.inr ⟨h _, h1, h2⟩),
    updateSlots_shut _ _ _⟩

/-- An overrun keeps the ties and leaves its cylinder with no open context (R67). -/
theorem overrun_keeps (c : Cyl) (s : State) : Keeps s (overrun c s) ∧
    (s.Linked → (overrun c s).contexts.get c = none) := by
  unfold overrun
  split
  · rename_i h; exact ⟨.refl s, fun _ => h⟩
  · have k1 : Keeps s (updateSlots c (withdrawAllSlots .overrun) (dropPulses (fun d => d == c) s)) :=
      (dropPulses_calm _ s).keeps.trans
        (withdrawAllSlots_keeps c _ _ fun n => dropPulses_free _ s c n (by simp))
    have h1 : Spent c (updateSlots c (withdrawAllSlots .overrun) (dropPulses (fun d => d == c) s)) :=
      withdrawAll_spent c c _ _ fun h => absurd rfl h
    generalize updateSlots c (withdrawAllSlots .overrun) (dropPulses (fun d => d == c) s) = u at k1 h1
    have k2 := k1.trans (cutPulseOf_keeps c .bankA u)
    have k3 := k2.trans (cutPulseOf_keeps c .bankB _)
    refine ⟨k3.trans (closeTest_keeps _ _), fun l => ?_⟩
    have s1 := cutPulseOf_spent (k1 l).1 c .bankA h1
    have s2 := cutPulseOf_spent (k2 l).1 c .bankB s1.1
    refine closeTest_spent (k3 l).1 c s2.1 fun b p hp => ?_
    cases b with
    | bankA => rw [s2.2.2 .bankA (by decide)] at hp; exact s1.2.1 p hp
    | bankB => exact s2.2.1 p hp

/-! ## Shaping (R71 to R76) -/

/-- A latched slot of a cylinder is still to be shaped. -/
def Latched (c : Cyl) (n : Nat) (s : State) : Prop := slotAt s c n = some .latched

theorem idle_free {s : State} (l : s.Linked) {c : Cyl} {n : Nat} {st : SlotState} (h : slotAt s c n = some st)
    (hi : st.isIdle = true) : Free s c n := by
  refine ⟨fun e he hk => ?_, noStart_of_slotAt l h fun t hc => by rw [hc] at hi; cases hi⟩
  cases hc : e.commit with
  | none => rw [l.waitingEntry e he c n hk hc] at h; cases h; cases hi
  | some k => rw [l.committedEntry e he c n k hk hc] at h; cases h; cases hi

/-- A change of slots that leaves latched slots of a number alone. -/
theorem updateSlots_latched {R : Slot → Slot → Prop} (c d : Cyl) (f : List Slot → List Slot)
    (hf : ∀ xs, SlotsTo R xs (f xs)) (m : Nat)
    (hR : ∀ x y, R x y → x.num = m → x.st = .latched → y.st = .latched) (s : State) (h : Latched c m s) :
    Latched c m (updateSlots d f s) := by
  unfold Latched at *
  by_cases hd : c = d
  · subst hd
    rcases updateSlots_slotAt c f hf s m with ⟨h1, _⟩ | ⟨x, y, h1, h2, h3, h4⟩
    · rw [h] at h1; cases h1
    · rw [h] at h1; injection h1 with h1
      rw [h2, hR x y h3 h4 h1.symm]
  · rw [updateSlots_slotAt_other hd]; exact h

theorem mapSlot_latched (c d : Cyl) (n m : Nat) (f : Slot → Slot) (hf : ∀ x, (f x).num = x.num)
    (hm : m = n → ∀ x, x.st = .latched → (f x).st = .latched) (s : State) (h : Latched c m s) :
    Latched c m (updateSlots d (mapSlot n f) s) :=
  updateSlots_latched c d _ (mapSlot_to n f hf) m (fun x y hxy hn hl => by
    rcases hxy with rfl | ⟨h1, rfl⟩
    · exact hl
    · exact hm (hn.symm.trans h1) x hl) s h

theorem resolveUnfired_latched (c d : Cyl) (n m : Nat) (o : SlotOutcome) (hm : m ≠ n) (s : State)
    (h : Latched c m s) : Latched c m (updateSlots d (resolveUnfired n o) s) :=
  updateSlots_latched c d _ (resolveUnfired_to n o) m (fun x y hxy hn hl => by
    rcases hxy with rfl | ⟨h1, _⟩ | ⟨h1, _, _⟩
    · exact hl
    · rw [hl] at h1; cases h1
    · exact absurd (hn.symm.trans h1) hm) s h

theorem Calm.latched {s t : State} (h : Calm s t) {c : Cyl} {m : Nat} (k : Latched c m s) : Latched c m t := by
  unfold Latched at *
  rw [slotAt_of_contexts h.contexts]; exact k

/-- A context with a latched slot does not close. -/
theorem closeTest_latched (c : Cyl) (m : Nat) (s : State) (h : Latched c m s) : closeTest c s = s := by
  unfold closeTest
  split
  · rfl
  · rename_i x hx
    split
    · rename_i hf
      have := finished_slotAt hx hf m _ h
      cases this
    · rfl

theorem commitKey_latched (e : EdgeRef) (c : Cyl) (n m : Nat) (hm : m ≠ n) (s : State) (h : Latched c m s) :
    Latched c m (commitKey e (.pulse c n) s) := by
  unfold commitKey
  split
  · exact h
  · split
    · rename_i y _ _ _ target _ _
      cases y.pulse with
      | none => exact h
      | some q =>
        show Latched c m (commitPulse e c n target q.2 s)
        unfold commitPulse
        split
        · exact (removeKey_calm _ s).latched h
        · split
          · have h1 := resolveUnfired_latched c c n m (.suppressed .limit) hm _
              ((removeKey_calm (.pulse c n) s).latched h)
            rw [reportUnfired, closeTest_latched c m _ h1]
            exact h1
          · exact mapSlot_latched c c n m _ (commitTo_num _ _) (fun e => absurd e hm) _ h
    · exact h

theorem suppressSlot_keeps (c : Cyl) (n : Nat) (r : SuppressReason) (s : State) (h : Latched c n s) :
    Keeps s (suppressSlot c n r s) :=
  resolveUnfired_keeps c n _ (.inr fun st hs => by rw [h] at hs; cases hs; rfl)

/-- A latched slot given a state that ties nothing to it keeps the ties. -/
theorem mapLatched_keeps (c : Cyl) (n : Nat) (f : Slot → Slot) (hf : ∀ x, (f x).num = x.num)
    (hst : ∀ x, x.st = .latched → (f x).st.isEnergized = false) (s : State) (h : Latched c n s) :
    Keeps s (updateSlots c (mapSlot n f) s) := fun l =>
  ⟨updateSlots_linked l c _ (mapSlot_to n f hf) fun x y hxy hx => by
      rcases hxy with rfl | ⟨h1, rfl⟩
      · exact .inl rfl
      · rw [h1, h] at hx
        injection hx with hx
        exact .inr (.inl ⟨by rw [← hx]; rfl, hst x hx.symm⟩),
    updateSlots_shut _ _ _⟩

theorem commitInserted_keeps (k : Key) (n : Nat) (s : State) : Keeps s (commitInserted k n s) := by
  unfold commitInserted
  split
  · split
    · exact commitKey_keeps _ _ s
    · exact .refl s
  · exact .refl s

/-- The insertion of a shaped slot (R75, R100). -/
theorem insertPulse_keeps (c : Cyl) (x : Slot) (n : Nat) (s : State) (h : Latched c x.num s) :
    Keeps s (insertPulse c x n s) ∧ ∀ m, m ≠ x.num → Latched c m s → Latched c m (insertPulse c x n s) := by
  unfold insertPulse
  split
  · exact ⟨suppressSlot_keeps _ _ _ s h, fun m hm hl => resolveUnfired_latched _ _ _ _ _ hm _ hl⟩
  · have k1 : Keeps s (updateSlots c (mapSlot x.num fun y => { y with st := .waiting }) s) :=
      mapLatched_keeps c x.num _ (by intro; rfl) (by intro _ _; rfl) s h
    have hs : slotAt (updateSlots c (mapSlot x.num fun y => { y with st := .waiting }) s) c x.num = some .waiting := by
      obtain ⟨y, _, hy⟩ := mapSlot_slotAt_self c x.num (fun y => { y with st := .waiting }) (by intro; rfl) s h
      exact hy
    have hl : ∀ m, m ≠ x.num → Latched c m s →
        Latched c m (updateSlots c (mapSlot x.num fun y => { y with st := .waiting }) s) := fun m hm hl =>
      mapSlot_latched _ _ _ _ _ (by intro; rfl) (fun e => absurd e hm) _ hl
    generalize updateSlots c (mapSlot x.num fun y => { y with st := .waiting }) s = u at k1 hs hl
    constructor
    · refine (k1.trans fun l => ⟨insertEntry_linked l _ c x.num rfl (fun _ => hs) (fun _ hk => by cases hk) ?_,
        insertEntry_shut _ _⟩).trans (commitInserted_keeps _ _ _)
      exact noStart_of_slotAt l hs fun _ h => by cases h
    · intro m hm hml
      have h2 := hl m hm hml
      unfold commitInserted
      split
      · split
        · exact commitKey_latched _ _ _ _ hm _ h2
        · exact h2
      · exact h2

theorem shapeAngle_keeps (c : Cyl) (ctx : CycleContext) (cur : Nat) (x : Slot) (n : Nat) (s : State)
    (h : Latched c x.num s) :
    Keeps s (shapeAngle c ctx cur x n s) ∧ ∀ m, m ≠ x.num → Latched c m s → Latched c m (shapeAngle c ctx cur x n s) := by
  unfold shapeAngle
  split
  rename_i n' d p _
  have k1 : Keeps s (updateSlots c (mapSlot x.num fun y => { y with deferred := d }) s) :=
    mapLatched_keeps c x.num _ (by intro; rfl) (by intro _ h; simp [h, SlotState.isEnergized]) s h
  have h1 : ∀ m, Latched c m s → Latched c m (updateSlots c (mapSlot x.num fun y => { y with deferred := d }) s) :=
    fun m => mapSlot_latched c c x.num m (fun y => { y with deferred := d }) (by intro; rfl) (fun _ _ h => h) s
  generalize updateSlots c (mapSlot x.num fun y => { y with deferred := d }) s = u at k1 h1
  have hs : ∀ r, Keeps s (suppressSlot c x.num r u) ∧
      ∀ m, m ≠ x.num → Latched c m s → Latched c m (suppressSlot c x.num r u) := fun r =>
    ⟨k1.trans (suppressSlot_keeps _ _ _ u (h1 _ h)),
      fun m hm hl => resolveUnfired_latched _ _ _ _ _ hm _ (h1 m hl)⟩
  dsimp only
  split
  · exact hs _
  · split
    · exact hs _
    · split
      · exact hs _
      · have h2 := insertPulse_keeps c x n' u (h1 _ h)
        exact ⟨k1.trans h2.1, fun m hm hl => h2.2 m hm (h1 m hl)⟩

theorem shapeDwell_keeps (c : Cyl) (a : Option Slot) (x : Slot) (s : State) (h : Latched c x.num s) :
    Keeps s (shapeDwell c a x s) ∧ ∀ m, m ≠ x.num → Latched c m s → Latched c m (shapeDwell c a x s) := by
  have hs : ∀ r, Keeps s (suppressSlot c x.num r s) ∧
      ∀ m, m ≠ x.num → Latched c m s → Latched c m (suppressSlot c x.num r s) := fun r =>
    ⟨suppressSlot_keeps _ _ _ s h, fun m hm hl => resolveUnfired_latched _ _ _ _ _ hm _ hl⟩
  unfold shapeDwell
  split
  · exact hs _
  · split
    · exact hs _
    · exact ⟨mapLatched_keeps c x.num _ (by intro; rfl) (by intro _ _; rfl) s h,
        fun m hm hl => mapSlot_latched _ _ _ _ _ (by intro; rfl) (fun e => absurd e hm) _ hl⟩

theorem shapeSlot_keeps (c : Cyl) (cur n : Nat) (s : State) (h : Latched c n s) :
    Keeps s (shapeSlot c cur n s) ∧ ∀ m, m ≠ n → Latched c m s → Latched c m (shapeSlot c cur n s) := by
  unfold shapeSlot
  split
  · exact ⟨.refl s, fun _ _ h => h⟩
  · split
    · exact ⟨.refl s, fun _ _ h => h⟩
    · rename_i x hx
      have hn := (findSlot_mem hx).2
      subst hn
      split
      · exact ⟨suppressSlot_keeps _ _ _ s h, fun m hm hl => resolveUnfired_latched _ _ _ _ _ hm _ hl⟩
      · split
        · exact shapeAngle_keeps _ _ _ _ _ s h
        · exact shapeDwell_keeps _ _ _ s h

theorem shapeSlots_keeps (c : Cyl) (cur : Nat) (ns : List Nat) : ∀ s : State, ns.Nodup →
    (∀ m ∈ ns, Latched c m s) → Keeps s (shapeSlots c cur ns s) := by
  induction ns with
  | nil => exact fun s _ _ => .refl s
  | cons n ns ih =>
    intro s hd h
    rw [List.nodup_cons] at hd
    have h1 := shapeSlot_keeps c cur n s (h n (List.mem_cons_self ..))
    refine h1.1.trans (ih _ hd.2 fun m hm => h1.2 m ?_ (h m (List.mem_cons_of_mem _ hm)))
    rintro rfl; exact hd.1 hm

/-! ## The arm event (R66, R70) -/

theorem latchSlots_spec (tdc : Nat) (xs : List (Option PlanSlot)) : ∀ num,
    ((latchSlots tdc num xs).map Slot.num).Nodup ∧
      ∀ y ∈ latchSlots tdc num xs, num ≤ y.num ∧ y.st = .latched := by
  induction xs with
  | nil => exact fun _ => ⟨List.nodup_nil, fun _ h => by cases h⟩
  | cons x xs ih =>
    intro num
    obtain ⟨h1, h2⟩ := ih (num + 1)
    cases x with
    | none => exact ⟨h1, fun y hy => ⟨Nat.le_of_succ_le (h2 y hy).1, (h2 y hy).2⟩⟩
    | some p =>
      refine ⟨?_, fun y hy => ?_⟩
      · rw [latchSlots, List.map_cons, List.nodup_cons]
        refine ⟨fun hm => ?_, h1⟩
        obtain ⟨y, hy, hn⟩ := List.mem_map.mp hm
        have := (h2 y hy).1
        rw [hn] at this
        simp [latchSlot] at this
      · rcases List.mem_cons.mp hy with rfl | hy
        · exact ⟨le_rfl, rfl⟩
        · exact ⟨Nat.le_of_succ_le (h2 y hy).1, (h2 y hy).2⟩

/-- A context opened for a cylinder that has none keeps the ties: its slots are latched (R70). -/
theorem openContext_linked {s : State} (l : s.Linked) (c : Cyl) (x : CycleContext)
    (hn : s.contexts.get c = none) (hc : x.cyl = c) (hd : (x.slots.map Slot.num).Nodup)
    (hl : ∀ y ∈ x.slots, y.st = .latched) : (openContext c x s).Linked := by
  have hs : ∀ d n st, slotAt s d n = some st → d ≠ c := by
    rintro d n st h rfl
    unfold slotAt at h; rw [hn] at h; cases h
  have ho : ∀ d n, d ≠ c → slotAt (openContext c x s) d n = slotAt s d n := by
    intro d n h
    unfold slotAt openContext
    rw [State.withContexts_contexts, PerCyl.get_set_other _ _ h]
  have hk : ∀ d n st, slotAt s d n = some st → slotAt (openContext c x s) d n = some st := fun d n st h => by
    rw [ho d n (hs d n st h)]; exact h
  have hba : ∀ d b, bankAt s d = some b → bankAt (openContext c x s) d = some b := by
    intro d b h
    have hne : d ≠ c := by rintro rfl; unfold bankAt at h; rw [hn] at h; cases h
    rw [← h]
    unfold bankAt openContext
    rw [State.withContexts_contexts, PerCyl.get_set_other _ _ hne]
  have hb : ∀ b, (openContext c x s).bank b = s.bank b := fun b => by simp [openContext]
  refine ⟨?_, ?_, ?_, ?_, ?_, ?_⟩
  · intro d y hy
    unfold openContext at hy
    rw [State.withContexts_contexts, PerCyl.get_set] at hy
    split at hy
    · rename_i e; cases hy; exact ⟨e ▸ hc, hd⟩
    · exact l.numbered d y hy
  · intro e he d n k1 k2; exact hk _ _ _ (l.waitingEntry e he d n k1 k2)
  · intro e he d n k k1 k2; exact hk _ _ _ (l.committedEntry e he d n k k1 k2)
  · intro b r hr
    rw [hb] at hr
    obtain ⟨h1, h2, h3⟩ := l.start b r hr
    exact ⟨hba _ _ h1, hk _ _ _ h2, h3⟩
  · intro b p hp
    rw [hb] at hp
    obtain ⟨h1, a, sl, h2⟩ := l.driven b p hp
    exact ⟨hba _ _ h1, a, sl, hk _ _ _ h2⟩
  · intro d n st a sl h
    by_cases hdc : d = c
    · subst hdc
      exfalso
      unfold slotAt openContext at h
      rw [State.withContexts_contexts, PerCyl.get_set, if_pos rfl] at h
      dsimp only at h
      cases hf : findSlot n x.slots with
      | none => simp [hf] at h
      | some y => simp [hf, hl y (findSlot_mem hf).1] at h
    · rw [ho d n hdc] at h
      obtain ⟨b, p, h1, h2⟩ := l.drives d n st a sl h
      exact ⟨b, p, by rw [hb]; exact h1, h2⟩

/-- A cycle is built, in RUN, for a cylinder with no open context (R70 to R76). -/
theorem buildCycle_keeps (c : Cyl) (pl : Placement) (a cur : Nat) (s : State) (hn : s.contexts.get c = none)
    (hm : s.run.mode = .run) : Keeps s (buildCycle c pl a cur s) := by
  have hsp := latchSlots_spec pl.tdc (s.plan.activePage.lists.get c) 1
  refine Keeps.trans (t := openContext c (newContext c pl a s) s) (fun l => ?_)
    ((shapeSlots_keeps c cur _ _ hsp.1 fun m hm => ?_).trans (closeTest_keeps _ _))
  · exact ⟨openContext_linked l c _ hn rfl hsp.1 fun y hy => (hsp.2 y hy).2,
      fun m => by rw [show (openContext c (newContext c pl a s) s).run = s.run from rfl, hm] at m; cases m⟩
  · obtain ⟨y, hy, rfl⟩ := List.mem_map.mp hm
    unfold Latched slotAt openContext
    rw [State.withContexts_contexts, PerCyl.get_set, if_pos rfl]
    have h1 : findSlot y.num (newContext c pl a s).slots = some y := findSlot_of_mem hsp.1 hy
    simp [h1, (hsp.2 y hy).2]

theorem cutCycle_calm (c : Cyl) (a : Nat) (r : CutReason) (s : State) : Calm s (cutCycle c a r s) :=
  writeRecord_calm _ s

theorem testCutCycle_calm (c : Cyl) (a n : Nat) (s : State) : Calm s (testCutCycle c a n s) := by
  refine (withPlan_calm { s.plan with testCut := testCutAfter c n } s).trans
    ((cutCycle_calm c a .testCut _).trans ?_)
  show Calm _ (if _ then _ else _)
  split
  · exact queueNotice_calm _ _
  · exact .refl _

theorem decideCycle_keeps (c : Cyl) (pl : Placement) (a cur rpm : Nat) (s : State)
    (hn : s.contexts.get c = none) (hm : s.run.mode = .run) : Keeps s (decideCycle c pl a cur rpm s) := by
  unfold decideCycle
  split
  · exact (cutCycle_calm _ _ _ s).keeps
  · split
    · exact (testCutCycle_calm _ _ _ s).keeps
    · refine (withPlan_calm { s.plan with derateAcc := derateAfter s.plan } s).keeps.trans ?_
      show Keeps _ (if _ then _ else _)
      split
      · exact (cutCycle_calm _ _ _ _).keeps
      · exact buildCycle_keeps _ _ _ _ _ hn hm

/-- The arm event in RUN keeps the ties (R66). -/
theorem armEvent_keeps (c : Cyl) (a : Nat) (s : State) (hm : s.run.mode = .run) : Keeps s (armEvent c a s) := by
  unfold armEvent
  split
  · exact .refl s
  · have h1 : Calm s (countExpiry (landIfPending (some c) s)) :=
      (landIfPending_calm (some c) s).trans (countExpiry_calm _)
    have m1 : Moves true s (countExpiry (landIfPending (some c) s)) :=
      (landIfPending_moves (some c) s).trans (countExpiry_moves _)
    generalize countExpiry (landIfPending (some c) s) = u at h1 m1
    have h2 := overrun_keeps c u
    have hm' : (overrun c u).run.mode = .run :=
      (m1.trans (overrun_moves c u)).keeps.2.2.2 hm
    exact .of fun l => (h1.keeps.trans h2.1).trans
      (decideCycle_keeps _ _ _ _ _ _ (h2.2 (h1.linked l)) hm')

/-! ## Firing (R102 to R104) -/

theorem markOutputs_calm (i : MarkIx) (s : State) : Calm s (markOutputs i s) := by
  unfold markOutputs
  split
  · exact .refl s
  · rename_i m _
    have h1 : Calm s (if m.notice then
        queueNotice (.mark i.val (interpolated s.tracker s.timebase) (speed s.tracker)) s else s) := by
      split
      · exact queueNotice_calm _ s
      · exact .refl s
    refine h1.trans ?_
    generalize (if m.notice then
        queueNotice (.mark i.val (interpolated s.tracker s.timebase) (speed s.tracker)) s else s) = t
    show Calm t (if _ then _ else _)
    split
    · exact setQueue_calm { t.queue with strobeUntil := some (later t.timebase Config.strobeTicks) } t rfl
    · exact .refl _

/-- The firing of an entry the queue holds keeps the ties (R102 to R104). -/
theorem fireEntry_keeps (e : Entry) (s : State) (g : s.Gated) (he : e ∈ s.queue.entries) :
    Keeps s (fireEntry e s) := by
  unfold fireEntry
  split
  · rename_i c hk
    have m := g.armRun e he (isArm_arm hk)
    refine (removeKey_calm e.key s).keeps.trans ((insertArm_calm c _).keeps.trans (armEvent_keeps _ _ _ ?_))
    exact (insertArm_moves (k := true) c (removeKey e.key s) (g.entryAngle e he) m).keeps.2.2.2 m
  · rename_i i hk
    exact ((removeKey_calm e.key s).trans ((insertEntry_calm _ _ fun c n h => by
      rw [show ({ e with commit := none } : Entry).key = e.key from rfl, hk] at h; cases h).trans
        (markOutputs_calm _ _))).keeps
  · rename_i c n hk
    refine .of fun l => (removeKey_calm e.key s).keeps.trans ?_
    unfold firePulse
    split
    · rename_i x q k hx hq hc
      refine startArrives_keeps _ _ _ ⟨?_, ?_, ?_⟩
      · show bankAt (removeKey e.key s) c = _
        unfold bankAt; rw [hx]; rfl
      · show slotAt (removeKey e.key s) c n = _
        rw [slotAt_of_contexts (removeKey_calm e.key s).contexts]
        exact l.committedEntry e he c n k hk hc
      · show Free (removeKey e.key s) c n
        rw [hk]; exact removeKey_free l he hk
    · exact .refl _

theorem fireInserted_keeps (c : Cyl) (n : Nat) : ∀ s : State, s.Gated → Keeps s (fireInserted c n s) := by
  induction n with
  | zero => exact fun s _ => .refl s
  | succ n ih =>
    intro s g
    unfold fireInserted
    split
    · rename_i e he
      have he := firstDuePulse_mem he
      exact (fireEntry_keeps e s g he).trans (ih _ ((fireEntry_moves e s g he).gated g))
    · exact .refl s

theorem fireFirst_keeps (s : State) (g : s.Gated) : Keeps s (fireFirst s) := by
  unfold fireFirst
  split
  · exact .refl s
  · rename_i e he
    have he := (queueOrder_mem s e).mp (firstDue_mem he)
    have h1 := fireEntry_keeps e s g he
    split
    · exact h1.trans (fireInserted_keeps _ _ _ ((fireEntry_moves e s g he).gated g))
    · exact h1

theorem fireDue_keeps (n : Nat) : ∀ s : State, s.Gated → Keeps s (fireDue n s) := by
  induction n with
  | zero => exact fun s _ => .refl s
  | succ n ih =>
    intro s g
    unfold fireDue
    split
    · exact .refl s
    · exact (fireFirst_keeps s g).trans (ih _ ((fireFirst_moves s g).gated g))

/-- An edge handed on keeps the ties (R98). -/
theorem handEdge_keeps (e : EdgeRef) (s : State) (g : s.Gated) (h : s.tracker.sync.holdsAngle = true) :
    Keeps s (handEdge e s) := by
  have k1 : Keeps s (setCommitRef e (takeWindow e (catchUp e (insertPendingMarks s)))) :=
    (((insertPendingMarks_calm s).keeps.trans (catchUp_keeps e _)).trans (takeWindow_keeps e _)).trans
      (setCommitRef_calm e _).keeps
  have m1 : Moves true s (setCommitRef e (takeWindow e (catchUp e (insertPendingMarks s)))) :=
    (((insertPendingMarks_moves s h).trans (catchUp_moves e _)).trans (takeWindow_moves e _)).trans
      (setCommitRef_moves e _)
  exact k1.trans (fireDue_keeps _ _ (m1.gated g))

theorem handOn_keeps (s : State) (g : s.Gated) (h : s.tracker.sync.holdsAngle = true) : Keeps s (handOn s) := by
  unfold handOn
  split
  · exact handEdge_keeps _ s g h
  · exact .refl s

end Sys2Proof.Machine
end

