-- ==== Sys2Proof/Laws/Outcomes.lean ====
section
/-! SUPPORT. What becomes of slots: a reported slot has its outcome, in its open context or in its cylinder's record,
and no later operation of the same event takes it back (R79, R80, R82, R83, R85, R86). -/

namespace Sys2Proof.Machine

/-! ## Outcomes stand -/

/-- Every context stands under its own cylinder. -/
def Own (s : State) : Prop := ∀ c x, s.contexts.get c = some x → x.cyl = c

theorem State.Linked.own {s : State} (l : s.Linked) : Own s := fun c x h => (l.numbered c x h).1

/-- A change that opens no context, leaves contexts to their cylinders and takes no outcome back. -/
structure Settles (s t : State) : Prop where
  own : Own s → Own t
  shut : ∀ c, s.contexts.get c = none → t.contexts.get c = none
  stands : Own s → ∀ c n o, outcomeAt s c n = some o → outcomeAt t c n = some o

namespace Settles

theorem refl (s : State) : Settles s s := ⟨id, fun _ h => h, fun _ _ _ _ h => h⟩

theorem trans {s t u : State} (h : Settles s t) (k : Settles t u) : Settles s u :=
  ⟨fun o => k.own (h.own o), fun c hc => k.shut c (h.shut c hc),
    fun o c n x hx => k.stands (h.own o) c n x (h.stands o c n x hx)⟩

theorem of_eq {s t : State} (h : t.contexts = s.contexts) (k : t.records = s.records) : Settles s t :=
  ⟨fun o c x hx => o c x (h ▸ hx), fun c hc => by rw [h]; exact hc, fun _ c n o ho => by
    unfold outcomeAt at ho ⊢; rw [h, k]; exact ho⟩

end Settles

theorem outcome_of_resolved {x : SlotState} {o : SlotOutcome} (h : x.outcome = some o) : x = .resolved o := by
  cases x <;> simp [SlotState.outcome] at h
  rw [h]

/-- With a context open, an outcome is that of a resolved slot. -/
theorem outcomeAt_of_slotAt {s : State} {c : Cyl} {n : Nat} {o : SlotOutcome}
    (h : slotAt s c n = some (.resolved o)) : outcomeAt s c n = some o := by
  unfold slotAt at h
  unfold outcomeAt
  split at h
  · rename_i x hx
    cases hy : findSlot n x.slots with
    | none => simp [hy] at h
    | some y => rw [hy] at h; simp only [Option.map_some, Option.some.injEq] at h; simp [h, SlotState.outcome]
  · cases h

theorem slotAt_of_outcomeAt {s : State} {c : Cyl} {n : Nat} {o : SlotOutcome} {x : CycleContext}
    (hx : s.contexts.get c = some x) (h : outcomeAt s c n = some o) : slotAt s c n = some (.resolved o) := by
  unfold outcomeAt at h
  unfold slotAt
  rw [hx] at h ⊢
  dsimp only at h ⊢
  cases hy : findSlot n x.slots with
  | none => rw [hy] at h; cases h
  | some y => rw [hy] at h; rw [Option.map_some, outcome_of_resolved h]

/-- A change of slots that leaves resolved slots takes no outcome back. -/
theorem updateSlots_settles {R : Slot → Slot → Prop} (c : Cyl) (f : List Slot → List Slot)
    (hf : ∀ xs, SlotsTo R xs (f xs)) (hr : ∀ x y, R x y → x.st.isResolved = true → y.st = x.st) (s : State) :
    Settles s (updateSlots c f s) := by
  refine ⟨fun o d x hx => ?_, fun d hd => (updateSlots_none c d f s).mpr hd, fun _ d n o ho => ?_⟩
  · rw [updateSlots_get] at hx
    split at hx
    · rename_i e; subst e
      cases hc : s.contexts.get d with
      | none => rw [hc] at hx; cases hx
      | some y => rw [hc] at hx; cases hx; exact o d y hc
    · exact o d x hx
  · cases hc : s.contexts.get d with
    | none =>
      have h2 := (updateSlots_none c d f s).mpr hc
      have h3 : (updateSlots c f s).records = s.records := by unfold updateSlots; split <;> rfl
      unfold outcomeAt at ho ⊢
      rw [hc] at ho; rw [h2, h3]; exact ho
    | some x =>
      have h1 := slotAt_of_outcomeAt hc ho
      refine outcomeAt_of_slotAt ?_
      by_cases hd : d = c
      · subst hd
        rcases updateSlots_slotAt d f hf s n with ⟨h2, _⟩ | ⟨x', y, h2, h3, h4, _⟩
        · rw [h1] at h2; cases h2
        · rw [h1] at h2
          have h5 : x'.st = .resolved o := by injection h2.symm
          rw [h3, hr _ _ h4 (by rw [h5]; rfl), h5]
      · rw [updateSlots_slotAt_other hd]; exact h1

theorem mapSlot_settles (c : Cyl) (n : Nat) (f : Slot → Slot) (hn : ∀ x, (f x).num = x.num)
    (hf : ∀ x, x.st.isResolved = true → (f x).st = x.st) (s : State) :
    Settles s (updateSlots c (mapSlot n f) s) :=
  updateSlots_settles c _ (mapSlot_to n f hn) (fun x y h hx => by
    rcases h with rfl | ⟨_, rfl⟩
    · rfl
    · exact hf x hx) s

theorem resolveUnfired_settles (c : Cyl) (n : Nat) (o : SlotOutcome) (s : State) :
    Settles s (updateSlots c (resolveUnfired n o) s) :=
  updateSlots_settles c _ (resolveUnfired_to n o) (fun x y h hx => by
    rcases h with rfl | ⟨h1, _⟩ | ⟨_, h1, _⟩
    · rfl
    · rw [h1] at hx; cases hx
    · rw [notUnstarted_of_resolved' hx] at h1; cases h1) s
where
  notUnstarted_of_resolved' {x : SlotState} (h : x.isResolved = true) : x.isUnstarted = false := by
    cases x <;> simp_all [SlotState.isResolved, SlotState.isUnstarted]

theorem withdrawAllSlots_settles (c : Cyl) (r : WithdrawReason) (s : State) :
    Settles s (updateSlots c (withdrawAllSlots r) s) :=
  updateSlots_settles c _ (withdrawAllSlots_to r) (fun x y h hx => by
    rcases h with ⟨rfl, _⟩ | ⟨h1, _⟩
    · rfl
    · cases hs : x.st <;> simp_all [SlotState.isResolved, SlotState.isUnstarted]) s

/-! ## The close (R85, R86) -/

/-- The result of a resolved slot carries its number and outcome. -/
theorem result_of_resolved {x : Slot} (h : x.st.isResolved = true) :
    ∃ r, x.result = some r ∧ r.num = x.num ∧ x.st.outcome = some r.outcome := by
  cases hs : x.st with
  | resolved o => cases o <;> exact ⟨_, by unfold Slot.result; rw [hs], rfl, rfl⟩
  | _ => rw [hs] at h; cases h

/-- The record of a finished context gives each slot the outcome it has. -/
theorem results_find {xs : List Slot} (h : xs.all (fun y => y.st.isResolved) = true) (n : Nat) :
    ((xs.filterMap Slot.result).find? fun y => y.num == n).map SlotResult.outcome
      = (findSlot n xs).bind fun y => y.st.outcome := by
  induction xs with
  | nil => rfl
  | cons x xs ih =>
    rw [List.all_cons, Bool.and_eq_true] at h
    obtain ⟨r, h1, h2, h3⟩ := result_of_resolved h.1
    unfold findSlot at ih ⊢
    rw [List.filterMap_cons_some h1, List.find?_cons, List.find?_cons, h2]
    split
    · simp [h3]
    · exact ih h.2

theorem noContextOpen_same (s : State) :
    (noContextOpen s).contexts = s.contexts ∧ (noContextOpen s).records = s.records := by
  unfold noContextOpen queueNotice
  split
  · split <;> exact ⟨rfl, rfl⟩
  · exact ⟨rfl, rfl⟩

theorem tellIfNoneOpen_same (s : State) :
    (tellIfNoneOpen s).contexts = s.contexts ∧ (tellIfNoneOpen s).records = s.records := by
  unfold tellIfNoneOpen
  split
  · exact ⟨rfl, rfl⟩
  · exact noContextOpen_same s

theorem writeRecord_same (r : CycleRecord) (s : State) :
    (writeRecord r s).contexts = s.contexts ∧ (writeRecord r s).records = s.records.set r.cyl (some r) := by
  unfold writeRecord queueNotice
  split <;> exact ⟨rfl, rfl⟩

/-- The close test leaves a context with an unresolved slot, and closes any other with its record. -/
theorem closeTest_spec (c : Cyl) (s : State) :
    (closeTest c s).contexts = s.contexts ∧ (closeTest c s).records = s.records ∧
        (∀ x, s.contexts.get c = some x → x.finished = false) ∨
      ∃ x, s.contexts.get c = some x ∧ x.finished = true ∧ (closeTest c s).contexts = s.contexts.set c none ∧
        (closeTest c s).records = s.records.set x.cyl (some x.record) := by
  unfold closeTest
  split
  · rename_i h; exact .inl ⟨rfl, rfl, fun x hx => by rw [h] at hx; cases hx⟩
  · rename_i x hx
    split
    · rename_i hf
      obtain ⟨h1, h2⟩ := tellIfNoneOpen_same (removeContext c (writeRecord x.record s))
      obtain ⟨h3, h4⟩ := writeRecord_same x.record s
      exact .inr ⟨x, hx, hf, by rw [h1, removeContext, State.withContexts_contexts, h3],
        by rw [h2, removeContext, State.withContexts_records, h4]; rfl⟩
    · rename_i hf
      exact .inl ⟨rfl, rfl, fun y hy => by rw [hx] at hy; cases hy; simpa using hf⟩

theorem closeTest_settles (c : Cyl) (s : State) : Settles s (closeTest c s) := by
  rcases closeTest_spec c s with ⟨h1, h2, _⟩ | ⟨x, h1, h2, h3, h4⟩
  · exact .of_eq h1 h2
  · refine ⟨fun o d y hy => ?_, fun d hd => ?_, fun o d n k hk => ?_⟩
    · rw [h3, PerCyl.get_set] at hy
      split at hy
      · cases hy
      · exact o d y hy
    · rw [h3, PerCyl.get_set]; split
      · rfl
      · exact hd
    · unfold outcomeAt at hk ⊢
      rw [h3, h4, o c x h1, PerCyl.get_set, PerCyl.get_set]
      by_cases e : d = c
      · subst e
        rw [h1] at hk
        rw [if_pos rfl, if_pos rfl]
        dsimp only at hk ⊢
        rw [Option.bind_some, CycleContext.record]
        dsimp only
        rw [results_find h2]; exact hk
      · rw [if_neg e, if_neg e]; exact hk

/-! ## Slots reported unfired (R79, R82, R83) -/

theorem reportUnfired_settles (c : Cyl) (n : Nat) (o : SlotOutcome) (s : State) :
    Settles s (reportUnfired c n o s) :=
  (resolveUnfired_settles c n o s).trans (closeTest_settles _ _)

theorem findSlot_resolveUnfired {n : Nat} {o : SlotOutcome} {xs : List Slot} {x : Slot}
    (h : findSlot n xs = some x) (hu : x.st.isUnstarted = true) :
    findSlot n (resolveUnfired n o xs) = some (x.resolve o) := by
  induction xs with
  | nil => cases h
  | cons y ys ih =>
    unfold findSlot at h ih ⊢
    by_cases hy : y.num = n
    · simp only [List.find?_cons, hy, beq_self_eq_true, Option.some.injEq] at h
      subst h
      simp [resolveUnfired, hy, hu, Slot.resolve]
    · have hb : (y.num == n) = false := by simpa using hy
      simp only [List.find?_cons, hb] at h
      simpa [resolveUnfired, hy, List.find?_cons, hb] using ih h

/-- An unstarted slot that is resolved unfired has that outcome. -/
theorem resolveUnfired_slotAt {s : State} {c : Cyl} {n : Nat} {st : SlotState} (o : SlotOutcome)
    (h : slotAt s c n = some st) (hu : st.isUnstarted = true) :
    slotAt (updateSlots c (resolveUnfired n o) s) c n = some (.resolved o) := by
  unfold slotAt at h ⊢
  rw [updateSlots_get, if_pos rfl]
  cases hc : s.contexts.get c with
  | none => rw [hc] at h; cases h
  | some x =>
    rw [hc] at h
    dsimp only at h
    cases hy : findSlot n x.slots with
    | none => rw [hy] at h; cases h
    | some y =>
      rw [hy] at h
      cases h
      simp [findSlot_resolveUnfired hy hu, Slot.resolve]

/-- A reported slot has the reported outcome. -/
theorem reportUnfired_outcome {s : State} (ho : Own s) {c : Cyl} {n : Nat} {st : SlotState} (o : SlotOutcome)
    (h : slotAt s c n = some st) (hu : st.isUnstarted = true) : outcomeAt (reportUnfired c n o s) c n = some o :=
  (closeTest_settles _ _).stands ((resolveUnfired_settles c n o s).own ho) _ _ _
    (outcomeAt_of_slotAt (resolveUnfired_slotAt o h hu))

/-! ## Withdrawals (R83, R106) -/

/-- A slot stands WAITING or COMMITTED. -/
def Placed (s : State) (c : Cyl) (n : Nat) : Prop :=
  slotAt s c n = some .waiting ∨ ∃ k, slotAt s c n = some (.committed k)

theorem Placed.unstarted {s : State} {c : Cyl} {n : Nat} (h : Placed s c n) :
    ∃ st, slotAt s c n = some st ∧ st.isUnstarted = true := by
  rcases h with h | ⟨k, h⟩ <;> exact ⟨_, h, rfl⟩

/-- A report of another slot leaves a placed slot where it stands. -/
theorem reportUnfired_placed {s : State} {c d : Cyl} {n m : Nat} (o : SlotOutcome) (h : Placed s c n)
    (hne : ¬ (d = c ∧ m = n)) : Placed (reportUnfired d m o s) c n := by
  have h1 : Placed (updateSlots d (resolveUnfired m o) s) c n := by
    by_cases hd : c = d
    · subst hd
      rcases updateSlots_slotAt c _ (resolveUnfired_to m o) s n with ⟨h2, _⟩ | ⟨x, y, h2, h3, h4, h5⟩
      · rcases h with h | ⟨k, h⟩ <;> rw [h] at h2 <;> cases h2
      · have hy : y = x := by
          rcases h4 with h4 | ⟨h4, _⟩ | ⟨h4, _⟩
          · exact h4
          · rcases h with h | ⟨k, h⟩ <;> rw [h] at h2 <;> rw [h4] at h2 <;> cases h2
          · exact absurd ⟨rfl, by rw [← h4, h5]⟩ hne
        unfold Placed
        rw [h3, hy, ← h2]; exact h
    · unfold Placed
      rw [updateSlots_slotAt_other hd]; exact h
  unfold reportUnfired
  rcases closeTest_spec d (updateSlots d (resolveUnfired m o) s) with ⟨h2, _, _⟩ | ⟨x, h2, h3, h4, _⟩
  · unfold Placed
    rw [slotAt_of_contexts h2]; exact h1
  · by_cases hd : c = d
    · subst hd
      exfalso
      obtain ⟨st, h5, h6⟩ := h1.unstarted
      have := finished_slotAt h2 h3 n st h5
      cases st <;> simp_all [SlotState.isUnstarted, SlotState.isResolved]
    · unfold Placed slotAt at h1 ⊢
      rw [h4, PerCyl.get_set, if_neg hd]; exact h1

theorem reportWithdrawn_settles (r : WithdrawReason) (xs : List (Cyl × Nat)) :
    ∀ s : State, Settles s (reportWithdrawn r xs s) := by
  induction xs with
  | nil => exact fun s => .refl s
  | cons p xs ih => exact fun s => (reportUnfired_settles _ _ _ s).trans (ih _)

/-- Every placed slot of a withdrawn list is WITHDRAWN with the reason. -/
theorem reportWithdrawn_outcome (r : WithdrawReason) (xs : List (Cyl × Nat)) :
    ∀ s : State, Own s → ∀ c n, (c, n) ∈ xs → Placed s c n →
      outcomeAt (reportWithdrawn r xs s) c n = some (.withdrawn r) := by
  induction xs with
  | nil => intro _ _ _ _ h; cases h
  | cons p xs ih =>
    intro s ho c n hm hp
    have ho' := (reportUnfired_settles p.1 p.2 (.withdrawn r) s).own ho
    by_cases he : p.1 = c ∧ p.2 = n
    · obtain ⟨rfl, rfl⟩ := he
      obtain ⟨st, h1, h2⟩ := hp.unstarted
      exact (reportWithdrawn_settles r xs _).stands ho' _ _ _ (reportUnfired_outcome ho _ h1 h2)
    · refine ih _ ho' c n ?_ (reportUnfired_placed _ hp he)
      rcases List.mem_cons.mp hm with rfl | hm
      · exact absurd ⟨rfl, rfl⟩ he
      · exact hm

theorem dropPulses_settles (scope : Cyl → Bool) (s : State) : Settles s (dropPulses scope s) := .of_eq rfl rfl

theorem withdrawPulses_settles (scope : Cyl → Bool) (r : WithdrawReason) (s : State) :
    Settles s (withdrawPulses scope r s) := (dropPulses_settles scope s).trans (reportWithdrawn_settles r _ _)

theorem mem_unstartedPulses {scope : Cyl → Bool} {s : State} {c : Cyl} {n : Nat} (hc : scope c = true)
    (h1 : 1 ≤ n) (h5 : n ≤ 5) (h : isUnstartedPulse s c n = true) : (c, n) ∈ unstartedPulses scope s := by
  unfold unstartedPulses
  refine List.mem_flatMap.mpr ⟨c, List.mem_filter.mpr ⟨Cyl.mem_all c, hc⟩,
    List.mem_map.mpr ⟨n, List.mem_filter.mpr ⟨?_, h⟩, rfl⟩⟩
  simp; omega

/-- A withdrawal of every cylinder's pulses gives each its outcome (R83). -/
theorem withdrawPulses_ends {s : State} (l : s.Linked) (r : WithdrawReason) :
    UnstartedEnd (.withdrawn r) s (withdrawPulses (fun _ => true) r s) := by
  have h : ∀ c n, Placed s c n → isUnstartedPulse s c n = true → 1 ≤ n → n ≤ 5 →
      outcomeAt (withdrawPulses (fun _ => true) r s) c n = some (.withdrawn r) := fun c n hp hu h1 h5 =>
    reportWithdrawn_outcome r _ _ (((dropPulses_settles _ s).own l.own)) c n (mem_unstartedPulses rfl h1 h5 hu) hp
  refine ⟨fun e he c n hk h1 h5 => h c n ?_ ?_ h1 h5, fun b q hq h1 h5 => h _ _ (.inr ⟨_, (l.start b q hq).2.1⟩) ?_ h1 h5⟩
  · cases hc : e.commit with
    | none => exact .inl (l.waitingEntry e he c n hk hc)
    | some k => exact .inr ⟨_, l.committedEntry e he c n k hk hc⟩
  · simp only [isUnstartedPulse, Bool.or_eq_true]
    exact .inl (.inl (List.any_eq_true.mpr ⟨e, he, by simp [hk]⟩))
  · simp only [isUnstartedPulse, Bool.or_eq_true]
    cases b
    · exact .inl (.inr (by rw [show s.bankA.waiting = some q from hq]; simp))
    · exact .inr (by rw [show s.bankB.waiting = some q from hq]; simp)

/-- Outcomes once given stand through what follows. -/
theorem UnstartedEnd.settles {o : SlotOutcome} {s t u : State} (h : UnstartedEnd o s t) (ho : Own t)
    (k : Settles t u) : UnstartedEnd o s u :=
  ⟨fun e he c n hk h1 h5 => k.stands ho c n o (h.1 e he c n hk h1 h5),
    fun b r hr h1 h5 => k.stands ho _ _ o (h.2 b r hr h1 h5)⟩

theorem withQueue_settles (x : FiringQueue) (s : State) : Settles s (s.withQueue x) := .of_eq rfl rfl

/-- A sync loss gives every unstarted pulse its outcome (R22, R83). -/
theorem queueLoss_ends {s : State} (l : s.Linked) : UnstartedEnd (.withdrawn .syncLost) s (queueLoss s) :=
  (withdrawPulses_ends l .syncLost).settles ((withdrawPulses_settles _ _ _).own l.own) (withQueue_settles _ _)

/-- The move into CAM_LIMP gives every unstarted pulse its outcome (R23, R83). -/
theorem queueToCam_ends {s : State} (l : s.Linked) : UnstartedEnd (.withdrawn .syncLost) s (queueToCam s) :=
  (withdrawPulses_ends l .syncLost).settles ((withdrawPulses_settles _ _ _).own l.own) (withQueue_settles _ _)

theorem queueLoss_settles (s : State) : Settles s (queueLoss s) :=
  (withdrawPulses_settles _ _ _).trans (withQueue_settles _ _)

/-! ## The end of a pulse (R80, R81) -/

theorem queueNotice_settles (x : NoticeBody) (s : State) : Settles s (queueNotice x s) :=
  .of_eq (queueNotice_same x s).1 (by unfold queueNotice; split <;> rfl)

theorem withDiag_settles (x : Diagnosis) (s : State) : Settles s (s.withDiag x) := .of_eq rfl rfl

theorem landIfPending_settles (c : Option Cyl) (s : State) : Settles s (landIfPending c s) := by
  have h : ∀ x : PlanStore, Settles s (s.withPlan x) := fun _ => .of_eq rfl rfl
  unfold landIfPending
  split
  · exact (h _).trans (queueNotice_settles _ _)
  · exact .refl s

theorem diagnose_settles (c : Cyl) (k : Classification) (s : State) : Settles s (diagnose c k s) := by
  have h1 : Settles s (scoreAndRearm c k s) := withDiag_settles _ s
  have h2 : ∀ t, Settles t (warnTest c k t) := by
    intro t
    unfold warnTest
    split
    · exact (withDiag_settles _ t).trans (queueNotice_settles _ _)
    · exact .refl t
  have h3 : ∀ t, Settles t (disableTest c k t) := by
    intro t
    unfold disableTest
    split
    · exact ((withDiag_settles _ t).trans (withdrawPulses_settles _ _ _)).trans
        (queueNotice_settles _ _)
    · exact .refl t
  exact (h1.trans (h2 _)).trans (h3 _)

theorem commitTo_resolved (t : Tick) (b : Bool) (x : Slot) (h : x.st.isResolved = true) :
    (x.commitTo t b).st = x.st := by
  unfold Slot.commitTo
  split <;> simp_all [SlotState.isResolved]

theorem chainAfter_settles (c : Cyl) (n : Nat) (ended : Tick) (s : State) : Settles s (chainAfter c n ended s) := by
  unfold chainAfter
  split
  · exact .refl s
  · split
    · exact .refl s
    · split
      · unfold chainSlot
        split
        · exact resolveUnfired_settles _ _ _ s
        · exact (mapSlot_settles _ _ _ (commitTo_num _ _) (commitTo_resolved _ _) s).trans (.of_eq rfl rfl)
      · exact .refl s

theorem fire_resolved (p : Pulse) (ended : Tick) (k : Classification) (x : Slot) (h : x.st.isResolved = true) :
    (x.fire p ended k).st = x.st := by
  unfold Slot.fire
  split <;> simp_all [SlotState.isResolved]

theorem endReport_settles (p : Pulse) (ended : Tick) (k : Classification) (s : State) :
    Settles s (endReport p ended k s) := by
  unfold endReport
  split
  · exact .refl s
  · split
    · exact (mapSlot_settles _ _ _ (fire_num _ _ _) (fire_resolved _ _ _) s).trans (chainAfter_settles _ _ _ _)
    · exact .refl s

theorem reportEnd_settles (close : Bool) (p : Pulse) (ended : Tick) (s : State) :
    Settles s (reportEnd close p ended s) := by
  have h := (diagnose_settles p.cyl (classify p) s).trans (endReport_settles p ended (classify p) _)
  unfold reportEnd closeTestIf
  split
  · exact h.trans (closeTest_settles _ _)
  · exact h

theorem startDecay_settles (b : Bank) (p : Pulse) (s : State) : Settles s (startDecay b p s) := by
  obtain ⟨x, h, _⟩ := startDecay_shape b p s
  rw [h]
  exact .of_eq (by simp) (by cases b <;> rfl)

theorem endPulse_settles (b : Bank) (f : Pulse → Pulse) (close : Bool) (s : State) :
    Settles s (endPulse b f close s) := by
  unfold endPulse
  split
  · exact .refl s
  · exact (startDecay_settles _ _ s).trans (reportEnd_settles _ _ _ _)

/-- An ENERGIZED slot has, after the report of its pulse's end, the FIRED outcome of that pulse (R80). -/
theorem endReport_outcome {s : State} (ho : Own s) {p : Pulse} (ended : Tick) (k : Classification)
    {x : CycleContext} {y : Slot} {start : Tick} {angle : Option Nat} {slip : Nat}
    (hx : s.contexts.get p.cyl = some x) (hy : findSlot p.slot x.slots = some y)
    (hs : y.st = .energized start angle slip) :
    outcomeAt (endReport p ended k s) p.cyl p.slot = some (.fired
      { startAngle := angle, slip := slip, energized := elapsed p.start ended, truncated := y.truncated
        boostShort := p.boostShort, cut := p.cut, diagnosis := k }) := by
  unfold endReport
  rw [hx]
  dsimp only
  rw [if_pos (by unfold CycleContext.drives; rw [hy]; dsimp only; rw [hs])]
  refine (chainAfter_settles _ _ _ _).stands
    ((mapSlot_settles _ _ _ (fire_num _ _ _) (fire_resolved _ _ _) s).own ho) _ _ _ (outcomeAt_of_slotAt ?_)
  unfold slotAt
  rw [updateSlots_get, if_pos rfl, hx]
  simp [findSlot_mapSlot _ _ _ (fire_num p ended k), hy, Slot.fire, hs, Slot.resolve]

/-! ## An ENERGIZED slot and the slot PENDING on it -/

/-- A context holds a slot under its number and, where one is given, the next slot after it. -/
def Holds (s : State) (c : Cyl) (y : Slot) (w : Option Slot) : Prop :=
  ∃ x pre rest, s.contexts.get c = some x ∧ x.slots = pre ++ y :: rest ∧ (∀ a ∈ pre, a.num ≠ y.num) ∧
    ∀ z, w = some z → rest.head? = some z

theorem loseAnchor_append {y : Slot} (h : y.st.isPending = false) (pre rest : List Slot) :
    ∃ pre', loseAnchor (pre ++ y :: rest) = pre' ++ y :: rest ∧ pre'.map Slot.num = pre.map Slot.num := by
  induction pre with
  | nil => exact ⟨[], by simp [loseAnchor, h], rfl⟩
  | cons a as ih =>
    obtain ⟨p, h1, h2⟩ := ih
    rw [List.cons_append, loseAnchor]
    split
    · exact ⟨_ :: p, by rw [h1]; rfl, by simp [h2, Slot.resolve]⟩
    · exact ⟨a :: as, rfl, rfl⟩

theorem resolveUnfired_head {n : Nat} {o : SlotOutcome} {z : Slot} (h : z.num ≠ n) {rest : List Slot}
    (hz : rest.head? = some z) : (resolveUnfired n o rest).head? = some z := by
  cases rest with
  | nil => cases hz
  | cons a as => cases hz; simp [resolveUnfired, h]

/-- A slot resolved unfired leaves an ENERGIZED slot, and the slot after it unless it is that one. -/
theorem resolveUnfired_append {y : Slot} (h1 : y.st.isPending = false) (h2 : y.st.isUnstarted = false) (n : Nat)
    (o : SlotOutcome) (pre rest : List Slot) :
    ∃ pre' rest', resolveUnfired n o (pre ++ y :: rest) = pre' ++ y :: rest' ∧
      pre'.map Slot.num = pre.map Slot.num ∧ (rest' = rest ∨ rest' = resolveUnfired n o rest) := by
  induction pre with
  | nil =>
    rw [List.nil_append, resolveUnfired]
    by_cases hn : y.num = n
    · exact ⟨[], rest, by simp [hn, h2], rfl, .inl rfl⟩
    · exact ⟨[], _, by simp [hn], rfl, .inr rfl⟩
  | cons a as ih =>
    rw [List.cons_append, resolveUnfired]
    split
    · split
      · obtain ⟨p, h3, h4⟩ := loseAnchor_append h1 as rest
        exact ⟨_ :: p, rest, by rw [h3]; rfl, by simp [h4, Slot.resolve], .inl rfl⟩
      · exact ⟨a :: as, rest, rfl, rfl, .inl rfl⟩
    · obtain ⟨p, r, h3, h4, h5⟩ := ih
      exact ⟨a :: p, r, by rw [h3]; rfl, by simp [h4], h5⟩

theorem reportUnfired_holds {s : State} {c d : Cyl} {y : Slot} {w : Option Slot} {start : Tick} {a : Option Nat}
    {slip : Nat} (hy : y.st = .energized start a slip) (h : Holds s c y w) (n : Nat) (o : SlotOutcome)
    (hne : ∀ z, w = some z → ¬ (d = c ∧ n = z.num)) : Holds (reportUnfired d n o s) c y w := by
  have h1 : Holds (updateSlots d (resolveUnfired n o) s) c y w := by
    obtain ⟨x, pre, rest, h1, h2, h3, h4⟩ := h
    by_cases hd : c = d
    · subst hd
      obtain ⟨p, r, e1, e2, e3⟩ := resolveUnfired_append (y := y) (by rw [hy]; rfl) (by rw [hy]; rfl) n o pre rest
      refine ⟨{ x with slots := resolveUnfired n o x.slots }, p, r, by rw [updateSlots_get, if_pos rfl, h1]; rfl,
        by rw [← e1, h2], fun b hb => ?_, fun z hz => ?_⟩
      · have : b.num ∈ pre.map Slot.num := e2 ▸ List.mem_map_of_mem hb
        obtain ⟨b', hb', hn⟩ := List.mem_map.mp this
        rw [← hn]; exact h3 b' hb'
      · rcases e3 with rfl | rfl
        · exact h4 z hz
        · exact resolveUnfired_head (fun e => hne z hz ⟨rfl, e.symm⟩) (h4 z hz)
    · exact ⟨x, pre, rest, by rw [updateSlots_get, if_neg hd, h1], h2, h3, h4⟩
  unfold reportUnfired
  rcases closeTest_spec d (updateSlots d (resolveUnfired n o) s) with ⟨h2, _, _⟩ | ⟨x, h2, h3, h4, _⟩
  · unfold Holds; rw [h2]; exact h1
  · obtain ⟨x', pre, rest, e1, e2, e3, e4⟩ := h1
    by_cases hd : c = d
    · subst hd
      rw [h2] at e1; cases e1
      have := List.all_eq_true.mp h3 y (by rw [e2]; simp)
      rw [hy] at this; cases this
    · exact ⟨x', pre, rest, by rw [h4, PerCyl.get_set, if_neg hd]; exact e1, e2, e3, e4⟩

theorem reportWithdrawn_holds {c : Cyl} {y : Slot} {w : Option Slot} {start : Tick} {a : Option Nat} {slip : Nat}
    (hy : y.st = .energized start a slip) (r : WithdrawReason) (xs : List (Cyl × Nat))
    (hne : ∀ z, w = some z → (c, z.num) ∉ xs) : ∀ s : State, Holds s c y w → Holds (reportWithdrawn r xs s) c y w := by
  induction xs with
  | nil => exact fun _ h => h
  | cons p xs ih =>
    intro s h
    refine ih (fun z hz hm => hne z hz (.tail _ hm)) _ (reportUnfired_holds hy h p.2 _ fun z hz he => ?_)
    exact hne z hz (by rw [← he.1, ← he.2]; exact .head _)

/-- Circuit Diagnosis leaves an ENERGIZED slot as it is, and a slot after it that no unstarted pulse is of (R83,
R135). -/
theorem diagnose_holds {c : Cyl} {y : Slot} {w : Option Slot} {start : Tick} {a : Option Nat} {slip : Nat}
    (hy : y.st = .energized start a slip) (d : Cyl) (k : Classification) (s : State) (h : Holds s c y w)
    (hne : ∀ z, w = some z → isUnstartedPulse s c z.num = false) : Holds (diagnose d k s) c y w := by
  have hc : ∀ {t u : State}, t.contexts = u.contexts → Holds u c y w → Holds t c y w := by
    intro t u e h; unfold Holds; rw [e]; exact h
  have hw : (warnTest d k (scoreAndRearm d k s)).contexts = s.contexts ∧
      isUnstartedPulse (warnTest d k (scoreAndRearm d k s)) = isUnstartedPulse s := by
    unfold warnTest queueNotice
    split
    · split <;> exact ⟨rfl, rfl⟩
    · exact ⟨rfl, rfl⟩
  unfold diagnose
  obtain ⟨h1, h2⟩ := hw
  generalize warnTest d k (scoreAndRearm d k s) = u at h1 h2
  unfold disableTest
  split
  · refine hc (queueNotice_same _ _).1 (reportWithdrawn_holds hy _ _ (fun z hz hm => ?_) _ (hc (by exact h1) h))
    obtain ⟨e, _, he⟩ := List.mem_flatMap.mp hm
    obtain ⟨m, hm, hk⟩ := List.mem_map.mp he
    cases hk
    have h3 := (List.mem_filter.mp hm).2
    have h4 : isUnstartedPulse u c z.num = true := h3
    rw [h2, hne z hz] at h4; cases h4
  · exact hc h1 h

end Sys2Proof.Machine
end

