-- ==== Sys2Proof/Laws/QueueInserts.lean ====
section
/-! SUPPORT. What an insertion into the Firing Queue leaves under each key (R90, R93, R96). -/

namespace Sys2Proof.Machine

/-- The entries of a queue stand in strict key order (R90). -/
def State.KeySorted (s : State) : Prop := (s.queue.entries.map Entry.key).Pairwise fun x y => x.before y = true

/-- One state is another with its entries changed: still in key order, and under each key what was held, else what is
given. -/
structure Gives (given : Key → Option Entry) (s t : State) : Prop where
  entries : ∃ xs, t = s.withQueue { s.queue with entries := xs }
  sorted : t.KeySorted
  find : ∀ k, findEntry k t = (findEntry k s).or (given k)

theorem Gives.refl {s : State} (h : s.KeySorted) : Gives (fun _ => none) s s :=
  ⟨⟨s.queue.entries, rfl⟩, h, fun k => by simp⟩

theorem Gives.trans {f g : Key → Option Entry} {s t u : State} (h : Gives f s t) (k : Gives g t u) :
    Gives (fun x => (f x).or (g x)) s u := by
  obtain ⟨xs, rfl⟩ := h.entries
  obtain ⟨ys, rfl⟩ := k.entries
  exact ⟨⟨ys, rfl⟩, k.sorted, fun x => by rw [k.find, h.find, Option.or_assoc]⟩

theorem Gives.congr {f g : Key → Option Entry} {s t : State} (h : Gives f s t) (k : ∀ x, f x = g x) : Gives g s t :=
  ⟨h.entries, h.sorted, fun x => by rw [h.find, k]⟩

/-- Insertion by key finds the entry held under the key, else the one inserted; every other key keeps its own (R90). -/
theorem insertByKey_find (e : Entry) (k : Key) (xs : List Entry)
    (h : (xs.map Entry.key).Pairwise fun x y => x.before y = true) :
    (insertByKey e xs).find? (fun y => y.key == k)
      = (xs.find? fun y => y.key == k).or (if k = e.key then some e else none) := by
  induction xs with
  | nil => by_cases hk : k = e.key <;> simp [insertByKey, hk, Ne.symm (a := k)]
  | cons x xs ih =>
    rw [List.map_cons, List.pairwise_cons] at h
    unfold insertByKey
    split
    · rename_i hx
      by_cases hk : k = e.key
      · simp [hk, hx]
      · simp [hk]
    · rename_i hx
      split
      · rename_i hb
        by_cases hk : k = e.key
        · have hn : xs.find? (fun y => y.key == e.key) = none := by
            rw [List.find?_eq_none]
            intro y hy hye
            have h2 := h.1 e.key (List.mem_map.mpr ⟨y, hy, by simpa using hye⟩)
            have := Key.before_trans hb h2
            rw [Key.before_irrefl] at this; cases this
          subst hk
          simp [hx, hn]
        · simp [hk, Ne.symm (a := k)]
      · by_cases hxk : x.key = k
        · simp [hxk]
        · simp [hxk, ih h.2]

theorem insertEntry_gives (e : Entry) {s : State} (h : s.KeySorted) :
    Gives (fun k => if k = e.key then some e else none) s (insertEntry e s) :=
  ⟨⟨_, rfl⟩, insertByKey_sorted e _ h, fun k => insertByKey_find e k _ h⟩

/-- The ARM entry an insertion for a cylinder gives (R93). -/
def givenArm (s : State) (c : Cyl) : Option Entry := (s.plan.cyls.get c).place.map (armEntry s c)

theorem insertArm_gives (c : Cyl) {s : State} (h : s.KeySorted) :
    Gives (fun k => if k = .arm c then givenArm s c else none) s (insertArm c s) := by
  unfold insertArm givenArm
  split
  · rename_i pl hp
    refine (insertEntry_gives _ h).congr fun k => ?_
    rw [hp]; rfl
  · rename_i hp
    exact (Gives.refl h).congr fun k => by simp [hp]

/-- The MARK entry an insertion for an index gives (R96). -/
def givenMark (s : State) (i : MarkIx) : Option Entry :=
  match s.plan.marks[i.val]? with
  | some m =>
    if m.enabled then some { key := .mark i, target := some m.angle, pulse := none, commit := none } else none
  | none => none

theorem insertMark_gives (i : MarkIx) {s : State} (h : s.KeySorted) :
    Gives (fun k => if k = .mark i then givenMark s i else none) s (insertMark i s) := by
  unfold insertMark givenMark
  rcases hm : s.plan.marks[i.val]? with _ | m
  · exact (Gives.refl h).congr fun k => by simp
  · cases he : m.enabled
    · simpa [he] using (Gives.refl h).congr fun k => by simp
    · simp only [he, if_true]
      exact (insertEntry_gives _ h).congr fun k => rfl

/-- What the ARM insertions of a list of cylinders give. -/
theorem insertArmList_gives (cs : List Cyl) : ∀ {s : State}, s.KeySorted →
    Gives (fun k => match k with | .arm c => if c ∈ cs then givenArm s c else none | _ => none) s
      (insertArmList cs s) := by
  induction cs with
  | nil => intro s h; exact (Gives.refl h).congr fun k => by cases k <;> simp
  | cons c cs ih =>
    intro s h
    have h1 := insertArm_gives c h
    obtain ⟨xs, hx⟩ := h1.entries
    have hs : ∀ d, givenArm (insertArm c s) d = givenArm s d := by intro d; rw [hx]; rfl
    refine (h1.trans (ih h1.sorted)).congr fun k => ?_
    cases k with
    | arm d =>
      by_cases hd : d = c
      · subst hd; by_cases hm : d ∈ cs <;> simp [hs, hm]
      · by_cases hm : d ∈ cs <;> simp [hs, hm, hd]
    | pulse _ _ => simp
    | mark _ => simp

/-- What the MARK insertions of a list of indices give. -/
theorem insertMarkList_gives (is : List MarkIx) : ∀ {s : State}, s.KeySorted →
    Gives (fun k => match k with | .mark i => if i ∈ is then givenMark s i else none | _ => none) s
      (insertMarkList is s) := by
  induction is with
  | nil => intro s h; exact (Gives.refl h).congr fun k => by cases k <;> simp
  | cons i is ih =>
    intro s h
    have h1 := insertMark_gives i h
    obtain ⟨xs, hx⟩ := h1.entries
    have hs : ∀ d, givenMark (insertMark i s) d = givenMark s d := by intro d; rw [hx]; rfl
    refine (h1.trans (ih h1.sorted)).congr fun k => ?_
    cases k with
    | mark d =>
      by_cases hd : d = i
      · subst hd; by_cases hm : d ∈ is <;> simp [hs, hm]
      · by_cases hm : d ∈ is <;> simp [hs, hm, hd]
    | pulse _ _ => simp
    | arm _ => simp

/-- What the ARM insertions of a START or a sync gain give: an entry for each defined cylinder (R93). -/
theorem insertArms_gives {s : State} (h : s.KeySorted) :
    Gives (fun k => match k with | .arm c => givenArm s c | _ => none) s (insertArms s) :=
  (insertArmList_gives Cyl.all h).congr fun k => by
    cases k with
    | arm c => simp [show c ∈ Cyl.all by cases c <;> decide]
    | _ => rfl

/-- What the MARK insertions of a sync gain give: an entry for each enabled mark (R96). -/
theorem insertMarks_gives {s : State} (h : s.KeySorted) :
    Gives (fun k => match k with | .mark i => givenMark s i | _ => none) s (insertMarks s) :=
  (insertMarkList_gives [0, 1, 2, 3, 4, 5, 6, 7] h).congr fun k => by
    cases k with
    | mark i => exact if_pos (by revert i; decide)
    | _ => rfl

/-- What a sync gain gives, from the queue with its commit reference absent (R21, R97). -/
theorem queueGain_gives {s : State} (h : s.KeySorted) :
    Gives (fun k => match k with
        | .mark i => givenMark s i
        | .arm c => if s.run.mode = .run then givenArm s c else none
        | .pulse _ _ => none)
      (s.withQueue { s.queue with commitRef := none }) (queueGain s) := by
  have g := insertMarks_gives (s := s.withQueue { s.queue with commitRef := none }) h
  obtain ⟨xs, hx⟩ := g.entries
  have hm : (insertMarks (s.withQueue { s.queue with commitRef := none })).run.mode = s.run.mode := by rw [hx]; rfl
  unfold queueGain
  by_cases hr : s.run.mode = .run
  · simp only [hm, hr, if_true]
    refine (g.trans (insertArms_gives g.sorted)).congr fun k => ?_
    cases k with
    | arm c => rw [hx]; rfl
    | mark i => exact Option.or_none
    | pulse _ _ => rfl
  · simp only [hm, hr, if_false]
    exact g.congr fun k => by cases k <;> rfl

end Sys2Proof.Machine
end

