-- ==== Sys2Proof/Laws/TrackerMoves.lean ====
section
/-! SUPPORT. The tracker's events as moves: first moves that may close a gate, then firing moves. -/

namespace Sys2Proof.Machine

/-- An event: moves that start nothing, then moves that close no gate. -/
def Event (s t : State) : Prop := ∃ u, Moves false s u ∧ Moves true u t

theorem Event.quiet {s t : State} (h : Moves false s t) : Event s t := ⟨t, h, .refl t⟩
theorem Event.firing {s t : State} (h : Moves true s t) : Event s t := ⟨s, .refl s, h⟩

theorem Event.before {s t u : State} (h : Moves false s t) (r : Event t u) : Event s u :=
  let ⟨v, h1, h2⟩ := r
  ⟨v, h.trans h1, h2⟩

theorem Event.bounded {s t : State} (h : Event s t) (b : s.Bounded) : t.Bounded :=
  let ⟨_, h1, h2⟩ := h
  h2.bounded (h1.bounded b)

theorem Event.gated {s t : State} (h : Event s t) (g : s.Gated) : t.Gated :=
  let ⟨_, h1, h2⟩ := h
  h2.gated (h1.gated g)

theorem Event.replies {s t : State} (h : Event s t) :
    t.link.replies.length ≤ s.link.replies.length :=
  let ⟨_, h1, h2⟩ := h
  h2.replies.trans h1.replies

theorem Event.resetHeld {s t : State} (h : Event s t) : t.resetHeld = s.resetHeld :=
  let ⟨_, h1, h2⟩ := h
  h2.resetHeld.trans h1.resetHeld

/-- A pulse that starts in an event finds the gates open and its cylinder's latch clear, and the gates are open after
it (R136, R150). -/
theorem Event.start_open {s t : State} (h : Event s t) (b : Bank) (st : Starts b s t) :
    GatesOpen t ∧ ∀ c, (t.bank b).boosts = some c → s.diag.disabled.get c = false := by
  obtain ⟨u, h1, h2⟩ := h
  have key : ∀ c, (t.bank b).boosts = some c → GatesOpen t ∧ s.diag.disabled.get c = false := by
    intro c hc
    rcases h2.boost_of b c hc with h3 | ⟨_, g, l⟩
    · have h4 := (BankState.isBoost_iff _).mpr ⟨c, h1.no_start b c h3⟩
      rw [st.1] at h4; cases h4
    · exact ⟨g, h1.unlatched c l⟩
  obtain ⟨c, hc⟩ := (BankState.isBoost_iff _).mp st.2
  exact ⟨(key c hc).1, fun d hd => (key d hd).2⟩

theorem Moves.afterTracker {k : Bool} {s t : State} (x : Tracker) (r : Moves k (s.withTracker x) t)
    (b : s.tracker.Bounded → x.Bounded)
    (h : s.tracker.sync.holdsAngle = true → x.sync.holdsAngle = true) : Moves k s t :=
  .step (.tracker x b h) r

/-! ## A withdrawal of everything -/

theorem emptyWaiting_all (x : BankState) : (x.emptyWaiting fun _ => true).waiting = none := by
  unfold BankState.emptyWaiting
  split
  · rfl
  · assumption

theorem withdrawPulses_entries (scope : Cyl → Bool) (r : WithdrawReason) (s : State) :
    (withdrawPulses scope r s).queue.entries = s.queue.entries.filter fun e => !e.pulseIn scope := by
  rw [withdrawPulses, (reportWithdrawn_closes r _ _).queue]
  rfl

theorem landIfPending_same (c : Option Cyl) (s : State) :
    (landIfPending c s).queue = s.queue ∧ (landIfPending c s).tracker = s.tracker
      ∧ (landIfPending c s).run = s.run ∧ ∀ b, (landIfPending c s).bank b = s.bank b := by
  unfold landIfPending
  split
  · have h := queueNotice_closes (.planSwapped s.plan.land.activePage.serial c) (s.withPlan s.plan.land)
    refine ⟨h.queue, h.tracker, ?_, h.bank⟩
    unfold landSwap queueNotice
    split <;> rfl
  · exact ⟨rfl, rfl, rfl, fun _ => rfl⟩

theorem landIfPending_diag (c : Option Cyl) (s : State) : (landIfPending c s).diag = s.diag := by
  unfold landIfPending
  split
  · exact (queueNotice_closes _ _).diag
  · rfl

theorem queueLoss_diag (s : State) : (queueLoss s).diag = s.diag :=
  (reportWithdrawn_closes .syncLost _ (dropPulses (fun _ => true) s)).diag

theorem queueLoss_bank (s : State) (b : Bank) :
    (queueLoss s).bank b = (s.bank b).emptyWaiting fun _ => true := by
  rw [← withdrawPulses_bank (fun _ => true) .syncLost s b]
  rfl

/-- A sync loss leaves the queue and the waiting slots empty (R22, R108). -/
theorem lossGated (c : Option Cyl) (s : State) : (landIfPending c (queueLoss s)).Gated := by
  obtain ⟨h1, h2, h3, h4⟩ := landIfPending_same c (queueLoss s)
  have he : (landIfPending c (queueLoss s)).queue.entries = [] := by rw [h1]; rfl
  have hw : ∀ b, ((landIfPending c (queueLoss s)).bank b).waiting = none := by
    intro b; rw [h4, queueLoss_bank]; exact emptyWaiting_all _
  refine ⟨?_, ?_, ?_, ?_, fun _ => hw, ?_, fun b r h => by rw [hw] at h; cases h⟩
  · rw [he]; intro e h; cases h
  · intro b h; rw [hw] at h; cases h
  · rw [he]; intro e h; cases h
  · rw [he]; intro _ e h; cases h
  · rw [he]; intro e h; cases h

/-! ## Changes of the sync state -/

theorem lose_bounded (old new : Sync) {t : Tracker} (h : t.Bounded) : (t.lose old new).Bounded := by
  unfold Tracker.lose
  split
  · exact ⟨h.1, Nat.zero_le _, h.3, h.4, h.5, h.6, h.7, h.8, h.9⟩
  · exact h

theorem withSync_bounded (new : Sync) {t : Tracker} (h : t.Bounded) : ({ t with sync := new } : Tracker).Bounded :=
  ⟨h.1, h.2, h.3, h.4, h.5, h.6, h.7, h.8, h.9⟩

/-- A change of the sync state starts no pulse; a sync loss leaves the queue empty (R20 to R23). -/
theorem moveTo_moves (new : Sync) (cause : SyncCause) (s : State) : Moves false s (moveTo new cause s) := by
  have hb : s.tracker.Bounded → ({ s.tracker.lose s.tracker.sync new with sync := new } : Tracker).Bounded :=
    fun h => withSync_bounded _ (lose_bounded _ _ h)
  have hc := queueNotice_closes (.syncChange s.tracker.sync new cause)
    (s.withTracker { s.tracker.lose s.tracker.sync new with sync := new })
  unfold moveTo
  generalize queueNotice (.syncChange s.tracker.sync new cause)
    (s.withTracker { s.tracker.lose s.tracker.sync new with sync := new }) = u at hc ⊢
  have hsync : u.tracker.sync = new := by rw [hc.tracker]; rfl
  unfold tellMove
  rcases ho : s.tracker.sync.holdsAngle with _ | _ <;> rcases hn : new.holdsAngle with _ | _
  · have h0 : Moves false s u := .step (.tracker _ hb (by simp [ho])) (.closes hc)
    simpa using h0
  · have h0 : Moves false s u := .step (.tracker _ hb (by simp [ho])) (.closes hc)
    simpa using h0.trans (queueGain_moves u (by rw [hsync]; exact hn))
  · have hm : Moves false u (landIfPending none (queueLoss u)) :=
      (queueLoss_moves u).trans (landIfPending_moves none _)
    simp only [Bool.false_eq_true, if_true, if_false]
    refine .one (.gate _ rfl ?_ ?_ (fun _ => lossGated none u) (hm.replies.trans hc.replies)
      (hm.resetHeld.trans hc.resetHeld) ?_)
    · intro b c h
      have h1 := hm.no_start b c h
      rw [hc.bank] at h1; simpa using h1
    rotate_left
    · rw [landIfPending_diag, queueLoss_diag, hc.diag]; rfl
    · intro hB
      exact hm.bounded ((Move.closes (k := false) _ hc).bounded
        { hB with tracker := hb hB.2 })
  · have h0 : Moves false s u := .step (.tracker _ hb (fun _ => hn)) (.closes hc)
    simp only [if_true]
    split
    · exact h0.trans (queueToCam_moves u)
    · split
      · exact h0.trans (queueToCrank_moves u)
      · exact h0

theorem setCamFault_moves {k : Bool} (c : CamFaultCause) (s : State) : Moves k s (setCamFault c s) := by
  refine Moves.afterTracker ({ s.tracker with camFault := true }) ?_
        (fun h => ⟨h.1, h.2, h.3, h.4, h.5, h.6, h.7, h.8, h.9⟩) id
  show Moves k _ (if _ then _ else _)
  split
  · exact .refl _
  · exact .closes (queueNotice_closes _ _)

theorem setCamFault_tracker (c : CamFaultCause) (s : State) :
    (setCamFault c s).tracker = { s.tracker with camFault := true } := by
  unfold setCamFault
  dsimp only
  split
  · rfl
  · rw [(queueNotice_closes _ _).tracker]; rfl

/-- The new sync state stands after a change of it. -/
theorem moveTo_sync (new : Sync) (cause : SyncCause) (s : State) : (moveTo new cause s).tracker.sync = new := by
  have h0 : (queueNotice (.syncChange s.tracker.sync new cause)
      (s.withTracker { s.tracker.lose s.tracker.sync new with sync := new })).tracker.sync = new := by
    rw [(queueNotice_closes _ _).tracker]; rfl
  have hw : ∀ u, (withdrawPulses (fun _ => true) .syncLost u).tracker = u.tracker := by
    intro u; rw [withdrawPulses, (reportWithdrawn_closes _ _ _).tracker]; rfl
  unfold moveTo tellMove
  generalize queueNotice (.syncChange s.tracker.sync new cause)
    (s.withTracker { s.tracker.lose s.tracker.sync new with sync := new }) = u at h0 ⊢
  have hg : (queueGain u).tracker = u.tracker := by
    have h1 : (insertMarks (u.withQueue { u.queue with commitRef := none })).tracker = u.tracker :=
      (insertMarkList_same _ _).1
    have h2 : ∀ (cs : List Cyl) (v : State), (insertArmList cs v).tracker = v.tracker := by
      intro cs
      induction cs with
      | nil => exact fun _ => rfl
      | cons c cs ih => exact fun v => (ih _).trans (insertArm_same c v).1
    unfold queueGain
    dsimp only
    split
    · exact (h2 _ _).trans h1
    · exact h1
  split
  · split
    · split
      · show (withdrawPulses _ _ u).tracker.sync = _
        rw [hw]; exact h0
      · split
        · exact h0
        · exact h0
    · rw [(landIfPending_same _ _).2.1]
      show (withdrawPulses _ _ u).tracker.sync = _
      rw [hw]; exact h0
  · split
    · rw [hg]; exact h0
    · exact h0

/-! ## Crank edges -/

theorem pushPeriod_length (t : Nat) (xs : List Nat) : (pushPeriod t xs).length ≤ 4 := by
  simp [pushPeriod]

theorem measure_bounded {t : Tracker} (a : Bool) (c : CrankClass) (i : Nat) (now : Tick) (h : t.Bounded) :
    (t.measure a c i now).Bounded := by
  refine ⟨?_, h.2, h.3, h.4, h.5, h.6, h.7, h.8, h.9⟩
  show (crankPushed c i t.crankHist).length ≤ 4
  cases c
  · exact pushPeriod_length _ _
  · exact pushPeriod_length _ _
  · exact Nat.zero_le _

theorem gapSearch_spec (t : Tracker) (c : CrankClass) :
    (t.Bounded → (t.gapSearch c).Bounded) ∧ (t.gapSearch c).sync = t.sync ∧ (t.gapSearch c).cam = t.cam := by
  unfold Tracker.gapSearch
  split <;> (try split) <;> (try split) <;>
    refine ⟨fun h => { h with gapCount := ?_, tooth := ?_ }, rfl, rfl⟩ <;>
    first
    | exact Nat.zero_le _
    | exact satAdd_le _ _ _
    | exact h.gapCount
    | exact h.tooth
    | (show (1 : Nat) ≤ 4; omega)
    | exact Nat.lt_of_le_of_ne h.tooth ‹_›

theorem crankSeeking_event (c : CrankClass) (s : State) : Event s (crankSeeking c s) := by
  obtain ⟨h1, h2, h3⟩ := gapSearch_spec s.tracker c
  unfold crankSeeking
  split
  · refine .quiet (Moves.afterTracker _ (moveTo_moves _ _ _) (fun h => ?_) (fun h => ?_))
    · have hb := h1 h
      exact ⟨hb.1, h.2, h.3, hb.4, hb.5, Nat.zero_le _, h.7, h.8, Nat.zero_le _⟩
    · show (s.tracker.gapSearch c).sync.holdsAngle = true
      rw [h2]; exact h
  · exact .quiet (.one (.tracker _ h1 (fun h => by rw [h2]; exact h)))

theorem countTooth_spec (t : Tracker) (c : CrankClass) :
    (gapError c t = false → t.Bounded → (t.countTooth c).Bounded) ∧ (t.countTooth c).sync = t.sync := by
  cases c
  · refine ⟨fun e h => { h with tooth := ?_ }, rfl⟩
    have e : t.tooth ≠ lastTooth t.wheel := by simpa [gapError] using e
    exact Nat.lt_of_le_of_ne h.tooth e
  · exact ⟨fun _ h => { h with gapCount := satAdd_le _ _ _, tooth := Nat.zero_le _ }, rfl⟩
  · exact ⟨fun e _ => absurd e (by simp [gapError]), rfl⟩

theorem countRevolution_moves {k : Bool} (s : State) : Moves k s (countRevolution s) := by
  unfold countRevolution
  split
  · rename_i h
    refine Moves.trans (.one (.tracker
      (s.tracker.withCam { s.tracker.cam with revsNoExtra := s.tracker.cam.revsNoExtra + 1 })
      (fun hb => ⟨hb.1, hb.2, hb.3, hb.4, hb.5, h.2, hb.7, hb.8, hb.9⟩) id)) ?_
    show Moves k _ (if _ then _ else _)
    split
    · exact setCamFault_moves _ _
    · exact .refl _
  · exact .refl s

theorem countRevolution_sync (s : State) : (countRevolution s).tracker.sync = s.tracker.sync := by
  unfold countRevolution
  split
  · show (if _ then _ else _ : State).tracker.sync = _
    split
    · rw [setCamFault_tracker]; rfl
    · rfl
  · rfl

theorem crankCounting_event (c : CrankClass) (s : State) (g : s.Gated) : Event s (crankCounting c s) := by
  unfold crankCounting
  split
  · refine .quiet (Moves.afterTracker (s.tracker.afterGapError c) (moveTo_moves _ _ _)
        (fun h => { h with gapCount := Nat.zero_le _, tooth := ?_ }) id)
    show (if c = .gap then 0 else s.tracker.tooth) ≤ lastTooth s.tracker.wheel
    split
    · exact Nat.zero_le _
    · exact h.tooth
  · rename_i he
    have he : gapError c s.tracker = false := by simpa using he
    obtain ⟨h1, h2⟩ := countTooth_spec s.tracker c
    have hm : Moves false s (countRevolution (s.withTracker { s.tracker.countTooth c with
        edgeAngle := some (countedAngle s.plan.engine.gapOffset (s.tracker.countTooth c)) })) :=
      Moves.afterTracker _ (countRevolution_moves _)
            (fun h => { h1 he h with })
            (fun h => by show (s.tracker.countTooth c).sync.holdsAngle = true; rw [h2]; exact h)
    refine .before hm ?_
    show Event _ (if _ then _ else _)
    split
    · rename_i hf
      exact .firing (handOn_moves _ (hm.gated g) (by rw [hf]; rfl))
    · exact .firing (.refl _)

theorem crankRestore_event (a : Nat) (s : State) (g : s.Gated) : Event s (crankRestore a s) := by
  unfold crankRestore
  split
  · have hm := Moves.afterTracker (s.tracker.restore s.plan.engine.gapOffset
      (nearerHalf s.plan.engine.gapOffset a).1) (moveTo_moves .fullSync .crankRestored (s.withTracker (s.tracker.restore s.plan.engine.gapOffset
        (nearerHalf s.plan.engine.gapOffset a).1))) (fun h => ⟨h.1, h.2, h.3, h.4, h.5, Nat.zero_le _, Nat.zero_le _, h.8, Nat.zero_le _⟩) id
    exact .before hm (.firing (handOn_moves _ (hm.gated g) (by rw [moveTo_sync]; rfl)))
  · exact .quiet (.one (.tracker { s.tracker with gapCount := 0 }
      (fun h => ⟨h.1, h.2, h.3, Nat.zero_le _, h.5, h.6, h.7, h.8, h.9⟩) id))

theorem crankRecovery_event (c : CrankClass) (s : State) (g : s.Gated) : Event s (crankRecovery c s) := by
  obtain ⟨h1, h2, -⟩ := gapSearch_spec s.tracker c
  have h0 : Moves false s (s.withTracker (s.tracker.gapSearch c)) :=
    .one (.tracker _ h1 (fun h => by rw [h2]; exact h))
  unfold crankRecovery
  split
  · split
    · exact .before h0 (crankRestore_event _ _ (h0.gated g))
    · exact .quiet h0
  · exact .quiet h0

theorem crankByState_event (c : CrankClass) (s : State) (g : s.Gated) : Event s (crankByState c s) := by
  unfold crankByState
  split
  · exact .quiet (.refl s)
  · exact crankSeeking_event c s
  · exact crankCounting_event c s g
  · exact crankCounting_event c s g
  · exact crankRecovery_event c s g

/-- A crank edge (R2). -/
theorem crankEdge_event (s : State) (g : s.Gated) : Event s (crankEdge s) := by
  unfold crankEdge
  split
  · unfold crankFirst
    split
    · refine .quiet (Moves.afterTracker _ (moveTo_moves _ _ _)
          (fun h => ⟨Nat.zero_le _, h.2, h.3, Nat.zero_le _, h.5, h.6, h.7, Nat.zero_le _, h.9⟩) id)
    · exact .quiet (.one (.tracker _ (fun h => ⟨h.1, h.2, h.3, h.4, h.5, h.6, h.7, h.8, h.9⟩) id))
  · rename_i p _
    unfold crankMeasured
    split
    · exact .quiet (.one (.tracker _
        (fun h => ⟨h.1, h.2, h.3, h.4, satAdd_le _ _ _, h.6, h.7, h.8, h.9⟩) id))
    · have h0 : Moves false s (s.withTracker (s.tracker.measure s.plan.engine.accelComp
          (crankClass s.tracker.crankHist (rawInterval p s.timebase)) (rawInterval p s.timebase)
          s.timebase)) := .one (.tracker _ (measure_bounded _ _ _ _) id)
      exact .before h0 (crankByState_event _ _ (h0.gated g))

/-! ## Cam edges -/

theorem pushRaw_length (i : Option Nat) (xs : List Nat) (h : xs.length ≤ 4) : (pushRaw i xs).length ≤ 4 := by
  cases i
  · exact h
  · simp [pushRaw]

theorem recordCam_bounded {t : Tracker} (now : Tick) (x : CamId) (h : t.Bounded) :
    (t.recordCam now x).Bounded :=
  ⟨h.1, h.2, pushRaw_length _ _ h.3, h.4, h.5, h.6, h.7, h.8, h.9⟩

theorem recordCam_moves {k : Bool} (now : Tick) (x : CamId) (s : State) :
    Moves k s (s.withTracker (s.tracker.recordCam now x)) :=
  .one (.tracker _ (recordCam_bounded _ _) id)

theorem camHalf_event (s : State) : Event s (camHalf s) := by
  unfold camHalf
  split
  · refine .quiet (Moves.afterTracker _ (moveTo_moves _ _ _) (fun h => ?_) id)
    have hb := recordCam_bounded s.timebase .extra h
    exact ⟨hb.1, hb.2, hb.3, hb.4, hb.5, Nat.zero_le _, Nat.zero_le _, hb.8, hb.9⟩
  · exact .quiet (recordCam_moves _ _ s)

theorem camPhantom_moves (s : State) : Moves false s (camPhantom s) := by
  unfold camPhantom
  split
  · exact .one (.tracker _ (fun h => ⟨h.1, h.2, h.3, h.4, h.5, Nat.zero_le _, le_rfl, h.8, h.9⟩) id)
  · refine Moves.afterTracker _ ((setCamFault_moves _ _).trans (moveTo_moves _ _ _)) (fun h => ?_) id
    exact ⟨h.1, h.2, h.3, h.4, h.5, Nat.zero_le _, Nat.zero_le _, h.8, h.9⟩

theorem feedFull_bounded {t : Tracker} (a : Bool) (now : Tick) (x : CamId) (h : t.Bounded) :
    (t.feedFull a now x).Bounded ∧ (t.feedFull a now x).sync = t.sync := by
  have hb := recordCam_bounded now x h
  unfold Tracker.feedFull
  split
  · exact ⟨⟨hb.1, pushPeriod_length _ _, hb.3, hb.4, hb.5, hb.6, hb.7, hb.8, hb.9⟩, rfl⟩
  · exact ⟨hb, rfl⟩

theorem feedFull_sync (t : Tracker) (a : Bool) (now : Tick) (x : CamId) :
    (t.feedFull a now x).sync = t.sync := by
  unfold Tracker.feedFull
  split <;> rfl

theorem camFull_event (s : State) : Event s (camFull s) := by
  have h0 : Moves false s (s.withTracker (s.tracker.feedFull s.plan.engine.accelComp s.timebase
      (identifyCam s))) :=
    .one (.tracker _ (fun h => (feedFull_bounded _ _ _ h).1) (fun h => by rw [feedFull_sync]; exact h))
  unfold camFull camIdentified
  refine .quiet (h0.trans ?_)
  split
  · exact .one (.tracker _ (fun h => ⟨h.1, h.2, h.3, h.4, h.5, Nat.zero_le _, Nat.zero_le _, h.8, h.9⟩) id)
  · exact camPhantom_moves _
  · exact .refl _
  · exact .refl _

theorem camMismatch_moves (s : State) : Moves false s (camMismatch s) := by
  unfold camMismatch
  refine Moves.afterTracker _ ((setCamFault_moves _ _).trans (moveTo_moves _ _ _)) (fun h => ?_) id
  exact ⟨h.1, h.2, pushRaw_length _ _ h.3, h.4, h.5, h.6, h.7, h.8, h.9⟩

theorem camLimpEdge_event (s : State) (g : s.Gated) (hs : s.tracker.sync = .camLimp) :
    Event s (camLimpEdge s) := by
  unfold camLimpEdge
  split
  · rename_i p x span _ _
    split
    · exact .quiet (.one (.tracker _
        (fun h => ⟨h.1, h.2, h.3, h.4, satAdd_le _ _ _, h.6, h.7, h.8, h.9⟩) id))
    · unfold camTested
      split
      · have h0 : Moves false s (s.withTracker (s.tracker.acceptCam s.plan.engine s.timebase
            (rawInterval p s.timebase) span x)) :=
          .one (.tracker _ (fun h => ⟨h.1, pushPeriod_length _ _, pushRaw_length (some _) _ h.3, h.4, h.5, h.6,
            h.7, h.8, h.9⟩) id)
        refine .before h0 (.firing (handOn_moves _ (h0.gated g) ?_))
        show s.tracker.sync.holdsAngle = true
        rw [hs]; rfl
      · exact .quiet (camMismatch_moves s)
  · exact .quiet (camMismatch_moves s)

theorem searched_le (c : CamHistory) (x : Bool) (h : c.candidates ≤ 2) : (searched c x).1 ≤ 2 := by
  unfold searched
  split
  · dsimp only; split <;> (try split) <;> omega
  · split
    · exact Nat.zero_le _
    · exact h

theorem startHistory_length (xs : List Nat) : (startHistory xs).length = xs.length := by
  cases xs <;> simp [startHistory]

theorem camStopped_event (s : State) (g : s.Gated) : Event s (camStopped s) := by
  unfold camStopped
  have h0 : Moves false s (s.withTracker ((s.tracker.recordCam s.timebase .unknown).withCam
      { (s.tracker.recordCam s.timebase .unknown).cam with
        candidates := (searched s.tracker.cam (isCandidate s.tracker.cam s.timebase)).1
        sinceCandidate := (searched s.tracker.cam (isCandidate s.tracker.cam s.timebase)).2 })) := by
    refine .one (.tracker _ (fun h => ?_) id)
    have hb := recordCam_bounded s.timebase .unknown h
    exact ⟨hb.1, hb.2, hb.3, hb.4, hb.5, hb.6, hb.7, searched_le _ _ h.8, h.9⟩
  refine .before h0 ?_
  have g1 := h0.gated g
  revert g1
  generalize s.withTracker _ = t
  intro g1
  show Event t (if _ then _ else _)
  split
  · have h2 : Moves false t (moveTo .camLimp .camStart (t.withTracker (t.tracker.startCam t.plan.engine))) := by
      refine Moves.afterTracker _ (moveTo_moves _ _ _) (fun h => ?_) id
      refine ⟨Nat.zero_le _, ?_, h.3, Nat.zero_le _, h.5, h.6, h.7, h.8, h.9⟩
      show (startHistory t.tracker.cam.raw).length ≤ 4
      rw [startHistory_length]; exact h.3
    exact .before h2 (.firing (handOn_moves _ (h2.gated g1) (by rw [moveTo_sync]; rfl)))
  · exact .quiet (.refl t)

/-- A cam edge (R9). -/
theorem camEdge_event (s : State) (g : s.Gated) : Event s (camEdge s) := by
  unfold camEdge
  split
  · exact camStopped_event s g
  · exact .quiet (recordCam_moves _ _ s)
  · exact camHalf_event s
  · exact camFull_event s
  · rename_i h; exact camLimpEdge_event s g h

/-! ## Deadlines, the stall timeout and a changed definition -/

theorem crankDeadline_moves (s : State) : Moves false s (crankDeadline s) := by
  unfold crankDeadline
  split
  · exact Moves.afterTracker _ (moveTo_moves _ _ _)
        (fun h => ⟨Nat.zero_le _, h.2, h.3, Nat.zero_le _, h.5, h.6, h.7, h.8, h.9⟩) id
  · exact Moves.afterTracker _ (moveTo_moves _ _ _)
        (fun h => ⟨Nat.zero_le _, h.2, h.3, Nat.zero_le _, h.5, h.6, h.7, h.8, h.9⟩) id

theorem camDeadline_moves (s : State) : Moves false s (camDeadline s) := by
  unfold camDeadline
  exact Moves.afterTracker _ ((setCamFault_moves _ _).trans (moveTo_moves _ _ _))
        (fun h => ⟨h.1, h.2, h.3, h.4, h.5, h.6, h.7, h.8, h.9⟩) id

theorem resetCam_bounded {t : Tracker} (h : t.Bounded) : (t.withCam resetCam).Bounded :=
  ⟨h.1, Nat.zero_le _, Nat.zero_le _, h.4, h.5, Nat.zero_le _, Nat.zero_le _, Nat.zero_le _, h.9⟩

theorem stall_moves (s : State) : Moves false s (stall s) := by
  unfold stall
  split
  · exact .one (.tracker _ resetCam_bounded id)
  · exact Moves.afterTracker _ (moveTo_moves _ _ _)
        (fun h => ⟨Nat.zero_le _, Nat.zero_le _, Nat.zero_le _, Nat.zero_le _, h.5, Nat.zero_le _,
        Nat.zero_le _, Nat.zero_le _, Nat.zero_le _⟩) id

theorem definitionMove_moves (s : State) : Moves false s (definitionMove s) := by
  unfold definitionMove
  split
  · exact Moves.afterTracker _ (moveTo_moves _ _ _)
        (fun h => ⟨h.1, h.2, h.3, Nat.zero_le _, h.5, h.6, h.7, h.8, h.9⟩) id
  · exact .refl s

end Sys2Proof.Machine
end

