-- ==== Sys2Proof/Laws/RowMoves.lean ====
section
/-! SUPPORT. What the events of the part, the requests and an idle part can do to the state: each is an event
(`Event`), or answers a request after quiet moves (`Reached`). -/

namespace Sys2Proof.Machine

/-! ## Changes of the gates -/

/-- Any change of the link that keeps its bounds and adds no reply. -/
theorem withLink_closes {s : State} (l : Link) (b : s.link.Bounded → l.Bounded)
    (r : l.replies.length ≤ s.link.replies.length) : Closes s (s.withLink l) :=
  ⟨rfl, .inl rfl, b, r⟩

/-- A change of Run Control in which a gate may close and RUN may end, where what the queue holds allows it. -/
theorem withRun_gate {s : State} (x : RunControl) (hb : s.run.Bounded → x.Bounded)
    (m : s.run.mode = .run → x.mode ≠ .run → ∀ e ∈ s.queue.entries, e.isArm = false)
    (f : x.fuelcut = true → s.run.fuelcut = true) : Moves false s (s.withRun x) := by
  refine .one (.gate _ rfl (fun b c hb => by simpa using hb) (fun h => { h with run := hb h.run })
    (fun g => ⟨g.entryAngle, fun b hb => g.waitAngle b (by simpa using hb), fun e he ha => ?_,
      fun hf => g.cutEntry (f hf), fun hf b => by simpa using g.cutWait (f hf) b, g.latchEntry,
      fun b r hr => g.latchWait b r (by simpa using hr)⟩) le_rfl rfl rfl)
  by_contra hx
  have := m (g.armRun e he ha) hx e he
  rw [ha] at this; cases this

theorem pulseIn_all (e : Entry) : e.pulseIn (fun _ => true) = e.isPulse := by
  unfold Entry.pulseIn Entry.isPulse
  cases e.key <;> rfl

/-- The fuel cut asserted with its notice and its withdrawals: no PULSE entry and no waiting start is left
(R83, R109, R152). -/
theorem fuelcut_gate (s : State) :
    Moves false s (withdrawPulses (fun _ => true) .fuelcut (setFuelcut true s)) := by
  have hc : Closes (s.withRun { s.run with fuelcut := true }) (setFuelcut true s) := queueNotice_closes _ _
  have hw : Moves false (setFuelcut true s) (withdrawPulses (fun _ => true) .fuelcut (setFuelcut true s)) :=
    withdrawPulses_moves _ _ _
  have hr : (setFuelcut true s).run = { s.run with fuelcut := true } := by
    rcases hc.run with h | ⟨_, h⟩
    · exact h
    · unfold setFuelcut queueNotice at *
      split <;> rfl
  have hd : (withdrawPulses (fun _ => true) .fuelcut (setFuelcut true s)).diag = s.diag :=
    ((reportWithdrawn_closes _ _ (dropPulses (fun _ => true) (setFuelcut true s))).diag.trans hc.diag)
  refine .one (.gate _ rfl (fun b c hb => ?_) (fun h => ?_) (fun g => ?_) ?_ (hw.resetHeld.trans hc.resetHeld)
    (congrArg Diagnosis.disabled hd))
  · have h1 := hw.no_start b c hb
    rw [hc.bank, State.withRun_bank] at h1
    exact h1
  · refine hw.bounded ((Move.closes (k := false) _ hc).bounded { h with })
  · have he : (withdrawPulses (fun _ => true) .fuelcut (setFuelcut true s)).queue.entries
        = s.queue.entries.filter fun e => !e.isPulse := by
      rw [withdrawPulses_entries, hc.queue]
      simp only [pulseIn_all]; rfl
    have ht : (withdrawPulses (fun _ => true) .fuelcut (setFuelcut true s)).tracker = s.tracker := by
      rw [withdrawPulses, (reportWithdrawn_closes _ _ _).tracker]
      show (setFuelcut true s).tracker = _
      rw [hc.tracker]; rfl
    have hb : ∀ b, ((withdrawPulses (fun _ => true) .fuelcut (setFuelcut true s)).bank b).waiting = none := by
      intro b; rw [withdrawPulses_bank]; exact emptyWaiting_all _
    have hm : s.run.mode = .run →
        (withdrawPulses (fun _ => true) .fuelcut (setFuelcut true s)).run.mode = .run := by
      intro hm
      rw [withdrawPulses]
      refine (reportWithdrawn_closes _ _ _).mode_run ?_
      show (setFuelcut true s).run.mode = .run
      rw [hr]; exact hm
    refine ⟨?_, ?_, ?_, ?_, fun _ => hb, ?_, fun b r h => by rw [hb] at h; cases h⟩
    · rw [he, ht]; intro e h; exact g.entryAngle e (List.mem_filter.mp h).1
    · intro b h; rw [hb] at h; cases h
    · rw [he]; intro e h ha; exact hm (g.armRun e (List.mem_filter.mp h).1 ha)
    · rw [he]; intro _ e h; simpa using (List.mem_filter.mp h).2
    · rw [he, hd]; exact fun e h => g.latchEntry e (List.mem_filter.mp h).1
  · exact hw.replies.trans hc.replies

/-! ## The events of the banks and of Circuit Diagnosis -/

theorem enterHold_moves (b : Bank) (p : Pulse) (s : State) : Moves false s (enterHold b p s) :=
  (Moves.one (.bank b { s.bank b with drive := .hold p }
    ⟨(fun _ h => by cases h), .inl rfl, fun h => ⟨h.1, h.2⟩⟩)).trans (settleRecharge_moves _ _)

theorem peakArrives_moves (b : Bank) (s : State) : Moves false s (peakArrives b s) := by
  unfold peakArrives
  split
  · exact enterHold_moves _ _ s
  · exact .refl s

theorem boostLimitExpires_moves (b : Bank) (s : State) : Moves false s (boostLimitExpires b s) := by
  unfold boostLimitExpires
  split
  · exact enterHold_moves _ _ s
  · exact .refl s

theorem recordCur_moves (b : Bank) (x : Bool) (s : State) : Moves false s (recordCur b x s) := by
  refine .one (.bank b _ ⟨fun c h => ?_, .inl rfl, fun h => ⟨h.1, h.2⟩⟩)
  revert h
  unfold BankState.boosts
  dsimp only
  cases (s.bank b).drive <;> exact id

theorem overcurrentArrives_moves (b : Bank) (s : State) : Moves false s (overcurrentArrives b s) := by
  unfold overcurrentArrives
  split
  · exact endPulse_moves _ _ _ s
  · split
    · exact endCoilCheck_moves _ _ s
    · exact .refl s

theorem coilCurrent_moves (b : Bank) (s : State) : Moves false s (coilCurrent b s) := by
  unfold coilCurrent
  split
  · split
    · exact .one (.diag _ id rfl)
    · exact .refl s
  · exact .refl s

theorem coilWindowEnds_moves (s : State) : Moves false s (coilWindowEnds s) := by
  unfold coilWindowEnds
  split
  · exact endCoilCheck_moves _ _ s
  · exact .refl s

/-! ## The events of Run Control -/

theorem forCyls_closes (f : Cyl → State → State) (h : ∀ c s, Closes s (f c s)) (cs : List Cyl) :
    ∀ s, Closes s (forCyls f cs s) := by
  induction cs with
  | nil => exact Closes.refl
  | cons c cs ih => exact fun s => (h c s).trans (ih _)

/-- The forced end of a drain (R148). -/
theorem forceDrain_moves (s : State) (d : s.run.mode = .drain) : Moves false s (forceDrain s) := by
  have h1 : Moves false s (dropPulses (fun _ => true) s) := dropPulses_moves _ s
  have h2 : Closes (dropPulses (fun _ => true) s) (forceSlots (dropPulses (fun _ => true) s)) :=
    forCyls_closes _ (fun c t => updateSlots_closes _ _ t) _ _
  have h12 := h1.trans (.closes (k := false) h2)
  have hm : (forceSlots (dropPulses (fun _ => true) s)).run.mode ≠ .run := by
    have h3 : (dropPulses (fun _ => true) s).run = s.run := by simp [dropPulses]
    rcases h2.run with h | ⟨_, h⟩ <;> rw [h] <;> simp [h3, d]
  have h3 : Moves false (forceSlots (dropPulses (fun _ => true) s))
      (haltRun (forceSlots (dropPulses (fun _ => true) s))) :=
    withRun_gate _ id (fun h => absurd h hm) id
  unfold forceDrain
  refine (h12.trans h3).trans ?_
  refine Moves.trans ?_ (.closes (queueNotice_closes _ _))
  refine Moves.trans ?_ (.closes (forCyls_closes _ closeTest_closes _ _))
  exact (endPulse_moves _ _ _ _).trans (endPulse_moves _ _ _ _)

theorem lineChanges_moves (x : Bool) (s : State) : Moves false s (lineChanges x s) := by
  unfold lineChanges
  split
  · exact .refl s
  · exact .one (.run _ ⟨id, rfl, rfl, id⟩)

theorem assertFuelcut_moves (s : State) : Moves false s (assertFuelcut s) :=
  (((abortCoilCheck_moves _ s).trans (fuelcut_gate _)).trans (cutPulse_moves _ _)).trans (cutPulse_moves _ _)

theorem releaseFuelcut_moves (s : State) : Moves false s (setFuelcut false s) :=
  (withRun_gate { s.run with fuelcut := false } id (fun h h' => absurd h h') (fun h => by cases h)).trans
    (.closes (queueNotice_closes _ _))

theorem changeBand_moves (x : SupplyBand) (s : State) : Moves false s (changeBand x s) := by
  unfold changeBand
  exact (((withRun_gate { s.run.clearFilter with band := x } (fun _ => Nat.zero_le _) (fun h h' => absurd h h') id).trans
    (settleRecharge_moves _ _)).trans (settleRecharge_moves _ _)).trans (.closes (queueNotice_closes _ _))

theorem countSample_quiet (r : RunControl) (x : SupplyBand) (h : (r.countSample x).fullRun = none) :
    r.Quiet (r.countSample x) := by
  revert h
  unfold RunControl.countSample
  split
  · intro h
    refine ⟨fun hb => ?_, rfl, rfl, id⟩
    have hb : r.filterRun ≤ 3 := hb
    have hn : r.filterRun + 1 ≠ 4 := fun e => by simp [RunControl.fullRun, e, Config.filterLength] at h
    show r.filterRun + 1 ≤ 3
    omega
  · exact fun _ => ⟨fun _ => (by decide : 1 ≤ 3), rfl, rfl, id⟩

/-- A band change hides the run that led to it (R155). -/
theorem changeBand_counted (x y : SupplyBand) (s : State) :
    Moves false s (changeBand y (s.withRun (s.run.countSample x))) := by
  have h : (s.run.countSample x).clearFilter = s.run.clearFilter := by
    unfold RunControl.countSample; split <;> rfl
  have h2 : (s.run.countSample x).band = s.run.band := by
    unfold RunControl.countSample; split <;> rfl
  have h3 : changeBand y (s.withRun (s.run.countSample x)) = changeBand y s := by
    simp only [changeBand, State.withRun_run, State.withRun_withRun, h, h2]
  rw [h3]; exact changeBand_moves y s

theorem filterSample_moves (x : SupplyBand) (s : State) : Moves false s (filterSample x s) := by
  unfold filterSample
  split
  · exact .one (.run _ ⟨fun _ => Nat.zero_le _, rfl, rfl, id⟩)
  · split
    · exact changeBand_counted _ _ s
    · rename_i h
      exact .one (.run _ (countSample_quiet _ _ h))

theorem takeSample_moves (v : Nat) (s : State) : Moves false s (takeSample v s) := by
  unfold takeSample
  refine Moves.trans (.one (.run { s.run with lastSample := later s.run.lastSample Config.sampleTicks } ?_))
    (filterSample_moves _ _)
  exact ⟨fun h => (show s.run.filterRun ≤ 3 from h), rfl, rfl, id⟩

theorem windowEnds_moves (n : Nat) (s : State) : Moves false s (windowEnds n s) := by
  unfold windowEnds
  split
  · exact (Moves.one (.run { s.run with clock := .backup, monitor := false } ⟨id, rfl, rfl, id⟩)).trans
      (.closes (queueNotice_closes _ _))
  · exact .refl s

/-! ## The events of the link, the queue's strobe, the resets -/

theorem endFrame_closes (s : State) : Closes s (endFrame s) := by
  refine withLink_closes _ (fun h => takeFrame_bounded _ ⟨h.1, h.2, h.3, h.4, h.5⟩) ?_
  exact (takeFrame_spec { s.link with sending := none } s.timebase).2.2.2.2.2.2.1

theorem endStrobe_moves (s : State) : Moves false s (endStrobe s) := .one (.queue _ (.of_eq _ _ rfl))

/-- A power-on or pin reset leaves every table within its bounds and every gate's law kept. -/
theorem resetState_sound (w : Wheel) (l : Bool) (v : Feed) (p : List Instr) :
    (resetState w l v p).Bounded ∧ (resetState w l v p).Gated := by
  refine ⟨⟨⟨Nat.zero_le _, Nat.zero_le _, Nat.zero_le _, Nat.zero_le _, Nat.zero_le _⟩,
      ⟨Nat.zero_le _, Nat.zero_le _, Nat.zero_le _, Nat.zero_le _, Nat.zero_le _, Nat.zero_le _,
        Nat.zero_le _, Nat.zero_le _, Nat.zero_le _⟩, ⟨Nat.one_pos, Nat.one_pos, Nat.zero_le _⟩,
      ⟨Nat.zero_le _, Nat.zero_le _⟩, ⟨Nat.zero_le _, Nat.zero_le _⟩, fun c => ?_,
      ⟨.nil, Nat.zero_le _⟩, Nat.zero_le _⟩,
    (fun _ h => by cases h), (fun b h => by cases b <;> cases h), (fun _ h => by cases h),
      (fun _ _ h => by cases h), (fun _ b => by cases b <;> rfl), (fun _ h => by cases h),
      fun b _ h => by cases b <;> cases h⟩
  show (PerCyl.fill 0).get c ≤ _
  rw [PerCyl.get_fill]; exact Nat.zero_le _

/-- The assertion of RESET_N switches off, and then no event is taken. -/
theorem assertReset_sound (s : State) :
    (s.Bounded → (assertReset s).Bounded) ∧ (s.Gated → (assertReset s).Gated) := by
  have hq : ∀ (b : Bank) (x : BankState) (t : State), t.bank b = x →
      Moves false t (t.withBank b x.switchedOff) := fun b x t h =>
    .one (.bank b _ ⟨(fun _ h => by cases h), .inr rfl, fun hb => by rw [h] at hb; exact ⟨hb.1, hb.2⟩⟩)
  have h : Moves false s (((((s.withBank .bankA s.bankA.switchedOff).withBank .bankB
      s.bankB.switchedOff).withDiag { s.diag with coil := none }).withQueue
      { s.queue with strobeUntil := none }).withLink { s.link with sending := none }) :=
    ((((hq .bankA s.bankA _ rfl).trans (hq .bankB s.bankB _ rfl)).trans
      (.one (.diag { s.diag with coil := none } id rfl))).trans
      (.one (.queue { s.queue with strobeUntil := none } (.of_eq _ _ rfl)))).trans
      (.closes (withLink_closes { s.link with sending := none } (fun h => ⟨h.1, h.2, h.3, h.4, h.5⟩) le_rfl))
  refine ⟨fun b => { h.bounded b with }, fun g => ?_⟩
  have g := h.gated g
  exact ⟨g.1, fun b => by cases b; exacts [g.2 .bankA, g.2 .bankB], g.3, g.4,
    (fun hf b => by cases b; exacts [g.5 hf .bankA, g.5 hf .bankB]), g.6,
    fun b => by cases b; exacts [g.7 .bankA, g.7 .bankB]⟩

/-! ## The requests -/

theorem storeEngine_moves (e : EngineRec) (s : State) : Moves false s (storeEngine e s) := by
  refine .one (.plan _ fun h => ⟨h.1, h.2, ?_⟩)
  have h3 := h.3
  show expiryUnder s.plan e ≤ e.planExpiry
  unfold expiryUnder
  split
  · omega
  · exact Nat.min_le_right _ _

theorem engineStored_moves (o : EngineRec) (s : State) : Moves false s (engineStored o s) := by
  have h1 : Moves false s (moveIfPlaced o s) := by
    unfold moveIfPlaced; split
    · exact definitionMove_moves s
    · exact .refl s
  have h2 : ∀ t, Moves false t (staleIfChanged o t) := by
    intro t; unfold staleIfChanged; split
    · exact .refl t
    · exact staleTest_moves t
  have h3 : ∀ t, Moves false t (stallIfDue t) := by
    intro t; unfold stallIfDue; split
    · exact stall_moves t
    · exact .refl t
  exact (h1.trans (h2 _)).trans (h3 _)

theorem answerSetEngine_moves (p : List Byte) (s : State) : Moves false s (answerSetEngine p s).2 := by
  unfold answerSetEngine
  split
  · exact .refl s
  · split
    · exact .refl s
    · exact (storeEngine_moves _ s).trans (engineStored_moves _ _)

theorem answerSetCylinder_moves (p : List Byte) (s : State) : Moves false s (answerSetCylinder p s).2 := by
  unfold answerSetCylinder
  split
  · unfold setCylinder
    split
    · exact .refl s
    · split
      · exact .refl s
      · exact .one (.plan _ fun h => ⟨h.1, h.2, h.3⟩)
  · exact .refl s

theorem setPage_bounded {p : PlanStore} (ix : PageIx) (x : PlanPage) (h : p.Bounded) :
    (p.setPage ix x).Bounded := by
  cases ix <;> exact ⟨h.1, h.2, h.3⟩

theorem answerSetPulses_moves (p : List Byte) (s : State) : Moves false s (answerSetPulses p s).2 := by
  unfold answerSetPulses
  split
  · unfold setPulses
    split
    · exact .refl s
    · split
      · exact .refl s
      · split
        · exact .refl s
        · exact .one (.plan _ (setPage_bounded _ _))
  · exact .refl s

theorem askSwap_bounded {p : PlanStore} (n : Nat) (h : p.Bounded) : (p.askSwap n).Bounded := by
  have := setPage_bounded p.active.other { p.page p.active.other with serial := n } h
  exact ⟨this.1, this.2, this.3⟩

theorem answerSwapPlan_moves (p : List Byte) (s : State) : Moves false s (answerSwapPlan p s).2 := by
  unfold answerSwapPlan
  split
  · exact .refl s
  · split
    · exact .one (.plan _ (askSwap_bounded _))
    · exact .one (.plan _ fun h => land_bounded (askSwap_bounded _ h))

theorem answerSetMark_moves (p : List Byte) (s : State) : Moves false s (answerSetMark p s).2 := by
  unfold answerSetMark
  split
  · rename_i i m _
    show Moves false s (storeMark i m s)
    unfold storeMark
    refine Moves.trans (.one (.plan { s.plan with marks := s.plan.marks.set i m } fun h => ⟨h.1, h.2, h.3⟩)) ?_
    show Moves false _ (if _ then _ else _)
    split
    · exact markChanged_moves _ _
    · exact .refl _
  · exact .refl s

theorem derate_bounded (p : List Byte) : derateKOf p < derateNOf p ∧ 0 < derateNOf p := by
  unfold derateKOf derateNOf clampTo
  omega

theorem answerTestCut_moves (p : List Byte) (s : State) : Moves false s (answerTestCut p s).2 := by
  have h : ∀ t, Moves false s (setTestCut t s) := fun t => .one (.plan _ fun h => ⟨h.1, h.2, h.3⟩)
  unfold answerTestCut
  split
  · exact h _
  · split
    · exact .refl s
    · split
      · exact h _
      · exact .refl s

theorem answerSetNotices_moves (p : List Byte) (s : State) : Moves false s (answerSetNotices p s).2 := by
  unfold answerSetNotices
  split
  · exact .closes (withLink_closes _ (fun h => ⟨h.1, h.2, h.3, h.4, h.5⟩) le_rfl)
  · exact .refl s

theorem insertArms_moves (s : State) (h : s.tracker.sync.holdsAngle = true) (m : s.run.mode = .run) :
    Moves false s (insertArms s) := insertArmList_moves _ s h m

theorem enterRun_moves (s : State) : Moves false s (enterRun s) := by
  refine Moves.trans (.one (.run { s.run with mode := .run, drainAt := none } ⟨id, rfl, rfl, fun _ => rfl⟩)) ?_
  show Moves false _ (if _ then _ else _)
  split
  · rename_i h; exact insertArms_moves _ h rfl
  · exact .refl _

theorem answerStart_moves (p : List Byte) (s : State) : Moves false s (answerStart p s).2 := by
  unfold answerStart
  split
  · exact .refl s
  · exact enterRun_moves s
  · split
    · exact enterRun_moves s
    · exact .refl s

theorem removeArms_none (s : State) : ∀ e ∈ (removeArms s).queue.entries, e.isArm = false := by
  intro e h
  have := (List.mem_filter.mp h).2
  unfold Entry.isArm
  revert this
  cases e.key <;> simp

theorem stopRun_moves (s : State) : Moves false s (stopRun s) := by
  refine ((removeArms_moves s).trans (landIfPending_moves none _)).trans ?_
  have h : ∀ e ∈ (landIfPending none (removeArms s)).queue.entries, e.isArm = false := by
    rw [(landIfPending_same none _).1]; exact removeArms_none s
  show Moves false _ (if _ then _ else _)
  split
  · exact withRun_gate _ id (fun _ _ => h) id
  · exact (withRun_gate { (landIfPending none (removeArms s)).run with mode := .halt, drainAt := none }
      id (fun _ _ => h) id).trans (.closes (queueNotice_closes _ _))

theorem answerStop_moves (p : List Byte) (s : State) : Moves false s (answerStop p s).2 := by
  unfold answerStop
  split
  · exact stopRun_moves s
  · exact .refl s
  · exact .refl s

/-- The parts of RESET_RUN before the cuts: RUN ends with no ARM entry left (R44, R65, R112, R149). -/
theorem clearRun_moves (s : State) (x : PlanStore) (hx : s.plan.Bounded → x.Bounded) :
    Moves false s (removeArms (dropPulses (fun _ => true) (discardCycles (haltRun (s.withPlan x))))) := by
  refine .one (.gate _ rfl (fun b c hb => ?_) (fun h => ?_) (fun g => ?_) le_rfl rfl rfl)
  · have h1 : (removeArms (dropPulses (fun _ => true) (discardCycles (haltRun (s.withPlan x))))).bank b
        = (s.bank b).emptyWaiting fun _ => true := by cases b <;> rfl
    rw [h1, BankState.boosts_of_drive (emptyWaiting_drive _ _)] at hb; exact hb
  · have h1 : (discardCycles (haltRun (s.withPlan x))).Bounded :=
      { h with plan := hx h.plan }
    exact ((dropPulses_moves (k := false) _ _).trans (removeArms_moves _)).bounded h1
  · have hw : ∀ b, ((removeArms (dropPulses (fun _ => true) (discardCycles (haltRun (s.withPlan x))))).bank
        b).waiting = none := by
      intro b
      have h1 : (removeArms (dropPulses (fun _ => true) (discardCycles (haltRun (s.withPlan x))))).bank b
          = (s.bank b).emptyWaiting fun _ => true := by cases b <;> rfl
      rw [h1]; exact emptyWaiting_all _
    have hm : ∀ e ∈ (removeArms (dropPulses (fun _ => true) (discardCycles (haltRun
        (s.withPlan x))))).queue.entries, e ∈ s.queue.entries ∧ e.isPulse = false := by
      intro e he
      have h1 := (List.mem_filter.mp he).1
      have h2 := List.mem_filter.mp h1
      exact ⟨h2.1, by simpa [pulseIn_all] using h2.2⟩
    refine ⟨fun e he => g.entryAngle e (hm e he).1, (fun b h => by rw [hw] at h; cases h), ?_,
      fun _ e he => (hm e he).2, fun _ => hw, fun e he => g.latchEntry e (hm e he).1,
      fun b r h => by rw [hw] at h; cases h⟩
    intro e he ha
    rw [removeArms_none _ e he] at ha; cases ha

theorem resetRun_moves (s : State) : Moves false s (resetRun s) := by
  have h0 : Moves false s (emptyNotices s) :=
    .closes (withLink_closes _ (fun h => ⟨h.1, h.2, Nat.zero_le _, Nat.zero_le _, h.5⟩) le_rfl)
  have h1 : Moves false (emptyNotices s) (clearRun (emptyNotices s)) :=
    clearRun_moves _ (emptyNotices s).plan.resetRun
      (fun h => ⟨h.1, Nat.lt_of_le_of_lt (Nat.zero_le _) h.1, Nat.zero_le _⟩)
  exact (((h0.trans h1).trans (cutPulse_moves _ _)).trans (cutPulse_moves _ _)).trans (abortCoilCheck_moves _ _)

/-- The state as it is, or with Circuit Diagnosis changed so that a latch may be cleared and none is set (R136). -/
def Cleared (s t : State) : Prop :=
  t = s ∨ ∃ x : Diagnosis, t = s.withDiag x ∧ (s.diag.Bounded → x.Bounded) ∧
    ∀ c, x.disabled.get c = true → s.diag.disabled.get c = true

theorem Cleared.bounded {s t : State} (h : Cleared s t) (b : s.Bounded) : t.Bounded := by
  rcases h with rfl | ⟨x, rfl, hx, _⟩
  · exact b
  · exact { b with diag := hx b.diag }

theorem Cleared.gated {s t : State} (h : Cleared s t) (g : s.Gated) : t.Gated := by
  rcases h with rfl | ⟨x, rfl, _, hx⟩
  · exact g
  · have clear : ∀ c, s.diag.disabled.get c = false → x.disabled.get c = false := by
      intro c hc
      by_contra hn
      rw [hx c (by simpa using hn)] at hc; cases hc
    exact ⟨g.entryAngle, fun b h => g.waitAngle b (by simpa using h), g.armRun, g.cutEntry,
      fun hf b => by simpa using g.cutWait hf b, fun e he c n hk => clear c (g.latchEntry e he c n hk),
      fun b r hr => clear _ (g.latchWait b r (by simpa using hr))⟩

theorem Cleared.same {s t : State} (h : Cleared s t) :
    t.resetHeld = s.resetHeld ∧ t.link = s.link ∧ ∀ b, t.bank b = s.bank b := by
  rcases h with rfl | ⟨x, rfl, _, _⟩
  · exact ⟨rfl, rfl, fun _ => rfl⟩
  · exact ⟨rfl, rfl, fun b => by simp⟩

theorem answerClearFault_cleared (p : List Byte) (s : State) : Cleared s (answerClearFault p s).2 := by
  unfold answerClearFault
  split
  · rename_i c _
    refine .inr ⟨_, rfl, fun h d => ?_, fun d hd => ?_⟩
    · show (s.diag.score.set c 0).get d ≤ _
      rw [PerCyl.get_set]
      split
      · exact Nat.zero_le _
      · exact h d
    · have hd : (s.diag.disabled.set c false).get d = true := hd
      rw [PerCyl.get_set] at hd
      split at hd
      · cases hd
      · exact hd
  · exact .inl rfl

theorem answerCoilCheck_moves (p : List Byte) (s : State) : Moves false s (answerCoilCheck p s).2 := by
  unfold answerCoilCheck
  split
  · exact .refl s
  · split
    · exact .refl s
    · unfold coilCheckOf
      split
      · exact .refl s
      · split
        · exact .refl s
        · exact .one (.diag _ id rfl)

/-- Every owner of a request kind but CLEAR_FAULT makes quiet moves alone (R136, R165). -/
theorem ownerOf_quiet {n : Nat} {owner : Owner} (h : ownerOf n = some owner) (hc : n ≠ 0x16) (p : List Byte)
    (s : State) : Moves false s (owner p s).2 := by
  unfold ownerOf at h
  split at h <;> cases h
  · exact .refl s
  · exact .closes (withLink_closes _ (fun h => ⟨h.1, h.2, h.3, Nat.zero_le _, h.5⟩) le_rfl)
  · exact .one (.tracker _ (fun h => ⟨h.1, h.2, h.3, h.4, Nat.zero_le _, h.6, h.7, h.8, h.9⟩) id)
  · exact answerSetEngine_moves p s
  · exact .refl s
  · exact answerSetCylinder_moves p s
  · unfold answerGetCylinder; split <;> exact .refl s
  · exact answerSetPulses_moves p s
  · unfold answerGetPulses; split <;> exact .refl s
  · unfold answerCopyPage
    split
    · exact .refl s
    · exact .one (.plan _ (setPage_bounded _ _))
  · exact answerSwapPlan_moves p s
  · exact .one (.plan _ fun h => ⟨h.1, h.2, Nat.zero_le _⟩)
  · unfold answerSetWindow
    split
    · exact .one (.plan _ fun h => ⟨h.1, h.2, h.3⟩)
    · exact .refl s
  · exact answerSetMark_moves p s
  · exact .one (.plan _ fun h => ⟨(derate_bounded p).1, (derate_bounded p).2, h.3⟩)
  · exact answerTestCut_moves p s
  · exact answerSetNotices_moves p s
  · exact answerStart_moves p s
  · exact answerStop_moves p s
  · exact resetRun_moves s
  · unfold answerGetCycle; split <;> exact .refl s
  · exact absurd rfl hc
  · exact .one (.tracker _ (fun h => ⟨h.1, h.2, h.3, h.4, h.5, h.6, h.7, h.8, h.9⟩) id)
  · exact answerCoilCheck_moves p s

/-- Every owner of a request kind makes quiet moves alone, or clears a latch (R136, R165). -/
theorem ownerOf_moves {n : Nat} {owner : Owner} (h : ownerOf n = some owner) (p : List Byte) (s : State) :
    Moves false s (owner p s).2 ∨ Cleared s (owner p s).2 := by
  by_cases hc : n = 0x16
  · subst hc; cases h; exact .inr (answerClearFault_cleared p s)
  · exact .inl (ownerOf_quiet h hc p s)

/-! ## What a command or an idle part leads to -/

/-- A state reached by an event, by the answer to a request (quiet moves, a latch that may be cleared, and a reply,
which found room in the reply queue, R165), or by a reset. -/
inductive Reached (s : State) : State → Prop
  | event {t : State} (h : Event s t) : Reached s t
  | reset {t : State} (b : s.Bounded → t.Bounded) (g : s.Gated → t.Gated)
      (off : ∀ b, (t.bank b).drive = .idle) : Reached s t
  | reply {u t : State} (kind tag : Byte) (x : Answer) (h : Moves false s u) (c : Cleared u t)
      (r : s.link.replies.length < Config.requestQueue) : Reached s (pushReply kind tag x t)

theorem Reached.ofReset (w : Wheel) (l : Bool) (v : Feed) (p : List Instr) (s : State) :
    Reached s (resetState w l v p) :=
  .reset (fun _ => (resetState_sound w l v p).1) (fun _ => (resetState_sound w l v p).2)
    fun b => by cases b <;> rfl

theorem Reached.ofAssert (s : State) : Reached s (assertReset s) :=
  .reset (assertReset_sound s).1 (assertReset_sound s).2 fun b => by cases b <;> rfl

/-- What is reached leaves RESET_N as it was, but for a reset, after which no bank drives. -/
theorem Reached.resetHeld {s t : State} (h : Reached s t) :
    t.resetHeld = s.resetHeld ∨ ∀ b, (t.bank b).drive = .idle := by
  cases h with
  | event h => exact .inl h.resetHeld
  | reset _ _ off => exact .inr off
  | reply _ _ _ h c _ => exact .inl (c.same.1.trans h.resetHeld)

theorem Reached.quiet {s t : State} (h : Moves false s t) : Reached s t := .event (.quiet h)

theorem serve_reached (n : Nat) (owner : Owner) (tag : Byte) (p : List Byte) (s : State)
    (h : Moves false s (owner p s).2 ∨ Cleared s (owner p s).2) (r : s.link.replies.length < Config.requestQueue) :
    Reached s (serve n owner tag p s) := by
  unfold serve
  split
  · rcases h with h | h
    · exact .reply _ _ _ h (.inl rfl) r
    · exact .reply _ _ _ (.refl s) h r
  · exact .reply _ _ _ (.refl s) (.inl rfl) r

theorem serveFrame_reached (f : Frame) (s : State) (r : s.link.replies.length < Config.requestQueue) :
    Reached s (serveFrame f s) := by
  unfold serveFrame
  split
  · rename_i h; exact serve_reached _ _ _ _ s (ownerOf_moves h _ s) r
  · exact .reply _ _ _ (.refl s) (.inl rfl) r

/-- The serving of a request from the inbound queue (R165). -/
theorem serveHead_reached {s : State} {f : Frame} {rest : List Frame} (h : servable s.link = some (f, rest)) :
    Reached s (serveHead f rest s) := by
  unfold servable at h
  split at h
  · rename_i hi
    split at h
    · rename_i hr
      cases h
      have h0 : Moves false s (s.withLink { s.link with inbound := rest }) := by
        refine .closes (withLink_closes _ (fun hb => ⟨?_, hb.2, hb.3, hb.4, hb.5⟩) le_rfl)
        have := hb.1; rw [hi] at this; exact Nat.le_of_succ_le this
      unfold serveHead serveFrame serve refuseKind
      split
      · rename_i ho
        split
        · rcases ownerOf_moves ho f.payload (s.withLink { s.link with inbound := rest }) with h | h
          · exact .reply _ _ _ (h0.trans h) (.inl rfl) hr
          · exact .reply _ _ _ h0 h hr
        · exact .reply _ _ _ h0 (.inl rfl) hr
      · exact .reply _ _ _ h0 (.inl rfl) hr
    · cases h
  · cases h

/-- The arrival of a request frame (R164, R165). -/
theorem arrive_reached (f : Frame) (served : State → State) (s : State)
    (h : s.link.replies.length < Config.requestQueue → Reached s (served s)) :
    Reached s (arrive f served s) := by
  unfold arrive
  split
  · exact .quiet (.closes (withLink_closes _ countError_bounded le_rfl))
  · split
    · rename_i hs
      exact h (by simpa [servesNow] using (Bool.and_eq_true_iff.mp hs).2)
    · exact .quiet (.closes (withLink_closes _ (accept_bounded f) (by rw [accept_replies])))

/-- A tick of the timebase (R125, R157). -/
theorem tick_moves (s : State) : Moves false s (tick s) := by
  have h0 : Moves false s (s.withTimebase (s.timebase + 1)) :=
    .one (.gate _ rfl (fun b c hb => by simpa using hb) (fun h => { h with })
      (fun g => ⟨g.1, fun b h => g.2 b (by simpa using h), g.3, g.4, fun h b => by simpa using g.5 h b, g.6,
        fun b r h => g.7 b r (by simpa using h)⟩) le_rfl rfl rfl)
  have hq : ∀ (b : Bank) (x : BankState) (t : State), t.bank b = x →
      Moves false t (t.withBank b (x.countPhase s.run.band)) := by
    rintro b x t rfl
    exact .one (.bank b _ (countPhase_quiet _ _))
  have hc : s.run.Quiet s.run.countCrystal := by
    unfold RunControl.countCrystal
    split <;> exact ⟨id, rfl, rfl, id⟩
  refine ((h0.trans (hq .bankA s.bankA _ rfl)).trans (hq .bankB s.bankB _ rfl)).trans (.one (.run _ ?_))
  exact hc

theorem idleOn_reached (s : State) : Reached s (idleOn s) := by
  unfold idleOn
  split
  · exact .quiet (.refl s)
  · split
    · rename_i h; exact serveHead_reached h
    · split
      · exact .quiet (.refl s)
      · exact .quiet (tick_moves s)

theorem take_reached {f : State → State} {s t : State} (h : take f s = .next t) (r : Reached s (f s)) :
    Reached s t := by
  unfold take at h
  split at h <;> cases h
  · exact .quiet (.refl s)
  · exact r

theorem takeHeard_reached {f : State → State} {s t : State} (h : takeHeard f s = .next t)
    (r : Reached s (f s)) : Reached s t := by
  refine take_reached h ?_
  split
  · exact .quiet (.refl s)
  · exact r

theorem takeDue_reached {due : State → Bool} {f : State → State} {s t : State}
    (h : takeDue due f s = .next t) (r : due s = true → Reached s (f s)) : Reached s t := by
  refine take_reached h ?_
  split
  · rename_i hd; exact r hd
  · exact .quiet (.refl s)

theorem request_reached {n : Nat} {owner : Owner} {tag : Byte} {p : List Byte} {s t : State}
    (h : request n owner tag p s = .next t) (m : ownerOf n = some owner) : Reached s t :=
  takeHeard_reached h (arrive_reached _ _ s fun r => serve_reached n owner tag p s (ownerOf_moves m p s) r)

end Sys2Proof.Machine
end

