-- ==== Sys2Proof/Laws/TrackerTies.lean ====
section
/-! SUPPORT. The tracker's events keep what ties the cycles, the queue and the banks. -/

namespace Sys2Proof.Machine

/-! ## Changes of the sync state -/

theorem moveTo_keeps (new : Sync) (cause : SyncCause) (s : State) : Keeps s (moveTo new cause s) := by
  have h0 : Calm s (queueNotice (.syncChange s.tracker.sync new cause)
      (s.withTracker { s.tracker.lose s.tracker.sync new with sync := new })) :=
    (withTracker_calm _ s).trans (queueNotice_calm _ _)
  refine h0.keeps.trans ?_
  show Keeps _ (tellMove _ _ _)
  unfold tellMove
  split
  · split
    · split
      · exact queueToCam_keeps _
      · split
        · exact (queueToCrank_calm _).keeps
        · exact .refl _
    · exact (queueLoss_keeps _).trans (landIfPending_calm none _).keeps
  · split
    · exact (queueGain_calm _).keeps
    · exact .refl _

theorem setCamFault_calm (c : CamFaultCause) (s : State) : Calm s (setCamFault c s) := by
  refine (withTracker_calm { s.tracker with camFault := true } s).trans ?_
  show Calm _ (if _ then _ else _)
  split
  · exact .refl _
  · exact queueNotice_calm _ _

/-- A change of the tracker, then a change of the sync state. -/
theorem moveAfter_keeps (x : Tracker) (new : Sync) (cause : SyncCause) (s : State) :
    Keeps s (moveTo new cause (s.withTracker x)) :=
  (withTracker_calm x s).keeps.trans (moveTo_keeps _ _ _)

/-- A change of the tracker, the cam fault latch, then a change of the sync state. -/
theorem moveFault_keeps (x : Tracker) (c : CamFaultCause) (new : Sync) (cause : SyncCause) (s : State) :
    Keeps s (moveTo new cause (setCamFault c (s.withTracker x))) :=
  ((withTracker_calm x s).trans (setCamFault_calm _ _)).keeps.trans (moveTo_keeps _ _ _)

/-! ## Crank edges -/

theorem crankSeeking_keeps (c : CrankClass) (s : State) : Keeps s (crankSeeking c s) := by
  unfold crankSeeking
  split
  · exact moveAfter_keeps _ _ _ s
  · exact (withTracker_calm _ s).keeps

theorem countRevolution_calm (s : State) : Calm s (countRevolution s) := by
  unfold countRevolution
  split
  · refine (withTracker_calm
      (s.tracker.withCam { s.tracker.cam with revsNoExtra := s.tracker.cam.revsNoExtra + 1 }) s).trans ?_
    show Calm _ (if _ then _ else _)
    split
    · exact setCamFault_calm _ _
    · exact .refl _
  · exact .refl s

theorem counted_moves (c : CrankClass) (s : State) (he : gapError c s.tracker = false) :
    Moves false s (countRevolution (s.withTracker { s.tracker.countTooth c with
        edgeAngle := some (countedAngle s.plan.engine.gapOffset (s.tracker.countTooth c)) })) := by
  obtain ⟨h1, h2⟩ := countTooth_spec s.tracker c
  exact Moves.afterTracker _ (countRevolution_moves _) (fun h => { h1 he h with })
    (fun h => by show (s.tracker.countTooth c).sync.holdsAngle = true; rw [h2]; exact h)

theorem crankCounting_keeps (c : CrankClass) (s : State) (g : s.Gated) : Keeps s (crankCounting c s) := by
  unfold crankCounting
  split
  · exact moveAfter_keeps _ _ _ s
  · rename_i he
    have hm := counted_moves c s (by simpa using he)
    refine ((withTracker_calm { s.tracker.countTooth c with
        edgeAngle := some (countedAngle s.plan.engine.gapOffset (s.tracker.countTooth c)) } s).trans
      (countRevolution_calm _)).keeps.trans ?_
    show Keeps _ (if _ then _ else _)
    split
    · rename_i hf
      exact handOn_keeps _ (hm.gated g) (by rw [hf]; rfl)
    · exact .refl _

theorem crankRestore_keeps (a : Nat) (s : State) (g : s.Gated) : Keeps s (crankRestore a s) := by
  unfold crankRestore
  split
  · have hm := Moves.afterTracker (k := false) (s.tracker.restore s.plan.engine.gapOffset
      (nearerHalf s.plan.engine.gapOffset a).1) (moveTo_moves .fullSync .crankRestored
        (s.withTracker (s.tracker.restore s.plan.engine.gapOffset (nearerHalf s.plan.engine.gapOffset a).1)))
      (fun h => ⟨h.1, h.2, h.3, h.4, h.5, Nat.zero_le _, Nat.zero_le _, h.8, Nat.zero_le _⟩) id
    exact (moveAfter_keeps _ _ _ s).trans (handOn_keeps _ (hm.gated g) (by rw [moveTo_sync]; rfl))
  · exact (withTracker_calm _ s).keeps

theorem crankRecovery_keeps (c : CrankClass) (s : State) (g : s.Gated) : Keeps s (crankRecovery c s) := by
  obtain ⟨h1, h2, -⟩ := gapSearch_spec s.tracker c
  have h0 : Moves false s (s.withTracker (s.tracker.gapSearch c)) :=
    .one (.tracker _ h1 (fun h => by rw [h2]; exact h))
  have k0 := (withTracker_calm (s.tracker.gapSearch c) s).keeps
  unfold crankRecovery
  split
  · split
    · exact k0.trans (crankRestore_keeps _ _ (h0.gated g))
    · exact k0
  · exact k0

theorem crankByState_keeps (c : CrankClass) (s : State) (g : s.Gated) : Keeps s (crankByState c s) := by
  unfold crankByState
  split
  · exact .refl s
  · exact crankSeeking_keeps c s
  · exact crankCounting_keeps c s g
  · exact crankCounting_keeps c s g
  · exact crankRecovery_keeps c s g

/-- A crank edge keeps the ties (R2). -/
theorem crankEdge_keeps (s : State) (g : s.Gated) : Keeps s (crankEdge s) := by
  unfold crankEdge
  split
  · unfold crankFirst
    split
    · exact moveAfter_keeps _ _ _ s
    · exact (withTracker_calm _ s).keeps
  · rename_i p _
    unfold crankMeasured
    split
    · exact (withTracker_calm _ s).keeps
    · have h0 : Moves false s (s.withTracker (s.tracker.measure s.plan.engine.accelComp
          (crankClass s.tracker.crankHist (rawInterval p s.timebase)) (rawInterval p s.timebase)
          s.timebase)) := .one (.tracker _ (measure_bounded _ _ _ _) id)
      exact (withTracker_calm _ s).keeps.trans (crankByState_keeps _ _ (h0.gated g))

/-! ## Cam edges -/

theorem camHalf_keeps (s : State) : Keeps s (camHalf s) := by
  unfold camHalf
  split
  · exact moveAfter_keeps _ _ _ s
  · exact (withTracker_calm _ s).keeps

theorem camPhantom_keeps (s : State) : Keeps s (camPhantom s) := by
  unfold camPhantom
  split
  · exact (withTracker_calm _ s).keeps
  · exact moveFault_keeps _ _ _ _ s

theorem camFull_keeps (s : State) : Keeps s (camFull s) := by
  unfold camFull camIdentified
  refine (withTracker_calm (s.tracker.feedFull s.plan.engine.accelComp s.timebase (identifyCam s)) s).keeps.trans ?_
  split
  · exact (withTracker_calm _ _).keeps
  · exact camPhantom_keeps _
  · exact .refl _
  · exact .refl _

theorem camMismatch_keeps (s : State) : Keeps s (camMismatch s) := moveFault_keeps _ _ _ _ s

theorem acceptCam_moves (s : State) (i span : Nat) (x : CamId) :
    Moves false s (s.withTracker (s.tracker.acceptCam s.plan.engine s.timebase i span x)) :=
  .one (.tracker _ (fun h => ⟨h.1, pushPeriod_length _ _, pushRaw_length (some _) _ h.3, h.4, h.5, h.6,
    h.7, h.8, h.9⟩) id)

theorem camLimpEdge_keeps (s : State) (g : s.Gated) (hs : s.tracker.sync = .camLimp) :
    Keeps s (camLimpEdge s) := by
  unfold camLimpEdge
  split
  · split
    · exact (withTracker_calm _ s).keeps
    · unfold camTested
      split
      · refine (withTracker_calm _ s).keeps.trans (handOn_keeps _ ((acceptCam_moves s _ _ _).gated g) ?_)
        show s.tracker.sync.holdsAngle = true
        rw [hs]; rfl
      · exact camMismatch_keeps s
  · exact camMismatch_keeps s

theorem camStopped_keeps (s : State) (g : s.Gated) : Keeps s (camStopped s) := by
  unfold camStopped
  have h0 : Moves false s (s.withTracker ((s.tracker.recordCam s.timebase .unknown).withCam
      { (s.tracker.recordCam s.timebase .unknown).cam with
        candidates := (searched s.tracker.cam (isCandidate s.tracker.cam s.timebase)).1
        sinceCandidate := (searched s.tracker.cam (isCandidate s.tracker.cam s.timebase)).2 })) := by
    refine .one (.tracker _ (fun h => ?_) id)
    have hb := recordCam_bounded s.timebase .unknown h
    exact ⟨hb.1, hb.2, hb.3, hb.4, hb.5, hb.6, hb.7, searched_le _ _ h.8, h.9⟩
  refine (withTracker_calm ((s.tracker.recordCam s.timebase .unknown).withCam
      { (s.tracker.recordCam s.timebase .unknown).cam with
        candidates := (searched s.tracker.cam (isCandidate s.tracker.cam s.timebase)).1
        sinceCandidate := (searched s.tracker.cam (isCandidate s.tracker.cam s.timebase)).2 }) s).keeps.trans ?_
  have g1 := h0.gated g
  revert g1
  generalize s.withTracker _ = t
  intro g1
  show Keeps t (if _ then _ else _)
  split
  · have h2 : Moves false t (moveTo .camLimp .camStart (t.withTracker (t.tracker.startCam t.plan.engine))) := by
      refine Moves.afterTracker _ (moveTo_moves _ _ _) (fun h => ?_) id
      refine ⟨Nat.zero_le _, ?_, h.3, Nat.zero_le _, h.5, h.6, h.7, h.8, h.9⟩
      show (startHistory t.tracker.cam.raw).length ≤ 4
      rw [startHistory_length]; exact h.3
    exact (moveAfter_keeps _ _ _ t).trans (handOn_keeps _ (h2.gated g1) (by rw [moveTo_sync]; rfl))
  · exact .refl t

/-- A cam edge keeps the ties (R9). -/
theorem camEdge_keeps (s : State) (g : s.Gated) : Keeps s (camEdge s) := by
  unfold camEdge
  split
  · exact camStopped_keeps s g
  · exact (withTracker_calm _ s).keeps
  · exact camHalf_keeps s
  · exact camFull_keeps s
  · rename_i h; exact camLimpEdge_keeps s g h

/-! ## Deadlines, the stall timeout and a changed definition -/

theorem crankDeadline_keeps (s : State) : Keeps s (crankDeadline s) := by
  unfold crankDeadline
  split <;> exact moveAfter_keeps _ _ _ s

theorem camDeadline_keeps (s : State) : Keeps s (camDeadline s) := moveFault_keeps _ _ _ _ s

theorem stall_keeps (s : State) : Keeps s (stall s) := by
  unfold stall
  split
  · exact (withTracker_calm _ s).keeps
  · exact moveAfter_keeps _ _ _ s

theorem definitionMove_keeps (s : State) : Keeps s (definitionMove s) := by
  unfold definitionMove
  split
  · exact moveAfter_keeps _ _ _ s
  · exact .refl s

end Sys2Proof.Machine
end

