-- ==== Sys2Proof/Laws/RowTies.lean ====
section
/-! SUPPORT. The events of Run Control and Circuit Diagnosis, the requests and the resets keep what ties the cycles,
the queue and the banks. -/

namespace Sys2Proof.Machine

/-- The ties after a change that keeps them (R145 to R149). -/
theorem Keeps.tied {s t : State} (h : Keeps s t) (hr : s.resetHeld = false) (k : s.Tied) : t.Tied := by
  intro _
  obtain ⟨l, hm⟩ := k hr
  refine ⟨(h l).1, fun m => ?_⟩
  rcases (h l).2 m with ⟨h1, h2⟩ | h1
  · exact fun c => h2 c (hm h1 c)
  · exact h1

/-! ## Circuit Diagnosis -/

theorem coilCurrent_calm (b : Bank) (s : State) : Calm s (coilCurrent b s) := by
  unfold coilCurrent
  split
  · split
    · exact withDiag_calm _ s
    · exact .refl s
  · exact .refl s

theorem coilWindowEnds_calm (s : State) : Calm s (coilWindowEnds s) := by
  unfold coilWindowEnds
  split
  · exact endCoilCheck_calm _ _ s
  · exact .refl s

/-! ## The forced end of a drain (R84, R148) -/

theorem withRun_linked {s : State} (l : s.Linked) (x : RunControl) : (s.withRun x).Linked := by
  have hb : ∀ b, (s.withRun x).bank b = s.bank b := fun b => by simp
  refine ⟨l.numbered, l.waitingEntry, l.committedEntry, ?_, ?_, ?_⟩
  · intro b r h; rw [hb] at h; exact l.start b r h
  · intro b p h; rw [hb] at h; exact l.driven b p h
  · intro c n st a sl h
    obtain ⟨b, p, h1, h2⟩ := l.drives c n st a sl h
    exact ⟨b, p, by rw [hb]; exact h1, h2⟩

/-- Once the unstarted pulses are dropped, every unstarted slot may be withdrawn at once (R84). -/
theorem forceSlots_keeps (s : State) (h : ∀ c n, Free s c n) :
    Keeps s (forceSlots s) ∧ ∀ c, Spent c (forceSlots s) := by
  have key : ∀ (cs : List Cyl) (s : State), (∀ c n, Free s c n) →
      Keeps s (forCyls (fun c => updateSlots c (withdrawAllSlots .drainForced)) cs s) ∧
        ∀ c, (c ∈ cs ∨ Spent c s) →
          Spent c (forCyls (fun c => updateSlots c (withdrawAllSlots .drainForced)) cs s) := by
    intro cs
    induction cs with
    | nil => exact fun s _ => ⟨.refl s, fun c h => h.elim (fun h => by cases h) id⟩
    | cons d cs ih =>
      intro s h
      have h1 := ih (updateSlots d (withdrawAllSlots .drainForced) s)
        fun c n => (h c n).of_closes (updateSlots_closes _ _ s)
      refine ⟨(withdrawAllSlots_keeps d _ s (h d)).trans h1.1, fun c hc => h1.2 c ?_⟩
      rcases hc with hc | hc
      · rcases List.mem_cons.mp hc with rfl | hc
        · exact .inr (withdrawAll_spent c c _ s fun h => absurd rfl h)
        · exact .inl hc
      · exact .inr (withdrawAll_spent c d _ s fun _ => hc)
  obtain ⟨h1, h2⟩ := key Cyl.all s h
  exact ⟨h1, fun c => h2 c (.inl (Cyl.mem_all c))⟩

theorem closeTest_none {c : Cyl} (d : Cyl) {s : State} (h : s.contexts.get c = none) :
    (closeTest d s).contexts.get c = none := by
  unfold closeTest
  split
  · exact h
  · split
    · rw [(tellIfNoneOpen_calm _).contexts]
      unfold removeContext
      rw [State.withContexts_contexts, PerCyl.get_set]
      split
      · rfl
      · rw [(writeRecord_calm _ s).contexts]; exact h
    · exact h

/-- Contexts with no unstarted slot and no energized pulse all close, each at its close test (R85). -/
theorem closeAll_none (cs : List Cyl) : ∀ s : State, s.Linked → (∀ c, Spent c s) →
    (∀ b, (s.bank b).drive.energized = none) →
    (forCyls closeTest cs s).Linked ∧ ∀ c, (c ∈ cs ∨ s.contexts.get c = none) →
      (forCyls closeTest cs s).contexts.get c = none := by
  induction cs with
  | nil => exact fun s l _ _ => ⟨l, fun c h => h.elim (fun h => by cases h) id⟩
  | cons d cs ih =>
    intro s l hs hd
    obtain ⟨h1, h2⟩ := ih (closeTest d s) (closeTest_keeps d s l).1
      (fun c => (closeTest_onward c d s).spent (hs c)) (fun b => by rw [(closeTest_closes d s).bank]; exact hd b)
    refine ⟨h1, fun c hc => h2 c ?_⟩
    rcases hc with hc | hc
    · rcases List.mem_cons.mp hc with rfl | hc
      · exact .inr (closeTest_spent l c (hs c) fun b p hp => by rw [hd] at hp; cases hp)
      · exact .inl hc
    · exact .inr (closeTest_none d hc)

/-- The forced end of a drain keeps the ties and leaves no context open (R84, R148). -/
theorem forceDrain_linked {s : State} (l : s.Linked) :
    (forceDrain s).Linked ∧ ∀ c, (forceDrain s).contexts.get c = none := by
  have l1 := (dropPulses_calm (fun _ => true) s).linked l
  obtain ⟨k2, hs⟩ := forceSlots_keeps (dropPulses (fun _ => true) s) fun c n => dropPulses_free _ s c n rfl
  have l2 := withRun_linked (k2 l1).1
    { (forceSlots (dropPulses (fun _ => true) s)).run with mode := .halt, drainAt := none }
  unfold forceDrain haltRun
  generalize hu : (forceSlots (dropPulses (fun _ => true) s)).withRun
    { (forceSlots (dropPulses (fun _ => true) s)).run with mode := .halt, drainAt := none } = u at l2
  have hs : ∀ c, Spent c u := by
    intro c n st h
    rw [← hu, slotAt_of_contexts (s := forceSlots (dropPulses (fun _ => true) s)) (by simp)] at h
    exact hs c n st h
  have hm : ∀ p : Pulse, (Pulse.markCut p).cyl = p.cyl ∧ (Pulse.markCut p).slot = p.slot := fun _ => ⟨rfl, rfl⟩
  obtain ⟨o1, d1⟩ := endPulse_spent l2 .bankA Pulse.markCut false hm (fun p _ => hs p.cyl)
  have l3 := (endPulse_keeps .bankA Pulse.markCut false u hm l2).1
  have s3 : ∀ c, Spent c (endPulse .bankA Pulse.markCut false u) := fun c => (o1 c).spent (hs c)
  obtain ⟨o2, d2⟩ := endPulse_spent l3 .bankB Pulse.markCut false hm (fun p _ => s3 p.cyl)
  have l4 := (endPulse_keeps .bankB Pulse.markCut false _ hm l3).1
  have s4 : ∀ c, Spent c (cutWithoutClose u) := fun c => (o2 c).spent (s3 c)
  have hd : ∀ b, ((cutWithoutClose u).bank b).drive.energized = none := by
    intro b
    have h2 := d2 b
    unfold cutWithoutClose
    rw [h2]
    split
    · rfl
    · rename_i hb
      have h1 := d1 b
      rw [h1, if_pos]
      cases b
      · rfl
      · exact absurd rfl hb
  obtain ⟨l5, hn⟩ := closeAll_none Cyl.all (cutWithoutClose u) l4 s4 hd
  have hq := queueNotice_calm (.stopDone true (openCount s)) (forCyls closeTest Cyl.all (cutWithoutClose u))
  exact ⟨hq.linked l5, fun c => by rw [hq.contexts]; exact hn c (.inl (Cyl.mem_all c))⟩

theorem forceDrain_keeps (s : State) : Keeps s (forceDrain s) := fun l =>
  ⟨(forceDrain_linked l).1, fun _ => .inr (forceDrain_linked l).2⟩

/-! ## The fuel cut line, the samples and the clock monitor -/

theorem lineChanges_calm (x : Bool) (s : State) : Calm s (lineChanges x s) := by
  unfold lineChanges
  split
  · exact .refl s
  · exact withRun_calm _ s id

theorem setFuelcut_calm (x : Bool) (s : State) : Calm s (setFuelcut x s) :=
  (withRun_calm { s.run with fuelcut := x } s id).trans (queueNotice_calm _ _)

theorem assertFuelcut_keeps (s : State) : Keeps s (assertFuelcut s) :=
  ((((endCoilCheck_calm _ _ s).trans (setFuelcut_calm true _)).keeps.trans (withdrawPulses_keeps _ _ _)).trans
    (cutPulse_keeps _ _)).trans (cutPulse_keeps _ _)

theorem changeBand_calm (x : SupplyBand) (s : State) : Calm s (changeBand x s) :=
  (((withRun_calm { s.run.clearFilter with band := x } s id).trans (settleRecharge_calm _ _)).trans
    (settleRecharge_calm _ _)).trans (queueNotice_calm _ _)

theorem countSample_mode (r : RunControl) (x : SupplyBand) : (r.countSample x).mode = r.mode := by
  unfold RunControl.countSample; split <;> rfl

theorem filterSample_calm (x : SupplyBand) (s : State) : Calm s (filterSample x s) := by
  have h : Calm s (s.withRun (s.run.countSample x)) := withRun_calm _ s fun h => by rwa [countSample_mode] at h
  unfold filterSample
  split
  · exact withRun_calm _ s id
  · split
    · exact h.trans (changeBand_calm _ _)
    · exact h

theorem takeSample_calm (v : Nat) (s : State) : Calm s (takeSample v s) :=
  (withRun_calm { s.run with lastSample := later s.run.lastSample Config.sampleTicks } s id).trans
    (filterSample_calm _ _)

theorem windowEnds_calm (n : Nat) (s : State) : Calm s (windowEnds n s) := by
  unfold windowEnds
  split
  · exact (withRun_calm { s.run with clock := .backup, monitor := false } s id).trans (queueNotice_calm _ _)
  · exact .refl s

/-! ## RESET_RUN and the resets (R65, R112, R149) -/

/-- A state with no context, no PULSE entry and no waiting start. -/
structure Bare (s : State) : Prop where
  contexts : ∀ c, s.contexts.get c = none
  entries : ∀ e ∈ s.queue.entries, e.isPulse = false
  waiting : ∀ b, (s.bank b).waiting = none

/-- A bare state in which no bank energizes a pulse has nothing to tie. -/
theorem Bare.linked {s : State} (h : Bare s) (d : ∀ b, (s.bank b).drive.energized = none) : s.Linked := by
  have hp : ∀ e ∈ s.queue.entries, ∀ c n, e.key ≠ .pulse c n := by
    intro e he c n hk
    have := h.entries e he
    simp [Entry.isPulse, hk] at this
  refine ⟨?_, ?_, ?_, ?_, ?_, ?_⟩
  · intro c x hx; rw [h.contexts] at hx; cases hx
  · intro e he c n hk; exact absurd hk (hp e he c n)
  · intro e he c n k hk; exact absurd hk (hp e he c n)
  · intro b r hr; rw [h.waiting] at hr; cases hr
  · intro b p hp; rw [d] at hp; cases hp
  · intro c n st a sl hs
    unfold slotAt at hs; rw [h.contexts] at hs; cases hs

theorem closeTest_same {c : Cyl} {s : State} (h : s.contexts.get c = none) : closeTest c s = s := by
  unfold closeTest; rw [h]

theorem reportUnfired_same {c : Cyl} {s : State} (h : s.contexts.get c = none) (n : Nat) (o : SlotOutcome) :
    reportUnfired c n o s = s := by
  have h1 : updateSlots c (resolveUnfired n o) s = s := by unfold updateSlots; rw [h]
  rw [reportUnfired, h1, closeTest_same h]

theorem reportWithdrawn_same (r : WithdrawReason) (xs : List (Cyl × Nat)) (s : State)
    (h : ∀ c, s.contexts.get c = none) : reportWithdrawn r xs s = s := by
  induction xs with
  | nil => rfl
  | cons x xs ih => rw [reportWithdrawn, reportUnfired_same (h x.1), ih]

theorem Bare.of_closes {s t : State} (h : Closes s t) (hc : t.contexts = s.contexts) (k : Bare s) : Bare t :=
  ⟨by rw [hc]; exact k.contexts, by rw [h.queue]; exact k.entries, fun b => by rw [h.bank]; exact k.waiting b⟩

theorem emptyWaiting_none (scope : Cyl → Bool) {x : BankState} (h : x.waiting = none) :
    (x.emptyWaiting scope).waiting = none := by
  unfold BankState.emptyWaiting; rw [h]; exact h

theorem withdrawPulses_bare (scope : Cyl → Bool) (r : WithdrawReason) {s : State} (h : Bare s) :
    Bare (withdrawPulses scope r s) := by
  unfold withdrawPulses
  rw [reportWithdrawn_same r _ (dropPulses scope s) h.contexts]
  refine ⟨h.contexts, fun e he => h.entries e (List.mem_filter.mp he).1, fun b => ?_⟩
  rw [dropPulses_bank]
  exact emptyWaiting_none _ (h.waiting b)

theorem diagnose_bare (c : Cyl) (k : Classification) {s : State} (h : Bare s) : Bare (diagnose c k s) := by
  have h1 : Bare (scoreAndRearm c k s) :=
    ⟨h.contexts, h.entries, fun b => by simpa [scoreAndRearm] using h.waiting b⟩
  have h2 : ∀ t, Bare t → Bare (warnTest c k t) := by
    intro t ht
    unfold warnTest
    split
    · refine Bare.of_closes (queueNotice_closes _ _) (queueNotice_same _ _).1 ?_
      exact ⟨ht.contexts, ht.entries, fun b => by simpa using ht.waiting b⟩
    · exact ht
  have h3 : ∀ t, Bare t → Bare (disableTest c k t) := by
    intro t ht
    unfold disableTest
    split
    · refine Bare.of_closes (queueNotice_closes _ _) (queueNotice_same _ _).1 ?_
      have h4 : Bare (t.withDiag { t.diag with disabled := t.diag.disabled.set c true }) :=
        ⟨ht.contexts, ht.entries, fun b => by simpa using ht.waiting b⟩
      exact withdrawPulses_bare _ _ h4
    · exact ht
  exact h3 _ (h2 _ h1)

theorem cutPulse_bare (b : Bank) {s : State} (h : Bare s) : Bare (cutPulse b s) ∧
    ∀ d, ((cutPulse b s).bank d).drive.energized = if d = b then none else (s.bank d).drive.energized := by
  unfold cutPulse endPulse
  split
  · rename_i hn
    refine ⟨h, fun d => ?_⟩
    split
    · rename_i e; subst e; exact hn
    · rfl
  · rename_i p hp
    obtain ⟨x, hx, hw, he⟩ := startDecay_shape b p.markCut s
    have h1 : Bare (startDecay b p.markCut s) := by
      rw [hx]
      refine ⟨by simpa using h.contexts, by simpa using h.entries, fun d => ?_⟩
      rw [State.withBank_bank]
      split
      · rw [hw]; exact h.waiting b
      · exact h.waiting d
    have h2 : ∀ t, Bare t → ∀ ended, reportEnd true p.markCut ended t
        = diagnose p.markCut.cyl (classify p.markCut) t := by
      intro t ht ended
      have h3 := (diagnose_bare p.markCut.cyl (classify p.markCut) ht).contexts p.markCut.cyl
      unfold reportEnd endReport closeTestIf
      rw [h3]
      exact closeTest_same h3
    rw [h2 _ h1]
    refine ⟨diagnose_bare _ _ h1, fun d => ?_⟩
    rw [diagnose_drives, hx, State.withBank_bank]
    split
    · exact he
    · rfl

/-- RESET_RUN leaves nothing to tie and no context open (R65, R112, R149). -/
theorem resetRun_linked (s : State) : (resetRun s).Linked ∧ ∀ c, (resetRun s).contexts.get c = none := by
  have h0 : Bare (clearRun (emptyNotices s)) := by
    refine ⟨fun c => PerCyl.get_fill _ c, fun e he => ?_, fun b => ?_⟩
    · have h1 := (List.mem_filter.mp (List.mem_filter.mp he).1).2
      simpa [pulseIn_all] using h1
    · have h1 : (clearRun (emptyNotices s)).bank b = (s.bank b).emptyWaiting fun _ => true := by cases b <;> rfl
      rw [h1]; exact emptyWaiting_all _
  obtain ⟨h1, d1⟩ := cutPulse_bare .bankA h0
  obtain ⟨h2, d2⟩ := cutPulse_bare .bankB h1
  have hd : ∀ b, ((cutBanks (clearRun (emptyNotices s))).bank b).drive.energized = none := by
    intro b
    unfold cutBanks
    rw [d2 b]
    split
    · rfl
    · rename_i hb
      rw [d1 b, if_pos]
      cases b
      · rfl
      · exact absurd rfl hb
  have hq : Calm _ (resetRun s) := endCoilCheck_calm .aborted (some .resetRun) (cutBanks (clearRun (emptyNotices s)))
  exact ⟨hq.linked (h2.linked hd), fun c => by rw [hq.contexts]; exact h2.contexts c⟩

theorem resetRun_keeps (s : State) : Keeps s (resetRun s) := fun _ =>
  ⟨(resetRun_linked s).1, fun _ => .inr (resetRun_linked s).2⟩

/-- A power-on or pin reset leaves nothing to tie. -/
theorem resetState_tied (w : Wheel) (l : Bool) (v : Feed) (p : List Instr) : (resetState w l v p).Tied := fun _ =>
  ⟨Bare.linked ⟨fun c => PerCyl.get_fill _ c, (fun _ h => by cases h), fun b => by cases b <;> rfl⟩
      fun b => by cases b <;> rfl,
    fun _ c => PerCyl.get_fill _ c⟩

/-! ## The requests -/

theorem engineStored_keeps (o : EngineRec) (s : State) : Keeps s (engineStored o s) := by
  have h1 : Keeps s (moveIfPlaced o s) := by
    unfold moveIfPlaced; split
    · exact definitionMove_keeps s
    · exact .refl s
  have h2 : ∀ t, Keeps t (staleIfChanged o t) := by
    intro t; unfold staleIfChanged; split
    · exact .refl t
    · exact (staleTest_calm t).keeps
  have h3 : ∀ t, Keeps t (stallIfDue t) := by
    intro t; unfold stallIfDue; split
    · exact stall_keeps t
    · exact .refl t
  exact (h1.trans (h2 _)).trans (h3 _)

theorem enterRun_calm (s : State) : Calm s (enterRun s) := by
  refine (withRun_calm { s.run with mode := .run, drainAt := none } s (fun h => by cases h)).trans ?_
  show Calm _ (if _ then _ else _)
  split
  · exact insertArmList_calm _ _
  · exact .refl _

theorem stopRun_calm (s : State) : Calm s (stopRun s) := by
  refine ((removeArms_calm s).trans (landIfPending_calm none _)).trans ?_
  show Calm _ (if _ then _ else _)
  split
  · exact withRun_calm _ _ (fun h => by cases h)
  · rename_i h
    refine Calm.trans ?_ (queueNotice_calm _ _)
    exact ⟨rfl, fun _ he _ _ _ => he, fun b r hr => by simpa [haltRun] using hr, fun b => by simp [haltRun],
      fun _ => .inr (anyOpen_false (s := landIfPending none (removeArms s)) (by simpa using h))⟩

/-- Every owner of a request kind keeps the ties (R165). -/
theorem ownerOf_keeps {n : Nat} {owner : Owner} (h : ownerOf n = some owner) (p : List Byte) (s : State) :
    Keeps s (owner p s).2 := by
  unfold ownerOf at h
  split at h <;> cases h
  · exact .refl s
  · exact (withLink_calm _ s).keeps
  · exact (withTracker_calm _ s).keeps
  · unfold answerSetEngine
    split
    · exact .refl s
    · split
      · exact .refl s
      · exact (withPlan_calm _ s).keeps.trans (engineStored_keeps _ _)
  · exact .refl s
  · unfold answerSetCylinder
    split
    · unfold setCylinder
      split
      · exact .refl s
      · split
        · exact .refl s
        · exact (withPlan_calm _ s).keeps
    · exact .refl s
  · unfold answerGetCylinder; split <;> exact .refl s
  · unfold answerSetPulses
    split
    · unfold setPulses
      split
      · exact .refl s
      · split
        · exact .refl s
        · split
          · exact .refl s
          · exact (withPlan_calm _ s).keeps
    · exact .refl s
  · unfold answerGetPulses; split <;> exact .refl s
  · unfold answerCopyPage
    split
    · exact .refl s
    · exact (withPlan_calm _ s).keeps
  · unfold answerSwapPlan
    split
    · exact .refl s
    · split <;> exact (withPlan_calm _ s).keeps
  · exact (withPlan_calm _ s).keeps
  · unfold answerSetWindow
    split
    · exact (withPlan_calm _ s).keeps
    · exact .refl s
  · unfold answerSetMark
    split
    · rename_i i m _
      refine (withPlan_calm { s.plan with marks := s.plan.marks.set i m } s).keeps.trans ?_
      show Keeps _ (if _ then _ else _)
      split
      · exact (markChanged_calm _ _).keeps
      · exact .refl _
    · exact .refl s
  · exact (withPlan_calm _ s).keeps
  · unfold answerTestCut
    split
    · exact (withPlan_calm _ s).keeps
    · split
      · exact .refl s
      · split
        · exact (withPlan_calm _ s).keeps
        · exact .refl s
  · unfold answerSetNotices
    split
    · exact (withLink_calm _ s).keeps
    · exact .refl s
  · unfold answerStart
    split
    · exact .refl s
    · exact (enterRun_calm s).keeps
    · split
      · exact (enterRun_calm s).keeps
      · exact .refl s
  · unfold answerStop
    split
    · exact (stopRun_calm s).keeps
    · exact .refl s
    · exact .refl s
  · exact resetRun_keeps s
  · unfold answerGetCycle; split <;> exact .refl s
  · unfold answerClearFault
    split
    · exact (withDiag_calm _ s).keeps
    · exact .refl s
  · exact (withTracker_calm _ s).keeps
  · unfold answerCoilCheck
    split
    · exact .refl s
    · split
      · exact .refl s
      · unfold coilCheckOf
        split
        · exact .refl s
        · split
          · exact .refl s
          · exact (withDiag_calm _ s).keeps

theorem pushReply_calm (kind tag : Byte) (x : Answer) (s : State) : Calm s (pushReply kind tag x s) :=
  withLink_calm _ s

theorem serve_keeps (n : Nat) (owner : Owner) (tag : Byte) (p : List Byte) (s : State)
    (h : Keeps s (owner p s).2) : Keeps s (serve n owner tag p s) := by
  unfold serve
  split
  · exact h.trans (pushReply_calm _ _ _ _).keeps
  · exact (pushReply_calm _ _ _ _).keeps

theorem arrive_keeps (f : Frame) (served : State → State) (s : State) (h : Keeps s (served s)) :
    Keeps s (arrive f served s) := by
  unfold arrive
  split
  · exact (withLink_calm _ s).keeps
  · split
    · exact h
    · exact (withLink_calm _ s).keeps

theorem serveHead_keeps (f : Frame) (rest : List Frame) (s : State) : Keeps s (serveHead f rest s) := by
  refine (withLink_calm { s.link with inbound := rest } s).keeps.trans ?_
  unfold serveHead serveFrame
  split
  · rename_i h; exact serve_keeps _ _ _ _ _ (ownerOf_keeps h _ _)
  · exact (pushReply_calm _ _ _ _).keeps

/-! ## An idle part, and taking an event -/

theorem tick_calm (s : State) : Calm s (tick s) := by
  have h0 : Calm s (s.withTimebase (s.timebase + 1)) := .of_eq rfl rfl (fun _ => by simp) rfl
  have hq : ∀ (b : Bank) (x : BankState) (t : State), t.bank b = x → Calm t (t.withBank b (x.countPhase s.run.band)) := by
    rintro b x t rfl
    refine .ofBank b _ (fun r h => ?_) ?_ <;> unfold BankState.countPhase at * <;> split at * <;> first | exact h | rfl
  refine ((h0.trans (hq .bankA s.bankA _ rfl)).trans (hq .bankB s.bankB _ rfl)).trans (withRun_calm _ _ fun h => ?_)
  have h1 : s.run.countCrystal.mode = s.run.mode := by unfold RunControl.countCrystal; split <;> rfl
  rw [h1] at h
  simpa using h

theorem idleOn_keeps (s : State) : Keeps s (idleOn s) := by
  unfold idleOn
  split
  · exact .refl s
  · split
    · exact serveHead_keeps _ _ s
    · split
      · exact .refl s
      · exact (tick_calm s).keeps

/-- While RESET_N is asserted there is nothing to tie; otherwise an event keeps the ties. -/
theorem take_tied {f : State → State} {s t : State} (h : take f s = .next t)
    (k : s.resetHeld = false → Keeps s (f s)) (ht : s.Tied) : t.Tied := by
  unfold take at h
  cases hr : s.resetHeld with
  | true => rw [hr] at h; cases h; exact ht
  | false => rw [hr] at h; cases h; exact (k hr).tied hr ht

theorem takeHeard_tied {f : State → State} {s t : State} (h : takeHeard f s = .next t) (k : Keeps s (f s))
    (ht : s.Tied) : t.Tied :=
  take_tied h (fun _ => by split; exacts [.refl s, k]) ht

theorem takeDue_tied {due : State → Bool} {f : State → State} {s t : State} (h : takeDue due f s = .next t)
    (k : due s = true → Keeps s (f s)) (ht : s.Tied) : t.Tied :=
  take_tied h (fun _ => by split; exacts [k ‹_›, .refl s]) ht

theorem request_tied {n : Nat} {owner : Owner} {tag : Byte} {p : List Byte} {s t : State}
    (h : request n owner tag p s = .next t) (m : ownerOf n = some owner) (ht : s.Tied) : t.Tied :=
  takeHeard_tied h (arrive_keeps _ _ s (serve_keeps n owner tag p s (ownerOf_keeps m p s))) ht

end Sys2Proof.Machine
end

