-- ==== Sys2Proof/Laws/Withdrawals.lean ====
section
/-! SUPPORT. The notices that a withdrawal and a sync loss raise (R20, R55, R85, R88, R147). -/

namespace Sys2Proof.Machine

theorem raised_append (ns ms : List NoticeBody) (s : State) : raised (ns ++ ms) s = raised ms (raised ns s) := by
  simp [raised]

theorem raised_cons (n : NoticeBody) (ns : List NoticeBody) (s : State) :
    raised (n :: ns) s = raised ns (queueNotice n s) := rfl

/-- What a notice does to the link is said by the link and the time alone (R167). -/
theorem queueNotice_link_congr (n : NoticeBody) {s t : State} (h : s.link = t.link) (k : s.timebase = t.timebase) :
    (queueNotice n s).link = (queueNotice n t).link := by
  unfold queueNotice
  rw [h, k]
  split
  · rfl
  · exact h

theorem raised_timebase (ns : List NoticeBody) (s : State) : (raised ns s).timebase = s.timebase := by
  induction ns generalizing s with
  | nil => rfl
  | cons n ns ih => rw [raised_cons, ih, (queueNotice_closes n s).timebase]

theorem raised_link_congr (ns : List NoticeBody) {s t : State} (h : s.link = t.link) (k : s.timebase = t.timebase) :
    (raised ns s).link = (raised ns t).link := by
  induction ns generalizing s t with
  | nil => exact h
  | cons n ns ih =>
    exact ih (queueNotice_link_congr n h k) (by rw [(queueNotice_closes n s).timebase, (queueNotice_closes n t).timebase, k])

/-- A second state has the time of a first, and the link of the first after the notices of a list. -/
structure Raises (ns : List NoticeBody) (s t : State) : Prop where
  link : t.link = (raised ns s).link
  timebase : t.timebase = s.timebase

theorem Raises.of_eq {s t : State} (h : t.link = s.link) (k : t.timebase = s.timebase) : Raises [] s t := ⟨h, k⟩

theorem Raises.notice (n : NoticeBody) {s t : State} (h : t.link = s.link) (k : t.timebase = s.timebase) :
    Raises [n] s (queueNotice n t) :=
  ⟨queueNotice_link_congr n h k, (queueNotice_closes n t).timebase.trans k⟩

theorem Raises.trans {ns ms : List NoticeBody} {s t u : State} (h : Raises ns s t) (k : Raises ms t u) :
    Raises (ns ++ ms) s u := by
  refine ⟨?_, k.timebase.trans h.timebase⟩
  rw [k.link, raised_append]
  exact raised_link_congr ms h.link (by rw [h.timebase, raised_timebase])

/-- Contexts that close raise CYCLE_DONE, and the last of a drain STOP_DONE, which ends the drain (R85, R88, R147). -/
def ClosesWith (s t : State) : Prop :=
  ∃ ns, (∀ n ∈ ns, (∃ r, n = .cycleDone r) ∨ (s.run.mode = .drain ∧ n = .stopDone false 0)) ∧ Raises ns s t ∧
    (t.run.mode = .drain → s.run.mode = .drain)

theorem ClosesWith.of_eq {s t : State} (h : t.link = s.link) (k : t.timebase = s.timebase) (r : t.run = s.run) :
    ClosesWith s t := ⟨[], by simp, .of_eq h k, by rw [r]; exact id⟩

theorem ClosesWith.trans {s t u : State} (h : ClosesWith s t) (k : ClosesWith t u) : ClosesWith s u := by
  obtain ⟨ns, h1, h2, h3⟩ := h
  obtain ⟨ms, k1, k2, k3⟩ := k
  refine ⟨ns ++ ms, fun n hn => ?_, h2.trans k2, h3 ∘ k3⟩
  rcases List.mem_append.mp hn with hn | hn
  · exact h1 n hn
  · exact (k1 n hn).imp id fun x => ⟨h3 x.1, x.2⟩

theorem writeRecord_closesWith (r : CycleRecord) (s : State) : ClosesWith s (writeRecord r s) :=
  ⟨[.cycleDone r], by simp,
    .notice (t := s.withRecords (s.records.set r.cyl (some r))) _ rfl rfl,
    by unfold writeRecord queueNotice; split <;> exact id⟩

theorem tellIfNoneOpen_closesWith (s : State) : ClosesWith s (tellIfNoneOpen s) := by
  unfold tellIfNoneOpen noContextOpen
  split
  · exact .of_eq rfl rfl rfl
  · split
    · rename_i h
      exact ⟨[.stopDone false 0], by simp [h],
        .notice (t := s.withRun { s.run with mode := .halt, drainAt := none }) _ rfl rfl, fun _ => h⟩
    · exact .of_eq rfl rfl rfl

theorem closeTest_closesWith (c : Cyl) (s : State) : ClosesWith s (closeTest c s) := by
  unfold closeTest
  split
  · exact .of_eq rfl rfl rfl
  · split
    · rename_i x _ _
      exact ((writeRecord_closesWith x.record s).trans (u := removeContext c (writeRecord x.record s))
        (.of_eq rfl rfl rfl)).trans (tellIfNoneOpen_closesWith _)
    · exact .of_eq rfl rfl rfl

theorem updateSlots_closesWith (c : Cyl) (f : List Slot → List Slot) (s : State) : ClosesWith s (updateSlots c f s) := by
  unfold updateSlots
  split <;> exact .of_eq rfl rfl rfl

theorem reportWithdrawn_closesWith (r : WithdrawReason) (xs : List (Cyl × Nat)) (s : State) :
    ClosesWith s (reportWithdrawn r xs s) := by
  induction xs generalizing s with
  | nil => exact .of_eq rfl rfl rfl
  | cons x xs ih => exact ((updateSlots_closesWith _ _ s).trans (closeTest_closesWith _ _)).trans (ih _)

theorem withdrawPulses_closesWith (scope : Cyl → Bool) (r : WithdrawReason) (s : State) :
    ClosesWith s (withdrawPulses scope r s) :=
  ClosesWith.trans (t := dropPulses scope s) (.of_eq rfl rfl rfl) (reportWithdrawn_closesWith r _ _)

/-- With no PULSE entry and no waiting start nothing is unstarted. -/
theorem unstartedPulses_none {scope : Cyl → Bool} {s : State} (h : ∀ e ∈ s.queue.entries, e.isPulse = false)
    (k : ∀ b, (s.bank b).waiting = none) : unstartedPulses scope s = [] := by
  have u : ∀ c n, isUnstartedPulse s c n = false := by
    intro c n
    have e : s.queue.entries.any (fun e => e.key == .pulse c n) = false := by
      rw [List.any_eq_false]
      intro e he hk
      have := h e he
      simp only [Entry.isPulse, beq_iff_eq.mp hk, reduceCtorEq] at this
    have a : s.bankA.waiting = none := k .bankA
    have b : s.bankB.waiting = none := k .bankB
    simp [isUnstartedPulse, e, a, b]
  simp [unstartedPulses, u]

/-- The notices of a withdrawal of every cylinder's pulses after those of `first`, and before those of `last`. -/
theorem withdrawPulses_notices {first last : List NoticeBody} {s u t : State} (r : WithdrawReason)
    (h : Raises first s u) (q : u.queue = s.queue) (b : ∀ b, (u.bank b).waiting = (s.bank b).waiting)
    (m : u.run.mode = s.run.mode) (l : Raises last (withdrawPulses (fun _ => true) r u) t) :
    WithdrawalNotices first last s t := by
  by_cases e : (∀ x ∈ s.queue.entries, x.isPulse = false) ∧ ∀ b, (s.bank b).waiting = none
  · refine ⟨[], by simp, fun _ _ => rfl, ?_⟩
    have w : withdrawPulses (fun _ => true) r u = dropPulses (fun _ => true) u := by
      unfold withdrawPulses
      rw [unstartedPulses_none (by rw [q]; exact e.1) fun c => (b c).trans (e.2 c)]
      rfl
    rw [w] at l
    have d : Raises [] u (dropPulses (fun _ => true) u) := .of_eq rfl rfl
    simpa using ((h.trans d).trans l).link
  · obtain ⟨ns, h1, h2, -⟩ := withdrawPulses_closesWith (fun _ => true) r u
    exact ⟨ns, fun n hn => by rw [← m]; exact h1 n hn, fun x y => absurd ⟨x, y⟩ e, ((h.trans h2).trans l).link⟩

/-- The notices of a sync loss: those of the withdrawal, then that of a swap that lands (R22, R55). -/
theorem loss_notices {first : List NoticeBody} {s u : State} (h : Raises first s u) (q : u.queue = s.queue)
    (b : ∀ b, (u.bank b).waiting = (s.bank b).waiting) (m : u.run.mode = s.run.mode) (p : u.plan = s.plan) :
    WithdrawalNotices first (swapNotice s) s (landIfPending none (queueLoss u)) := by
  refine withdrawPulses_notices .syncLost h q b m ?_
  have hp : (queueLoss u).plan = s.plan := by
    rw [← p]; exact (reportWithdrawn_closes .syncLost _ _).plan
  have d : Raises [] (withdrawPulses (fun _ => true) .syncLost u) (queueLoss u) := .of_eq rfl rfl
  unfold landIfPending swapNotice landSwap
  rw [hp]
  split
  · exact d.trans (.notice (t := (queueLoss u).withPlan s.plan.land) _ rfl rfl)
  · exact d

/-- The notices of a move that loses the angle, after those of `first`: SYNC_CHANGE, then those of the loss (R20, R22). -/
theorem moveTo_notices {first : List NoticeBody} {s u : State} (new : Sync) (cause : SyncCause)
    (h : u.tracker.sync.holdsAngle = true) (k : new.holdsAngle = false) (r : Raises first s u) (q : u.queue = s.queue)
    (b : ∀ b, (u.bank b).waiting = (s.bank b).waiting) (m : u.run.mode = s.run.mode) (p : u.plan = s.plan) :
    WithdrawalNotices (first ++ [.syncChange u.tracker.sync new cause]) (swapNotice s) s (moveTo new cause u) := by
  have c := queueNotice_closes (.syncChange u.tracker.sync new cause)
    (u.withTracker { u.tracker.lose u.tracker.sync new with sync := new })
  have e : moveTo new cause u = landIfPending none (queueLoss (queueNotice (.syncChange u.tracker.sync new cause)
      (u.withTracker { u.tracker.lose u.tracker.sync new with sync := new }))) := by
    unfold moveTo tellMove; simp [h, k]
  rw [e]
  refine loss_notices (r.trans (.notice (t := u.withTracker { u.tracker.lose u.tracker.sync new with sync := new }) _ rfl
    rfl)) (c.queue.trans q) (fun b' => ?_) ?_ (c.plan.trans p)
  · rw [c.bank, State.withTracker_bank]; exact b b'
  · refine Eq.trans ?_ m
    unfold queueNotice
    split <;> rfl

/-- CAM_FAULT is raised where the latch was clear (R11, R17, R26). -/
theorem setCamFault_raises (c : CamFaultCause) {s t : State} (h : t.link = s.link) (k : t.timebase = s.timebase) :
    Raises (if t.tracker.camFault then [] else [.camFault c]) s (setCamFault c t) := by
  unfold setCamFault
  dsimp only
  split
  · exact .of_eq h k
  · exact .notice _ h k

/-- The notices of the move into CAM_LIMP (R23). -/
theorem toCam_notices {first : List NoticeBody} {s u : State} (h : Raises first s u) (q : u.queue = s.queue)
    (b : ∀ b, (u.bank b).waiting = (s.bank b).waiting) (m : u.run.mode = s.run.mode) :
    WithdrawalNotices first [] s (queueToCam u) := withdrawPulses_notices .syncLost h q b m (.of_eq rfl rfl)

end Sys2Proof.Machine
end

