-- ==== Sys2Proof/Tests/Slice0.lean ====
section
/-! SUPPORT. Tests against the spec's own worked examples, ill-formed commands refused, and for each statement
with hypotheses a state that meets them. -/

-- One theorem after another: all of them at once take more threads than the memory limit has stacks for.
set_option Elab.async false

namespace Sys2Proof.Tests

open Sys2Proof Sys2Proof.Machine

/-! ## Ill-formed commands are refused, and no word spells a command -/

theorem test_sample_above_40_volts_ill_formed : (Instr.vbatSample 801).wellFormed = false := by decide
theorem test_reset_sample_above_40_volts_ill_formed : (Instr.powerOnReset .w60 false { vbat := 801 }).wellFormed = false := by
  decide
theorem test_release_sample_above_40_volts_ill_formed : (Instr.pinResetRelease false { vbat := 801 }).wellFormed = false := by
  decide
theorem test_count_above_16_bits_ill_formed : (Instr.monitorWindowEnd 65536).wellFormed = false := by decide
theorem test_request_kind_is_not_unknown : (Instr.unknownKind 0x18 0 []).wellFormed = false := by decide
theorem test_payload_of_61_bytes_ill_formed :
    (Instr.setPulses 0 (List.replicate 61 0)).wellFormed = false := by decide
theorem test_unknown_payload_of_61_bytes_ill_formed :
    (Instr.unknownKind 0x40 0 (List.replicate 61 0)).wellFormed = false := by decide
theorem test_payload_of_60_bytes_well_formed : (Instr.setPulses 0 (List.replicate 60 0)).wellFormed = true := by
  decide
theorem test_no_word_spells_a_command : decodeTableWord 16 0xA5 = none := rfl
theorem test_fetch_word_leaves_the_state : State.reset.withFetchWord 16 0xA5 = State.reset := rfl

/-! ## Helpers -/

/-- The state a result leaves, the state given where it stops. -/
def ran (r : Result) (s : State) : State :=
  match r with
  | .next t => t
  | _ => s

/-- The state after a command. -/
def after (c : Instr) (s : State) : State := ran (exec c s) s

/-- The payload of the frame being sent: of a reply, the request's kind code and the contents. -/
def sent (s : State) : List Byte := (s.link.sending.map fun x => x.frame.payload).getD []

/-- The reset state at a time, with a tracker. -/
def at_ (now : Nat) (t : Tracker) : State := (State.reset.withTracker t).withTimebase (BitVec.ofNat 32 now)

/-- The tracker of the worked case of steady speed (spec/02): 60-2 wheel, gap offset 380, periods 1111 and 1117, an edge at tooth
52 in half 1. -/
def steady : Tracker :=
  { resetTracker .w60 with
    sync := .fullSync, crankHist := [1111, 1117], crankTp := some 1105, prevCrank := some 0, tooth := 52,
    half := some true, edgeAngle := some 7100, stallRef := some 0 }

/-- The engine record of the examples: gap offset 380 and cam sync angle 1650. -/
def exampleEngine : EngineRec := { defaultEngine with gapOffset := 380, camSync := 1650 }

/-- A state with the examples' engine record. -/
def inExample (s : State) : State := s.withPlan { s.plan with engine := exampleEngine }

/-- Cylinder 1's placement of the examples: TDC 0, bank A, SEL1. -/
def place1 : Placement := { tdc := 0, bank := .bankA, output := 0 }

/-- A state with cylinder 1 defined. -/
def defined1 (s : State) : State :=
  s.withPlan { s.plan with cyls := s.plan.cyls.set .c1 { place := some place1, eoiLimit := 900, disabled := false } }

/-! ## Arithmetic, against the spec's examples -/

/-- R162: the CRC of the text "123456789". -/
theorem test_crc_of_check_text :
    crc16 [0x31, 0x32, 0x33, 0x34, 0x35, 0x36, 0x37, 0x38, 0x39] = 0x29B1#16 := by decide +kernel

/-- Worked case of steady speed: T1 = 1111 and T2 = 1117 predict Tp = 1105. -/
theorem test_steady_prediction : formTp true [1111, 1117] = some 1105 := by decide +kernel

/-- Worked case of hard acceleration: the clamp holds Tp at 10,500, then 8,643 lies inside it. -/
theorem test_accelerating_prediction :
    formTp true [14000, 20000] = some 10500 ∧ formTp true [11000, 14000, 20000] = some 8643
      ∧ formTp false [14000, 20000] = some 14000 := by decide +kernel

/-- Worked case of running on the cam: Tp = 22,260, the delay 18,457 and the latest-end offset 36,173, a tie. -/
theorem test_cam_prediction :
    formTp true [22230, 22200] = some 22260
      ∧ delay { angle := 2550, time := 0, tp := 22260, span := 1200, perTp := 1200 } 995 = 18457
      ∧ delay { angle := 2550, time := 0, tp := 22260, span := 1200, perTp := 1200 } 1950 = 36173
      ∧ camInterval 300 22260 = 5565 ∧ camPeriod 5570 300 = 22280 := by decide +kernel

/-- Worked case of steady speed: 45 steps at Tp 1105 are 829 ticks, 1000 steps 18,417. -/
theorem test_steady_delays :
    delay { angle := 7100, time := 0, tp := 1105, span := 60, perTp := 60 } 45 = 829
      ∧ delay { angle := 7100, time := 0, tp := 1105, span := 60, perTp := 60 } 1000 = 18417 := by decide +kernel

/-- Worked case of steady speed: 829 ticks after the edge at 7100 the interpolated angle is 7145. -/
theorem test_steady_angle : interpolated steady 829 = some 7145 := by decide +kernel

/-- Worked case of an edge before the gap: tooth 57 at 3800 holds the angle at 3979 from 3297 ticks on, not before. -/
theorem test_gap_holds_the_angle :
    interpolated { steady with tooth := 57, half := some false, edgeAngle := some 3800 } 3296 = some 3978
      ∧ interpolated { steady with tooth := 57, half := some false, edgeAngle := some 3800 } 3297 = some 3979
      ∧ interpolated { steady with tooth := 57, half := some false, edgeAngle := some 3800 } 9000 = some 3979 := by
  decide +kernel

/-- Worked case of running on the cam: T1 = 22,230 gives 1799 rpm. -/
theorem test_cam_speed :
    speed { steady with sync := .camLimp, cam := { resetCam with hist := [22230, 22200] } } = 1799 := by
  decide +kernel

/-- Worked cases: 1800 rpm at T1 = 1111, and 238 rpm at T1 = 14,000 on the 36-2 wheel. -/
theorem test_crank_speed :
    speed steady = 1800 ∧ speed { steady with wheel := .w36, crankHist := [14000, 20000] } = 238 := by
  decide +kernel

/-! ## Small states -/

/-- A MAIN of 2400 ticks of cylinder 1, slot 3, that started at time 0. -/
def pulse1 : Pulse :=
  { cyl := .c1, slot := 3, kind := .main, output := 0, committed := 0, energize := 2400, start := 0,
    boostLimit := 300, boostShort := false, peak := none, curTest := .pending, noPeak := false, ovc := false,
    cut := false }

/-- A start request of cylinder 1, slot 3, on bank A, committed for time 0. -/
def request1 (k : PulseKind) : StartReq :=
  { cyl := .c1, slot := 3, kind := k, output := 0, bank := .bankA, committed := 0, energize := 2400 }

/-- A bank with a full reserve. -/
def driven (d : Drive) : BankState := { drive := d, waiting := none, reserve := 100, phase := 0 }

/-- The reset state at a time with bank A as given. -/
def banked (now : Nat) (x : BankState) : State :=
  (State.reset.withBank .bankA x).withTimebase (BitVec.ofNat 32 now)

/-- Bank A at a time with a start in its waiting slot and the end of DECAY reached. -/
def waitingStart (now reserve : Nat) (k : PulseKind) : State :=
  banked now
    { drive := .decay pulse1 0 100, waiting := some (request1 k), reserve := reserve, phase := 0 }

/-- Bank A at time 400 with the MAIN committed at 360 in its waiting slot, as in the five-pulse sequence. -/
def shortReserve (reserve : Nat) : State :=
  banked 400
    { drive := .decay pulse1 300 400, waiting := some { request1 .main with committed := 360 }, reserve := reserve,
      phase := 40 }

/-- A coil check of cylinder 1 on bank A that began at time 0. -/
def check1 (cur : Option Nat) : CoilCheck :=
  { cyl := .c1, bank := .bankA, output := 0, start := 0, curTime := cur }

/-- The reset state at a time with a coil check running. -/
def checking (now : Nat) (cur : Option Nat) : State :=
  (State.reset.withDiag { resetDiagnosis with coil := some (check1 cur) }).withTimebase (BitVec.ofNat 32 now)

/-- The reset state at a time with Run Control as given. -/
def running (now : Nat) (x : RunControl) : State := (State.reset.withRun x).withTimebase (BitVec.ofNat 32 now)

/-- The reset state with a link as given. -/
def linked (x : Link) : State := State.reset.withLink x

/-- A frame with no payload. -/
def frame1 : Frame := { kind := 1, tag := 7, payload := [] }

/-- The reset state with a request in the inbound queue and `n` replies in the reply queue. -/
def inboundWith (n : Nat) : State :=
  linked { resetLink with
    inbound := [frame1], replies := List.replicate n frame1
    sending := some { frame := frame1, doneAt := 120 } }

/-- The reset state at time 20 with STROBE high until then. -/
def strobing : State := (State.reset.withQueue { resetQueue with strobeUntil := some 20 }).withTimebase 20

/-- A latched MAIN slot of cylinder 1 in a state. -/
def slot3 (x : SlotState) : Slot :=
  { num := 3, kind := .main, anchor := .angle 7145, energize := 2400, mayDefer := false, st := x,
    deferred := false, truncated := false }

/-- Cylinder 1's open context with one slot. -/
def context1 (x : SlotState) : CycleContext :=
  { cyl := .c1, serial := 18, armAngle := 4500, eoiAngle := 900, bank := .bankA, output := 0, slots := [slot3 x] }

/-- A state with cylinder 1's context open. -/
def opened1 (x : SlotState) (s : State) : State := s.withContexts (s.contexts.set .c1 (some (context1 x)))

/-- The entry of slot 3, committed for 829 ticks after the edge at time 0 (worked case of steady speed). -/
def pulseEntry (k : PulseKind) : Entry :=
  { key := .pulse .c1 3, target := some 7145, pulse := some (k, 2400), commit := some { ref := 0, delay := 829 } }

/-- FULL_SYNC in RUN at tick 829 with slot 3's entry due and bank A idle. -/
def firing (k : PulseKind) (reserve : Nat) : State :=
  ((((opened1 (.committed 829) (at_ 829 steady)).withQueue { resetQueue with entries := [pulseEntry k] }).withBank
      .bankA { driven .idle with reserve := reserve }).withRun { resetRunControl false { vbat := 520 } with mode := .run })

/-- Mark 0 at 7150 with both flags set. -/
def mark0 : AngleMark := { angle := 7150, enabled := true, notice := true, strobe := true }

/-- The entry of mark 0, committed for 921 ticks after the edge at time 0. -/
def markEntry : Entry :=
  { key := .mark 0, target := some 7150, pulse := none, commit := some { ref := 0, delay := 921 } }

/-- FULL_SYNC at tick 921 with mark 0's entry due. -/
def marking : State :=
  ((at_ 921 steady).withPlan { resetPlan with marks := resetPlan.marks.set 0 mark0 }).withQueue
    { resetQueue with entries := [markEntry] }

/-- The ARM entry of cylinder 1, due at tick 737. -/
def dueArm : Entry :=
  { key := .arm .c1, target := some 4500, pulse := none, commit := some { ref := 0, delay := 737 } }

/-- FULL_SYNC in RUN at tick 737 with cylinder 1's ARM entry due, under the fuel cut or not. -/
def arming (cut : Bool) : State :=
  ((defined1 (at_ 737 steady)).withQueue { resetQueue with entries := [dueArm] }).withRun
    { resetRunControl cut { vbat := 520 } with mode := .run }

/-- The state a reset with a dead crystal leaves. -/
def standing : State := after (.powerOnReset .w60 false { vbat := 520, crystal := some 0 }) State.reset

/-! ## Commands, one step each -/

theorem test_power_on_loads_the_strap :
    (after (.powerOnReset .w36 true { vbat := 279 }) (at_ 9 steady)).tracker = resetTracker .w36
      ∧ (after (.powerOnReset .w36 true { vbat := 279 }) (at_ 9 steady)).run.band = .critical := by decide +kernel
theorem test_pin_reset_holds_and_releases :
    (after .pinResetAssert State.reset).resetHeld = true
      ∧ (after (.pinResetRelease true { vbat := 359 }) (after .pinResetAssert State.reset)).run.band = .low
      ∧ (after (.pinResetRelease true { vbat := 359 }) (after .pinResetAssert State.reset)).run.fuelcut = true := by
  decide +kernel

/-- R12: the first edge leads to SEEKING. -/
theorem test_first_edge_seeks : (after .crankEdge State.reset).tracker.sync = .seeking := by decide +kernel

/-- R7: the edge after 7100 lies at 7160, tooth 53 (worked case of steady speed). -/
theorem test_pitch_edge_moves_one_pitch :
    (after .crankEdge (inExample (at_ 1105 steady))).tracker.edgeAngle = some 7160
      ∧ (after .crankEdge (inExample (at_ 1105 steady))).tracker.tooth = 53 := by decide +kernel

/-- Sequence of a crank sensor failure (spec/11): 185 ticks after the edge at 2540 the angle is 2550, regular
tooth k = 1. -/
theorem test_cam_edge_identified :
    (after .camEdge (inExample (at_ 185
      { steady with tooth := 36, half := some false, edgeAngle := some 2540 }))).tracker.cam.identity
      = .regular 1 := by decide +kernel

/-- R178: every kind but CYCLE_DONE and MARK is enabled after reset. -/
theorem test_reset_notice_set : State.reset.link.enable = 0x3FE7#16 := by decide

/-- R174: IDENTIFY reports vendor 0x0A71, part 620, revision 1, wheel 60-2 and CRYSTAL. -/
theorem test_identify_report :
    sent (after (.identify 7 []) State.reset) = [0x01, 0x0A, 0x71, 0x02, 0x6C, 1, 0, 0] := by decide +kernel
theorem test_start_without_cylinder_refused :
    (after (.start 7 []) State.reset).link.sending.map (fun x => x.frame.kind) = some 0x81 := by decide +kernel
theorem test_start_runs : (after (.start 7 []) (defined1 State.reset)).run.mode = .run := by decide +kernel
theorem test_derate_clamped :
    (after (.setDerate 1 [20, 40]) State.reset).plan.derateN = 16
      ∧ (after (.setDerate 1 [20, 40]) State.reset).plan.derateK = 15 := by decide +kernel
theorem test_bad_length_refused :
    sent (after (.start 7 [0]) State.reset) = [0x12, byte RefusalCode.badLength.code] := by decide +kernel
theorem test_coil_check_runs :
    (after (.coilCheck 7 [1]) (defined1 State.reset)).diag.coil.map CoilCheck.output = some 0 := by decide +kernel

/-- Example of the Firing Queue chapter: at 921 ticks after the edge at 7100 MARK 0 raises STROBE for 20 ticks and
its notice carries angle 7150. -/
theorem test_mark_fires :
    (after .fire marking).queue.strobeUntil = some 941
      ∧ sent (after .fire (marking.withLink { resetLink with enable := 0xFFFF }))
        = be32 921 ++ [0] ++ be16 7150 ++ be16 1800 := by decide +kernel

/-- R66, R69: an arm event with no cut reason opens a context with the five slots' non-empty ones: none here, so
it closes EMPTY at once; under the fuel cut its record is CUT. -/
theorem test_arm_event_records :
    ((after .fire (arming false)).records.get .c1).map CycleRecord.outcome = some .empty
      ∧ ((after .fire (arming true)).records.get .c1).map CycleRecord.outcome = some (.cut .fuelcut) := by
  decide +kernel

/-- R115: the MAIN that fires enters BOOST and spends 40 of the 100 units. -/
theorem test_fired_main_starts :
    (after .fire (firing .main 100)).bankA.drive.isBoost = true
      ∧ (after .fire (firing .main 100)).bankA.reserve = 60 := by decide +kernel

/-- R117, R132: a pulse that ends with no CUR seen is OPEN, and the score rises by 16. -/
theorem test_pulse_ends_in_decay :
    (after (.pulseEnd .bankA) (banked 2400 (driven (.hold { pulse1 with curTest := .absent })))).diag.score.get .c1
      = 16 := by decide +kernel

/-- R118, R132: OVC ends the pulse at once, and the score rises by 32. -/
theorem test_overcurrent_scores :
    (after (.ovc .bankA) (banked 90 (driven (.boost pulse1)))).diag.score.get .c1 = 32 := by decide +kernel

/-- R125: the 50th tick of a phase gains a unit in NORMAL. -/
theorem test_recharge_unit :
    (after (.rechargeUnit .bankA) (banked 0 { driven .idle with reserve := 17, phase := 50 })).bankA.reserve = 18 := by
  decide +kernel

/-- R155: the fourth sample below 18.00 V in a row leads to LOW. -/
theorem test_fourth_sample_changes_band :
    (after (.vbatSample 359) (running 2000
      { resetRunControl false { vbat := 520 } with filterRun := 3, filterDir := .down, filterNearest := some .low })).run.band
      = .low := by decide +kernel

/-- R158, R159: 1399 counts lead to BACKUP, 1400 pass. -/
theorem test_clock_monitor :
    (after (.monitorWindowEnd 1399) State.reset).run.clock = .backup
      ∧ (after (.monitorWindowEnd 1400) State.reset).run.clock = .crystal := by decide +kernel

/-- R186: after a reset with a dead crystal bytes are not taken, and CLOCK_BACKUP with count 0 at time 0 is sent
first. -/
theorem test_dead_crystal :
    after (.byteReceived 0xA5 false) standing = standing ∧ after (.identify 7 []) standing = standing
      ∧ sent (after (.monitorWindowEnd 0) standing) = be32 0 ++ be16 0
      ∧ (after (.identify 7 []) (after (.monitorWindowEnd 0) standing)).link.replies.length = 1 := by
  decide +kernel

/-- R161: the start byte 10100101 on TXD, 2 ticks a bit: low, then 1, 0, 1, 0, 0, 1, 0, 1, then high. -/
theorem test_txd_of_start_byte :
    [0, 1, 2, 4, 6, 8, 10, 12, 14, 16, 18, 19].map (fun n : Nat =>
        txd ((linked { resetLink with sending := some { frame := frame1, doneAt := 120 } }).withTimebase
          (BitVec.ofNat 32 n)))
      = [false, false, true, false, true, false, false, true, false, true, true, true] := by decide +kernel

/-- R37, R38: an edge before the arm angle has passed no limit; the ticks from the target to the limit are available. -/
theorem test_commit_before_the_arm_angle :
    commitAvailable { angle := 7100, time := 0, tp := 1105, span := 60, perTp := 60 } 7120 900 7145 = 18417 - 829 := by
  decide +kernel

/-- Five-pulse sequence (spec/11): at 400 the MAIN committed at 360 starts from 19 units: BOOST_SHORT, reserve 0. -/
theorem test_waiting_main_starts_short :
    ((after (.decayEnd .bankA) (shortReserve 19)).bankA.drive.energized.map Pulse.boostShort) = some true
      ∧ (after (.decayEnd .bankA) (shortReserve 19)).bankA.reserve = 0 := by decide +kernel

/-! ## Witnesses: states that meet the hypotheses of the statements -/

/-- A state has a next state in `exec`. -/
theorem next_of_ran (r : Result) (s t : State) (h : r = .next t) : r = .next (ran r s) := by
  rw [h]; rfl

theorem witness_StepRunsFrontCommand :
    (State.reset.withPending [.crankEdge, .fire]).pending = .crankEdge :: [.fire] := rfl

theorem witness_IdleStepRunsPart :
    (State.reset.withResetHeld true).pending = [] ∧ (State.reset.withResetHeld true).resetHeld = true
      ∧ ownEvent strobing = some .strobeEnd ∧ strobing.pending = []
      ∧ ownEvent (inboundWith 3) = none ∧ (inboundWith 3).link.inbound = frame1 :: []
      ∧ (inboundWith 3).link.replies.length < 4 ∧ (inboundWith 3).resetHeld = false
      ∧ ownEvent (inboundWith 4) = none ∧ 4 ≤ (inboundWith 4).link.replies.length
      ∧ awaitsValue (inboundWith 4) = false ∧ (inboundWith 4).run.stands = false ∧ (inboundWith 4).pending = []
      ∧ ownEvent (State.reset.withTimebase 2000) = none ∧ awaitsValue (State.reset.withTimebase 2000) = true
      ∧ ownEvent standing = none ∧ standing.run.stands = true ∧ standing.link.inbound = []
      ∧ standing.resetHeld = false ∧ standing.pending = [] := by
  decide +kernel

/-- The gates hold in a state with an empty queue and no waiting start. -/
theorem gated_of_empty {s : State} (h : s.queue.entries = []) (hw : ∀ b, (s.bank b).waiting = none) : s.Gated := by
  refine ⟨fun e he => ?_, fun b hb => ?_, fun e he => ?_, fun _ e he => ?_, fun _ b => hw b, fun e he => ?_,
    fun b r hb => ?_⟩
  · rw [h] at he; cases he
  · rw [hw b] at hb; cases hb
  · rw [h] at he; cases he
  · rw [h] at he; cases he
  · rw [h] at he; cases he
  · rw [hw b] at hb; cases hb

/-- The gates hold in FULL_SYNC and RUN with one entry and no waiting start, if a PULSE entry comes without the
fuel cut and its cylinder's latch is clear. -/
theorem gated_of_one {s : State} {e : Entry} (h : s.queue.entries = [e]) (hw : ∀ b, (s.bank b).waiting = none)
    (ha : s.tracker.sync.holdsAngle = true) (hm : s.run.mode = .run)
    (hp : s.run.fuelcut = true → e.isPulse = false)
    (hl : ∀ c n, e.key = .pulse c n → s.diag.disabled.get c = false) : s.Gated := by
  refine ⟨fun _ _ => ha, fun b hb => ?_, fun _ _ _ => hm, fun hf x hx => ?_, fun _ b => hw b, fun x hx => ?_,
    fun b r hb => ?_⟩
  · rw [hw b] at hb; cases hb
  · rw [h] at hx
    rcases List.mem_singleton.mp hx with rfl
    exact hp hf
  · rw [h] at hx
    rcases List.mem_singleton.mp hx with rfl
    exact hl
  · rw [hw b] at hb; cases hb

theorem reset_gated : State.reset.Gated := gated_of_empty rfl fun b => by cases b <;> rfl

theorem reset_bounded : State.reset.Bounded := by
  refine ⟨⟨?_, ?_, ?_, ?_, ?_⟩, ⟨?_, ?_, ?_, ?_, ?_, ?_, ?_, ?_, ?_⟩, ⟨?_, ?_, ?_⟩, ⟨?_, ?_⟩, ⟨?_, ?_⟩, fun c => ?_,
    ⟨List.Pairwise.nil, Nat.zero_le _⟩, Nat.zero_le _⟩
  all_goals first | decide | exact Nat.zero_le _ | (cases c <;> decide)

/-- The ties hold with cylinder 1's context of one slot open, the queue's PULSE entries and bank A's pulse those of
that slot, and no start waiting. -/
theorem tied_of_one {s : State} {st : SlotState} (hc : s.contexts = State.reset.contexts.set .c1 (some (context1 st)))
    (hm : s.run.mode ≠ .halt) (hw : ∀ b, (s.bank b).waiting = none)
    (hq : ∀ e ∈ s.queue.entries, ∀ c n, e.key = .pulse c n → c = .c1 ∧ n = 3 ∧
      (e.commit = none ∧ st = .waiting ∨ ∃ k, e.commit = some k ∧ st = .committed k.time))
    (hd : ∀ b p, (s.bank b).drive.energized = some p →
      b = .bankA ∧ p.cyl = .c1 ∧ p.slot = 3 ∧ ∃ x y, st = .energized p.start x y)
    (he : ∀ t x y, st = .energized t x y →
      ∃ p, (s.bank .bankA).drive.energized = some p ∧ p.cyl = .c1 ∧ p.slot = 3) : s.Tied := by
  have h1 : s.contexts.get .c1 = some (context1 st) := by rw [hc]; rfl
  have h0 : ∀ c, c ≠ .c1 → s.contexts.get c = none := by
    intro c h; rw [hc]; cases c <;> first | rfl | exact absurd rfl h
  have hs : slotAt s .c1 3 = some st := by unfold slotAt; rw [h1]; rfl
  have hb : bankAt s .c1 = some .bankA := by unfold bankAt; rw [h1]; rfl
  refine fun _ => ⟨⟨fun c x hx => ?_, fun e m c n k q => ?_, fun e m c n k l q => ?_, fun b r h => ?_, fun b p h => ?_,
    fun c n t x y h => ?_⟩, fun h => absurd h hm⟩
  · by_cases h : c = .c1
    · subst h; rw [h1] at hx; cases hx; exact ⟨rfl, by simp [context1]⟩
    · rw [h0 c h] at hx; cases hx
  · obtain ⟨rfl, rfl, h | ⟨k', h, _⟩⟩ := hq e m c n k
    · rw [hs, h.2]
    · rw [q] at h; cases h
  · obtain ⟨rfl, rfl, h | ⟨k', h, rfl⟩⟩ := hq e m c n l
    · rw [q] at h; cases h.1
    · rw [q] at h; cases h; exact hs
  · rw [hw b] at h; cases h
  · obtain ⟨rfl, h2, h3, x, y, h4⟩ := hd b p h
    exact ⟨by rw [h2]; exact hb, x, y, by rw [h2, h3, hs, h4]⟩
  · by_cases h2 : c = .c1
    · subst h2
      by_cases h3 : n = 3
      · subst h3
        rw [hs] at h
        obtain ⟨p, h4, h5, h6⟩ := he t x y (by injection h)
        exact ⟨.bankA, p, h4, h5, h6⟩
      · unfold slotAt at h; rw [h1] at h
        simp [context1, findSlot, slot3, Ne.symm h3] at h
    · unfold slotAt at h; rw [h0 c h2] at h; cases h

/-- The ties hold with no context open, no PULSE entry, no pulse and no start waiting. -/
theorem tied_of_none {s : State} (hc : ∀ c, s.contexts.get c = none) (hw : ∀ b, (s.bank b).waiting = none)
    (hq : ∀ e ∈ s.queue.entries, ∀ c n, e.key ≠ .pulse c n) (hd : ∀ b, (s.bank b).drive.energized = none) : s.Tied := by
  refine fun _ => ⟨⟨fun c x h => ?_, fun e m c n k => absurd k (hq e m c n), fun e m c n k l => absurd l (hq e m c n),
    fun b r h => ?_, fun b p h => ?_, fun c n t x y h => ?_⟩, fun _ => hc⟩
  · rw [hc c] at h; cases h
  · rw [hw b] at h; cases h
  · rw [hd b] at h; cases h
  · unfold slotAt at h; rw [hc c] at h; cases h

/-- Slot 3's entry while it is WAITING. -/
def waitEntry : Entry := { pulseEntry .main with commit := none }

/-- A state in a run mode with cylinder 1's slot 3 WAITING in its context and in the queue. -/
def withWaiting (m : RunMode) (s : State) : State :=
  ((opened1 .waiting s).withQueue { resetQueue with entries := [waitEntry] }).withRun { s.run with mode := m }

/-- A state in a run mode with bank A giving the boost drive for cylinder 1's slot 3. -/
def burning (m : RunMode) (s : State) : State :=
  ((opened1 (.energized 0 (some 7145) 0) s).withBank .bankA (driven (.boost pulse1))).withRun { s.run with mode := m }

theorem tied_withWaiting (m : RunMode) (s : State) (hm : m ≠ .halt) (hc : s.contexts = State.reset.contexts)
    (hb : ∀ b, s.bank b = State.reset.bank b) : (withWaiting m s).Tied := by
  have hb' : ∀ b, (withWaiting m s).bank b = State.reset.bank b := fun b => by rw [← hb b]; cases b <;> rfl
  refine tied_of_one (st := .waiting) (by rw [← hc]; rfl) hm (fun b => by rw [hb' b]; cases b <;> rfl)
    (fun e he c n hk => ?_) (fun b p h => ?_) (fun t x y h => by cases h)
  · rcases List.mem_singleton.mp he with rfl
    cases hk; exact ⟨rfl, rfl, .inl ⟨rfl, rfl⟩⟩
  · rw [hb' b] at h; cases b <;> cases h

theorem tied_burning (m : RunMode) (s : State) (hm : m ≠ .halt) (hc : s.contexts = State.reset.contexts)
    (hq : s.queue.entries = []) (hb : s.bankB = State.reset.bankB) : (burning m s).Tied := by
  have hB : (burning m s).bank .bankB = State.reset.bankB := hb
  refine tied_of_one (st := .energized 0 (some 7145) 0) (by rw [← hc]; rfl) hm (fun b => ?_) (fun e he => ?_)
    (fun b p h => ?_) (fun t x y h => ?_)
  · cases b
    · rfl
    · rw [hB]; rfl
  · have : e ∈ s.queue.entries := he
    rw [hq] at this; cases this
  · cases b
    · cases h; exact ⟨rfl, rfl, rfl, _, _, rfl⟩
    · rw [hB] at h; cases h
  · cases h; exact ⟨pulse1, rfl, rfl, rfl⟩

theorem firing_gated : (firing .main 100).Gated :=
  gated_of_one (e := pulseEntry .main) rfl (fun b => by cases b <;> rfl) rfl rfl (fun h => by cases h)
    (fun c n h => by cases h; rfl)

theorem firing_tied : (firing .main 100).Tied := by
  refine tied_of_one (st := .committed 829) rfl (by decide) (fun b => by cases b <;> rfl) (fun e he c n hk => ?_)
    (fun b p h => by cases b <;> cases h) (fun t x y h => by cases h)
  rcases List.mem_singleton.mp he with rfl
  cases hk; exact ⟨rfl, rfl, .inr ⟨_, rfl, by decide⟩⟩

theorem arming_gated : (arming true).Gated :=
  gated_of_one (e := dueArm) rfl (fun b => by cases b <;> rfl) rfl rfl (fun _ => rfl)
    (fun c n h => by cases h)

theorem witness_StepKeepsBounds :
    State.reset.Gated ∧ State.reset.Bounded ∧ step State.reset = .next (ran (step State.reset) State.reset) :=
  ⟨reset_gated, reset_bounded, rfl⟩

theorem witness_StepKeepsGates :
    (firing .main 100).Gated ∧ (firing .main 100).Tied
      ∧ step (firing .main 100) = .next (ran (step (firing .main 100)) State.reset) :=
  ⟨firing_gated, firing_tied, rfl⟩

/-- A state with cylinder 2's fault-disabled latch set. -/
def latched2 (s : State) : State := s.withDiag { s.diag with disabled := s.diag.disabled.set .c2 true }

/-- A latch stands through a step that fires cylinder 1's pulse. -/
theorem witness_StepKeepsGates_latch :
    (latched2 (firing .main 100)).Gated ∧ (latched2 (firing .main 100)).diag.disabled.get .c2 = true
      ∧ step (latched2 (firing .main 100)) = .next (ran (step (latched2 (firing .main 100))) State.reset)
      ∧ (ran (step (latched2 (firing .main 100))) State.reset).diag.disabled.get .c2 = true
      ∧ exec .fire (latched2 (firing .main 100)) = .next (after .fire (latched2 (firing .main 100)))
      ∧ (∀ tag p, Instr.fire ≠ .clearFault tag p) ∧ (∀ w l v, Instr.fire ≠ .powerOnReset w l v)
      ∧ ∀ l v, Instr.fire ≠ .pinResetRelease l v :=
  ⟨gated_of_one (e := pulseEntry .main) rfl (fun b => by cases b <;> rfl) rfl rfl (fun h => by cases h)
      (fun c n h => by cases h; rfl),
    rfl, rfl, by decide +kernel, rfl, (fun _ _ h => by cases h), (fun _ _ _ h => by cases h), fun _ _ h => by cases h⟩

theorem witness_PulseStartsWithGatesOpen :
    (firing .main 100).Gated ∧ (firing .main 100).Tied
      ∧ step (firing .main 100) = .next (ran (step (firing .main 100)) State.reset)
      ∧ Starts .bankA (firing .main 100) (ran (step (firing .main 100)) State.reset)
      ∧ ∃ p, ((ran (step (firing .main 100)) State.reset).bank .bankA).drive = .boost p := by
  refine ⟨firing_gated, firing_tied, rfl, ?_, _, rfl⟩
  unfold Starts
  decide +kernel

theorem witness_BankDrivesByState :
    ((banked 0 (driven (.boost pulse1))).bank .bankA).drive = .boost pulse1
      ∧ ((banked 0 (driven (.hold pulse1))).bank .bankA).drive = .hold pulse1
      ∧ ((banked 0 (driven (.decay pulse1 0 100))).bank .bankA).drive = .decay pulse1 0 100
      ∧ (State.reset.bank .bankA).drive = .idle ∧ State.reset.diag.coil = none
      ∧ ((checking 0 none).bank .bankA).drive = .idle ∧ ((checking 0 none).bank .bankB).drive = .idle
      ∧ (checking 0 none).diag.coil = some (check1 none) ∧ (check1 none).bank = .bankA
      ∧ (check1 none).bank ≠ .bankB := by decide +kernel

theorem witness_PinResetSwitchesOff :
    (State.reset.withResetHeld true).resetHeld = true ∧ State.reset.resetHeld = false := by decide

theorem witness_HeldResetTakesNoEvent :
    (State.reset.withResetHeld true).resetHeld = true ∧ (∀ w l v, Instr.crankEdge ≠ .powerOnReset w l v)
      ∧ Instr.crankEdge ≠ .pinResetAssert ∧ ∀ l v, Instr.crankEdge ≠ .pinResetRelease l v := by
  simp [State.withResetHeld]

theorem witness_FirstCrankEdgeSeeks :
    State.reset.resetHeld = false ∧ State.reset.tracker.sync = .stopped ∧ State.reset.tracker.prevCrank = none := by
  decide

theorem witness_SpuriousCrankEdgeRejected :
    (at_ 276 steady).resetHeld = false ∧ (at_ 276 steady).tracker.prevCrank = some 0
      ∧ (at_ 276 steady).tracker.crankTp = some 1105
      ∧ 4 * rawInterval 0 (at_ 276 steady).timebase < 1105 := by decide +kernel

/-- SEEKING at a tick with one gap confirmed and a tooth count, T1 = 1000. -/
def seekingAt (now tooth : Nat) : State :=
  at_ now { steady with
    sync := .seeking, crankHist := [1000], crankTp := some 1000, refGap := true, tooth := tooth, gapCount := 1
    half := none, edgeAngle := none }

theorem witness_GapConfirmedHalfSync :
    ∀ now ∈ [2200, 3800],
      (seekingAt now 57).resetHeld = false ∧ (seekingAt now 57).tracker.sync = .seeking
        ∧ (seekingAt now 57).tracker.prevCrank = some 0 ∧ (seekingAt now 57).tracker.crankHist = 1000 :: []
        ∧ crankSpurious (seekingAt now 57).tracker (rawInterval 0 (seekingAt now 57).timebase) = false
        ∧ 22 * 1000 ≤ 10 * rawInterval 0 (seekingAt now 57).timebase
        ∧ 10 * rawInterval 0 (seekingAt now 57).timebase ≤ 38 * 1000 ∧ (seekingAt now 57).tracker.refGap = true
        ∧ (seekingAt now 57).tracker.tooth = lastTooth (seekingAt now 57).tracker.wheel
        ∧ (seekingAt now 57).plan.engine.gapConfirm ≤ min 4 ((seekingAt now 57).tracker.gapCount + 1) := by
  decide +kernel

/-- The count after an edge of the gap search. -/
def countAfter (t : Tracker) (i : Nat) : Nat :=
  match crankClass t.crankHist i with
  | .pitch => if t.refGap ∧ t.tooth = lastTooth t.wheel then 0 else t.gapCount
  | .gap =>
    if t.refGap then (if t.tooth = lastTooth t.wheel then min 4 (t.gapCount + 1) else 0) else 1
  | .long => 0

/-- SEEKING: the last pitch interval and the first gap, the last gap and the first long interval of T1 = 1000; the
pitch edge where the gap belongs, the gap at a wrong tooth, and the gap that confirms. The first edge has no T1. -/
theorem witness_GapConfirmedHalfSync_search :
    (∀ x ∈ [(2199, 5, CrankClass.pitch, 1), (2199, 57, .pitch, 0), (2200, 56, .gap, 0), (3800, 57, .gap, 2),
        (3801, 57, .long, 0)],
      (seekingAt x.1 x.2.1).resetHeld = false ∧ (seekingAt x.1 x.2.1).tracker.prevCrank = some 0
        ∧ crankSpurious (seekingAt x.1 x.2.1).tracker (rawInterval 0 (seekingAt x.1 x.2.1).timebase) = false
        ∧ (seekingAt x.1 x.2.1).tracker.sync = .seeking
        ∧ crankClass (seekingAt x.1 x.2.1).tracker.crankHist (rawInterval 0 (seekingAt x.1 x.2.1).timebase)
            = x.2.2.1
        ∧ countAfter (seekingAt x.1 x.2.1).tracker (rawInterval 0 (seekingAt x.1 x.2.1).timebase) = x.2.2.2)
      ∧ (seekingAt 0 0).plan.engine.gapConfirm = 2
      ∧ crankClass { steady with crankHist := [] }.crankHist 9 = .pitch := by decide +kernel

/-- CAM_LIMP at tick 2200 after a cam edge at an angle at time 0, interpolated 118 steps on, with a gap offset and the
gap search of `seekingAt`. -/
def recovering (angle gap tooth : Nat) : State :=
  (at_ 2200 { (seekingAt 0 tooth).tracker with
      sync := .camLimp, edgeAngle := some angle
      cam := { resetCam with
        lastEdge := some 0, lastAccepted := some 0, identity := .regular 1, hist := [22230], tp := some 22260 } }).withPlan
    { resetPlan with engine := { defaultEngine with gapOffset := gap } }

/-- The recovery: an angle 60 steps from a candidate is within the tolerance, 61 is not, in half 0 and in half 1; a gap
at a wrong tooth confirms nothing. -/
theorem witness_GapConfirmedHalfSync_recovery :
    (∀ x ∈ [(2550, 2608, 57, 60, 2), (2550, 2607, 57, 61, 2), (2550, 2728, 57, 60, 2), (6150, 2608, 57, 60, 2),
        (6150, 2607, 57, 61, 2), (2550, 2668, 5, 0, 0)],
      (recovering x.1 x.2.1 x.2.2.1).resetHeld = false ∧ (recovering x.1 x.2.1 x.2.2.1).tracker.prevCrank = some 0
        ∧ crankSpurious (recovering x.1 x.2.1 x.2.2.1).tracker (rawInterval 0 2200) = false
        ∧ (recovering x.1 x.2.1 x.2.2.1).tracker.sync = .camLimp
        ∧ crankClass (recovering x.1 x.2.1 x.2.2.1).tracker.crankHist (rawInterval 0 2200) = .gap
        ∧ countAfter (recovering x.1 x.2.1 x.2.2.1).tracker (rawInterval 0 2200) = x.2.2.2.2
        ∧ interpolated (recovering x.1 x.2.1 x.2.2.1).tracker 2200 = some (x.1 + 118)
        ∧ min (distance 7200 (x.1 + 118) (x.2.1 % 7200)) (distance 7200 (x.1 + 118) ((x.2.1 + 3600) % 7200))
            = x.2.2.2.1
        ∧ decide (distance 7200 (x.1 + 118) ((x.2.1 + 3600) % 7200) < distance 7200 (x.1 + 118) (x.2.1 % 7200))
            = decide (x.1 = 6150))
      ∧ (recovering 2550 2608 57).plan.engine.camTolerance = 60
      ∧ (formTp true (pushPeriod (roundDiv 2200 3) [1000])).isSome := by decide +kernel

/-- The first edge after a crank deadline, in SEEKING and in CAM_LIMP, has no interval. -/
theorem witness_GapConfirmedHalfSync_first :
    ∀ x ∈ [Sync.seeking, .camLimp],
      (at_ 9 { steady with sync := x, prevCrank := none }).resetHeld = false
        ∧ (at_ 9 { steady with sync := x, prevCrank := none }).tracker.sync ≠ .stopped
        ∧ (at_ 9 { steady with sync := x, prevCrank := none }).tracker.prevCrank = none := by decide +kernel

/-- HALF_SYNC at a tick, T1 = 1000, at a tooth. -/
def halfAt (now tooth : Nat) : State :=
  at_ now { steady with
    sync := .halfSync, crankHist := [1000], crankTp := some 1000, tooth := tooth, half := none
    edgeAngle := some 0 }

theorem witness_PitchEdgeCountedHalfSync :
    (halfAt 2199 56).resetHeld = false ∧ (halfAt 2199 56).tracker.sync = .halfSync
      ∧ (halfAt 2199 56).tracker.prevCrank = some 0 ∧ (halfAt 2199 56).tracker.crankHist = 1000 :: []
      ∧ crankSpurious (halfAt 2199 56).tracker (rawInterval 0 (halfAt 2199 56).timebase) = false
      ∧ 10 * rawInterval 0 (halfAt 2199 56).timebase < 22 * 1000
      ∧ (halfAt 2199 56).tracker.tooth ≠ lastTooth (halfAt 2199 56).tracker.wheel := by decide +kernel

/-- FULL_SYNC: the edge after 7100, and the edge before the gap. -/
theorem witness_PitchEdgeCountedHalfSync_full :
    ∀ x ∈ [(52, 7160, 60), (56, 200, 180)],
      (inExample (at_ 1105 { steady with tooth := x.1 })).resetHeld = false
        ∧ (inExample (at_ 1105 { steady with tooth := x.1 })).tracker.prevCrank = some 0
        ∧ (inExample (at_ 1105 { steady with tooth := x.1 })).tracker.crankHist = 1111 :: [1117]
        ∧ crankSpurious (inExample (at_ 1105 { steady with tooth := x.1 })).tracker (rawInterval 0 1105) = false
        ∧ 10 * rawInterval 0 1105 < 22 * 1111 ∧ x.1 ≠ lastTooth .w60
        ∧ (inExample (at_ 1105 { steady with tooth := x.1 })).tracker.sync = .fullSync
        ∧ (inExample (at_ 1105 { steady with tooth := x.1 })).tracker.half = some true
        ∧ formTp true (pushPeriod (rawInterval 0 1105) (1111 :: [1117])) = some 1099
        ∧ x.2.1 = (380 + (x.1 + 1) * pitchSteps .w60 + 3600) % 7200
        ∧ x.2.2 = if x.1 + 1 = lastTooth .w60 then 3 * pitchSteps .w60 else pitchSteps .w60 := by decide +kernel

/-- FULL_SYNC at a tick, with the tooth before the gap or one that expects none. -/
def fullAt (now tooth : Nat) : State := at_ now { steady with tooth := tooth }

/-- A tracker state with a revolutions count and the cam fault latch. -/
def revved (n : Nat) (fault : Bool) (s : State) : State :=
  s.withTracker { s.tracker with camFault := fault, cam := { s.tracker.cam with revsNoExtra := n } }

/-- The gap edges at the first and the last tick of the class, in HALF_SYNC with T1 = 1000 and in FULL_SYNC with
T1 = 1111, before, at and after the fourth revolution. -/
theorem witness_PitchEdgeCountedHalfSync_gap :
    (∀ x ∈ [(2200, 0, false), (3800, 3, false), (2200, 3, true), (3800, 4, false)],
      (revved x.2.1 x.2.2 (halfAt x.1 57)).resetHeld = false
        ∧ (revved x.2.1 x.2.2 (halfAt x.1 57)).tracker.prevCrank = some 0
        ∧ (revved x.2.1 x.2.2 (halfAt x.1 57)).tracker.crankHist = 1000 :: []
        ∧ crankSpurious (revved x.2.1 x.2.2 (halfAt x.1 57)).tracker (rawInterval 0 (BitVec.ofNat 32 x.1)) = false
        ∧ 22 * 1000 ≤ 10 * rawInterval 0 (BitVec.ofNat 32 x.1)
        ∧ 10 * rawInterval 0 (BitVec.ofNat 32 x.1) ≤ 38 * 1000
        ∧ (revved x.2.1 x.2.2 (halfAt x.1 57)).tracker.tooth = lastTooth .w60
        ∧ (revved x.2.1 x.2.2 (halfAt x.1 57)).tracker.sync = .halfSync)
      ∧ ∀ x ∈ [(2445, 0, false), (4221, 3, false), (2445, 3, true), (4221, 4, false)],
      (revved x.2.1 x.2.2 (fullAt x.1 57)).resetHeld = false
        ∧ (revved x.2.1 x.2.2 (fullAt x.1 57)).tracker.prevCrank = some 0
        ∧ (revved x.2.1 x.2.2 (fullAt x.1 57)).tracker.crankHist = 1111 :: [1117]
        ∧ crankSpurious (revved x.2.1 x.2.2 (fullAt x.1 57)).tracker (rawInterval 0 (BitVec.ofNat 32 x.1)) = false
        ∧ 22 * 1111 ≤ 10 * rawInterval 0 (BitVec.ofNat 32 x.1)
        ∧ 10 * rawInterval 0 (BitVec.ofNat 32 x.1) ≤ 38 * 1111
        ∧ (revved x.2.1 x.2.2 (fullAt x.1 57)).tracker.tooth = lastTooth .w60
        ∧ (revved x.2.1 x.2.2 (fullAt x.1 57)).tracker.sync = .fullSync
        ∧ (revved x.2.1 x.2.2 (fullAt x.1 57)).tracker.half = some true
        ∧ (formTp true (pushPeriod (roundDiv (rawInterval 0 (BitVec.ofNat 32 x.1)) 3) (1111 :: [1117]))).isSome := by
  decide +kernel

/-- The edge at 7100 of the worked case of steady speed. -/
def edge7100 : EdgeRef := { angle := 7100, time := 0, tp := 1105, span := 60, perTp := 60 }

/-- Cylinder 1's slot 3 WAITING in the queue with an end-of-injection limit. -/
def limited (eoi : Nat) : State :=
  (withWaiting .run (at_ 0 steady)).withContexts
    (State.reset.contexts.set .c1 (some { context1 .waiting with eoiAngle := eoi }))

/-- The commit of a MARK entry, and of a PULSE entry with 110 and 129 ticks available. -/
theorem witness_PitchEdgeCountedHalfSync_commit :
    findEntry (.mark 0) (marking.withQueue { resetQueue with entries := [{ markEntry with commit := none }] })
        = some { markEntry with commit := none }
      ∧ (∀ c n, ({ markEntry with commit := none } : Entry).key ≠ .pulse c n)
      ∧ (∀ x ∈ [(7151, 110), (7152, 129)],
        findEntry (.pulse .c1 3) (limited x.1) = some waitEntry ∧ waitEntry.commit = none
          ∧ waitEntry.target = some 7145 ∧ waitEntry.pulse = some (.main, 2400)
          ∧ (limited x.1).contexts.get .c1 = some { context1 .waiting with eoiAngle := x.1 }
          ∧ findSlot 3 [slot3 .waiting] = some (slot3 .waiting) ∧ (slot3 .waiting).st = .waiting
          ∧ commitAvailable edge7100 4500 x.1 7145 = x.2) :=
  ⟨by decide +kernel, fun c n h => by simp [markEntry] at h, by decide +kernel⟩

/-- The queue with mark 0's entry WAITING at 7150 and no context. -/
def markWaiting : State := marking.withQueue { resetQueue with entries := [{ markEntry with commit := none }] }

/-- A target at the span itself is outside the window, one step nearer inside; the PULSE entry at 7145 with 112 and
with 127 ticks available (a predicted period of 7 and 8 ticks, limit 900). -/
theorem witness_PitchEdgeCountedHalfSync_window :
    markWaiting.queue.Bounded ∧ markWaiting.Linked ∧ (withWaiting .run (at_ 0 steady)).queue.Bounded
      ∧ (withWaiting .run (at_ 0 steady)).Linked
      ∧ findEntry (.mark 0) markWaiting = some { markEntry with commit := none }
      ∧ (∀ c n, ({ markEntry with commit := none } : Entry).key ≠ .pulse c n)
      ∧ ({ edge7100 with span := 50 } : EdgeRef).span ≤ forward edge7100.angle 7150
      ∧ forward edge7100.angle 7150 < ({ edge7100 with span := 51 } : EdgeRef).span
      ∧ findEntry (.pulse .c1 3) (withWaiting .run (at_ 0 steady)) = some waitEntry
      ∧ waitEntry.commit = none ∧ waitEntry.target = some 7145 ∧ waitEntry.pulse = some (.main, 2400)
      ∧ (withWaiting .run (at_ 0 steady)).contexts.get .c1 = some (context1 .waiting)
      ∧ forward edge7100.angle 7145 < edge7100.span
      ∧ commitAvailable { edge7100 with tp := 7 } 4500 900 7145 = 112
      ∧ commitAvailable { edge7100 with tp := 8 } 4500 900 7145 = 127 :=
  ⟨⟨List.pairwise_singleton _ _, by decide⟩,
    (tied_of_none (s := markWaiting) (fun c => by cases c <;> rfl) (fun b => by cases b <;> rfl)
      (fun e he c n hk => by rcases List.mem_singleton.mp he with rfl; cases hk) (fun b => by cases b <;> rfl) rfl).1,
    ⟨List.pairwise_singleton _ _, by decide⟩,
    (tied_withWaiting .run (at_ 0 steady) (by decide) rfl (fun b => by cases b <;> rfl) rfl).1,
    by decide +kernel, (fun c n h => by simp [markEntry] at h), by decide +kernel⟩

/-- A limit that the edge has passed before a target that is not, one the edge lies before, and one on time. -/
theorem witness_PitchEdgeCountedHalfSync_limit :
    forward 4500 7099 < forward 4500 edge7100.angle
      ∧ forward edge7100.angle 7145 < forward edge7100.angle 4500
      ∧ forward 4500 edge7100.angle ≤ forward 4500 7100
      ∧ forward edge7100.angle 7120 ≤ forward edge7100.angle 7145 := by decide +kernel

/-- The queue as after a move with a frontier angle: the PULSE entry at 7145. -/
def caught (f : Nat) : State :=
  (withWaiting .run (at_ 0 steady)).withQueue { resetQueue with entries := [waitEntry], frontier := some f }

/-- The queue as after a move with a frontier angle: the MARK entry at 7150. -/
def caughtMark (f : Nat) : State :=
  marking.withQueue { resetQueue with entries := [{ markEntry with commit := none }], frontier := some f }

/-- An edge at the target's own angle has not passed it, an edge one step on has. -/
theorem witness_PitchEdgeCountedHalfSync_catchUp :
    (caught 7000).queue.Bounded ∧ (caughtMark 7000).queue.Bounded ∧ (caught 7000).queue.frontier = some 7000
      ∧ findEntry (.pulse .c1 3) (caught 7000) = some waitEntry ∧ waitEntry.target = some 7145
      ∧ forward 7000 7145 ≤ forward 7000 7145 ∧ 3600 ≤ forward 7000 3400
      ∧ forward 7000 7146 < 3600 ∧ forward 7000 7145 < forward 7000 7146
      ∧ findEntry (.mark 0) (caughtMark 7000) = some { markEntry with commit := none }
      ∧ forward 7000 7151 < 3600 ∧ forward 7000 7150 < forward 7000 7151 := by
  refine ⟨⟨List.pairwise_singleton _ _, by decide⟩, ⟨List.pairwise_singleton _ _, by decide⟩, ?_⟩
  decide +kernel

/-- Mark 0 pending, enabled or not, with no entry of it in the queue. -/
def pendingMark (on : Bool) : State :=
  (marking.withPlan { resetPlan with marks := resetPlan.marks.set 0 { mark0 with enabled := on } }).withQueue
    { resetQueue with pendingMarks := [0] }

theorem witness_PitchEdgeCountedHalfSync_pending :
    (∀ b, (pendingMark b).queue.Bounded) ∧ markWaiting.queue.Bounded
      ∧ (∀ b, (pendingMark b).plan.marks[(0 : MarkIx).val]? = some { mark0 with enabled := b }
        ∧ (0 : MarkIx) ∈ (pendingMark b).queue.pendingMarks ∧ findEntry (.mark 0) (pendingMark b) = none)
      ∧ findEntry (.mark 0) markWaiting ≠ none ∧ markWaiting.plan.marks[(0 : MarkIx).val]? = some mark0
      ∧ ∀ i, Key.arm .c1 ≠ .mark i :=
  ⟨fun _ => ⟨List.Pairwise.nil, Nat.zero_le _⟩, ⟨List.pairwise_singleton _ _, by decide⟩,
    fun b => by cases b <;> decide +kernel, by decide +kernel, by decide +kernel, fun i h => by cases h⟩

/-- A DWELL slot 4 of cylinder 1, 200 ticks after slot 3. -/
def dwell4 (x : SlotState) : Slot := { slot3 x with num := 4, anchor := .dwell 200 }

theorem witness_GapErrorLosesSync :
    ∀ x ∈ [(1105, 57), (3333, 52), (5000, 52)],
      (fullAt x.1 x.2).resetHeld = false ∧ (fullAt x.1 x.2).tracker.sync = .fullSync
        ∧ (fullAt x.1 x.2).tracker.prevCrank = some 0
        ∧ crankSpurious (fullAt x.1 x.2).tracker (rawInterval 0 (fullAt x.1 x.2).timebase) = false
        ∧ gapError (crankClass (fullAt x.1 x.2).tracker.crankHist (rawInterval 0 (fullAt x.1 x.2).timebase))
          (fullAt x.1 x.2).tracker = true := by decide +kernel

/-- HALF_SYNC, T1 = 1000: the last pitch interval where the gap belongs, the first and the last gap interval where it
does not, and the first long interval. -/
theorem witness_GapErrorLosesSync_half :
    ∀ x ∈ [(2199, 57, CrankClass.pitch), (2200, 56, .gap), (3800, 0, .gap), (3801, 57, .long)],
      (halfAt x.1 x.2.1).resetHeld = false ∧ (halfAt x.1 x.2.1).tracker.sync = .halfSync
        ∧ (halfAt x.1 x.2.1).tracker.prevCrank = some 0
        ∧ crankSpurious (halfAt x.1 x.2.1).tracker (rawInterval 0 (halfAt x.1 x.2.1).timebase) = false
        ∧ crankClass (halfAt x.1 x.2.1).tracker.crankHist (rawInterval 0 (halfAt x.1 x.2.1).timebase) = x.2.2
        ∧ (x.2.2 = .pitch ∧ (halfAt x.1 x.2.1).tracker.tooth = lastTooth .w60 ∨ x.2.2 = .long
          ∨ x.2.2 = .gap ∧ (halfAt x.1 x.2.1).tracker.tooth ≠ lastTooth .w60) := by decide +kernel

/-- FULL_SYNC, T1 = 1111: the last pitch interval where the gap belongs, the first and the last gap interval where it
does not, and the first long interval. -/
theorem witness_GapErrorLosesSync_full :
    ∀ x ∈ [(2444, 57, CrankClass.pitch), (2445, 56, .gap), (4221, 0, .gap), (4222, 57, .long)],
      (fullAt x.1 x.2.1).resetHeld = false ∧ (fullAt x.1 x.2.1).tracker.sync = .fullSync
        ∧ (fullAt x.1 x.2.1).tracker.prevCrank = some 0
        ∧ crankSpurious (fullAt x.1 x.2.1).tracker (rawInterval 0 (fullAt x.1 x.2.1).timebase) = false
        ∧ crankClass (fullAt x.1 x.2.1).tracker.crankHist (rawInterval 0 (fullAt x.1 x.2.1).timebase) = x.2.2
        ∧ (x.2.2 = .pitch ∧ (fullAt x.1 x.2.1).tracker.tooth = lastTooth .w60 ∨ x.2.2 = .long
          ∨ x.2.2 = .gap ∧ (fullAt x.1 x.2.1).tracker.tooth ≠ lastTooth .w60) := by decide +kernel

/-- R20, R181: a gap error in FULL_SYNC sends SYNC_CHANGE from FULL_SYNC to SEEKING with GAP_ERROR. -/
theorem test_gap_error_notice :
    sent (after .crankEdge (fullAt 1105 57)) = be32 1105 ++ [3, 1, 4] := by decide +kernel

/-- The same gap error with a slot waiting, and a slot that takes one PENDING DWELL slot with it and stops at the next
ANGLE slot. -/
theorem witness_GapErrorLosesSync_ends :
    (withWaiting .run (fullAt 1105 57)).Tied ∧ waitEntry ∈ (withWaiting .run (fullAt 1105 57)).queue.entries
      ∧ (slot3 .waiting).num = 3 ∧ (slot3 .waiting).st.isUnstarted = true
      ∧ (dwell4 .pending).st = .pending ∧ (dwell4 .pending).isDwell = true
      ∧ [{ slot3 .waiting with num := 5 }].head? = some { slot3 .waiting with num := 5 }
      ∧ ({ slot3 .waiting with num := 5 } : Slot).st ≠ .pending := by
  refine ⟨tied_withWaiting .run _ (by decide) rfl (fun b => by cases b <;> rfl), ?_⟩
  decide +kernel

/-- HALF_SYNC at tick 184 after tooth 21 at 1640, with S = 1650. -/
def nearExtra : State :=
  inExample (at_ 184
    { steady with sync := .halfSync, tooth := 21, half := none, edgeAngle := some 1640 })

theorem witness_CamEdgePhases :
    (seekingAt 9 0).resetHeld = false ∧ (seekingAt 9 0).tracker.sync = .seeking
      ∧ nearExtra.resetHeld = false ∧ nearExtra.tracker.sync = .halfSync ∧ identifyCam nearExtra = .extra := by
  decide +kernel

/-- A sync state with the angle at an edge, S = 1650 and a cam tolerance. -/
def identifying (x : Sync) (angle tol : Nat) : State :=
  (at_ 0 { steady with sync := x, edgeAngle := some angle }).withPlan
    { resetPlan with engine := { exampleEngine with camTolerance := tol } }

/-- The candidates of a sync state. -/
def candidates (x : Sync) : List CamId :=
  if x = .halfSync then [.regular 0, .regular 1, .regular 2, .extra]
  else [.regular 0, .regular 1, .regular 2, .regular 3, .regular 4, .regular 5, .extra, .phantom]

/-- The place of a candidate with S = 1650, modulo `m`. -/
def candidateAt (m : Nat) : CamId → Nat
  | .regular k => (1650 + 6900 + 1200 * k.val) % m
  | .phantom => (1650 + 3600) % m
  | _ => 1650 % m

/-- The distance of a candidate from an angle, modulo `m`. -/
def candidateFrom (m a : Nat) (x : CamId) : Nat :=
  min ((candidateAt m x + (m - a)) % m) ((a + (m - candidateAt m x)) % m)

/-- Edges at the tolerance from a tooth, one step beyond it, and in the middle of the regular tooth and the extra tooth
or the phantom position. -/
theorem witness_CamEdgePhases_identity :
    (∀ m ∈ [3600, 7200], candidateAt m .extra = exampleEngine.camSync % m
        ∧ candidateAt m .phantom = (exampleEngine.camSync + 3600) % m
        ∧ [0, 1, 2, 3, 4, 5].map (fun k => candidateAt m (.regular k))
          = [6900, 900, 2100, 3300, 4500, 5700].map (fun n => (exampleEngine.camSync + n) % m))
      ∧ (∀ x ∈ [(Sync.halfSync, 3600, 1590, 60, CamId.extra), (.halfSync, 3600, 1500, 150, .regular 0),
          (.halfSync, 3600, 1501, 150, .extra), (.fullSync, 7200, 1590, 60, .extra),
          (.fullSync, 7200, 5310, 60, .phantom), (.fullSync, 7200, 5100, 150, .regular 3)],
        (identifying x.1 x.2.2.1 x.2.2.2.1).tracker.sync = x.1
          ∧ interpolated (identifying x.1 x.2.2.1 x.2.2.2.1).tracker 0 = some x.2.2.1
          ∧ x.2.2.2.2 ∈ candidates x.1
          ∧ candidateFrom x.2.1 x.2.2.1 x.2.2.2.2 ≤ (identifying x.1 x.2.2.1 x.2.2.2.1).plan.engine.camTolerance
          ∧ ∀ y ∈ candidates x.1, y ≠ x.2.2.2.2 →
            candidateFrom x.2.1 x.2.2.1 x.2.2.2.2 < candidateFrom x.2.1 x.2.2.1 y
              ∨ (candidateFrom x.2.1 x.2.2.1 x.2.2.2.2 = candidateFrom x.2.1 x.2.2.1 y
                ∧ (∃ k, x.2.2.2.2 = .regular k) ∧ ∀ k, y ≠ .regular k))
      ∧ ∀ x ∈ [(Sync.halfSync, 3600, 1589, 60), (.halfSync, 3600, 1500, 149), (.fullSync, 7200, 5311, 60)],
        interpolated (identifying x.1 x.2.2.1 x.2.2.2).tracker 0 = some x.2.2.1
          ∧ ∀ y ∈ candidates x.1, (identifying x.1 x.2.2.1 x.2.2.2).plan.engine.camTolerance
            < candidateFrom x.2.1 x.2.2.1 y := by decide +kernel

/-- The extra tooth at 1650 of `nearExtra` lies in half 0 with S = 1650 and in half 1 with S = 5250. -/
theorem witness_CamEdgePhases_phased :
    carrier nearExtra.tracker = some { angle := 1640, time := 0, tp := 1105, span := 60, perTp := 60 }
      ∧ (nearExtra.plan.engine.gapOffset + nearExtra.tracker.tooth * pitchSteps nearExtra.tracker.wheel
          + min (elapsed 0 nearExtra.timebase * 60 / 1105) (60 - 1)) % 7200 = 1649
      ∧ distance 7200 1649 1650 < distance 7200 ((1649 + 3600) % 7200) 1650
      ∧ distance 7200 ((1649 + 3600) % 7200) 5250 < distance 7200 1649 5250 := by decide +kernel

/-- FULL_SYNC in RUN with cylinder 1 defined and an empty queue. -/
def gaining : State := (arming false).withQueue resetQueue

/-- A sync gain with mark 0 enabled and its entry in the queue, and one in RUN with cylinder 1 defined and an empty
queue. -/
theorem witness_CamEdgePhases_gain :
    (defined1 markWaiting).queue.Bounded ∧ gaining.queue.Bounded
      ∧ (defined1 markWaiting).plan.marks[(0 : MarkIx).val]? = some mark0 ∧ mark0.enabled = true
      ∧ findEntry (.mark 0) (defined1 markWaiting) ≠ none ∧ (defined1 markWaiting).run.mode ≠ .run
      ∧ gaining.plan.marks[(7 : MarkIx).val]? = some resetMark ∧ resetMark.enabled = false
      ∧ gaining.run.mode = .run ∧ (gaining.plan.cyls.get .c1).place = some place1
      ∧ (gaining.plan.cyls.get .c2).place = none := by
  refine ⟨⟨List.pairwise_singleton _ _, by decide⟩, ⟨List.Pairwise.nil, Nat.zero_le _⟩, ?_⟩
  decide +kernel

/-- FULL_SYNC at a tick with a cam tooth identified and a cam period. -/
def limpable (now : Nat) (x : CamId) : State :=
  at_ now { steady with cam := { resetCam with identity := x, hist := [22230], tp := some 22230,
                                                lastEdge := some 0, lastAccepted := some 0 } }

theorem witness_CrankDeadlineTaken :
    (halfAt 2000 56).resetHeld = false ∧ (halfAt 2000 56).tracker.prevCrank = some 0
      ∧ (halfAt 2000 56).tracker.crankTp = some 1000 ∧ (halfAt 2000 56).tracker.sync = .halfSync
      ∧ 2 * (if (halfAt 2000 56).tracker.tooth = lastTooth (halfAt 2000 56).tracker.wheel then 3 * 1000 else 1000)
          ≤ elapsed 0 (halfAt 2000 56).timebase
      ∧ 2 * (if (halfAt 6000 57).tracker.tooth = lastTooth (halfAt 6000 57).tracker.wheel then 3 * 1000 else 1000)
          ≤ elapsed 0 (halfAt 6000 57).timebase
      ∧ (∀ x ∈ [CamId.regular 1, CamId.extra],
          (limpable 2210 x).resetHeld = false ∧ (limpable 2210 x).tracker.prevCrank = some 0
          ∧ (limpable 2210 x).tracker.crankTp = some 1105
          ∧ 2 * (if (limpable 2210 x).tracker.tooth = lastTooth (limpable 2210 x).tracker.wheel then 3 * 1105
              else 1105) ≤ elapsed 0 (limpable 2210 x).timebase
          ∧ (limpable 2210 x).tracker.sync = .fullSync ∧ (limpable 2210 x).plan.engine.camLimp = true
          ∧ (limpable 2210 x).tracker.camFault = false ∧ (limpable 2210 x).tracker.cam.hist ≠ []
          ∧ ((∃ k, (limpable 2210 x).tracker.cam.identity = .regular k)
              ∨ (limpable 2210 x).tracker.cam.identity = .extra)) := by decide +kernel

/-- FULL_SYNC at the crank deadline with the condition of R16 of a number failing: CAM_LIMP not enabled, the cam fault
latch set, no cam period, the phantom position, no tooth identified. -/
def unlimpable (n : Nat) : State :=
  match n with
  | 0 => (limpable 2210 .extra).withPlan { resetPlan with engine := { defaultEngine with camLimp := false } }
  | 1 => (limpable 2210 .extra).withTracker { (limpable 2210 .extra).tracker with camFault := true }
  | 2 => at_ 2210 { (limpable 0 .extra).tracker with cam := { (limpable 0 .extra).tracker.cam with hist := [] } }
  | 3 => limpable 2210 .phantom
  | _ => limpable 2210 .unknown

theorem witness_CrankDeadlineTaken_fails :
    (∀ n ∈ [0, 1, 2, 3, 4],
      (unlimpable n).resetHeld = false ∧ (unlimpable n).tracker.prevCrank = some 0
        ∧ (unlimpable n).tracker.crankTp = some 1105
        ∧ 2 * (if (unlimpable n).tracker.tooth = lastTooth (unlimpable n).tracker.wheel then 3 * 1105 else 1105)
            ≤ elapsed 0 (unlimpable n).timebase
        ∧ (unlimpable n).tracker.sync = .fullSync
        ∧ (if n = 0 then (unlimpable n).plan.engine.camLimp = false
          else if n = 1 then (unlimpable n).tracker.camFault = true
          else if n = 2 then (unlimpable n).tracker.cam.hist = []
          else if n = 3 then (unlimpable n).tracker.cam.identity = .phantom
          else (unlimpable n).tracker.cam.identity = .unknown))
      ∧ (withWaiting .run (unlimpable 4)).Tied
      ∧ waitEntry ∈ (withWaiting .run (unlimpable 4)).queue.entries :=
  ⟨by decide +kernel, tied_withWaiting .run _ (by decide) rfl (fun b => by cases b <;> rfl), by decide⟩

theorem witness_CrankDeadlineTaken_ends :
    (withWaiting .run (limpable 2210 .extra)).Tied
      ∧ waitEntry ∈ (withWaiting .run (limpable 2210 .extra)).queue.entries :=
  ⟨tied_withWaiting .run _ (by decide) rfl (fun b => by cases b <;> rfl), by decide⟩

/-- The same deadline with a commit reference, and without one. -/
theorem witness_CrankDeadlineTaken_frontier :
    ((limpable 2210 .extra).withQueue { resetQueue with commitRef := some edge7100 }).queue.commitRef = some edge7100
      ∧ (limpable 2210 .extra).queue.commitRef = none ∧ (limpable 2210 .extra).tracker.sync = .fullSync := by decide

/-- CAM_LIMP at a tick after the edge of regular tooth 1, at Tp = 22,260. -/
def limping (now : Nat) : State :=
  at_ now { (limpable 0 (.regular 1)).tracker with
    sync := .camLimp, half := none, edgeAngle := some 2550
    cam := { (limpable 0 (.regular 1)).tracker.cam with tp := some 22260 } }

/-- STOPPED after a cam edge at time 0 with a raw interval, a candidate count, six edges since and the crank fault
latch set. -/
def searching (now : Nat) (raw : List Nat) (n : Nat) (fault : Bool) : State :=
  at_ now { resetTracker .w60 with
    crankFault := fault
    cam := { resetCam with lastEdge := some 0, raw := raw, candidates := n, sinceCandidate := 6 } }

/-- The second candidate, a third of the interval before it less a tick, starts CAM_LIMP; without the latch it does
not; a third itself is no candidate, nor is the first edge. -/
theorem witness_CamEdgePhases_stopped :
    (∀ b, (true = true ↔ ∃ p i rest, (searching 1100 [3301] 1 b).tracker.cam.lastEdge = some p
        ∧ (searching 1100 [3301] 1 b).tracker.cam.raw = i :: rest
        ∧ 3 * rawInterval p (searching 1100 [3301] 1 b).timebase < i))
      ∧ (false = true ↔ ∃ p i rest, (searching 1100 [3300] 1 true).tracker.cam.lastEdge = some p
        ∧ (searching 1100 [3300] 1 true).tracker.cam.raw = i :: rest
        ∧ 3 * rawInterval p (searching 1100 [3300] 1 true).timebase < i)
      ∧ (false = true ↔ ∃ p i rest, State.reset.tracker.cam.lastEdge = some p
        ∧ State.reset.tracker.cam.raw = i :: rest ∧ 3 * rawInterval p State.reset.timebase < i)
      ∧ (searching 1100 [3301] 1 true).tracker.sync = .stopped ∧ (searching 1100 [3301] 1 true).resetHeld = false
      ∧ (searching 1100 [3301] 1 true).tracker.crankFault = true
      ∧ (searching 1100 [3301] 1 false).tracker.crankFault = false
      ∧ (searching 1100 [3301] 1 true).plan.engine.camLimp = true
      ∧ formTp true (startHistory (pushRaw (camRaw (searching 1100 [3301] 1 true).tracker.cam 1100) [3301]))
          = some 5500 := by
  have hn : ¬ ∃ p i rest, (searching 1100 [3300] 1 true).tracker.cam.lastEdge = some p
      ∧ (searching 1100 [3300] 1 true).tracker.cam.raw = i :: rest
      ∧ 3 * rawInterval p (searching 1100 [3300] 1 true).timebase < i := by
    rintro ⟨p, i, r, h1, h2, h3⟩
    cases h1; cases h2; revert h3; decide +kernel
  refine ⟨fun b => ⟨fun _ => ⟨0, 3301, [], rfl, rfl, by cases b <;> decide +kernel⟩, fun _ => rfl⟩,
    ⟨(fun h => by cases h), fun h => (hn h).elim⟩, ⟨(fun h => by cases h), fun ⟨_, _, _, h1, _⟩ => by cases h1⟩, ?_⟩
  decide +kernel

/-- FULL_SYNC at tick 184 after a tooth at an edge angle, S = 1650, with a tooth identified at time 0. -/
def near (tooth : Nat) (half : Bool) (angle : Nat) (x : CamId) (wrong : Nat) : State :=
  inExample (at_ 184
    { steady with
      tooth := tooth, half := some half, edgeAngle := some angle
      cam := { resetCam with lastEdge := some 0, identity := x, wrongPhase := wrong } })

/-- HALF_SYNC: the tooth near none. FULL_SYNC near S in half 0, the extra tooth, and in half 1, the phantom position;
near 2550, the tooth that follows and one that does not. -/
theorem witness_CamEdgePhases_full :
    (inExample (halfAt 9 0)).tracker.sync = .halfSync ∧ identifyCam (inExample (halfAt 9 0)) ≠ .extra
      ∧ (near 21 false 1640 .unknown 0).tracker.sync = .fullSync
      ∧ identifyCam (near 21 false 1640 .unknown 0) = .extra
      ∧ (near 21 false 1640 .unknown 0).tracker.cam.identity.next = none
      ∧ identifyCam (near 21 true 5240 .unknown 0) = .phantom
      ∧ (near 21 true 5240 .unknown 0).tracker.cam.wrongPhase = 0
      ∧ identifyCam (near 21 true 5240 .unknown 1) = .phantom
      ∧ (near 21 true 5240 .unknown 1).tracker.cam.wrongPhase ≠ 0
      ∧ identifyCam (near 36 false 2540 .extra 0) = .regular 1
      ∧ (near 36 false 2540 .extra 0).tracker.cam.lastEdge = some 0
      ∧ (near 36 false 2540 .extra 0).tracker.cam.identity.next = some (.regular 1, 900)
      ∧ (near 36 false 2540 (.regular 1) 0).tracker.cam.identity.next = some (.regular 2, 1200)
      ∧ identifyCam (near 36 false 2540 (.regular 1) 0) ≠ .regular 2
      ∧ identifyCam (near 36 false 3000 .unknown 0) = .unknown := by decide +kernel

/-- CAM_LIMP, Tp = 22,260: a quarter of the span's ticks less one is spurious, a quarter is not; the regular tooth
that passes and that fails; the extra tooth that passes. -/
theorem witness_CamEdgePhases_limp :
    (limping 5564).tracker.sync = .camLimp ∧ (limping 5564).tracker.cam.lastAccepted = some 0
      ∧ (limping 5564).tracker.cam.identity.next = some (.regular 2, 1200)
      ∧ (limping 5564).tracker.cam.tp = some 22260
      ∧ 4 * rawInterval 0 5564 < (2 * (1200 * 22260) + 1200) / 2400
      ∧ (2 * (1200 * 22260) + 1200) / 2400 ≤ 4 * rawInterval 0 5565
      ∧ camPasses exampleEngine (limping 5565).tracker 5565 (.regular 2) = true
      ∧ (CamId.regular 2).next = some (.regular 3, 1200)
      ∧ formTp true (pushPeriod ((2 * (5565 * 1200) + 1200) / (2 * 1200)) (limping 5565).tracker.cam.hist)
          = some 4174
      ∧ camPasses exampleEngine
          { (limping 5565).tracker with cam := { (limping 5565).tracker.cam with raw := [16696] } } 5565 (.regular 2)
          = false
      ∧ camPasses exampleEngine
          { (limping 0).tracker with
            cam := { (limping 0).tracker.cam with identity := .regular 0, raw := [22260] } } 5565 .extra = true
      ∧ (CamId.regular 0).next = some (.extra, 300) := by decide +kernel

theorem witness_CamDeadlineTaken :
    (limping 44520).resetHeld = false ∧ (limping 44520).tracker.sync = .camLimp
      ∧ (limping 44520).tracker.cam.lastAccepted = some 0 ∧ (limping 44520).tracker.cam.tp = some 22260
      ∧ 2 * roundDiv (camSpan (limping 44520).tracker * 22260) 1200 ≤ elapsed 0 (limping 44520).timebase := by
  decide +kernel

/-- The same deadline with a slot waiting. -/
theorem witness_CamDeadlineTaken_ends :
    (withWaiting .run (limping 44520)).Tied ∧ waitEntry ∈ (withWaiting .run (limping 44520)).queue.entries :=
  ⟨tied_withWaiting .run _ (by decide) rfl (fun b => by cases b <;> rfl), by decide⟩

/-- R20, R26, R181: the cam deadline sends CAM_FAULT LIMP_DEADLINE, then SYNC_CHANGE with CAM_DEADLINE. -/
theorem test_cam_deadline_notices :
    sent (after .camDeadline (limping 44520)) = be32 44520 ++ [4]
      ∧ (after .camDeadline (limping 44520)).link.notices.map Notice.body
        = [.syncChange .camLimp .seeking .camDeadline] := by decide +kernel

/-- STOPPED at a tick with a cam edge at time 0. -/
def stoppedCam (now : Nat) : State := at_ now { resetTracker .w60 with cam := { resetCam with lastEdge := some 0 } }

theorem witness_StallTimeoutTaken :
    (fullAt 600000 52).resetHeld = false
      ∧ 2000 * (fullAt 600000 52).plan.engine.stallMs ≤ elapsed 0 (fullAt 600000 52).timebase
      ∧ (fullAt 600000 52).tracker.sync ≠ .stopped ∧ (fullAt 600000 52).tracker.stallRef = some 0
      ∧ (fullAt 600000 52).tracker.sync.holdsAngle = true
      ∧ (seekingAt 600000 0).tracker.sync ≠ .stopped ∧ (seekingAt 600000 0).tracker.stallRef = some 0
      ∧ (seekingAt 600000 0).tracker.sync.holdsAngle = false
      ∧ 2000 * (stoppedCam 600000).plan.engine.stallMs ≤ elapsed 0 (stoppedCam 600000).timebase
      ∧ (stoppedCam 600000).tracker.sync = .stopped ∧ (stoppedCam 600000).tracker.cam.lastEdge = some 0 := by
  decide +kernel

/-- The same timeout in FULL_SYNC with a slot waiting. -/
theorem witness_StallTimeoutTaken_ends :
    (withWaiting .run (fullAt 600000 52)).Tied ∧ waitEntry ∈ (withWaiting .run (fullAt 600000 52)).queue.entries
      ∧ (fullAt 600000 52).tracker.sync.holdsAngle = true :=
  ⟨tied_withWaiting .run _ (by decide) rfl (fun b => by cases b <;> rfl), by decide, rfl⟩

theorem witness_FiredMarkPutBack :
    marking.resetHeld = false ∧ firstDue marking = some markEntry ∧ markEntry.key = .mark 0
      ∧ marking.plan.marks[0]? = some mark0 := by decide +kernel

theorem witness_ArmEventCutByFuelcut :
    (arming true).resetHeld = false ∧ (arming true).Gated ∧ firstDue (arming true) = some dueArm
      ∧ dueArm.key = .arm .c1 ∧ ((arming true).plan.cyls.get .c1).place = some place1
      ∧ (arming true).contexts.get .c1 = none ∧ (arming true).run.fuelcut = true := by
  refine ⟨rfl, arming_gated, ?_⟩
  decide +kernel

/-- Cylinder 1's ARM entry due with each standing cut reason, the one before it in the list never holding. -/
def cutBy : CutReason → State
  | .fuelcut => arming true
  | .supplyCritical => (arming false).withRun { (arming false).run with band := .critical }
  | .overspeed =>
    (arming false).withPlan { (arming false).plan with engine := { defaultEngine with overspeed := 1799 } }
  | .controllerDisabled =>
    (arming false).withPlan { (arming false).plan with
      cyls := (arming false).plan.cyls.set .c1 { place := some place1, eoiLimit := 900, disabled := true } }
  | .faultDisabled =>
    (arming false).withDiag { resetDiagnosis with disabled := resetDiagnosis.disabled.set .c1 true }
  | _ => (arming false).withPlan { (arming false).plan with stale := true }

/-- The state of the arm event's checks. -/
def checked (s : State) : State :=
  overrun .c1 (countExpiry (landIfPending (some .c1) (insertArm .c1 (removeKey dueArm.key s))))

/-- The standing cut reason of cylinder 1 in a state. -/
def cutOf (s : State) : Option CutReason :=
  if s.run.fuelcut then some .fuelcut else if s.run.band = .critical then some .supplyCritical
  else if s.plan.engine.overspeed < speed s.tracker then some .overspeed
  else if (s.plan.cyls.get .c1).disabled then some .controllerDisabled
  else if (checked s).diag.disabled.get .c1 then some .faultDisabled
  else if (checked s).plan.stale then some .stale else none

theorem tied_armed (s : State) (hc : s.contexts = State.reset.contexts) (hq : s.queue.entries = [dueArm])
    (hb : ∀ b, s.bank b = State.reset.bank b) : s.Tied := by
  refine tied_of_none (fun c => by rw [hc]; cases c <;> rfl) (fun b => by rw [hb b]; cases b <;> rfl)
    (fun e he c n hk => ?_) (fun b => by rw [hb b]; cases b <;> rfl)
  rw [hq] at he
  rcases List.mem_singleton.mp he with rfl
  cases hk

theorem witness_ArmEventCutByFuelcut_cuts :
    (∀ k, (cutBy k).Tied)
      ∧ ∀ k ∈ [CutReason.fuelcut, .supplyCritical, .overspeed, .controllerDisabled, .faultDisabled, .stale],
        (cutBy k).resetHeld = false ∧ firstDue (cutBy k) = some dueArm
          ∧ ((cutBy k).plan.cyls.get .c1).place = some place1 ∧ cutOf (cutBy k) = some k :=
  ⟨fun k => tied_armed _ (by cases k <;> rfl) (by cases k <;> rfl) (fun b => by cases k <;> cases b <;> rfl),
    by decide +kernel⟩

/-- No standing reason: the test cut at its last cycle and before it, a derate check that holds, and a build. -/
def unCut (n : Option Nat) (acc : Nat) : State :=
  (arming false).withPlan { (arming false).plan with
    testCut := n.map fun k => (.c1, k), derateK := 1, derateN := 2, derateAcc := acc }

theorem witness_ArmEventCutByFuelcut_build :
    (∀ n acc, (unCut n acc).Tied)
      ∧ (∀ x ∈ [(some 1, 0), (some 2, 0), (none, 0), (none, 1)],
        (unCut x.1 x.2).resetHeld = false ∧ firstDue (unCut x.1 x.2) = some dueArm
          ∧ cutOf (unCut x.1 x.2) = none ∧ (unCut x.1 x.2).plan.testCut = x.1.map fun k => (.c1, k))
      ∧ (unCut none 1).plan.derateN ≤ (unCut none 1).plan.derateAcc + (unCut none 1).plan.derateK
      ∧ (unCut none 0).plan.derateAcc + (unCut none 0).plan.derateK < (unCut none 0).plan.derateN
      ∧ (unCut none 0).plan.testCut = none :=
  ⟨fun _ _ => tied_armed _ rfl rfl (fun b => by cases b <;> rfl), by decide +kernel, by decide, by decide, rfl⟩

/-- The Plan Store with an expiry count, expiry value 48. -/
def expiring (n : Nat) (stale : Bool) : State := State.reset.withPlan { resetPlan with expiry := n, stale := stale }

/-- The count reaches 48 from 47, stands at 48, falls short from 46, and is past the value after the value was lowered. -/
theorem witness_ArmEventCutByFuelcut_expiry :
    ((if (expiring 47 false).plan.expiry < (expiring 47 false).plan.engine.planExpiry then
          (expiring 47 false).plan.expiry + 1 else (expiring 47 false).plan.expiry)
        = (expiring 47 false).plan.engine.planExpiry)
      ∧ (expiring 47 false).plan.stale = false ∧ (expiring 47 true).plan.stale = true
      ∧ (∀ x ∈ [(46, 47), (49, 49)],
        (if (expiring x.1 false).plan.expiry < (expiring x.1 false).plan.engine.planExpiry then
          (expiring x.1 false).plan.expiry + 1 else (expiring x.1 false).plan.expiry) = x.2
          ∧ x.2 ≠ (expiring x.1 false).plan.engine.planExpiry)
      ∧ (expiring 48 false).plan.expiry = (expiring 48 false).plan.engine.planExpiry := by decide +kernel

/-- A slot list with one slot in position 2. -/
theorem witness_ArmEventCutByFuelcut_latch :
    [none, some (PlanSlot.mk .pilot (.angle (-180)) 250 true), none][1]?
        = some (some (PlanSlot.mk .pilot (.angle (-180)) 250 true))
      ∧ [none, some (PlanSlot.mk .pilot (.angle (-180)) 250 true), none][2]? = some none := by decide

/-- Cylinder 1's context with slot 3 of a kind latched at an angle, shaped in a state. -/
def shaping (k : PulseKind) (defer : Bool) (start : Nat) (s : State) : State :=
  s.withContexts (State.reset.contexts.set .c1 (some
    { context1 .latched with
      slots := [{ slot3 .latched with kind := k, mayDefer := defer, anchor := .angle start }] }))

/-- FULL_SYNC with window 0 from 7140 to 7150 on both banks. -/
def windowed : State :=
  (at_ 0 steady).withPlan { resetPlan with
    windows := [{ start := 7140, stop := 7150, banks := .both, enabled := true }] }

/-- The shaping tests of slot 3 at their boundaries: arm angle 4500, limit 900, current angle 7100. -/
theorem witness_ArmEventCutByFuelcut_shape :
    (limping 0).tracker.sync = .camLimp ∧ PulseKind.pilot ≠ .main ∧ (at_ 0 steady).tracker.sync ≠ .camLimp
      ∧ (at_ 0 steady).run.clock ≠ .backup
      ∧ (shaping .main false 7145 windowed).contexts.get .c1
          = some { context1 .latched with
              slots := [{ slot3 .latched with kind := .main, mayDefer := false, anchor := .angle 7145 }] }
      ∧ quietTest windowed.plan.windows .bankA false 4 7145 false = (7145, false, false)
      ∧ quietTest windowed.plan.windows .bankA true 4 7145 false = (7150, true, true)
      ∧ quietTest resetPlan.windows .bankA false 4 901 false = (901, false, true)
      ∧ forward 4500 900 < forward 4500 901 ∧ forward 4500 900 ≤ forward 4500 900
      ∧ forward 7100 900 < forward 7100 7099 ∧ forward 7100 900 ≤ forward 7100 900
      ∧ 24 ≤ (List.replicate 24 waitEntry).countP Entry.isPulse
      ∧ (List.replicate 23 waitEntry).countP Entry.isPulse < 24
      ∧ slotBefore 4 none [slot3 .pending, dwell4 .latched] = some (slot3 .pending)
      ∧ (slot3 .pending).st.isResolved = false
      ∧ slotBefore 4 none [slot3 (.resolved (.suppressed .late)), dwell4 .latched]
          = some (slot3 (.resolved (.suppressed .late)))
      ∧ (slot3 (.resolved (.suppressed .late))).st.isResolved = true
      ∧ (slot3 (.resolved (.suppressed .late))).hasFired = false ∧ (dwell4 .latched).anchor = .dwell 200 := by
  decide +kernel

/-- Window 0 of `windowed` holds its start 7140, not its end 7150, and moves a start that may be deferred. -/
theorem witness_ArmEventCutByFuelcut_quiet :
    windowed.plan.windows = [] ++ { start := 7140, stop := 7150, banks := .both, enabled := true } :: []
      ∧ (QuietWindow.mk 7140 7150 .both true).hits .bankA 7140 = true
      ∧ (∀ w ∈ windowed.plan.windows, w.hits .bankA 7150 = false) := by decide +kernel

theorem witness_ArmEventCutByFuelcut_overrun :
    (withWaiting .run (at_ 0 steady)).Linked
      ∧ (withWaiting .run (at_ 0 steady)).contexts.get .c1 = some (context1 .waiting)
      ∧ slot3 .waiting ∈ (context1 .waiting).slots ∧ (slot3 .waiting).st.isUnstarted = true :=
  ⟨(tied_withWaiting .run (at_ 0 steady) (by decide) rfl (fun b => by cases b <;> rfl) rfl).1, rfl, by decide, rfl⟩

theorem witness_FiredPulseStarts :
    ∀ x ∈ [(PulseKind.main, 0), (PulseKind.pilot, 25), (PulseKind.post, 25)],
      (firing x.1 x.2).resetHeld = false ∧ firstDue (firing x.1 x.2) = some (pulseEntry x.1)
        ∧ (pulseEntry x.1).key = .pulse .c1 3 ∧ (pulseEntry x.1).pulse = some (x.1, 2400)
        ∧ (pulseEntry x.1).commit = some { ref := 0, delay := 829 }
        ∧ (firing x.1 x.2).contexts.get .c1 = some (context1 (.committed 829))
        ∧ (firing x.1 x.2).run.fuelcut = false ∧ (firing x.1 x.2).run.band ≠ .critical
        ∧ ((firing x.1 x.2).bank (context1 (.committed 829)).bank).drive = .idle
        ∧ (x.1 = .main ∨ (firing x.1 x.2).plan.engine.cost x.1
            ≤ ((firing x.1 x.2).bank (context1 (.committed 829)).bank).reserve) := by decide +kernel

/-- `firing` with bank A in DECAY and its waiting slot as given. -/
def busy (k : PulseKind) (w : Option StartReq) : State :=
  (firing k 100).withBank .bankA { driven (.decay pulse1 800 900) with waiting := w }

/-- The starts that do not begin: the fuel cut, CRITICAL, a reserve one below the cost, and a busy bank with its waiting
slot empty, holding a lower kind, or holding one that keeps it. -/
theorem witness_FiredPulseStarts_others :
    (∀ s ∈ [(firing .main 100).withRun { (firing .main 100).run with fuelcut := true },
        (firing .main 100).withRun { (firing .main 100).run with band := .critical }, firing .main 24, busy .main none,
        busy .main (some (request1 .pilot)), busy .main (some (request1 .post)), busy .main (some (request1 .main))],
      s.resetHeld = false ∧ firstDue s = some (pulseEntry .main)
        ∧ s.contexts.get .c1 = some (context1 (.committed 829)))
      ∧ firstDue (firing .pilot 24) = some (pulseEntry .pilot)
      ∧ ((firing .pilot 24).bank .bankA).reserve < (firing .pilot 24).plan.engine.cost .pilot
      ∧ ((firing .pilot 24).bank .bankA).drive = .idle
      ∧ (∀ w ∈ [none, some (request1 .pilot), some (request1 .main)],
        ((busy .main w).bank .bankA).drive ≠ .idle ∧ ((busy .main w).bank .bankA).waiting = w
          ∧ (busy .main w).run.fuelcut = false ∧ (busy .main w).run.band ≠ .critical)
      ∧ (request1 .pilot).kind ≠ .main ∧ (request1 .main).kind = .main
      ∧ firstDue (busy .pilot (some (request1 .post))) = some (pulseEntry .pilot) := by decide +kernel

theorem witness_FiredPulseStarts_outcome :
    (firing .main 100).Linked ∧ slotAt (firing .main 100) .c1 3 = some (.committed 829) :=
  ⟨(firing_tied rfl).1, by decide⟩

theorem witness_StrobeEndsAtItsTime :
    strobing.resetHeld = false ∧ strobing.queue.strobeUntil = some 20 ∧ reached 20 strobing.timebase = true
      ∧ (strobing.withTimebase 19).queue.strobeUntil = some 20
      ∧ reached 20 (strobing.withTimebase 19).timebase = false := by decide +kernel

theorem witness_BoostEndsInHold :
    (banked 300 (driven (.boost pulse1))).resetHeld = false
      ∧ ((banked 300 (driven (.boost pulse1))).bank .bankA).drive = .boost pulse1
      ∧ pulse1.boostLimit ≤ elapsed pulse1.start (banked 300 (driven (.boost pulse1))).timebase
      ∧ (State.reset.bank .bankA).drive.isBoost = false := by decide +kernel

theorem witness_CurTestRecorded :
    (banked 60 (driven (.boost pulse1))).resetHeld = false ∧ pulse1.curTest = .pending
      ∧ 60 ≤ elapsed pulse1.start (banked 60 (driven (.boost pulse1))).timebase
      ∧ ((banked 60 (driven (.boost pulse1))).bank .bankA).drive = .boost pulse1
      ∧ ((banked 60 (driven (.hold pulse1))).bank .bankA).drive = .hold pulse1
      ∧ elapsed pulse1.start (banked 59 (driven (.boost pulse1))).timebase < 60
      ∧ ({ pulse1 with curTest := .present } : Pulse).curTest ≠ .pending
      ∧ ((banked 60 (driven (.boost { pulse1 with curTest := .present }))).bank .bankA).drive
          = .boost { pulse1 with curTest := .present } := by decide +kernel

theorem witness_PulseEndsInDecay :
    (banked 2400 (driven (.boost pulse1))).resetHeld = false
      ∧ ((banked 2400 (driven (.boost pulse1))).bank .bankA).drive = .boost pulse1
      ∧ ((banked 2400 (driven (.hold pulse1))).bank .bankA).drive = .hold pulse1
      ∧ pulse1.energize ≤ elapsed pulse1.start (banked 2400 (driven (.boost pulse1))).timebase := by decide +kernel

theorem witness_PulseEndsInDecay_fired :
    (burning .run (at_ 2400 steady)).Tied
      ∧ (burning .run (at_ 2400 steady)).contexts.get pulse1.cyl = some (context1 (.energized 0 (some 7145) 0))
      ∧ findSlot pulse1.slot (context1 (.energized 0 (some 7145) 0)).slots
          = some (slot3 (.energized 0 (some 7145) 0))
      ∧ ((burning .run (at_ 2400 steady)).bank .bankA).drive = .boost pulse1 :=
  ⟨tied_burning .run _ (by decide) rfl rfl rfl, rfl, rfl, rfl⟩

/-- A state with cylinder 1's score, warning flag and latch; the threshold is 64. -/
def scored (n : Nat) (armed latch : Bool) (s : State) : State :=
  s.withDiag { s.diag with
    score := s.diag.score.set .c1 n, warnArmed := s.diag.warnArmed.set .c1 armed
    disabled := s.diag.disabled.set .c1 latch }

/-- An OPEN (+16) that ends below half the threshold, at it, below the threshold and at it; at half an armed warning
warns and at the threshold a clear latch is set, a latch that is set stays. -/
theorem witness_PulseEndsInDecay_diagnosis :
    (∀ x ∈ [(15, true, false, false, false), (16, true, false, true, false), (16, false, false, false, false),
        (47, true, false, true, false), (48, false, false, false, true), (48, true, true, true, false)],
      ((decide ((scored x.1 x.2.1 x.2.2.1 State.reset).plan.engine.faultThreshold / 2
            ≤ scoreAfter .openCircuit ((scored x.1 x.2.1 x.2.2.1 State.reset).diag.score.get .c1))
          && (scored x.1 x.2.1 x.2.2.1 State.reset).diag.warnArmed.get .c1) = x.2.2.2.1)
        ∧ ((decide ((scored x.1 x.2.1 x.2.2.1 State.reset).plan.engine.faultThreshold
            ≤ scoreAfter .openCircuit ((scored x.1 x.2.1 x.2.2.1 State.reset).diag.score.get .c1))
          && !(scored x.1 x.2.1 x.2.2.1 State.reset).diag.disabled.get .c1) = x.2.2.2.2))
      ∧ (scored 48 true false (banked 2400 (driven (.boost { pulse1 with curTest := .absent })))).plan.engine.faultThreshold
          ≤ scoreAfter (classify { pulse1 with curTest := .absent }) 48
      ∧ (scored 48 true false State.reset).diag.disabled.get .c1 = false := by decide +kernel

/-- Cylinder 1's OPEN pulse of slot 3 at its end in a sync state, with a score of 48 of 64 and the DWELL slot 4 PENDING
on it. -/
def disabling (x : Sync) : State :=
  (burning .run (scored 48 true false (at_ 2400 { steady with sync := x }))).withBank .bankA
      (driven (.hold { pulse1 with curTest := .absent }))
    |>.withContexts (State.reset.contexts.set .c1 (some
      { context1 .latched with slots := [slot3 (.energized 0 (some 7145) 0), dwell4 .pending] }))

/-- R83, R135: a DWELL slot after the pulse that disables its cylinder is WITHDRAWN with FAULT, in SEEKING and in CAM_LIMP
as well. -/
theorem test_follower_of_disabling_pulse_withdrawn :
    ∀ x ∈ [Sync.seeking, .camLimp, .fullSync],
      outcomeAt (after (.pulseEnd .bankA) (disabling x)) .c1 4 = some (.withdrawn .fault) := by decide +kernel

/-- The ties hold in `disabling`, under the fuel cut or not. -/
theorem disabling_tied (cut : Bool) (x : Sync) :
    ((disabling x).withRun { (disabling x).run with fuelcut := cut }).Tied := by
  have h0 : ∀ c, c ≠ .c1 → (disabling x).contexts.get c = none := by
    intro c h; cases c <;> first | rfl | exact absurd rfl h
  have hn : ∀ n, n ≠ 3 → n ≠ 4 → slotAt (disabling x) .c1 n = none := by
    intro n h3 h4
    have h1 : (disabling x).contexts.get .c1 = some
        { context1 .latched with slots := [slot3 (.energized 0 (some 7145) 0), dwell4 .pending] } := rfl
    unfold slotAt; rw [h1]; simp [findSlot, slot3, dwell4, Ne.symm h3, Ne.symm h4]
  refine fun _ => ⟨⟨fun c y hc => ?_, (fun e he => by cases he), (fun e he => by cases he), fun b r h => ?_,
    fun b p h => ?_, fun c n t a k h => ?_⟩, fun h => by cases h⟩
  · by_cases h : c = .c1
    · subst h; cases hc; exact ⟨rfl, by decide⟩
    · have := h0 c h
      rw [show ((disabling x).withRun { (disabling x).run with fuelcut := cut }).contexts.get c = none from this] at hc
      cases hc
  · cases b <;> cases h
  · cases b <;> cases h
    exact ⟨rfl, _, _, rfl⟩
  · change slotAt (disabling x) c n = _ at h
    by_cases h1 : c = .c1
    · subst h1
      by_cases h3 : n = 3
      · subst h3; exact ⟨.bankA, _, rfl, rfl, rfl⟩
      · by_cases h4 : n = 4
        · subst h4; cases h
        · rw [hn n h3 h4] at h; cases h
    · unfold slotAt at h; rw [h0 c h1] at h; cases h

theorem witness_PulseEndsInDecay_follower (x : Sync) :
    (disabling x).Tied ∧ (disabling x).run.fuelcut = false
      ∧ (disabling x).plan.engine.faultThreshold
          ≤ scoreAfter (classify { pulse1 with curTest := .absent }) ((disabling x).diag.score.get .c1)
      ∧ slotAfter pulse1.slot [slot3 (.energized 0 (some 7145) 0), dwell4 .pending] = some (dwell4 .pending)
      ∧ (dwell4 .pending).st = .pending ∧ (dwell4 .pending).anchor = .dwell 200 := by
  refine ⟨disabling_tied false x, rfl, ?_, ?_⟩
  · cases x <;> decide +kernel
  · decide +kernel

/-- Cylinder 1 is disabled with slot 3's entry in the queue, and with its start waiting at bank A. -/
theorem witness_PulseEndsInDecay_withdrawn :
    (withWaiting .run (scored 48 true false (at_ 0 steady))).Linked
      ∧ (∃ e ∈ (withWaiting .run (scored 48 true false (at_ 0 steady))).queue.entries, e.key = .pulse .c1 3)
      ∧ ((busy .main (some (request1 .main))).bank .bankA).waiting = some (request1 .main)
      ∧ (request1 .main).cyl = .c1 ∧ (request1 .main).slot = 3 :=
  ⟨(tied_withWaiting .run (scored 48 true false (at_ 0 steady)) (by decide) rfl (fun b => by cases b <;> rfl) rfl).1,
    ⟨waitEntry, by decide, rfl⟩, rfl, rfl, rfl⟩

/-- Pulses of each class: a peak at 226 of a limit of 300 is slow, at 225 it is not. -/
theorem witness_PulseEndsInDecay_classes :
    ({ pulse1 with ovc := true } : Pulse).ovc = true ∧ pulse1.ovc = false
      ∧ ({ pulse1 with curTest := .absent } : Pulse).curTest = .absent ∧ pulse1.curTest ≠ .absent
      ∧ ({ pulse1 with noPeak := true } : Pulse).noPeak = true ∧ pulse1.noPeak = false
      ∧ ({ pulse1 with peak := some 226 } : Pulse).peak = some 226
      ∧ 3 * pulse1.boostLimit < 4 * elapsed pulse1.start 226 ∧ 4 * elapsed pulse1.start 225 ≤ 3 * pulse1.boostLimit
      ∧ pulse1.peak = none := by decide

/-- FULL_SYNC in RUN with slot 3 ended and the DWELL slot 4 PENDING after it. -/
def chaining : State :=
  (at_ 2400 steady).withContexts (State.reset.contexts.set .c1 (some
    { context1 .latched with slots := [slot3 .latched, dwell4 .pending] }))

theorem witness_PulseEndsInDecay_chain :
    chaining.contexts.get .c1 = some { context1 .latched with slots := [slot3 .latched, dwell4 .pending] }
      ∧ ([slot3 .latched, dwell4 .pending].map Slot.num).Nodup
      ∧ slotAfter 3 [slot3 .latched, dwell4 .pending] = some (dwell4 .pending) ∧ (dwell4 .pending).st = .pending
      ∧ (dwell4 .pending).anchor = .dwell 200
      ∧ slotAt (chainAfter .c1 3 2400 chaining) .c1 4 = some (.committed (later 2400 200))
      ∧ findEntry (.pulse .c1 4) chaining = none := by decide +kernel

theorem witness_PulseEndsInDecay_close :
    (opened1 .pending State.reset).contexts.get .c1 = some (context1 .pending) ∧ (context1 .pending).cyl = .c1
      ∧ (∃ y ∈ (context1 .pending).slots, y.st.isResolved = false)
      ∧ (opened1 (.resolved (.suppressed .late)) State.reset).contexts.get .c1
          = some (context1 (.resolved (.suppressed .late)))
      ∧ ∀ y ∈ (context1 (.resolved (.suppressed .late))).slots, y.st.isResolved = true := by decide

theorem witness_OvercurrentEndsPulse :
    (banked 9 (driven (.boost pulse1))).resetHeld = false
      ∧ ((banked 9 (driven (.boost pulse1))).bank .bankA).drive = .boost pulse1
      ∧ ((banked 9 (driven (.hold pulse1))).bank .bankA).drive = .hold pulse1
      ∧ (checking 400 none).resetHeld = false ∧ ((checking 400 none).bank .bankA).drive.energized = none
      ∧ (checking 400 none).diag.coil = some (check1 none) ∧ (check1 none).bank = .bankA
      ∧ elapsed (check1 none).start (checking 400 none).timebase ≤ 400
      ∧ (check1 none).bank ≠ .bankB ∧ ((checking 400 none).bank .bankB).drive.energized = none
      ∧ 400 < elapsed (check1 none).start (checking 401 none).timebase
      ∧ (State.reset.bank .bankA).drive.energized = none ∧ State.reset.diag.coil = none := by decide +kernel

/-- An overcurrent at a score of 31 stays below the threshold of 64, at 32 it reaches it. -/
theorem witness_OvercurrentEndsPulse_disables :
    min 255 ((scored 31 true false (banked 9 (driven (.boost pulse1)))).diag.score.get pulse1.cyl + 32) < 64
      ∧ (scored 32 true false (banked 9 (driven (.boost pulse1)))).plan.engine.faultThreshold
          ≤ min 255 ((scored 32 true false (banked 9 (driven (.boost pulse1)))).diag.score.get pulse1.cyl + 32)
      ∧ (scored 32 true false (banked 9 (driven (.boost pulse1)))).diag.disabled.get pulse1.cyl = false
      ∧ ((scored 32 true false (banked 9 (driven (.boost pulse1)))).bank .bankA).drive = .boost pulse1 := by
  decide +kernel

/-- An OVC in a burning context of one slot, and in one with a DWELL slot PENDING on the pulse, whose cylinder the OVC
disables or the fuel cut stands. -/
theorem witness_OvercurrentEndsPulse_fired :
    (burning .run (at_ 9 steady)).Tied ∧ (∀ cut x, ((disabling x).withRun { (disabling x).run with fuelcut := cut }).Tied)
      ∧ ((burning .run (at_ 9 steady)).bank .bankA).drive = .boost pulse1
      ∧ (burning .run (at_ 9 steady)).contexts.get pulse1.cyl = some (context1 (.energized 0 (some 7145) 0))
      ∧ findSlot pulse1.slot (context1 (.energized 0 (some 7145) 0)).slots
          = some (slot3 (.energized 0 (some 7145) 0))
      ∧ ((disabling .fullSync).bank .bankA).drive = .hold { pulse1 with curTest := .absent }
      ∧ slotAfter pulse1.slot [slot3 (.energized 0 (some 7145) 0), dwell4 .pending] = some (dwell4 .pending)
      ∧ (dwell4 .pending).st = .pending ∧ (dwell4 .pending).anchor = .dwell 200
      ∧ (disabling .fullSync).plan.engine.faultThreshold
          ≤ min 255 ((disabling .fullSync).diag.score.get .c1 + 32) := by
  refine ⟨tied_burning .run _ (by decide) rfl rfl rfl, disabling_tied, ?_⟩
  decide +kernel

/-- The waiting starts that fail a test: under the fuel cut, in CRITICAL, and a PILOT one unit short. -/
theorem witness_DecayEndServesWaiting_fails :
    (∀ x ∈ [(true, SupplyBand.normal, 25), (false, .critical, 25), (false, .normal, 24)],
      ∀ s, s = (waitingStart 200 x.2.2 .pilot).withRun
          { (waitingStart 200 x.2.2 .pilot).run with fuelcut := x.1, band := x.2.1 } →
        s.resetHeld = false ∧ (s.bank .bankA).drive = .decay pulse1 0 100 ∧ reached 100 s.timebase = true
          ∧ (s.bank .bankA).waiting = some (request1 .pilot) ∧ s.run.fuelcut = x.1 ∧ s.run.band = x.2.1)
      ∧ elapsed (request1 .pilot).committed (waitingStart 200 24 .pilot).timebase
          ≤ 2 * (waitingStart 200 24 .pilot).plan.engine.maxSlipUs
      ∧ (request1 .pilot).kind ≠ .main
      ∧ ((waitingStart 200 24 .pilot).bank .bankA).reserve < (waitingStart 200 24 .pilot).plan.engine.cost .pilot := by
  refine ⟨fun x hx s hs => ?_, by decide +kernel⟩
  subst hs
  revert x
  decide +kernel

theorem witness_DecayEndServesWaiting :
    (banked 100 (driven (.decay pulse1 0 100))).resetHeld = false
      ∧ ((banked 100 (driven (.decay pulse1 0 100))).bank .bankA).drive = .decay pulse1 0 100
      ∧ reached 100 (banked 100 (driven (.decay pulse1 0 100))).timebase = true
      ∧ ((banked 100 (driven (.decay pulse1 0 100))).bank .bankA).waiting = none
      ∧ (∀ x ∈ [(201, PulseKind.main, 0), (200, PulseKind.main, 0), (200, PulseKind.pilot, 25)],
          (waitingStart x.1 x.2.2 x.2.1).resetHeld = false
          ∧ ((waitingStart x.1 x.2.2 x.2.1).bank .bankA).drive = .decay pulse1 0 100
          ∧ reached 100 (waitingStart x.1 x.2.2 x.2.1).timebase = true
          ∧ ((waitingStart x.1 x.2.2 x.2.1).bank .bankA).waiting = some (request1 x.2.1)
          ∧ (waitingStart x.1 x.2.2 x.2.1).run.fuelcut = false
          ∧ (waitingStart x.1 x.2.2 x.2.1).run.band ≠ .critical)
      ∧ 2 * (waitingStart 201 0 .main).plan.engine.maxSlipUs
          < elapsed (request1 .main).committed (waitingStart 201 0 .main).timebase
      ∧ elapsed (request1 .main).committed (waitingStart 200 0 .main).timebase
          ≤ 2 * (waitingStart 200 0 .main).plan.engine.maxSlipUs
      ∧ (waitingStart 200 25 .pilot).plan.engine.cost (request1 .pilot).kind
          ≤ ((waitingStart 200 25 .pilot).bank .bankA).reserve := by decide +kernel

/-- A bank that recharges, at a reserve of 99 and a phase. -/
def recharging (phase : Nat) : BankState := { driven .idle with reserve := 99, phase := phase }

/-- Bank A in a supply band. -/
def bandedBank (band : SupplyBand) (x : BankState) : State :=
  (banked 0 x).withRun { resetRunControl false { vbat := 520 } with band := band }

theorem witness_ReserveRecharges :
    (∀ x ∈ [(SupplyBand.normal, 49), (SupplyBand.normal, 50), (SupplyBand.low, 99), (SupplyBand.low, 100)],
        (bandedBank x.1 (recharging x.2)).resetHeld = false ∧ (bandedBank x.1 (recharging x.2)).run.band = x.1
        ∧ ((bandedBank x.1 (recharging x.2)).bank .bankA).drive.isBoost = false
        ∧ ((bandedBank x.1 (recharging x.2)).bank .bankA).reserve < 100
        ∧ ((bandedBank x.1 (recharging x.2)).bank .bankA).phase = x.2)
      ∧ (bandedBank .critical (recharging 7)).run.band = .critical
      ∧ ((bandedBank .normal (driven (.boost pulse1))).bank .bankA).drive.isBoost = true
      ∧ 100 ≤ ((bandedBank .normal (driven .idle)).bank .bankA).reserve := by decide +kernel

theorem witness_CoilCheckMeasures :
    (∀ cur ∈ [none, some 39, some 40, some 240, some 241],
        (checking 400 cur).resetHeld = false ∧ (checking 400 cur).diag.coil = some (check1 cur)
        ∧ elapsed (check1 cur).start (checking 400 cur).timebase ≤ 400
        ∧ 400 ≤ elapsed (check1 cur).start (checking 400 cur).timebase)
      ∧ (check1 none).curTime = none ∧ (check1 (some 39)).curTime ≠ none ∧ Bank.bankB ≠ (check1 none).bank
      ∧ ((checking 400 none).bank (check1 none).bank).drive.energized = none ∧ State.reset.resetHeld = false
      ∧ State.reset.diag.coil = none ∧ (State.reset.bank .bankA).drive.energized = none := by
  decide +kernel

/-- DRAIN with its timer set for time 9, at time 9. -/
def draining : State := running 9 { resetRunControl false { vbat := 520 } with mode := .drain, drainAt := some 9 }

theorem witness_DrainTimerForcesHalt :
    draining.resetHeld = false ∧ draining.run.mode = .drain ∧ draining.run.drainAt = some 9
      ∧ reached 9 draining.timebase = true := by decide +kernel

/-- A state whose drain timer is reached. -/
def drained (s : State) : State := s.withRun { s.run with drainAt := some 2400 }

theorem witness_DrainTimerForcesHalt_open :
    (drained (withWaiting .drain (at_ 2400 steady))).Tied ∧ (drained (burning .drain (at_ 2400 steady))).Tied
      ∧ (drained (withWaiting .drain (at_ 2400 steady))).contexts.get .c1 = some (context1 .waiting)
      ∧ (drained (withWaiting .drain (at_ 2400 steady))).contexts.get .c2 = none
      ∧ slot3 .waiting ∈ (context1 .waiting).slots ∧ (slot3 .waiting).st.isUnstarted = true
      ∧ reached 2400 (drained (burning .drain (at_ 2400 steady))).timebase = true
      ∧ ((drained (burning .drain (at_ 2400 steady))).bank .bankB).drive.energized = none :=
  ⟨tied_withWaiting .drain ((at_ 2400 steady).withRun { (at_ 2400 steady).run with drainAt := some 2400 })
      (by decide) rfl (fun b => by cases b <;> rfl),
    tied_burning .drain ((at_ 2400 steady).withRun { (at_ 2400 steady).run with drainAt := some 2400 })
      (by decide) rfl rfl rfl,
    rfl, rfl, by decide, rfl, by decide, rfl⟩

/-- The fuel cut released or not with the line at a level since time 0. -/
def cutLine (now : Nat) (low level : Bool) : State :=
  running now { resetRunControl false { vbat := 520 } with lineLow := low, fuelcut := level }

theorem witness_FuelcutLineFiltered :
    (cutLine 3 false false).resetHeld = false ∧ (cutLine 3 false false).run.lineLow ≠ true
      ∧ (cutLine 3 false false).run.lineLow = false
      ∧ elapsed (cutLine 3 false true).run.lineSince (cutLine 3 false true).timebase < 4
      ∧ (cutLine 4 false true).run.lineLow = false ∧ (cutLine 4 false true).run.fuelcut = true
      ∧ 4 ≤ elapsed (cutLine 4 false true).run.lineSince (cutLine 4 false true).timebase := by decide +kernel

theorem witness_FuelcutAssertionStopsFuel :
    ((cutLine 4 true false).withBank .bankA (driven (.boost pulse1))).resetHeld = false
      ∧ ((cutLine 4 true false).withBank .bankA (driven (.boost pulse1))).run.lineLow = true
      ∧ ((cutLine 4 true false).withBank .bankA (driven (.boost pulse1))).run.fuelcut = false
      ∧ 4 ≤ elapsed ((cutLine 4 true false).withBank .bankA (driven (.boost pulse1))).run.lineSince
          ((cutLine 4 true false).withBank .bankA (driven (.boost pulse1))).timebase
      ∧ (((cutLine 4 true false).withBank .bankA (driven (.boost pulse1))).bank .bankA).drive.energized = some pulse1
      ∧ (((cutLine 4 true false).withBank .bankA (driven (.boost pulse1))).bank .bankB).drive.energized = none
      ∧ ((cutLine 4 true false).withBank .bankA (driven (.boost pulse1))).run.mode ≠ .drain := by decide +kernel

/-- A state with the FUELCUT_N line low since time 0. -/
def cutLow (s : State) : State := s.withRun { s.run with lineLow := true }

theorem witness_FuelcutAssertionStopsFuel_ends :
    (withWaiting .run (cutLow (at_ 4 steady))).Tied ∧ (burning .run (cutLow (at_ 4 steady))).Tied
      ∧ (∀ s ∈ [withWaiting .run (cutLow (at_ 4 steady)), burning .run (cutLow (at_ 4 steady))],
        s.resetHeld = false ∧ s.run.lineLow = true ∧ s.run.fuelcut = false
          ∧ 4 ≤ elapsed s.run.lineSince s.timebase)
      ∧ waitEntry ∈ (withWaiting .run (cutLow (at_ 4 steady))).queue.entries
      ∧ ((burning .run (cutLow (at_ 4 steady))).bank .bankA).drive.energized = some pulse1 :=
  ⟨tied_withWaiting .run _ (by decide) rfl (fun b => by cases b <;> rfl), tied_burning .run _ (by decide) rfl rfl rfl,
    by decide +kernel, by decide, rfl⟩

/-- The assertion with a coil check running and nothing to withdraw, and with nothing at all. -/
theorem witness_FuelcutAssertionStopsFuel_notice :
    (∀ s ∈ [cutLow (checking 4 (some 3)), cutLine 4 true false],
      s.resetHeld = false ∧ s.run.lineLow = true ∧ s.run.fuelcut = false
        ∧ 4 ≤ elapsed s.run.lineSince s.timebase ∧ (∀ e ∈ s.queue.entries, e.isPulse = false)
        ∧ (s.bank .bankA).waiting = none ∧ (s.bank .bankA).drive.energized = none
        ∧ (s.bank .bankB).waiting = none ∧ (s.bank .bankB).drive.energized = none)
      ∧ (cutLow (checking 4 (some 3))).diag.coil = some (check1 (some 3))
      ∧ (cutLine 4 true false).diag.coil = none := by decide +kernel

/-- A sample due in a band with a filter run. -/
def sampling (n : Nat) (d : FilterDir) (y : Option SupplyBand) : State :=
  running 2000 { resetRunControl false { vbat := 520 } with filterRun := n, filterDir := d, filterNearest := y }

theorem witness_SupplyFilterTakesSample :
    (sampling 0 .none none).resetHeld = false
      ∧ 2000 ≤ elapsed (sampling 0 .none none).run.lastSample (sampling 0 .none none).timebase
      ∧ classOf (sampling 0 .none none).run.band (min 800 360) = .normal
      ∧ SupplyBand.normal = (sampling 0 .none none).run.band
      ∧ classOf (sampling 0 .none none).run.band (min 800 359) = .low
      ∧ SupplyBand.low ≠ (sampling 0 .none none).run.band
      ∧ (sampling 0 .none none).run.filterDir ≠ sideOf (sampling 0 .none none).run.band .low
      ∧ (sampling 2 .down (some .low)).run.filterDir = sideOf (sampling 2 .down (some .low)).run.band .low
      ∧ (sampling 2 .down (some .low)).run.filterRun ≠ 3
      ∧ (sampling 3 .down (some .low)).run.filterDir = sideOf (sampling 3 .down (some .low)).run.band .low
      ∧ (sampling 3 .down (some .low)).run.filterRun = 3 := by decide +kernel

/-- The first and the last raw VBAT value of each class by the band in force; a run from NORMAL with LOW in it keeps LOW
as its nearest when CRITICAL follows, and one with CRITICAL takes LOW. -/
theorem witness_SupplyFilterTakesSample_bands :
    (∀ x ∈ [(SupplyBand.normal, 279, SupplyBand.critical), (.normal, 280, .low), (.normal, 359, .low),
        (.normal, 360, .normal), (.low, 279, .critical), (.low, 280, .low), (.low, 369, .low), (.low, 370, .normal),
        (.critical, 289, .critical), (.critical, 290, .low), (.critical, 369, .low), (.critical, 370, .normal)],
      (if x.2.1 < (match x.1 with | .normal => 280 | .low => 280 | .critical => 290) then SupplyBand.critical
        else if x.2.1 < (match x.1 with | .normal => 360 | .low => 370 | .critical => 370) then .low else .normal)
        = x.2.2)
      ∧ SupplyBand.critical.code = 0 ∧ SupplyBand.low.code = 1 ∧ SupplyBand.normal.code = 2
      ∧ (sampling 2 .down (some .low)).run.filterNearest = some .low
      ∧ ¬ (0 - 2) + (2 - 0) < (1 - 2) + (2 - 1) ∧ (1 - 2) + (2 - 1) < (0 - 2) + (2 - 0) := by decide +kernel

theorem witness_MonitorWindowJudged :
    State.reset.resetHeld = false ∧ (1400 ≤ 1400 ∧ 1400 ≤ 1800) ∧ (1400 ≤ 1800 ∧ 1800 ≤ 1800)
      ∧ (running 0 { resetRunControl false { vbat := 520 } with monitor := false }).run.monitor = false
      ∧ State.reset.run.monitor = true ∧ 1399 < 1400 ∧ 1800 < 1801 := by decide

theorem witness_ByteTakenByFramer :
    State.reset.resetHeld = false ∧ State.reset.link.framer = .hunt
      ∧ (linked { resetLink with framer := .length }).link.framer = .length
      ∧ (60 : Byte).toNat ≤ 60 ∧ ¬ (61 : Byte).toNat ≤ 60
      ∧ (linked { resetLink with framer := .length }).link.framer ≠ .hunt
      ∧ standing.resetHeld = false ∧ standing.run.stands = true := by decide +kernel

theorem witness_FrameReadFromItsBytes :
    (∀ n ∈ [3, 4], (Link.mk .hunt none (List.replicate n frame1) [] [] none 0 0 0).framer = .hunt)
      ∧ (Frame.mk 8 7 (List.replicate 60 0)).payload.length ≤ 60
      ∧ (List.replicate 66 (0 : Tick)).length = (Frame.mk 8 7 (List.replicate 60 0)).payload.length + 6
      ∧ (List.replicate 3 frame1).length < 4 ∧ 4 ≤ (List.replicate 4 frame1).length
      ∧ some (0x00 : Byte) ≠ frame1.wire.getLast? := by decide +kernel

theorem witness_InterByteDeadlineDiscards :
    (linked { resetLink with framer := .length, byteDeadline := some 0 }).resetHeld = false
      ∧ (linked { resetLink with framer := .length, byteDeadline := some 0 }).link.byteDeadline = some 0
      ∧ reached 0 (linked { resetLink with framer := .length, byteDeadline := some 0 }).timebase = true
      ∧ (linked { resetLink with framer := .length, byteDeadline := some 1 }).link.byteDeadline = some 1
      ∧ reached 1 (linked { resetLink with framer := .length, byteDeadline := some 1 }).timebase = false := by
  decide +kernel

/-- A frame being sent that ends at time 0. -/
def sending1 : Sending := { frame := frame1, doneAt := 0 }

/-- A notice at time 0. -/
def notice1 (x : NoticeBody) : Notice := { time := 0, body := x }

theorem witness_FrameSentTakesNext :
    (linked { resetLink with sending := some sending1 }).resetHeld = false
      ∧ (linked { resetLink with sending := some sending1 }).link.sending = some sending1
      ∧ reached sending1.doneAt (linked { resetLink with sending := some sending1 }).timebase = true
      ∧ (linked { resetLink with sending := some sending1, replies := [frame1] }).link.replies = frame1 :: []
      ∧ (linked { resetLink with sending := some sending1 }).link.replies = []
      ∧ (linked { resetLink with sending := some sending1, notices := [notice1 (.testCutDone .c1)] }).link.notices
          = notice1 (.testCutDone .c1) :: []
      ∧ (linked { resetLink with sending := some sending1 }).link.notices = [] := by decide +kernel

/-- A frame of 6 bytes at a time after it began: the first and the last tick of each part of a byte, and past its end. -/
theorem witness_FrameSentTakesNext_txd :
    (State.reset.withResetHeld true).resetHeld = true ∧ State.reset.link.sending = none ∧ frame1.payload.length ≤ 60
      ∧ (∀ t ∈ [0, 1, 2, 17, 18, 19, 20, 119, 120, 4294967295],
        ((linked { resetLink with sending := some { frame := frame1, doneAt := later 0 (20 * (0 + 6)) } }).withTimebase
          (BitVec.ofNat 32 t)).timebase = later 0 t ∧ t < 4294967296)
      ∧ (∀ x ∈ [(0, 0, 0, (0xA5 : Byte)), (19, 0, 19, 0xA5), (20, 1, 0, 0), (79, 3, 19, 7)],
        x.1 = 20 * x.2.1 + x.2.2.1 ∧ x.2.2.1 < 20
          ∧ ([0xA5, byte frame1.payload.length, frame1.kind, frame1.tag] ++ frame1.payload
              ++ be16 (crc16 frame1.covered).toNat)[x.2.1]? = some x.2.2.2)
      ∧ 20 * (frame1.payload.length + 6) ≤ 120 := by decide +kernel

theorem witness_NoticeQueuedBySpace :
    (List.replicate 15 (notice1 (.stopDone false 0))).length < 16
      ∧ 16 ≤ (List.replicate 16 (notice1 (.stopDone false 0))).length
      ∧ (notice1 (.mark 0 none 0)).body.level = .routine ∧ (notice1 (.stopDone false 0)).body.level = .urgent
      ∧ (∀ m ∈ List.replicate 16 (notice1 (.stopDone false 0)), m.body.level = .urgent)
      ∧ 16 ≤ (List.replicate 15 (notice1 (.stopDone false 0)) ++ notice1 (.mark 0 none 0) :: []).length
      ∧ State.reset.link.enable.getLsbD (NoticeBody.mark 0 none 0).index = false := by decide +kernel

/-- The frame of a kind code with its fields, and that of a notice, at time 9. -/
theorem witness_NoticeQueuedBySpace_frames :
    ∃ (f : Byte → List Byte → Frame) (g : NoticeBody → Frame),
      (∀ kind fields, f kind fields
        = { kind := kind, tag := 0, payload := be32 (9 : Tick).toNat ++ fields })
        ∧ ∀ m, g m = Notice.frame { time := 9, body := m } :=
  ⟨fun k xs => { kind := k, tag := 0, payload := be32 (9 : Tick).toNat ++ xs },
    fun m => Notice.frame { time := 9, body := m }, fun _ _ => rfl, fun _ => rfl⟩

theorem ready_reset : LinkReady State.reset := ⟨rfl, rfl, rfl, by decide⟩

/-- A link with nothing in its queues is ready while the timebase runs. -/
theorem ready_of_link {s : State} (h : s.resetHeld = false) (r : s.run.stands = false) (l : s.link = resetLink) :
    LinkReady s := by
  refine ⟨h, r, ?_, ?_⟩
  · rw [l]; rfl
  · rw [l]; decide

theorem witness_UnknownKindRefused :
    State.reset.resetHeld = false ∧ (0 : Byte).toNat = 0 ∧ 0x18 < (0x19 : Byte).toNat
      ∧ (List.replicate 60 (0 : Byte)).length ≤ 60 ∧ LinkReady State.reset
      ∧ (inboundWith 0).link.inbound ≠ [] ∧ 4 ≤ (inboundWith 4).link.replies.length
      ∧ (inboundWith 0).run.stands = false ∧ standing.resetHeld = false ∧ standing.run.stands = true := by
  refine ⟨rfl, rfl, by decide, by decide, ready_reset, by decide, by decide, rfl, ?_⟩
  decide +kernel

theorem witness_RequestAcceptedOrQueued :
    State.reset.resetHeld = false ∧ requestCommand 0x12 7 [0] = some (.start 7 [0]) ∧ [(0 : Byte)].length ≤ 60
      ∧ LinkReady State.reset ∧ lengthAllowed 0x12 [0] = false ∧ (inboundWith 0).link.inbound ≠ []
      ∧ (linked { resetLink with inbound := List.replicate 3 frame1 }).link.inbound.length < 4
      ∧ (linked { resetLink with inbound := List.replicate 3 frame1 }).link.inbound ≠ []
      ∧ 4 ≤ (linked { resetLink with inbound := List.replicate 4 frame1 }).link.inbound.length
      ∧ (linked { resetLink with inbound := List.replicate 4 frame1 }).run.stands = false
      ∧ standing.resetHeld = false ∧ standing.run.stands = true := by
  refine ⟨rfl, rfl, by decide, ready_reset, ?_⟩
  decide +kernel

theorem witness_ReadRequestsAnswer :
    LinkReady State.reset ∧ (0 : Byte).toNat = 0 ∧ 6 < (7 : Byte).toNat ∧ 1 < (2 : Byte).toNat :=
  ⟨ready_reset, by decide⟩

/-- Records of each layout: a cylinder with a placement and without one. -/
theorem witness_ReadRequestsAnswer_layouts :
    (CylRec.mk (some place1) 900 false).place = some place1 ∧ (CylRec.mk none 900 false).place = none := by decide

theorem witness_ReportsClearTheirCount : LinkReady State.reset := ready_reset

/-- RUN with nothing else changed. -/
def inRun : State := running 0 { resetRunControl false { vbat := 520 } with mode := .run }

theorem ready_inRun : LinkReady inRun := ready_of_link rfl rfl rfl

theorem witness_SetEngineStoresRecord :
    LinkReady State.reset ∧ LinkReady inRun ∧ (engineBytes defaultEngine).length = 25
      ∧ engineInRange (engineBytes { defaultEngine with gapOffset := 3600 }) = false
      ∧ engineInRange (engineBytes exampleEngine) = true ∧ inRun.run.mode ≠ .halt
      ∧ (engineOf (engineBytes exampleEngine)).samePlacement inRun.plan.engine = false
      ∧ engineInRange (engineBytes defaultEngine) = true ∧ State.reset.run.mode = .halt
      ∧ (engineOf (engineBytes defaultEngine)).samePlacement inRun.plan.engine = true
      ∧ (engineOf (engineBytes defaultEngine)).gapOffset = State.reset.plan.engine.gapOffset
      ∧ (engineOf (engineBytes defaultEngine)).camSync = State.reset.plan.engine.camSync
      ∧ (engineOf (engineBytes defaultEngine)).planExpiry = State.reset.plan.engine.planExpiry
      ∧ stallDue (State.reset.withPlan { State.reset.plan with engine := engineOf (engineBytes defaultEngine) })
          = false := by
  refine ⟨ready_reset, ready_inRun, ?_⟩
  decide +kernel

/-- SET_ENGINE payloads by gap offset, cam sync angle, arming lead and the two flags: the ends of each range are in it,
one more is not. -/
theorem witness_SetEngineStoresRecord_ranges :
    ∀ x ∈ [(3599, 7199, 600, (1 : Byte), (0 : Byte), true), (0, 0, 3600, 0, 1, true), (3600, 0, 600, 0, 0, false),
        (0, 7200, 600, 0, 0, false), (0, 0, 599, 0, 0, false), (0, 0, 3601, 0, 0, false), (0, 0, 600, 2, 0, false),
        (0, 0, 600, 0, 2, false)],
      (∀ n ∈ [x.1, x.2.1, x.2.2.1, 0, 65535, 0, 65535, 0, 65535], n < 65536)
        ∧ engineInRange (be16 x.1 ++ be16 x.2.1 ++ be16 x.2.2.1 ++ be16 0 ++ [5] ++ be16 65535
            ++ [x.2.2.2.1, x.2.2.2.2.1] ++ be16 0 ++ be16 65535 ++ [0, 101, 255] ++ be16 0 ++ be16 65535 ++ [0])
          = x.2.2.2.2.2 := by decide +kernel

/-- The default engine record with a plan expiry and a stall timeout. -/
def engineWith (expiry stall : Nat) : EngineRec := { defaultEngine with planExpiry := expiry, stallMs := stall }

/-- SET_ENGINE in HALT: a moved definition in HALF_SYNC, FULL_SYNC and CAM_LIMP and in STOPPED; the expiry count lowered
to the value, met by it, and below it; the stall timeout lowered to the time elapsed and to one tick more. -/
theorem witness_SetEngineStoresRecord_effects :
    (∀ s ∈ [halfAt 0 0, at_ 0 steady, limping 0, State.reset],
      s.resetHeld = false ∧ s.run.stands = false ∧ s.link = resetLink ∧ s.run.mode = .halt
        ∧ (engineOf (engineBytes exampleEngine)).gapOffset ≠ s.plan.engine.gapOffset)
      ∧ (at_ 0 steady).Tied ∧ (limping 0).Tied
      ∧ (∀ x ∈ [(48, 6, 6), (6, 6, 6), (5, 6, 5)],
        (expiring x.1 false).run.mode = .halt ∧ (expiring x.1 false).link = resetLink
          ∧ (engineOf (engineBytes (engineWith x.2.1 300))).planExpiry ≠ (expiring x.1 false).plan.engine.planExpiry
          ∧ min (expiring x.1 false).plan.expiry (engineOf (engineBytes (engineWith x.2.1 300))).planExpiry = x.2.2)
      ∧ (∀ s ∈ [fullAt 200000 52, stoppedCam 200000],
        (if s.tracker.sync = .stopped then s.tracker.cam.lastEdge else s.tracker.stallRef) = some 0
          ∧ 2000 * (engineOf (engineBytes (engineWith 48 100))).stallMs ≤ elapsed 0 s.timebase)
      ∧ elapsed 0 (fullAt 199999 52).timebase < 2000 * (engineOf (engineBytes (engineWith 48 100))).stallMs
      ∧ State.reset.tracker.cam.lastEdge = none
      ∧ (engineBytes (engineWith 48 100)).length = 25 ∧ engineInRange (engineBytes (engineWith 6 100)) = true := by
  refine ⟨by decide +kernel,
    tied_of_none (fun c => by cases c <;> rfl) (fun b => by cases b <;> rfl) (fun e he => by cases he)
      (fun b => by cases b <;> rfl),
    tied_of_none (fun c => by cases c <;> rfl) (fun b => by cases b <;> rfl) (fun e he => by cases he)
      (fun b => by cases b <;> rfl), by decide +kernel⟩

/-- A SET_CYLINDER payload for cylinder 1 at TDC 0 on bank A, SEL1. -/
def cylinderPayload (flag : Byte) : List Byte := [1, 1, 0, 0, 0, 1, 3, 0x84, flag]

theorem witness_SetCylinderStoresRecord :
    LinkReady State.reset ∧ LinkReady inRun ∧ (cylinderPayload 1).length = 9
      ∧ Cyl.ofNum (byteAt (cylinderPayload 1) 0) = some .c1
      ∧ placementOf (cylinderPayload 1) = some (some place1)
      ∧ placementOf [1, 0, 0, 0, 0, 1, 3, 0x84, 0] = some none
      ∧ placementTaken (State.reset.plan.cyls.set .c2 { place := some place1, eoiLimit := 900, disabled := false })
          .c1 place1 = true
      ∧ 1 < byteAt (cylinderPayload 2) 8 ∧ placementTaken State.reset.plan.cyls .c1 place1 = false
      ∧ byteAt (cylinderPayload 1) 8 ≤ 1 ∧ inRun.run.mode ≠ .halt
      ∧ some place1 ≠ (inRun.plan.cyls.get .c1).place ∧ State.reset.run.mode = .halt
      ∧ some place1 = ((defined1 inRun).plan.cyls.get .c1).place := by
  refine ⟨ready_reset, ready_inRun, ?_⟩
  decide +kernel

/-- SET_CYLINDER payloads by defined, TDC, bank and output: the ends of each range place the cylinder, one more does not,
and nothing is checked with defined = no. -/
theorem witness_SetCylinderStoresRecord_fields :
    (∀ x ∈ [((1 : Byte), 7199, (0 : Byte), (6 : Byte), true), (1, 0, 1, 1, true), (1, 7200, 0, 1, false),
        (1, 0, 2, 1, false), (1, 0, 0, 0, false), (1, 0, 0, 7, false), (2, 0, 0, 1, false), (0, 65535, 9, 9, true)],
      x.2.1 < 65536 ∧ 65535 < 65536
        ∧ (placementOf ([1, x.1] ++ be16 x.2.1 ++ [x.2.2.1, x.2.2.2.1] ++ be16 65535 ++ [0])).isSome = x.2.2.2.2)
      ∧ bankCode .bankB = (1 : Byte).toNat ∧ ((5 : Output).val + 1) = (6 : Byte).toNat
      ∧ (∀ n ∈ [(0 : Byte), 7], (n :: (cylinderPayload 1).drop 1).length = 9
          ∧ (byteAt (n :: (cylinderPayload 1).drop 1) 0 = 0 ∨ 6 < byteAt (n :: (cylinderPayload 1).drop 1) 0)) := by
  decide +kernel

/-- A SET_PULSES payload for page 1 (inactive) or 0 and cylinder 1 with one MAIN at −55 for 1200 µs. -/
def pulsesPayload (page : Byte) : List Byte := [page, 1, 1, 0x04, 0xB0, 2, 0, 0xFF, 0xC9, 0]

/-- A position of a SET_PULSES payload: time, kind, anchor type, value and may-defer. -/
def position (time : Nat) (kind anchor : Byte) (value : Nat) (defer : Byte) : List Byte :=
  be16 time ++ [kind, anchor] ++ be16 value ++ [defer]

/-- Positions: the ends of the relative start's range, one beyond each, a DWELL of 0, and a kind, an anchor type and a
may-defer byte out of range; a time of 0 is empty whatever the rest. -/
theorem witness_SetPulsesWritesInactivePage_positions :
    ∀ x ∈ [(position 1 2 0 63736 1, true), (position 1 2 0 1799 0, true), (position 1 2 0 63735 0, false),
        (position 1 2 0 1800 0, false), (position 1 3 1 0 1, true), (position 1 0 0 0 0, false), (position 1 4 0 0 0, false),
        (position 1 2 2 0 0, false), (position 1 2 0 0 2, false), (position 0 9 9 9 9, true)],
      (positionOf x.1 0).isSome = x.2 := by decide +kernel

/-- Lists: two ANGLE slots that rise with a DWELL between them, then equal starts, two MAINs, a DWELL as the first non-empty
position, and six positions. -/
theorem witness_SetPulsesWritesInactivePage_lists :
    (∀ x ∈ [([position 99 1 0 100 0, position 99 3 1 60 0, position 99 2 0 101 0], true),
        ([position 99 1 0 100 0, position 99 2 0 100 0], false), ([position 99 2 0 100 0, position 99 2 0 101 0], false),
        ([position 0 0 0 0 0, position 99 2 1 60 0], false), (List.replicate 5 (position 0 0 0 0 0), true),
        (List.replicate 6 (position 0 0 0 0 0), false)],
      (pulseListOf ([1, 1, byte x.1.length] ++ x.1.flatten)).isSome = x.2)
      ∧ ∀ j ∈ [0, 1], positionOf ([1, 1, 2] ++ position 99 1 0 100 0 ++ position 99 2 0 101 0) (3 + 7 * j)
          = [some (PlanSlot.mk .pilot (.angle 100) 99 false), some (PlanSlot.mk .main (.angle 101) 99 false)][j]? := by
  decide +kernel

/-- A pending swap. -/
def swapping : State := State.reset.withPlan { resetPlan with swapPending := true }

theorem witness_SetPulsesWritesInactivePage :
    LinkReady State.reset ∧ LinkReady swapping ∧ (pulsesPayload 1).length ≤ 60
      ∧ (∀ x ∈ [pulsesPayload 2, [1, 0], [1, 7]].map (fun y => y.take 2 ++ (pulsesPayload 1).drop 2),
        x.length ≤ 60 ∧ lengthAllowed 0x08 x = true ∧ (1 < byteAt x 0 ∨ byteAt x 1 = 0 ∨ 6 < byteAt x 1))
      ∧ lengthAllowed 0x08 (pulsesPayload 1) = true ∧ pageOf (byteAt (pulsesPayload 1) 0) = some .p1
      ∧ Cyl.ofNum (byteAt (pulsesPayload 1) 1) = some .c1 ∧ swapping.plan.swapPending = true
      ∧ State.reset.plan.swapPending = false ∧ pageOf (byteAt (pulsesPayload 0) 0) = some .p0
      ∧ PageIx.p0 = State.reset.plan.active ∧ PageIx.p1 ≠ State.reset.plan.active
      ∧ lengthAllowed 0x08 [1, 1, 1, 0x04, 0xB0, 0, 0, 0xFF, 0xC9, 0] = true
      ∧ pulseListOf [1, 1, 1, 0x04, 0xB0, 0, 0, 0xFF, 0xC9, 0] = none
      ∧ pulseListOf (pulsesPayload 1)
          = some [some { kind := .main, anchor := .angle (-55), energizeUs := 1200, mayDefer := false },
                  none, none, none, none] := by
  refine ⟨ready_reset, ready_of_link rfl rfl rfl, ?_⟩
  decide +kernel

/-- FULL_SYNC in RUN. -/
def fullRun (x : Sync) : State := (at_ 0 { steady with sync := x }).withRun { resetRunControl false { vbat := 520 } with mode := .run }

theorem witness_PagesCopiedSwappedRefreshed :
    LinkReady State.reset ∧ LinkReady swapping ∧ (∀ x, LinkReady (fullRun x)) ∧ [(0 : Byte), 18].length = 2
      ∧ swapping.plan.swapPending = true ∧ State.reset.plan.swapPending = false
      ∧ (fullRun .fullSync).run.mode = .run ∧ (fullRun .fullSync).tracker.sync = .fullSync
      ∧ (fullRun .camLimp).tracker.sync = .camLimp ∧ State.reset.run.mode ≠ .run
      ∧ ((fullRun .halfSync).tracker.sync ≠ .fullSync ∧ (fullRun .halfSync).tracker.sync ≠ .camLimp) := by
  refine ⟨ready_reset, ready_of_link rfl rfl rfl, fun x => ready_of_link rfl rfl rfl, ?_⟩
  decide +kernel

theorem witness_WindowsAndMarksStored :
    LinkReady State.reset ∧ LinkReady (fullRun .fullSync) ∧ [(4 : Byte), 0, 0, 0, 0, 1, 0].length = 7
      ∧ windowOf [4, 0, 0, 0, 0, 1, 0] = none
      ∧ windowOf [3, 0, 0, 0x1C, 0x1F, 3, 1]
          = some (3, { start := 0, stop := 7199, banks := .both, enabled := true })
      ∧ [(8 : Byte), 0, 0, 1, 1, 1].length = 6 ∧ markOf [8, 0, 0, 1, 1, 1] = none
      ∧ markOf [7, 0, 0, 0, 1, 1] = some (7, { angle := 0, enabled := false, notice := true, strobe := true })
      ∧ State.reset.plan.marks[7]?.map AngleMark.angle = some 0
      ∧ State.reset.plan.marks[7]?.map AngleMark.enabled = some false
      ∧ markOf [0, 0x1B, 0xEE, 1, 1, 1] = some (0, mark0) ∧ State.reset.plan.marks[0]? = some resetMark
      ∧ resetMark.angle ≠ mark0.angle ∧ State.reset.tracker.sync.holdsAngle = false
      ∧ (fullRun .fullSync).tracker.sync.holdsAngle = true := by
  refine ⟨ready_reset, ready_of_link rfl rfl rfl, ?_⟩
  decide +kernel

/-- SET_WINDOW and SET_MARK payloads at the ends of each range and one beyond. -/
theorem witness_WindowsAndMarksStored_fields :
    (∀ x ∈ [((3 : Byte), 7199, 7199, (2 : Byte), (1 : Byte)), (0, 0, 0, 3, 0), (4, 0, 0, 1, 0), (0, 7200, 0, 1, 0),
        (0, 0, 7200, 1, 0), (0, 0, 0, 0, 0), (0, 0, 0, 4, 0), (0, 0, 0, 1, 2)],
      x.2.1 < 65536 ∧ x.2.2.1 < 65536
        ∧ ((windowOf ([x.1] ++ be16 x.2.1 ++ be16 x.2.2.1 ++ [x.2.2.2.1, x.2.2.2.2])).isSome = true
          ↔ x.1.toNat ≤ 3 ∧ x.2.1 ≤ 7199 ∧ x.2.2.1 ≤ 7199
            ∧ (∃ b ∈ [BankSet.onlyA, .onlyB, .both], b.code = x.2.2.2.1.toNat) ∧ x.2.2.2.2.toNat ≤ 1))
      ∧ ∀ x ∈ [((7 : Byte), 7199, (1 : Byte), (1 : Byte), (1 : Byte), true), (8, 0, 0, 0, 0, false),
        (0, 7200, 0, 0, 0, false), (0, 0, 2, 0, 0, false), (0, 0, 0, 2, 0, false), (0, 0, 0, 0, 2, false)],
      x.2.1 < 65536
        ∧ (markOf ([x.1] ++ be16 x.2.1 ++ [x.2.2.1, x.2.2.2.1, x.2.2.2.2.1])).isSome = x.2.2.2.2.2 := by
  decide +kernel

theorem witness_DerateAndTestCutStored :
    LinkReady State.reset ∧ LinkReady (defined1 State.reset) ∧ 6 < (7 : Byte).toNat
      ∧ (State.reset.plan.cyls.get .c1).place = none ∧ ((defined1 State.reset).plan.cyls.get .c1).place ≠ none
      ∧ State.reset.plan.derateK = 0 ∧ State.reset.plan.derateAcc < State.reset.plan.derateN := by
  refine ⟨ready_reset, ready_of_link rfl rfl rfl, ?_⟩
  decide +kernel

/-- The Plan Store with a derate pattern 3 of 4 and an accumulator. -/
def derating (acc : Nat) : PlanStore := { resetPlan with derateK := 3, derateN := 4, derateAcc := acc }

theorem witness_DerateAccumulatorAdvances :
    (derating 0).derateK < (derating 0).derateN ∧ (derating 0).derateAcc < (derating 0).derateN
      ∧ (derating 0).derateAcc + (derating 0).derateK < (derating 0).derateN
      ∧ (derating 1).derateAcc < (derating 1).derateN
      ∧ (derating 1).derateN ≤ (derating 1).derateAcc + (derating 1).derateK := by decide

theorem witness_SetNoticesReplacesSet :
    LinkReady State.reset ∧ 0x40 ≤ (0x40 : Byte).toNat ∧ (0x3F : Byte).toNat < 0x40
      ∧ State.reset.link.enable.getLsbD (NoticeBody.mark 0 none 0).index = false
      ∧ State.reset.link.enable.getLsbD (NoticeBody.testCutDone .c1).index = true
      ∧ exec (.powerOnReset .w60 false { vbat := 520 }) State.reset
          = .next (ran (exec (.powerOnReset .w60 false { vbat := 520 }) State.reset) State.reset)
      ∧ exec .pinResetAssert State.reset = .next (after .pinResetAssert State.reset)
      ∧ exec (.pinResetRelease false { vbat := 520 }) (after .pinResetAssert State.reset)
          = .next (after (.pinResetRelease false { vbat := 520 }) (after .pinResetAssert State.reset)) :=
  ⟨ready_reset, by decide, by decide, by decide, by decide, rfl, rfl, rfl⟩

/-- DRAIN with cylinder 1's context open. -/
def drainOpen : State := (opened1 .waiting draining)

theorem witness_StartEntersRun :
    LinkReady State.reset ∧ LinkReady inRun ∧ LinkReady drainOpen ∧ LinkReady (defined1 State.reset)
      ∧ State.reset.run.mode = .halt ∧ (∀ c, (State.reset.plan.cyls.get c).place = none)
      ∧ inRun.run.mode = .run ∧ drainOpen.run.mode = .drain ∧ (defined1 State.reset).run.mode = .halt
      ∧ ((defined1 State.reset).plan.cyls.get .c1).place ≠ none
      ∧ (defined1 State.reset).tracker.sync.holdsAngle = false
      ∧ (defined1 (at_ 0 steady)).tracker.sync.holdsAngle = true ∧ (defined1 (at_ 0 steady)).run.mode = .halt
      ∧ ((defined1 (at_ 0 steady)).plan.cyls.get .c1).place ≠ none := by
  refine ⟨ready_reset, ready_inRun, ready_of_link rfl rfl rfl, ready_of_link rfl rfl rfl, rfl,
    fun c => by cases c <;> rfl, ?_⟩
  decide +kernel

/-- START with the angle known, cylinder 1 defined and cylinder 2 not. -/
theorem witness_StartEntersRun_arms :
    LinkReady (defined1 (at_ 0 steady)) ∧ (defined1 (at_ 0 steady)).queue.Bounded
      ∧ ((defined1 (at_ 0 steady)).plan.cyls.get .c1).place = some place1
      ∧ ((defined1 (at_ 0 steady)).plan.cyls.get .c2).place = none ∧ ∀ c, Key.mark 0 ≠ .arm c :=
  ⟨ready_of_link rfl rfl rfl, ⟨List.Pairwise.nil, Nat.zero_le _⟩, rfl, rfl, fun c h => by cases h⟩

/-- DRAIN with cylinder 1's context resolved, the last one open; the same with cylinder 2's open as well; RUN. -/
theorem witness_PulseEndsInDecay_drained :
    (opened1 (.resolved (.suppressed .late)) draining).run.mode = .drain
      ∧ (∀ d, d ≠ .c1 → (opened1 (.resolved (.suppressed .late)) draining).contexts.get d = none)
      ∧ ((opened1 (.resolved (.suppressed .late)) draining).withContexts
          ((opened1 (.resolved (.suppressed .late)) draining).contexts.set .c2 (some (context1 .waiting)))).contexts.get .c2
        ≠ none
      ∧ (opened1 (.resolved (.suppressed .late)) inRun).run.mode ≠ .drain := by
  refine ⟨rfl, fun d h => ?_, by decide, by decide⟩
  cases d <;> first | rfl | exact absurd rfl h

theorem witness_StopDrainsOrHalts :
    LinkReady State.reset ∧ LinkReady drainOpen ∧ LinkReady (opened1 .waiting inRun) ∧ LinkReady inRun
      ∧ State.reset.run.mode = .halt ∧ drainOpen.run.mode = .drain ∧ (opened1 .waiting inRun).run.mode = .run
      ∧ (opened1 .waiting inRun).contexts.get .c1 ≠ none ∧ inRun.run.mode = .run
      ∧ ∀ c, inRun.contexts.get c = none := by
  refine ⟨ready_reset, ready_of_link rfl rfl rfl, ready_of_link rfl rfl rfl, ready_inRun, rfl, rfl, rfl, by decide, rfl,
    fun c => by cases c <;> rfl⟩

theorem witness_ResetRunClearsRun :
    LinkReady (banked 9 (driven (.boost pulse1)))
      ∧ ((banked 9 (driven (.boost pulse1))).bank .bankA).drive.energized = some pulse1
      ∧ ((banked 9 (driven (.boost pulse1))).bank .bankB).drive.energized = none := by
  refine ⟨ready_of_link rfl rfl rfl, ?_⟩
  decide +kernel

/-- No pulse energized, without and with a coil check. -/
theorem witness_ResetRunClearsRun_check :
    LinkReady State.reset ∧ LinkReady (checking 9 none) ∧ (∀ b, (State.reset.bank b).drive.energized = none)
      ∧ State.reset.diag.coil = none ∧ (∀ b, ((checking 9 none).bank b).drive.energized = none)
      ∧ (checking 9 none).diag.coil = some (check1 none) :=
  ⟨ready_reset, ready_of_link rfl rfl rfl, fun b => by cases b <;> rfl, rfl, fun b => by cases b <;> rfl, rfl⟩

theorem witness_ClearsReportWhatTheyClear :
    LinkReady State.reset ∧ (0 : Byte).toNat = 0 ∧ 6 < (7 : Byte).toNat := ⟨ready_reset, by decide⟩

theorem witness_CoilCheckStartsOrRefuses :
    LinkReady State.reset ∧ LinkReady (defined1 State.reset) ∧ LinkReady (defined1 (checking 0 none))
      ∧ LinkReady (defined1 (at_ 0 steady)) ∧ (0 : Byte).toNat = 0 ∧ 6 < (7 : Byte).toNat
      ∧ (State.reset.plan.cyls.get .c1).place = none
      ∧ ((defined1 State.reset).plan.cyls.get .c1).place = some place1
      ∧ ((defined1 (checking 0 none)).plan.cyls.get .c1).place = some place1
      ∧ (defined1 (checking 0 none)).diag.coil ≠ none ∧ (defined1 State.reset).diag.coil = none
      ∧ (defined1 (at_ 0 steady)).tracker.sync ≠ .stopped ∧ (opened1 .waiting State.reset).contexts.get .c1 ≠ none
      ∧ ((banked 9 (driven (.boost pulse1))).bank place1.bank).drive ≠ .idle ∧ (cutLine 4 true true).run.fuelcut = true
      ∧ (defined1 State.reset).tracker.sync = .stopped ∧ ((defined1 State.reset).bank place1.bank).drive = .idle
      ∧ (defined1 State.reset).run.fuelcut = false ∧ (∀ d, (defined1 State.reset).contexts.get d = none)
      ∧ ∃ u, exec (.setCylinder 0 []) State.reset = .next u := by
  refine ⟨ready_reset, ready_of_link rfl rfl rfl, ready_of_link rfl rfl rfl, ready_of_link rfl rfl rfl, by decide, by decide,
    rfl, rfl, rfl, by decide, rfl, by decide, by decide, by decide, rfl, rfl, rfl, rfl,
    fun d => by cases d <;> rfl, _, rfl⟩

theorem witness_PredictedPeriodFormed : (1 : Nat) ≤ 1117 ∧ 67108860 ≤ 67108860
      ∧ formTp true (67108860 :: 1 :: []) = some 83886075 := by decide +kernel

theorem witness_SpeedFromNewestPeriod :
    (resetTracker .w60).sync = .stopped ∧ steady.sync ≠ .stopped
      ∧ (if (halfAt 0 0).tracker.sync = .camLimp then (halfAt 0 0).tracker.cam.hist
          else (halfAt 0 0).tracker.crankHist).length < 2
      ∧ (halfAt 0 0).tracker.sync ≠ .stopped ∧ (limping 0).tracker.sync = .camLimp
      ∧ ({ (limping 0).tracker.cam with hist := [22230, 22200] } : CamHistory).hist = 22230 :: 22200 :: []
      ∧ steady.sync ≠ .camLimp ∧ steady.crankHist = 1111 :: 1117 :: [] := by decide +kernel

theorem witness_InterpolatedAngleHeld :
    (resetTracker .w60).sync = .stopped ∧ (seekingAt 0 0).tracker.sync = .seeking
      ∧ carrier steady = some { angle := 7100, time := 0, tp := 1105, span := 60, perTp := 60 }
      ∧ carrier (limping 0).tracker = some { angle := 2550, time := 0, tp := 22260, span := 1200, perTp := 1200 }
      ∧ interpolated steady 0 = some 7100 := by decide +kernel

/-- The tracker of the worked case of steady speed with a wheel, a tooth index and a sync state. -/
def turned (w : Wheel) (n : Nat) (x : Sync) : Tracker := { steady with wheel := w, tooth := n, sync := x }

/-- The tracker of `limping` with an identity. -/
def passing (x : CamId) : Tracker := (limping 0).tracker.withCam { (limping 0).tracker.cam with identity := x }

/-- A crank edge below the last tooth and at it on each wheel, in FULL_SYNC and HALF_SYNC; a cam edge at regular teeth 0
and 5 and at the extra tooth. -/
theorem witness_InterpolatedAngleHeld_carrier :
    (∀ x ∈ [(Wheel.w60, 56), (.w60, 57), (.w36, 32), (.w36, 33)], ∀ y ∈ [Sync.halfSync, .fullSync],
      (turned x.1 x.2 y).sync = y ∧ (turned x.1 x.2 y).edgeAngle = some 7100
        ∧ (turned x.1 x.2 y).prevCrank = some 0 ∧ (turned x.1 x.2 y).crankTp = some 1105)
      ∧ ∀ x ∈ [CamId.regular 0, .regular 5, .extra],
        (passing x).sync = .camLimp ∧ (passing x).edgeAngle = some 2550 ∧ (passing x).cam.lastAccepted = some 0
          ∧ (passing x).cam.tp = some 22260 ∧ (passing x).cam.identity = x := by decide +kernel

end Sys2Proof.Tests
end

section
/-! The predicted pitch time of a history (R33): one equation per shape of the history, and the clamp's upper bound as
the largest prediction. -/

namespace Sys2Proof.Machine

/-- The bounds have to be in order: `clampTo` answers its lower bound where they cross. -/
theorem clampTo_le_of_le {lo hi : Nat} (h : lo ≤ hi) (x : Nat) : clampTo lo hi x ≤ hi :=
  max_le h (min_le_left hi x)

/-- The bounds of R33's clamp are in order, since the period itself lies between them. -/
theorem threeQuarters_le_fiveQuarters (t : Nat) : ceilDiv (3 * t) 4 ≤ 5 * t / 4 := by
  have lower : ceilDiv (3 * t) 4 ≤ t := by unfold ceilDiv; omega
  have upper : t ≤ 5 * t / 4 := by omega
  exact lower.trans upper

@[simp] theorem formTp_nil (accel : Bool) : formTp accel [] = none := rfl

@[simp] theorem formTp_singleton (accel : Bool) (t1 : Nat) : formTp accel [t1] = some (max 1 t1) := rfl

@[simp] theorem formTp_uncompensated (t1 t2 : Nat) (rest : List Nat) :
    formTp false (t1 :: t2 :: rest) = some (max 1 t1) := rfl

@[simp] theorem formTp_compensated (t1 t2 : Nat) (rest : List Nat) :
    formTp true (t1 :: t2 :: rest) =
      some (max 1 (clampTo (ceilDiv (3 * t1) 4) (5 * t1 / 4) (roundDiv (t1 * t1) t2))) := rfl

/-- A compensated prediction is at most five quarters of the newest period, but for the floor of 1 tick. -/
theorem formTp_compensated_le {t1 t2 tp : Nat} {rest : List Nat} (h : formTp true (t1 :: t2 :: rest) = some tp) :
    tp ≤ max 1 (5 * t1 / 4) := by
  rw [formTp_compensated, Option.some.injEq] at h
  rw [← h]
  exact max_le_max_left 1 (clampTo_le_of_le (threeQuarters_le_fiveQuarters t1) _)

/-- Settles O58: each clause is the equation of its shape of the history, and the largest Tp is the clamp's upper
bound at the largest T1. -/
theorem predictedPeriodFormed : Obligations.PredictedPeriodFormed := by
  intro t1 t2 rest _
  refine ⟨formTp_compensated t1 t2 rest, formTp_uncompensated t1 t2 rest, fun accel => formTp_singleton accel t1,
    formTp_nil, ?largest⟩
  case largest =>
    intro ht1 _ tp htp
    have hle : tp ≤ max 1 (5 * t1 / 4) := formTp_compensated_le htp
    omega

end Sys2Proof.Machine
end

section
/-! A request on a link that is ready for it (R164, R165): it is served in the same event, and its answer is the owner
block's. -/

namespace Sys2Proof.Machine

/-- The link serves a request of a length its kind allows: the owner's answer is the reply (R165, steps 2 to 5). -/
theorem request_of_ready {kind : Nat} {owner : Owner} {tag : Byte} {p : List Byte} {s : State} (h : LinkReady s)
    (hfits : p.length ≤ 60) (hlen : lengthAllowed kind p = true) :
    request kind owner tag p s = .next (pushReply (byte kind) tag (owner p s).1 (owner p s).2) := by
  obtain ⟨hheld, hstands, hinbound, hroom⟩ := h
  have hserves : servesNow s.link = true := by simp [servesNow, hinbound, hroom]
  simp [request, takeHeard, take, arrive, serve, hheld, hstands, hserves, hfits, hlen, Config.payloadMax]

theorem request_acked {kind : Nat} {owner : Owner} {tag : Byte} {p contents : List Byte} {s t : State}
    (h : LinkReady s) (hfits : p.length ≤ 60) (hlen : lengthAllowed kind p = true)
    (hanswer : owner p s = (.ack contents, t)) :
    request kind owner tag p s = acked (byte kind) tag contents t := by
  rw [request_of_ready h hfits hlen, hanswer, acked]

theorem request_refused {kind : Nat} {owner : Owner} {tag : Byte} {p : List Byte} {code : RefusalCode} {s : State}
    (h : LinkReady s) (hfits : p.length ≤ 60) (hlen : lengthAllowed kind p = true)
    (hanswer : owner p s = (.refused code, s)) :
    request kind owner tag p s = refusedWith (byte kind) tag code s := by
  rw [request_of_ready h hfits hlen, hanswer, refusedWith]

end Sys2Proof.Machine
end

section
/-! The copy, the swap and the refresh of the plan pages (R52, R53, R56): one equation per case of each owner's answer. -/

namespace Sys2Proof.Machine

/-! ## COPY_PAGE (R52) -/

theorem answerCopyPage_of_pending {s : State} (h : s.plan.swapPending = true) (p : List Byte) :
    answerCopyPage p s = (.refused .swapPending, s) := if_pos h

theorem answerCopyPage_of_not_pending {s : State} (h : s.plan.swapPending = false) (p : List Byte) :
    answerCopyPage p s = (.ack [byte s.plan.active.other.code], s.withPlan s.plan.copied) := by
  simp [answerCopyPage, h]

/-! ## SWAP_PLAN (R53) -/

theorem Sync.holdsAngle_iff (x : Sync) : x.holdsAngle = true ↔ x = .fullSync ∨ x = .camLimp := by
  cases x <;> simp [Sync.holdsAngle]

theorem swapDefers_iff (s : State) :
    swapDefers s = true ↔ s.run.mode = .run ∧ (s.tracker.sync = .fullSync ∨ s.tracker.sync = .camLimp) := by
  simp [swapDefers, Sync.holdsAngle_iff]

@[simp] theorem PlanStore.setPage_active (p : PlanStore) (ix : PageIx) (x : PlanPage) :
    (p.setPage ix x).active = p.active := by
  cases ix <;> rfl

/-- A swap that lands in its own request makes active the page that has just taken its serial. -/
theorem PlanStore.askSwap_land (p : PlanStore) (serial : Nat) :
    (p.askSwap serial).land =
      { p.setPage p.active.other { p.page p.active.other with serial := serial } with
        active := p.active.other, swapPending := false, expiry := 0, stale := false } := by
  simp [PlanStore.askSwap, PlanStore.land]

theorem answerSwapPlan_of_pending {s : State} (h : s.plan.swapPending = true) (p : List Byte) :
    answerSwapPlan p s = (.refused .swapPending, s) := if_pos h

theorem answerSwapPlan_of_defers {s : State} (h : s.plan.swapPending = false) (hd : swapDefers s = true)
    (p : List Byte) :
    answerSwapPlan p s =
      (.ack ([0, byte s.plan.active.code] ++ be16 (wordAt p 0)), s.withPlan (s.plan.askSwap (wordAt p 0))) := by
  simp [answerSwapPlan, h, hd]

theorem answerSwapPlan_of_not_defers {s : State} (h : s.plan.swapPending = false) (hd : ¬ swapDefers s = true)
    (p : List Byte) :
    answerSwapPlan p s =
      (.ack ([1, byte s.plan.active.other.code] ++ be16 (wordAt p 0)),
        s.withPlan (s.plan.askSwap (wordAt p 0)).land) := by
  simp [answerSwapPlan, h, hd]

/-- SWAP_PLAN carries two bytes, its serial. -/
theorem lengthAllowed_swapPlan {p : List Byte} (h : p.length = 2) : lengthAllowed 0x0B p = true := by
  simp [lengthAllowed, fixedLength, h]

/-! ## The three requests together -/

/-- Settles O48: a case per request and, for the swap, per landing; each is the owner's answer in that case, served by
the ready link. -/
theorem pagesCopiedSwappedRefreshed : Obligations.PagesCopiedSwappedRefreshed := by
  intro s tag p ready hp
  have hfits : p.length ≤ 60 := by omega
  have hswap : lengthAllowed 0x0B p = true := lengthAllowed_swapPlan hp
  refine ⟨fun pending => ⟨?copyRefused, ?swapRefused⟩, fun free => ⟨?copied, fun run angle => ?waits, fun now => ?lands⟩,
    ?refreshed⟩
  case copyRefused => exact request_refused ready (by decide) rfl (answerCopyPage_of_pending pending [])
  case swapRefused => exact request_refused ready hfits hswap (answerSwapPlan_of_pending pending p)
  case copied => exact request_acked ready (by decide) rfl (answerCopyPage_of_not_pending free [])
  case waits =>
    have defers : swapDefers s = true := (swapDefers_iff s).mpr ⟨run, angle⟩
    exact request_acked ready hfits hswap (answerSwapPlan_of_defers free defers p)
  case lands =>
    have lands : ¬ swapDefers s = true := by
      rw [swapDefers_iff, not_and_or, not_or]
      exact now
    rw [← PlanStore.askSwap_land]
    exact request_acked ready hfits hswap (answerSwapPlan_of_not_defers free lands p)
  case refreshed => exact request_acked ready (by decide) rfl rfl

end Sys2Proof.Machine
end

section
/-! The byte layouts of the records that the reading requests report (R176, R177, R183): one equation per shape of the
record. -/

namespace Sys2Proof.Machine

/-! ## Flags and rounded times -/

theorem byte_bit (x : Bool) : byte (bit x) = if x then 1 else 0 := by
  cases x <;> rfl

theorem mul_bit (n : Nat) (x : Bool) : n * bit x = if x then n else 0 := by
  cases x <;> simp [bit]

/-- Half the ticks, a half rounded up: the division rounds to nearest with ties away from zero. -/
theorem toMicros_eq (ticks : Nat) : toMicros ticks = (ticks + 1) / 2 := by
  unfold toMicros roundDiv
  omega

/-! ## The cylinder record (R176) -/

theorem cylinderBytes_of_place {r : CylRec} {pl : Placement} (h : r.place = some pl) (c : Cyl) :
    cylinderBytes c r =
      [byte c.num, 1] ++ be16 pl.tdc ++ [byte (bankCode pl.bank), byte (pl.output.val + 1)] ++ be16 r.eoiLimit
        ++ [if r.disabled then 1 else 0] := by
  rw [← byte_bit]
  simp only [cylinderBytes, h]

theorem cylinderBytes_of_no_place {r : CylRec} (h : r.place = none) (c : Cyl) :
    cylinderBytes c r =
      [byte c.num, 0, 0xFF, 0xFF, 0xFF, 0] ++ be16 r.eoiLimit ++ [if r.disabled then 1 else 0] := by
  have absent : be16 0xFFFF = [0xFF, 0xFF] := rfl
  rw [← byte_bit]
  simp only [cylinderBytes, h, absent, List.cons_append, List.nil_append]

/-! ## The slot position (R177) -/

theorem positionBytes_angle {y : PlanSlot} {rel : Int} (h : y.anchor = .angle rel) :
    positionBytes (some y) =
      be16 y.energizeUs ++ [byte y.kind.code] ++ (0 :: be16 (rel % 65536).toNat)
        ++ [if y.mayDefer then 1 else 0] := by
  rw [← byte_bit]
  simp only [positionBytes, h, twosComplement]

theorem positionBytes_dwell {y : PlanSlot} {us : Nat} (h : y.anchor = .dwell us) :
    positionBytes (some y) =
      be16 y.energizeUs ++ [byte y.kind.code] ++ (1 :: be16 us) ++ [if y.mayDefer then 1 else 0] := by
  rw [← byte_bit]
  simp only [positionBytes, h]

/-! ## The slot result and the cycle record (R183)

A cut cycle reports its reason where the other outcomes report how many results follow. -/

theorem resultBytes_fired (n : Nat) (k : PulseKind) (d : Bool) (x : FiredResult) :
    resultBytes { num := n, kind := k, outcome := .fired x, deferred := d } =
      [byte (16 * n + k.code), 0x10,
          byte ((if d then 128 else 0) + (if x.truncated then 64 else 0) + (if x.boostShort then 32 else 0)
            + (if x.cut then 16 else 0) + x.diagnosis.code)]
        ++ be16 (x.startAngle.getD 0xFFFF) ++ be16 ((x.slip + 1) / 2) ++ be16 ((x.energized + 1) / 2) := by
  simp only [← mul_bit, ← toMicros_eq, List.append_assoc]
  rfl

theorem resultBytes_suppressed (n : Nat) (k : PulseKind) (d : Bool) (x : SuppressReason) :
    resultBytes { num := n, kind := k, outcome := .suppressed x, deferred := d } =
      [byte (16 * n + k.code), byte (0x20 + x.code), if d then 0x80 else 0] := by
  cases d <;> rfl

theorem resultBytes_shed (n : Nat) (k : PulseKind) (d : Bool) (x : ShedReason) :
    resultBytes { num := n, kind := k, outcome := .shed x, deferred := d } =
      [byte (16 * n + k.code), byte (0x30 + x.code), 0] := rfl

theorem resultBytes_withdrawn (n : Nat) (k : PulseKind) (d : Bool) (x : WithdrawReason) :
    resultBytes { num := n, kind := k, outcome := .withdrawn x, deferred := d } =
      [byte (16 * n + k.code), byte (0x40 + x.code), 0] := rfl

theorem recordBytes_fired {r : CycleRecord} (h : r.outcome = .fired) :
    recordBytes r =
      [byte r.cyl.num] ++ be16 r.serial ++ be16 r.armAngle ++ [1, byte r.results.length]
        ++ r.results.flatMap resultBytes := by
  simp only [recordBytes, CycleRecord.detail, h]
  rfl

theorem recordBytes_empty {r : CycleRecord} (h : r.outcome = .empty) :
    recordBytes r =
      [byte r.cyl.num] ++ be16 r.serial ++ be16 r.armAngle ++ [2, byte r.results.length]
        ++ r.results.flatMap resultBytes := by
  simp only [recordBytes, CycleRecord.detail, h]
  rfl

theorem recordBytes_cut {r : CycleRecord} {k : CutReason} (h : r.outcome = .cut k) :
    recordBytes r =
      [byte r.cyl.num] ++ be16 r.serial ++ be16 r.armAngle ++ [3, byte k.code]
        ++ r.results.flatMap resultBytes := by
  simp only [recordBytes, CycleRecord.detail, h]
  rfl

end Sys2Proof.Machine
end

section
/-! The reading requests (R45, R47, R49, R87, R174): each owner's answer by what it reads of the payload. -/

namespace Sys2Proof.Machine

/-! ## The cylinder and the page of a byte -/

theorem Cyl.ofNum_eq_none {n : Nat} (h : n = 0 ∨ 6 < n) : Cyl.ofNum n = none := by
  obtain rfl | above := h
  · rfl
  · obtain ⟨k, rfl⟩ : ∃ k, n = k + 7 := Nat.exists_eq_add_of_le' above
    rfl

theorem pageOf_eq_none {n : Nat} (h : 1 < n) : pageOf n = none := by
  obtain ⟨k, rfl⟩ : ∃ k, n = k + 2 := Nat.exists_eq_add_of_le' h
  rfl

/-- A cylinder's number survives its byte. -/
theorem Cyl.ofNum_byte_num (c : Cyl) : Cyl.ofNum (byte c.num).toNat = some c := by
  cases c <;> rfl

theorem pageOf_byte_code (ix : PageIx) : pageOf (byte ix.code).toNat = some ix := by
  cases ix <;> rfl

@[simp] theorem byteAt_cons_zero (x : Byte) (p : List Byte) : byteAt (x :: p) 0 = x.toNat := rfl

@[simp] theorem byteAt_cons_succ (x : Byte) (p : List Byte) (i : Nat) : byteAt (x :: p) (i + 1) = byteAt p i := rfl

/-! ## The owners' answers -/

theorem answerGetCylinder_of_cyl {x : Byte} {c : Cyl} (h : Cyl.ofNum x.toNat = some c) (s : State) :
    answerGetCylinder [x] s = (.ack (cylinderBytes c (s.plan.cyls.get c)), s) := by
  simp [answerGetCylinder, h]

theorem answerGetCylinder_of_no_cyl {x : Byte} (h : Cyl.ofNum x.toNat = none) (s : State) :
    answerGetCylinder [x] s = (.refused .badValue, s) := by
  simp [answerGetCylinder, h]

theorem answerGetCycle_of_cyl {x : Byte} {c : Cyl} (h : Cyl.ofNum x.toNat = some c) (s : State) :
    answerGetCycle [x] s = (.ack (entryBytes c (s.records.get c)), s) := by
  simp [answerGetCycle, h]

theorem answerGetCycle_of_no_cyl {x : Byte} (h : Cyl.ofNum x.toNat = none) (s : State) :
    answerGetCycle [x] s = (.refused .badValue, s) := by
  simp [answerGetCycle, h]

theorem answerGetPulses_of_page_cyl {x y : Byte} {ix : PageIx} {c : Cyl} (hpage : pageOf x.toNat = some ix)
    (hcyl : Cyl.ofNum y.toNat = some c) (s : State) :
    answerGetPulses [x, y] s = (.ack (pulsesBytes ix c (s.plan.page ix)), s) := by
  simp [answerGetPulses, hpage, hcyl]

theorem answerGetPulses_of_no_page {x : Byte} (h : pageOf x.toNat = none) (y : Byte) (s : State) :
    answerGetPulses [x, y] s = (.refused .badValue, s) := by
  simp [answerGetPulses, h]

theorem answerGetPulses_of_no_cyl {y : Byte} (h : Cyl.ofNum y.toNat = none) (x : Byte) (s : State) :
    answerGetPulses [x, y] s = (.refused .badValue, s) := by
  simp [answerGetPulses, h]

/-! ## The layouts and the requests together -/

/-- Settles O43: the layouts by the shape of the record, and each request by whether its cylinder and its page are
read; the ready link then serves the owner's answer. -/
theorem readRequestsAnswer : Obligations.ReadRequestsAnswer := by
  refine ⟨fun c r => ⟨fun pl placed => ?place, fun absent => ?noPlace⟩, fun ix c q f empty slot => ?pulses,
    fun c r f fired suppressed shed withdrawn => ⟨rfl, ?cycle, rfl⟩,
    fun s tag ready => ⟨?identity, ?engine, fun c => ⟨?cyl, ?record, fun ix => ?list⟩, fun x y outside => ?noCyl,
      fun x y outside => ?noPage⟩⟩
  case place =>
    rw [cylinderBytes_of_place placed]
    cases pl.bank <;> rfl
  case noPlace => exact cylinderBytes_of_no_place absent c
  case pulses =>
    have hf : f = positionBytes := by
      funext position
      cases position with
      | none => exact empty
      | some y =>
        rw [slot]
        cases hanchor : y.anchor with
        | angle rel =>
          rw [positionBytes_angle hanchor]
          cases y.kind <;> rfl
        | dwell us =>
          rw [positionBytes_dwell hanchor]
          cases y.kind <;> rfl
    rw [hf]
    cases ix <;> rfl
  case cycle =>
    have hf : f = resultBytes := by
      funext ⟨n, k, outcome, d⟩
      cases outcome with
      | fired x => rw [fired, resultBytes_fired]
      | suppressed x => rw [suppressed, resultBytes_suppressed]
      | shed x => rw [shed, resultBytes_shed]
      | withdrawn x => rw [withdrawn, resultBytes_withdrawn]
    rw [hf]
    cases houtcome : r.outcome with
    | fired => exact recordBytes_fired houtcome
    | empty => exact recordBytes_empty houtcome
    | cut k => exact recordBytes_cut houtcome
  case identity => exact request_acked ready (by decide) rfl rfl
  case engine => exact request_acked ready (by decide) rfl rfl
  case cyl => exact request_acked ready (by simp) rfl (answerGetCylinder_of_cyl c.ofNum_byte_num s)
  case record => exact request_acked ready (by simp) rfl (answerGetCycle_of_cyl c.ofNum_byte_num s)
  case list =>
    exact request_acked ready (by simp) rfl (answerGetPulses_of_page_cyl (pageOf_byte_code ix) c.ofNum_byte_num s)
  case noCyl =>
    have unread : Cyl.ofNum x.toNat = none := Cyl.ofNum_eq_none outside
    exact ⟨request_refused ready (by simp) rfl (answerGetCylinder_of_no_cyl unread s),
      request_refused ready (by simp) rfl (answerGetCycle_of_no_cyl unread s),
      request_refused ready (by simp) rfl (answerGetPulses_of_no_cyl unread y s)⟩
  case noPage =>
    have unread : pageOf x.toNat = none := pageOf_eq_none outside
    exact request_refused ready (by simp) rfl (answerGetPulses_of_no_page unread y s)

end Sys2Proof.Machine
end

section
/-! An event that is taken, due or heard, and a request whose owner leaves Circuit Diagnosis alone. -/

namespace Sys2Proof.Machine

/-! ## Taking an event -/

theorem take_of_released {f : State → State} {s t : State} (h : s.resetHeld = false) (ht : f s = t) :
    take f s = .next t := by
  simp [take, h, ht]

theorem takeDue_of_due {due : State → Bool} {f : State → State} {s t : State} (h : s.resetHeld = false)
    (hdue : due s = true) (ht : f s = t) : takeDue due f s = .next t :=
  take_of_released h (by simp [hdue, ht])

theorem takeHeard_eq_or_eq {f : State → State} {s t : State} (h : takeHeard f s = .next t) : t = s ∨ t = f s := by
  simp only [takeHeard, take, Host.Outcome.next.injEq] at h
  subst h
  split
  · exact .inl rfl
  · split
    · exact .inl rfl
    · exact .inr rfl

/-! ## A request whose owner leaves Circuit Diagnosis alone -/

theorem arrive_diag {f : Frame} {served : State → State} {s : State} (h : (served s).diag = s.diag) :
    (arrive f served s).diag = s.diag := by
  unfold arrive
  split
  · rfl
  · split
    · exact h
    · rfl

theorem serve_diag {owner : Owner} {p : List Byte} {s : State} (h : (owner p s).2.diag = s.diag) (kind : Nat)
    (tag : Byte) : (serve kind owner tag p s).diag = s.diag := by
  unfold serve
  split
  · exact h
  · rfl

/-- Whether the request is served, waits or is discarded, only its owner could touch the diagnosis. -/
theorem request_diag {kind : Nat} {owner : Owner} {tag : Byte} {p : List Byte} {s u : State}
    (h : request kind owner tag p s = .next u) (howner : (owner p s).2.diag = s.diag) : u.diag = s.diag := by
  obtain rfl | rfl := takeHeard_eq_or_eq h
  · rfl
  · exact arrive_diag (serve_diag howner kind tag)

end Sys2Proof.Machine
end

section
/-! The coil check (R138 to R141): what its reports and its window end do, and when COIL_CHECK may start one. -/

namespace Sys2Proof.Machine

/-! ## The window of a running check (R140, R141) -/

theorem inCoilWindow_iff {s : State} {x : CoilCheck} (h : s.diag.coil = some x) (b : Bank) :
    inCoilWindow b s = true ↔ x.bank = b ∧ elapsed x.start s.timebase ≤ 400 := by
  simp [inCoilWindow, h, Config.coilWindow]

theorem inCoilWindow_of_no_check {s : State} (h : s.diag.coil = none) (b : Bank) : inCoilWindow b s = false := by
  simp [inCoilWindow, h]

theorem endCoilCheck_of_running {s : State} {x : CoilCheck} (h : s.diag.coil = some x) (r : CoilResult)
    (cause : Option AbortCause) :
    endCoilCheck r cause s =
      queueNotice (.coilResult x.cyl r x.curTime cause) (s.withDiag { s.diag with coil := none }) := by
  simp [endCoilCheck, h]

theorem coilCurrent_of_first_report {s : State} {x : CoilCheck} {b : Bank} (h : s.diag.coil = some x)
    (hwindow : inCoilWindow b s = true) (hfirst : x.curTime = none) :
    coilCurrent b s =
      s.withDiag { s.diag with coil := some { x with curTime := some (elapsed x.start s.timebase) } } := by
  simp [coilCurrent, h, hwindow, hfirst]

theorem coilCurrent_of_later_report {s : State} {x : CoilCheck} (h : s.diag.coil = some x)
    (hlater : x.curTime ≠ none) (b : Bank) : coilCurrent b s = s := by
  simp [coilCurrent, h, hlater]

theorem coilCurrent_outside_window {s : State} {b : Bank} (h : inCoilWindow b s = false) : coilCurrent b s = s := by
  unfold coilCurrent
  split <;> simp [h]

theorem overcurrentArrives_of_undriven {s : State} {b : Bank} (h : (s.bank b).drive.energized = none) :
    overcurrentArrives b s = if inCoilWindow b s then endCoilCheck .overcurrent none s else s := by
  simp [overcurrentArrives, h]

theorem coilWindowDue_iff {s : State} {x : CoilCheck} (h : s.diag.coil = some x) :
    coilWindowDue s = true ↔ 400 ≤ elapsed x.start s.timebase := by
  simp [coilWindowDue, h, Config.coilWindow]

theorem coilWindowEnds_of_running {s : State} {x : CoilCheck} (h : s.diag.coil = some x) :
    coilWindowEnds s =
      queueNotice (.coilResult x.cyl (coilResultOf x.curTime) x.curTime none)
        (s.withDiag { s.diag with coil := none }) := by
  simp [coilWindowEnds, h, endCoilCheck_of_running h]

/-- Settles O30: a report acts only inside the window of a check on its bank, and the window end takes the result from
the CUR time. -/
theorem coilCheckMeasures : Obligations.CoilCheckMeasures := by
  intro s x released running
  refine ⟨fun inTime => ⟨fun first => ?first, fun later => ?later, fun undriven => ?overcurrent⟩,
    fun b other => ?otherBank, fun due => ?windowEnd, fun t b released' noCheck => ⟨?noCheck, fun undriven => ?idleOvc⟩⟩
  case first =>
    have window : inCoilWindow x.bank s = true := (inCoilWindow_iff running x.bank).mpr ⟨rfl, inTime⟩
    exact take_of_released released (coilCurrent_of_first_report running window first)
  case later => exact take_of_released released (coilCurrent_of_later_report running later x.bank)
  case overcurrent =>
    have window : inCoilWindow x.bank s = true := (inCoilWindow_iff running x.bank).mpr ⟨rfl, inTime⟩
    refine take_of_released released ?_
    rw [overcurrentArrives_of_undriven undriven, if_pos window, endCoilCheck_of_running running]
  case otherBank =>
    have outside : inCoilWindow b s = false :=
      Bool.eq_false_iff.mpr fun window => other ((inCoilWindow_iff running b).mp window).1.symm
    exact take_of_released released (coilCurrent_outside_window outside)
  case windowEnd =>
    exact takeDue_of_due released ((coilWindowDue_iff running).mpr due) (coilWindowEnds_of_running running)
  case noCheck =>
    exact take_of_released released' (coilCurrent_outside_window (inCoilWindow_of_no_check noCheck b))
  case idleOvc =>
    refine take_of_released released' ?_
    simp [overcurrentArrives_of_undriven undriven, inCoilWindow_of_no_check noCheck b]

/-! ## The answer to COIL_CHECK (R138) -/

theorem anyOpen_iff (s : State) : anyOpen s = true ↔ ∃ d, s.contexts.get d ≠ none := by
  simp [anyOpen, Cyl.mem_all, Option.isSome_iff_ne_none]

theorem Drive.isIdle_iff (d : Drive) : d.isIdle = true ↔ d = .idle := by
  cases d <;> simp [Drive.isIdle]

/-- Checks 4 to 7 of R138: which one fails does not matter, since all refuse with WRONG_MODE. -/
theorem coilWrongMode_iff (b : Bank) (s : State) :
    coilWrongMode b s = true ↔
      s.tracker.sync ≠ .stopped ∨ (∃ d, s.contexts.get d ≠ none) ∨ (s.bank b).drive ≠ .idle ∨ s.run.fuelcut = true := by
  simp only [coilWrongMode, Bool.or_eq_true, decide_eq_true_iff, anyOpen_iff, Bool.not_eq_true', Bool.eq_false_iff,
    ne_eq, Drive.isIdle_iff, or_assoc]

theorem answerCoilCheck_of_no_cyl {x : Byte} (h : Cyl.ofNum x.toNat = none) (s : State) :
    answerCoilCheck [x] s = (.refused .badValue, s) := by
  simp [answerCoilCheck, h]

theorem answerCoilCheck_of_undefined {s : State} {c : Cyl} (h : (s.plan.cyls.get c).place = none) :
    answerCoilCheck [byte c.num] s = (.refused .notDefined, s) := by
  simp [answerCoilCheck, Cyl.ofNum_byte_num, h]

theorem answerCoilCheck_of_place {s : State} {c : Cyl} {pl : Placement} (h : (s.plan.cyls.get c).place = some pl) :
    answerCoilCheck [byte c.num] s = coilCheckOf c pl s := by
  simp [answerCoilCheck, Cyl.ofNum_byte_num, h]

theorem coilCheckOf_of_running {s : State} (h : s.diag.coil ≠ none) (c : Cyl) (pl : Placement) :
    coilCheckOf c pl s = (.refused .busy, s) := if_pos (Option.isSome_iff_ne_none.mpr h)

theorem coilCheckOf_of_wrong_mode {s : State} {pl : Placement} (h : s.diag.coil = none)
    (hmode : coilWrongMode pl.bank s = true) (c : Cyl) : coilCheckOf c pl s = (.refused .wrongMode, s) := by
  simp [coilCheckOf, h, hmode]

theorem coilCheckOf_of_free {s : State} {pl : Placement} (h : s.diag.coil = none)
    (hmode : ¬ coilWrongMode pl.bank s = true) (c : Cyl) :
    coilCheckOf c pl s = (.ack [byte c.num, 1], startCoilCheck c pl s) := by
  simp [coilCheckOf, h, hmode]

/-- The owner of SET_CYLINDER is the Plan Store. -/
theorem answerSetCylinder_diag (p : List Byte) (s : State) : (answerSetCylinder p s).2.diag = s.diag := by
  unfold answerSetCylinder
  split
  · unfold setCylinder
    split
    · rfl
    · split <;> rfl
  · rfl

/-- Settles O57: the checks of R138 one after the other, and for SET_CYLINDER an owner that leaves the diagnosis as it
is. -/
theorem coilCheckStartsOrRefuses : Obligations.CoilCheckStartsOrRefuses := by
  intro s tag ready
  refine ⟨fun x outside => ?noCyl,
    fun c => ⟨fun undefined => ?undefined, fun pl placed => ⟨fun running => ?busy, fun free => ⟨fun wrong => ?wrongMode,
      fun stopped closed idle released => ?started⟩⟩⟩, fun p u taken => ?setCylinder⟩
  case noCyl =>
    exact request_refused ready (by simp) rfl (answerCoilCheck_of_no_cyl (Cyl.ofNum_eq_none outside) s)
  case undefined => exact request_refused ready (by simp) rfl (answerCoilCheck_of_undefined undefined)
  case busy =>
    exact request_refused ready (by simp) rfl
      ((answerCoilCheck_of_place placed).trans (coilCheckOf_of_running running c pl))
  case wrongMode =>
    exact request_refused ready (by simp) rfl
      ((answerCoilCheck_of_place placed).trans
        (coilCheckOf_of_wrong_mode free ((coilWrongMode_iff pl.bank s).mpr wrong) c))
  case started =>
    have allowed : ¬ coilWrongMode pl.bank s = true := by
      simp [coilWrongMode_iff, stopped, closed, idle, released]
    exact request_acked ready (by simp) rfl
      ((answerCoilCheck_of_place placed).trans (coilCheckOf_of_free free allowed c))
  case setCylinder => exact request_diag taken (answerSetCylinder_diag p s)

end Sys2Proof.Machine
end

section
/-! The clears of a fault latch and of the tracker latches (R137, R179). -/

namespace Sys2Proof.Machine

theorem answerClearFault_of_cyl {x : Byte} {c : Cyl} (h : Cyl.ofNum x.toNat = some c) (s : State) :
    answerClearFault [x] s =
      (.ack [byte c.num, byte (s.diag.score.get c), byte (bit (s.diag.disabled.get c))],
        s.withDiag (s.diag.clearFault c)) := by
  simp [answerClearFault, h]

theorem answerClearFault_of_no_cyl {x : Byte} (h : Cyl.ofNum x.toNat = none) (s : State) :
    answerClearFault [x] s = (.refused .badValue, s) := by
  simp [answerClearFault, h]

/-- Settles O56: the ready link serves each clear, whose ACK is formed from the state before it. -/
theorem clearsReportWhatTheyClear : Obligations.ClearsReportWhatTheyClear := by
  intro s tag ready
  refine ⟨fun c => ?fault, fun x outside => ?noCyl, ?latch⟩
  case fault => exact request_acked ready (by simp) rfl (answerClearFault_of_cyl c.ofNum_byte_num s)
  case noCyl => exact request_refused ready (by simp) rfl (answerClearFault_of_no_cyl (Cyl.ofNum_eq_none outside) s)
  case latch => exact request_acked ready (by decide) rfl rfl

end Sys2Proof.Machine
end

section
/-! The notice enable set (R167, R178): what SET_NOTICES reads of its two bytes and answers, the bits of the notice
kinds, and the set after both resets. -/

namespace Sys2Proof.Machine

/-! ## The word of two bytes (R173) -/

@[simp] theorem wordAt_pair (x y : Byte) : wordAt [x, y] 0 = 256 * x.toNat + y.toNat := rfl

theorem wordAt_pair_lt_iff {x y : Byte} (n : Nat) : wordAt [x, y] 0 < 256 * n ↔ x.toNat < n := by
  rw [wordAt_pair]
  omega

theorem be16_wordAt_pair (x y : Byte) : be16 (wordAt [x, y] 0) = [x, y] := by
  have high : byte (wordAt [x, y] 0 / 256) = x := BitVec.eq_of_toNat_eq (by simp [byte]; omega)
  have low : byte (wordAt [x, y] 0) = y := BitVec.eq_of_toNat_eq (by simp [byte]; omega)
  rw [be16, high, low]

theorem ofNat_wordAt_pair (x y : Byte) : BitVec.ofNat 16 (wordAt [x, y] 0) = x ++ y := by
  apply BitVec.eq_of_toNat_eq
  rw [wordAt_pair, BitVec.toNat_ofNat, BitVec.toNat_append, Nat.mul_comm, ← Nat.shiftLeft_add_eq_or_of_lt y.isLt,
    Nat.shiftLeft_eq]
  omega

/-! ## The answer to SET_NOTICES (R178) -/

theorem answerSetNotices_of_reserved {x : Byte} (h : 0x40 ≤ x.toNat) (y : Byte) (s : State) :
    answerSetNotices [x, y] s = (.refused .badValue, s) :=
  if_neg ((wordAt_pair_lt_iff 0x40).not.mpr h.not_gt)

theorem answerSetNotices_of_kinds {x : Byte} (h : x.toNat < 0x40) (y : Byte) (s : State) :
    answerSetNotices [x, y] s = (.ack [x, y], s.withLink { s.link with enable := (x ++ y : BitVec 16) }) := by
  rw [answerSetNotices, if_pos ((wordAt_pair_lt_iff 0x40).mpr h), be16_wordAt_pair, ofNat_wordAt_pair]

/-! ## The bits of the notice kinds (R167) -/

/-- No notice kind stands at the reserved bits 14 and 15. -/
theorem NoticeBody.index_le (b : NoticeBody) : b.index ≤ 13 := by
  cases b <;> simp [NoticeBody.index]

theorem queueNotice_of_disabled {b : NoticeBody} {s : State} (h : s.link.enable.getLsbD b.index = false) :
    queueNotice b s = s := by
  simp [queueNotice, h]

theorem queueNotice_of_enabled {b : NoticeBody} {s : State} (h : s.link.enable.getLsbD b.index = true) :
    queueNotice b s =
      s.withLink ((s.link.enqueueNotice { time := s.timebase, body := b }).takeFrame s.timebase) := if_pos h

/-! ## The set after a reset (R144, R160) -/

theorem execPowerOnReset_enable {w : Wheel} {low : Bool} {feed : Feed} {s u : State}
    (h : execPowerOnReset w low feed s = .next u) : u.link.enable = resetEnable := by
  cases h
  rfl

/-- Only a line that is asserted has a reset to end: what is released is the state the assertion left. -/
theorem execPinReset_enable {low : Bool} {feed : Feed} {s u t : State} (hassert : execPinResetAssert s = .next u)
    (hrelease : execPinResetRelease low feed u = .next t) : t.link.enable = resetEnable := by
  cases hassert
  cases hrelease
  rfl

/-- Settles O52: the ready link serves the request, whose two reserved bits are at or above 0x40 in its first byte; then
the bits of the kinds, and the set after each reset. -/
theorem setNoticesReplacesSet : Obligations.SetNoticesReplacesSet := by
  intro s tag x y ready
  refine ⟨fun reserved => ?refused, fun kinds => ?replaced, fun n => ⟨rfl, n.body.index_le⟩,
    fun b => ⟨queueNotice_of_disabled, queueNotice_of_enabled⟩, fun w low v u => execPowerOnReset_enable,
    fun low v u t => execPinReset_enable⟩
  case refused => exact request_refused ready (by simp) rfl (answerSetNotices_of_reserved reserved y s)
  case replaced => exact request_acked ready (by simp) rfl (answerSetNotices_of_kinds kinds y s)

end Sys2Proof.Machine
end

section
/-! What one step leads to (R144, R165): every command is an event of the part, a reset, a request or a frame of no
request kind, and each keeps the bounds, the gates and the ties. -/

namespace Sys2Proof.Machine

/-! ## What is reached keeps the bounds and the gates -/

theorem Reached.bounded {s t : State} (h : Reached s t) (b : s.Bounded) : t.Bounded := by
  cases h with
  | event h => exact h.bounded b
  | reset hb _ _ => exact hb b
  | @reply u v kind tag x h c r =>
    have hv : v.Bounded := c.bounded (h.bounded b)
    have room : v.link.replies.length < Config.requestQueue := by
      rw [c.same.2.1]
      exact h.replies.trans_lt r
    exact { hv with link := pushReply_bounded kind tag x hv.link room }

theorem withLink_gated {s : State} (l : Link) (g : s.Gated) : (s.withLink l).Gated :=
  ⟨g.entryAngle, fun b h => g.waitAngle b (by simpa using h), g.armRun, g.cutEntry,
    fun hf b => by simpa using g.cutWait hf b, g.latchEntry, fun b r h => g.latchWait b r (by simpa using h)⟩

theorem Reached.gated {s t : State} (h : Reached s t) (g : s.Gated) : t.Gated := by
  cases h with
  | event h => exact h.gated g
  | reset _ hg _ => exact hg g
  | reply kind tag x h c r => exact withLink_gated _ (c.gated (h.gated g))

/-- The answer to a request starts no pulse: its moves are quiet, and the reply touches the link alone. -/
theorem Reached.start_open {s t : State} (h : Reached s t) (b : Bank) (st : Starts b s t) :
    GatesOpen t ∧ ∀ c, (t.bank b).boosts = some c → s.diag.disabled.get c = false := by
  cases h with
  | event h => exact h.start_open b st
  | reset _ _ off =>
    have idle := off b
    simp [Starts, idle, Drive.isBoost] at st
  | @reply u v kind tag x h c r =>
    obtain ⟨still, boosting⟩ := st
    have same : (pushReply kind tag x v).bank b = u.bank b := by
      rw [← c.same.2.2 b]
      simp [pushReply]
    obtain ⟨d, hd⟩ := (BankState.isBoost_iff _).mp boosting
    have before : (s.bank b).boosts = some d := h.no_start b d (same ▸ hd)
    rw [(BankState.isBoost_iff _).mpr ⟨d, before⟩] at still
    cases still

/-! ## What a command leads to -/

/-- A reset that clears the fault-disabled latches: the end of a power-on or pin reset. -/
def Instr.EndsReset (i : Instr) : Prop :=
  (∃ w l v, i = .powerOnReset w l v) ∨ ∃ l v, i = .pinResetRelease l v

/-- What the execution of a command leads to: an event, which RESET_N holds off; the end of a reset or its assertion; or
a frame that arrives, of a request kind or of none. -/
inductive Executed (i : Instr) (s : State) : State → Prop
  | event {t : State} (h : Event s t) (k : Keeps s t) (held : s.resetHeld = true → t = s) : Executed i s t
  | reset (w : Wheel) (l : Bool) (v : Feed) (h : Instr.EndsReset i) : Executed i s (resetState w l v s.pending)
  | held : Executed i s (assertReset s)
  | request {t : State} (n : Nat) (owner : Owner) (tag : Byte) (p : List Byte) (m : ownerOf n = some owner)
      (c : n ≠ 0x16 ∨ i = .clearFault tag p) (h : request n owner tag p s = .next t) : Executed i s t
  | unknown {t : State} (kind tag : Byte) (p : List Byte) (h : execUnknownKind kind tag p s = .next t) : Executed i s t

namespace Executed

variable {i : Instr} {s t : State}

theorem unchanged (i : Instr) (s : State) : Executed i s s := .event (.quiet (.refl s)) (.refl s) fun _ => rfl

theorem ofTake {f : State → State} (h : take f s = .next t) (e : Event s (f s)) (k : Keeps s (f s)) :
    Executed i s t := by
  unfold take at h
  split at h <;> cases h
  next => exact unchanged i s
  next released => exact .event e k fun held => absurd held released

theorem ofTakeDue {due : State → Bool} {f : State → State} (h : takeDue due f s = .next t)
    (e : due s = true → Event s (f s)) (k : due s = true → Keeps s (f s)) : Executed i s t := by
  cases hdue : due s with
  | true => exact ofTake h (by simpa [hdue] using e hdue) (by simpa [hdue] using k hdue)
  | false => exact ofTake h (by simpa [hdue] using Event.quiet (.refl s)) (by simpa [hdue] using Keeps.refl s)

theorem ofTakeHeard {f : State → State} (h : takeHeard f s = .next t) (e : Event s (f s)) (k : Keeps s (f s)) :
    Executed i s t := by
  cases hs : s.run.stands with
  | true => exact ofTake h (by simpa [hs] using Event.quiet (.refl s)) (by simpa [hs] using Keeps.refl s)
  | false => exact ofTake h (by simpa [hs] using e) (by simpa [hs] using k)

end Executed

theorem endStrobe_calm (s : State) : Calm s (endStrobe s) := setQueue_calm _ s rfl

theorem decayEndDue_undriven {b : Bank} {s : State} (h : decayEndDue b s = true) :
    (s.bank b).drive.energized = none := by
  unfold decayEndDue at h
  split at h
  next p ended idleAt hd => rw [hd]; rfl
  next => cases h

theorem drainDue_drain {s : State} (h : drainDue s = true) : s.run.mode = .drain := by
  unfold drainDue at h
  split at h
  next => simpa using (Bool.and_eq_true_iff.mp h).1
  next => cases h

theorem execPinResetRelease_executed {l : Bool} {v : Feed} {s t : State}
    (h : execPinResetRelease l v s = .next t) : Executed (.pinResetRelease l v) s t := by
  unfold execPinResetRelease at h
  split at h <;> cases h
  next => exact .reset _ l v (.inr ⟨l, v, rfl⟩)
  next => exact .unchanged _ s

theorem abortThen_event {f : State → State} {s : State} (c : AbortCause) (g : s.Gated)
    (h : ∀ u : State, u.Gated → Event u (f u)) : Event s (f (abortCoilCheck c s)) :=
  have before : Moves false s (abortCoilCheck c s) := abortCoilCheck_moves c s
  .before before (h _ (before.gated g))

theorem abortThen_keeps {f : State → State} {s : State} (c : AbortCause) (g : s.Gated)
    (h : ∀ u : State, u.Gated → Keeps u (f u)) : Keeps s (f (abortCoilCheck c s)) :=
  have before : Moves false s (abortCoilCheck c s) := abortCoilCheck_moves c s
  (endCoilCheck_calm .aborted (some c) s).keeps.trans (h _ (before.gated g))

/-- One case for each row of the opcode table. -/
theorem exec_executed {i : Instr} {s t : State} (g : s.Gated) (h : exec i s = .next t) : Executed i s t := by
  cases i with
  | powerOnReset w l v => cases h; exact .reset w l v (.inl ⟨w, l, v, rfl⟩)
  | pinResetAssert => cases h; exact .held
  | pinResetRelease l v => exact execPinResetRelease_executed h
  | crankEdge =>
    exact .ofTake (f := fun u => crankEdge (abortCoilCheck .edge u)) h (abortThen_event _ g crankEdge_event)
      (abortThen_keeps _ g crankEdge_keeps)
  | camEdge =>
    exact .ofTake (f := fun u => camEdge (abortCoilCheck .edge u)) h (abortThen_event _ g camEdge_event)
      (abortThen_keeps _ g camEdge_keeps)
  | crankDeadline => exact .ofTakeDue h (fun _ => .quiet (crankDeadline_moves s)) fun _ => crankDeadline_keeps s
  | camDeadline => exact .ofTakeDue h (fun _ => .quiet (camDeadline_moves s)) fun _ => camDeadline_keeps s
  | stallTimeout => exact .ofTakeDue h (fun _ => .quiet (stall_moves s)) fun _ => stall_keeps s
  | fire =>
    exact .ofTakeDue (due := fun u => (firstDue u).isSome) h (fun _ => .firing (fireFirst_moves s g))
      fun _ => fireFirst_keeps s g
  | strobeEnd => exact .ofTakeDue h (fun _ => .quiet (endStrobe_moves s)) fun _ => (endStrobe_calm s).keeps
  | peak b => exact .ofTake h (.quiet (peakArrives_moves b s)) (peakArrives_calm b s).keeps
  | boostLimitExpiry b =>
    exact .ofTakeDue h (fun _ => .quiet (boostLimitExpires_moves b s)) fun _ => (boostLimitExpires_calm b s).keeps
  | curTest b x =>
    exact .ofTakeDue h (fun _ => .quiet (recordCur_moves b x s)) fun _ => (recordCur_calm b x s).keeps
  | pulseEnd b =>
    exact .ofTakeDue h (fun _ => .quiet (endPulse_moves b id true s))
      fun _ => endPulse_keeps b id true s fun _ => ⟨rfl, rfl⟩
  | ovc b => exact .ofTake h (.quiet (overcurrentArrives_moves b s)) (overcurrentArrives_keeps b s)
  | decayEnd b =>
    exact .ofTakeDue h (fun _ => .firing (endDecay_moves b s g)) fun due =>
      endDecay_keeps b s (decayEndDue_undriven due)
  | rechargeUnit b =>
    exact .ofTakeDue (due := fun u => (u.bank b).unitDue u.run.band) h (fun _ => .quiet (settleRecharge_moves b s))
      fun _ => (settleRecharge_calm b s).keeps
  | drainTimerExpiry =>
    exact .ofTakeDue h (fun due => .quiet (forceDrain_moves s (drainDue_drain due))) fun _ => forceDrain_keeps s
  | coilCurReport b => exact .ofTake h (.quiet (coilCurrent_moves b s)) (coilCurrent_calm b s).keeps
  | coilWindowEnd => exact .ofTakeDue h (fun _ => .quiet (coilWindowEnds_moves s)) fun _ => (coilWindowEnds_calm s).keeps
  | fuelcutLineChange l => exact .ofTake h (.quiet (lineChanges_moves l s)) (lineChanges_calm l s).keeps
  | fuelcutAssertion => exact .ofTakeDue h (fun _ => .quiet (assertFuelcut_moves s)) fun _ => assertFuelcut_keeps s
  | fuelcutRelease =>
    exact .ofTakeDue h (fun _ => .quiet (releaseFuelcut_moves s)) fun _ => (setFuelcut_calm false s).keeps
  | vbatSample v => exact .ofTakeDue h (fun _ => .quiet (takeSample_moves v s)) fun _ => (takeSample_calm v s).keeps
  | monitorWindowEnd n => exact .ofTake h (.quiet (windowEnds_moves n s)) (windowEnds_calm n s).keeps
  | byteReceived x e =>
    exact .ofTakeHeard (f := fun u => u.withLink (u.link.byteArrives x e u.timebase)) h
      (.quiet (.closes (withLink_closes _ (byteArrives_bounded x e s.timebase) (by rw [byteArrives_replies]))))
      (withLink_calm _ s).keeps
  | interByteDeadline =>
    exact .ofTakeDue (f := fun u => u.withLink u.link.discard) h
      (fun _ => .quiet (.closes (withLink_closes _ discard_bounded le_rfl))) fun _ => (withLink_calm _ s).keeps
  | frameSent =>
    exact .ofTakeDue h (fun _ => .quiet (.closes (endFrame_closes s))) fun _ => (withLink_calm _ s).keeps
  | unknownKind kind tag p => exact .unknown kind tag p h
  | identify tag p => exact .request 0x01 _ tag p rfl (.inl (by decide)) h
  | getStatus tag p => exact .request 0x02 _ tag p rfl (.inl (by decide)) h
  | getTracker tag p => exact .request 0x03 _ tag p rfl (.inl (by decide)) h
  | setEngine tag p => exact .request 0x04 _ tag p rfl (.inl (by decide)) h
  | getEngine tag p => exact .request 0x05 _ tag p rfl (.inl (by decide)) h
  | setCylinder tag p => exact .request 0x06 _ tag p rfl (.inl (by decide)) h
  | getCylinder tag p => exact .request 0x07 _ tag p rfl (.inl (by decide)) h
  | setPulses tag p => exact .request 0x08 _ tag p rfl (.inl (by decide)) h
  | getPulses tag p => exact .request 0x09 _ tag p rfl (.inl (by decide)) h
  | copyPage tag p => exact .request 0x0A _ tag p rfl (.inl (by decide)) h
  | swapPlan tag p => exact .request 0x0B _ tag p rfl (.inl (by decide)) h
  | refreshPlan tag p => exact .request 0x0C _ tag p rfl (.inl (by decide)) h
  | setWindow tag p => exact .request 0x0D _ tag p rfl (.inl (by decide)) h
  | setMark tag p => exact .request 0x0E _ tag p rfl (.inl (by decide)) h
  | setDerate tag p => exact .request 0x0F _ tag p rfl (.inl (by decide)) h
  | testCut tag p => exact .request 0x10 _ tag p rfl (.inl (by decide)) h
  | setNotices tag p => exact .request 0x11 _ tag p rfl (.inl (by decide)) h
  | start tag p => exact .request 0x12 _ tag p rfl (.inl (by decide)) h
  | stop tag p => exact .request 0x13 _ tag p rfl (.inl (by decide)) h
  | resetRun tag p => exact .request 0x14 _ tag p rfl (.inl (by decide)) h
  | getCycle tag p => exact .request 0x15 _ tag p rfl (.inl (by decide)) h
  | clearFault tag p => exact .request 0x16 _ tag p rfl (.inr rfl) h
  | clearLatch tag p => exact .request 0x17 _ tag p rfl (.inl (by decide)) h
  | coilCheck tag p => exact .request 0x18 _ tag p rfl (.inl (by decide)) h

/-! ## What an executed command keeps -/

/-- A frame of no request kind only meets the link: it is refused, waits, or is discarded (R164, R165). -/
theorem execUnknownKind_eq {kind tag : Byte} {p : List Byte} {s t : State}
    (h : execUnknownKind kind tag p s = .next t) :
    t = s ∨ t = arrive { kind := kind, tag := tag, payload := p } (refuseKind kind tag) s := by
  rcases takeHeard_eq_or_eq h with rfl | rfl
  · exact .inl rfl
  · split
    · exact .inl rfl
    · exact .inr rfl

theorem arrive_refuseKind_link (f : Frame) (kind tag : Byte) (s : State) :
    ∃ l, arrive f (refuseKind kind tag) s = s.withLink l := by
  unfold arrive refuseKind pushReply
  split
  · exact ⟨_, rfl⟩
  · split
    · exact ⟨_, rfl⟩
    · exact ⟨_, rfl⟩

theorem Executed.reached {i : Instr} {s t : State} (h : Executed i s t) : Reached s t := by
  cases h with
  | event h k _ => exact .event h
  | reset w l v _ => exact .ofReset w l v _ s
  | held => exact .ofAssert s
  | request n owner tag p m _ h => exact request_reached h m
  | unknown kind tag p h =>
    rcases execUnknownKind_eq h with rfl | rfl
    · exact .quiet (.refl _)
    · exact arrive_reached _ _ s fun room => .reply kind tag _ (.refl s) (.inl rfl) room

theorem Executed.tied {i : Instr} {s t : State} (h : Executed i s t) (k : s.Tied) : t.Tied := by
  cases h with
  | event h keeps held =>
    cases hs : s.resetHeld with
    | true => rw [held hs]; exact k
    | false => exact keeps.tied hs k
  | reset w l v _ => exact resetState_tied w l v _
  | held => intro released; cases released
  | request n owner tag p m _ h => exact request_tied h m k
  | unknown kind tag p h =>
    rcases execUnknownKind_eq h with rfl | rfl
    · exact k
    · obtain ⟨l, hl⟩ := arrive_refuseKind_link { kind := kind, tag := tag, payload := p } kind tag s
      rw [hl]
      intro released
      exact (withLink_calm l s).keeps.tied released k released

/-- A request of any other kind than CLEAR_FAULT makes quiet moves, which keep a set latch. -/
theorem request_latched {n : Nat} {owner : Owner} {tag : Byte} {p : List Byte} {s t : State}
    (h : request n owner tag p s = .next t) (m : ownerOf n = some owner) (hn : n ≠ 0x16) (c : Cyl)
    (l : s.diag.disabled.get c = true) : t.diag.disabled.get c = true := by
  have answered : (owner p s).2.diag.disabled.get c = true := (ownerOf_quiet m hn p s).latched c l
  rcases takeHeard_eq_or_eq h with rfl | rfl
  · exact l
  · unfold arrive serve
    split
    · exact l
    · split
      · split
        · exact answered
        · exact l
      · exact l

theorem Executed.latched {i : Instr} {s t : State} (h : Executed i s t) (fault : ∀ tag p, i ≠ .clearFault tag p)
    (noReset : ¬ Instr.EndsReset i) (c : Cyl) (l : s.diag.disabled.get c = true) : t.diag.disabled.get c = true := by
  cases h with
  | event h _ _ =>
    obtain ⟨u, before, after⟩ := h
    exact after.latched c (before.latched c l)
  | reset w _ v h => exact absurd h noReset
  | held => simpa [assertReset] using l
  | request n owner tag p m hc h => exact request_latched h m (hc.resolve_right (fault tag p)) c l
  | unknown kind tag p h =>
    rcases execUnknownKind_eq h with rfl | rfl
    · exact l
    · obtain ⟨x, hx⟩ := arrive_refuseKind_link { kind := kind, tag := tag, payload := p } kind tag s
      rw [hx]
      exact l

/-- What RESET_N holds off leaves the state; what it does not hold off drives no bank. -/
theorem Executed.start_released {i : Instr} {s t : State} (h : Executed i s t) {b : Bank} (st : Starts b s t) :
    t.resetHeld = false := by
  have onward : t.resetHeld = s.resetHeld ∨ ∀ d, (t.bank d).drive = .idle := h.reached.resetHeld
  have boosting : (t.bank b).drive.isBoost = true := st.2
  rcases onward with same | idle
  · by_contra held
    have held : s.resetHeld = true := by simpa [same] using held
    have unmoved : ∀ d, (t.bank d).drive = (s.bank d).drive ∨ (t.bank d).drive = .idle := by
      cases h with
      | event _ _ hs => rw [hs held]; exact fun _ => .inl rfl
      | reset w l v _ => exact fun d => .inr (by cases d <;> rfl)
      | held => exact fun d => .inr (by cases d <;> rfl)
      | request n owner tag p m _ h =>
        have stays : t = s := by
          simpa [Machine.request, takeHeard, take, held] using h.symm
        rw [stays]
        exact fun _ => .inl rfl
      | unknown kind tag p h =>
        have stays : t = s := by
          simpa [execUnknownKind, takeHeard, take, held] using h.symm
        rw [stays]
        exact fun _ => .inl rfl
    have still : (s.bank b).drive.isBoost = false := st.1
    rcases unmoved b with same | idle
    · rw [same, still] at boosting; cases boosting
    · rw [idle] at boosting; cases boosting
  · rw [idle b] at boosting
    cases boosting

/-! ## A step -/

theorem withPending_gated {s : State} (rest : List Instr) (g : s.Gated) : (s.withPending rest).Gated :=
  ⟨g.entryAngle, fun b h => g.waitAngle b (by simpa using h), g.armRun, g.cutEntry,
    fun hf b => by simpa using g.cutWait hf b, g.latchEntry, fun b r h => g.latchWait b r (by simpa using h)⟩

theorem withPending_tied {s : State} (rest : List Instr) (k : s.Tied) : (s.withPending rest).Tied := fun released =>
  have calm : Calm s (s.withPending rest) := .of_eq rfl rfl (fun b => by simp) rfl
  calm.keeps.tied released k released

/-- A step executes a command, with the queue of commands as it was or with its front taken, or is what an idle part
does. -/
theorem step_cases {s t : State} (h : step s = .next t) :
    (∃ c ws, exec c (s.withPending ws) = .next t) ∨ t = idleOn s := by
  unfold step at h
  split at h
  next c rest _ => exact .inl ⟨c, rest, h⟩
  next =>
    split at h
    next c _ => exact .inl ⟨c, s.pending, h⟩
    next => cases h; exact .inr rfl

theorem idleOn_held {s : State} (h : s.resetHeld = true) : idleOn s = s := by simp [idleOn, h]

theorem step_bounded {s t : State} (g : s.Gated) (b : s.Bounded) (h : step s = .next t) : t.Bounded := by
  rcases step_cases h with ⟨c, ws, hc⟩ | rfl
  · have start : (s.withPending ws).Bounded := { b with }
    exact (exec_executed (withPending_gated ws g) hc).reached.bounded start
  · exact (idleOn_reached s).bounded b

theorem step_gated {s t : State} (g : s.Gated) (h : step s = .next t) : t.Gated := by
  rcases step_cases h with ⟨c, ws, hc⟩ | rfl
  · exact (exec_executed (withPending_gated ws g) hc).reached.gated (withPending_gated ws g)
  · exact (idleOn_reached s).gated g

theorem step_tied {s t : State} (g : s.Gated) (h : step s = .next t) (k : s.Tied) : t.Tied := by
  rcases step_cases h with ⟨c, ws, hc⟩ | rfl
  · exact (exec_executed (withPending_gated ws g) hc).tied (withPending_tied ws k)
  · cases hs : s.resetHeld with
    | true => rw [idleOn_held hs]; exact k
    | false => exact (idleOn_keeps s).tied hs k

theorem withPending_starts {s t : State} {b : Bank} (ws : List Instr) (st : Starts b s t) :
    Starts b (s.withPending ws) t := ⟨by simpa using st.1, st.2⟩

theorem step_start_open {s t : State} {b : Bank} (g : s.Gated) (h : step s = .next t) (st : Starts b s t) :
    GatesOpen t ∧ ∀ c, (t.bank b).boosts = some c → s.diag.disabled.get c = false := by
  rcases step_cases h with ⟨c, ws, hc⟩ | rfl
  · exact (exec_executed (withPending_gated ws g) hc).reached.start_open b (withPending_starts ws st)
  · exact (idleOn_reached s).start_open b st

theorem step_start_released {s t : State} {b : Bank} (g : s.Gated) (h : step s = .next t) (st : Starts b s t) :
    t.resetHeld = false := by
  rcases step_cases h with ⟨c, ws, hc⟩ | rfl
  · exact (exec_executed (withPending_gated ws g) hc).start_released (withPending_starts ws st)
  · have boosting : ((idleOn s).bank b).drive.isBoost = true := st.2
    rcases (idleOn_reached s).resetHeld with same | idle
    · cases hs : s.resetHeld with
      | true =>
        have still : (s.bank b).drive.isBoost = false := st.1
        rw [idleOn_held hs, still] at boosting
        cases boosting
      | false => rw [same, hs]
    · rw [idle b] at boosting
      cases boosting

/-! ## The statements -/

/-- Settles O4: a step reaches a bounded state, and a bounded queue has strictly rising keys. -/
theorem stepKeepsBounds : Obligations.StepKeepsBounds := by
  intro s t gated bounded h
  have sound : t.Bounded := step_bounded gated bounded h
  exact ⟨sound, sound.queue.length, sound.queue.nodup⟩

/-- Settles O5: the invariants over a step, and the latches over a command that is no clear and no reset. -/
theorem stepKeepsGates : Obligations.StepKeepsGates := by
  refine ⟨fun s t gated h => ?step, fun i s t c gated h fault power release latched => ?latch⟩
  case step =>
    have sound : t.Gated := step_gated gated h
    refine ⟨sound, step_tied gated h, fun c latched => ⟨fun e he n hk => ?_, fun b r hr hc => ?_⟩⟩
    · rw [sound.latchEntry e he c n hk] at latched
      cases latched
    · rw [← hc, sound.latchWait b r hr] at latched
      cases latched
  case latch =>
    refine (exec_executed gated h).latched fault ?_ c latched
    rintro (⟨w, l, v, rfl⟩ | ⟨l, v, rfl⟩)
    · exact power w l v rfl
    · exact release l v rfl

/-- Settles O6: the gates stand open where a pulse starts, and a driven pulse belongs to an open context, of which
there is none in HALT. -/
theorem pulseStartsWithGatesOpen : Obligations.PulseStartsWithGatesOpen := by
  intro s t b gated h starts
  obtain ⟨gates, unlatched⟩ := step_start_open gated h starts
  refine ⟨gates, fun tied halt => ?mode, fun p hp => unlatched p.cyl (by simp [BankState.boosts, hp])⟩
  case mode =>
    obtain ⟨linked, closed⟩ := step_tied gated h tied (step_start_released gated h starts)
    obtain ⟨p, hp⟩ : ∃ p, (t.bank b).drive.energized = some p := by
      have boosting : (t.bank b).drive.isBoost = true := starts.2
      unfold Drive.isBoost at boosting
      split at boosting
      next p hd => exact ⟨p, by rw [hd]; rfl⟩
      next => cases boosting
    have isOpen : bankAt t p.cyl = some b := (linked.driven b p hp).1
    simp [bankAt, closed halt p.cyl] at isOpen

end Sys2Proof.Machine
end

section
/-! What the shared operations leave unchanged, field by field: a notice, the end of a coil check, the landing of a swap,
a withdrawal and a sync loss. -/

namespace Sys2Proof.Machine

/-! ## A notice touches the link alone (R167, R168) -/

theorem queueNotice_eq_withLink (x : NoticeBody) (s : State) : ∃ l, queueNotice x s = s.withLink l := by
  unfold queueNotice
  split
  · exact ⟨_, rfl⟩
  · exact ⟨s.link, rfl⟩

section
variable (x : NoticeBody) (s : State)

@[simp] theorem queueNotice_resetHeld : (queueNotice x s).resetHeld = s.resetHeld := (queueNotice_closes x s).resetHeld
@[simp] theorem queueNotice_timebase : (queueNotice x s).timebase = s.timebase := (queueNotice_closes x s).timebase
@[simp] theorem queueNotice_tracker : (queueNotice x s).tracker = s.tracker := (queueNotice_closes x s).tracker
@[simp] theorem queueNotice_plan : (queueNotice x s).plan = s.plan := (queueNotice_closes x s).plan
@[simp] theorem queueNotice_contexts : (queueNotice x s).contexts = s.contexts := (queueNotice_same x s).1
@[simp] theorem queueNotice_queue : (queueNotice x s).queue = s.queue := (queueNotice_closes x s).queue
@[simp] theorem queueNotice_bankA : (queueNotice x s).bankA = s.bankA := (queueNotice_closes x s).bankA
@[simp] theorem queueNotice_bankB : (queueNotice x s).bankB = s.bankB := (queueNotice_closes x s).bankB
@[simp] theorem queueNotice_bank (b : Bank) : (queueNotice x s).bank b = s.bank b := (queueNotice_closes x s).bank b
@[simp] theorem queueNotice_diag : (queueNotice x s).diag = s.diag := (queueNotice_closes x s).diag
@[simp] theorem queueNotice_run : (queueNotice x s).run = s.run := (queueNotice_same x s).2
@[simp] theorem queueNotice_pending : (queueNotice x s).pending = s.pending := (queueNotice_closes x s).pending

@[simp] theorem queueNotice_records : (queueNotice x s).records = s.records := by
  obtain ⟨l, hl⟩ := queueNotice_eq_withLink x s
  rw [hl]
  rfl

end

/-! ## The end of a coil check (R142, R143) -/

theorem endCoilCheck_of_none {s : State} (h : s.diag.coil = none) (r : CoilResult) (cause : Option AbortCause) :
    endCoilCheck r cause s = s := by
  simp [endCoilCheck, h]

section
variable (r : CoilResult) (cause : Option AbortCause) (s : State)

/-- The end of a coil check: no check and one. -/
theorem endCoilCheck_cases :
    endCoilCheck r cause s = s ∨
      ∃ n, endCoilCheck r cause s = queueNotice n (s.withDiag { s.diag with coil := none }) := by
  unfold endCoilCheck
  split
  · exact .inl rfl
  · exact .inr ⟨_, rfl⟩

@[simp] theorem endCoilCheck_resetHeld : (endCoilCheck r cause s).resetHeld = s.resetHeld := by
  rcases endCoilCheck_cases r cause s with h | ⟨n, h⟩ <;> simp [h]
@[simp] theorem endCoilCheck_timebase : (endCoilCheck r cause s).timebase = s.timebase := by
  rcases endCoilCheck_cases r cause s with h | ⟨n, h⟩ <;> simp [h]
@[simp] theorem endCoilCheck_tracker : (endCoilCheck r cause s).tracker = s.tracker := by
  rcases endCoilCheck_cases r cause s with h | ⟨n, h⟩ <;> simp [h]
@[simp] theorem endCoilCheck_plan : (endCoilCheck r cause s).plan = s.plan := by
  rcases endCoilCheck_cases r cause s with h | ⟨n, h⟩ <;> simp [h]
@[simp] theorem endCoilCheck_contexts : (endCoilCheck r cause s).contexts = s.contexts := by
  rcases endCoilCheck_cases r cause s with h | ⟨n, h⟩ <;> simp [h]
@[simp] theorem endCoilCheck_records : (endCoilCheck r cause s).records = s.records := by
  rcases endCoilCheck_cases r cause s with h | ⟨n, h⟩ <;> simp [h]
@[simp] theorem endCoilCheck_queue : (endCoilCheck r cause s).queue = s.queue := by
  rcases endCoilCheck_cases r cause s with h | ⟨n, h⟩ <;> simp [h]
@[simp] theorem endCoilCheck_bank (b : Bank) : (endCoilCheck r cause s).bank b = s.bank b := by
  rcases endCoilCheck_cases r cause s with h | ⟨n, h⟩ <;> simp [h]
@[simp] theorem endCoilCheck_run : (endCoilCheck r cause s).run = s.run := by
  rcases endCoilCheck_cases r cause s with h | ⟨n, h⟩ <;> simp [h]

theorem endCoilCheck_diag : (endCoilCheck r cause s).diag = { s.diag with coil := none } := by
  cases h : s.diag.coil with
  | none => rw [endCoilCheck_of_none h, ← h]
  | some x => simp [endCoilCheck, h]

end

section
variable (c : AbortCause) (s : State)

@[simp] theorem abortCoilCheck_resetHeld : (abortCoilCheck c s).resetHeld = s.resetHeld := endCoilCheck_resetHeld ..
@[simp] theorem abortCoilCheck_timebase : (abortCoilCheck c s).timebase = s.timebase := endCoilCheck_timebase ..
@[simp] theorem abortCoilCheck_tracker : (abortCoilCheck c s).tracker = s.tracker := endCoilCheck_tracker ..
@[simp] theorem abortCoilCheck_plan : (abortCoilCheck c s).plan = s.plan := endCoilCheck_plan ..
@[simp] theorem abortCoilCheck_contexts : (abortCoilCheck c s).contexts = s.contexts := endCoilCheck_contexts ..
@[simp] theorem abortCoilCheck_records : (abortCoilCheck c s).records = s.records := endCoilCheck_records ..
@[simp] theorem abortCoilCheck_queue : (abortCoilCheck c s).queue = s.queue := endCoilCheck_queue ..
@[simp] theorem abortCoilCheck_bank (b : Bank) : (abortCoilCheck c s).bank b = s.bank b := endCoilCheck_bank ..
@[simp] theorem abortCoilCheck_run : (abortCoilCheck c s).run = s.run := endCoilCheck_run ..

end

/-! ## The landing of a swap (R54, R55) -/

theorem landIfPending_of_none {s : State} (h : s.plan.swapPending = false) (c : Option Cyl) :
    landIfPending c s = s := by
  simp [landIfPending, h]

theorem landIfPending_of_pending {s : State} (h : s.plan.swapPending = true) (c : Option Cyl) :
    landIfPending c s = queueNotice (.planSwapped s.plan.land.activePage.serial c) (s.withPlan s.plan.land) := by
  simp [landIfPending, landSwap, h]

section
variable (c : Option Cyl) (s : State)

theorem landIfPending_plan :
    (landIfPending c s).plan = if s.plan.swapPending then s.plan.land else s.plan := by
  cases h : s.plan.swapPending with
  | false => simp [landIfPending_of_none h]
  | true => simp [landIfPending_of_pending h]

@[simp] theorem landIfPending_queue : (landIfPending c s).queue = s.queue := (landIfPending_same c s).1
@[simp] theorem landIfPending_tracker : (landIfPending c s).tracker = s.tracker := (landIfPending_same c s).2.1
@[simp] theorem landIfPending_run : (landIfPending c s).run = s.run := (landIfPending_same c s).2.2.1
@[simp] theorem landIfPending_bank (b : Bank) : (landIfPending c s).bank b = s.bank b :=
  (landIfPending_same c s).2.2.2 b

@[simp] theorem landIfPending_timebase : (landIfPending c s).timebase = s.timebase := by
  cases h : s.plan.swapPending with
  | false => simp [landIfPending_of_none h]
  | true => simp [landIfPending_of_pending h]

@[simp] theorem landIfPending_contexts : (landIfPending c s).contexts = s.contexts := by
  cases h : s.plan.swapPending with
  | false => simp [landIfPending_of_none h]
  | true => simp [landIfPending_of_pending h]

@[simp] theorem landIfPending_records : (landIfPending c s).records = s.records := by
  cases h : s.plan.swapPending with
  | false => simp [landIfPending_of_none h]
  | true => simp [landIfPending_of_pending h]

end

/-! ## A withdrawal and a sync loss (R22, R106, R108) -/

section
variable (scope : Cyl → Bool) (r : WithdrawReason) (s : State)

theorem withdrawPulses_closes : Closes (dropPulses scope s) (withdrawPulses scope r s) :=
  reportWithdrawn_closes r _ _

@[simp] theorem withdrawPulses_resetHeld : (withdrawPulses scope r s).resetHeld = s.resetHeld :=
  (withdrawPulses_closes scope r s).resetHeld
@[simp] theorem withdrawPulses_timebase : (withdrawPulses scope r s).timebase = s.timebase :=
  (withdrawPulses_closes scope r s).timebase
@[simp] theorem withdrawPulses_tracker : (withdrawPulses scope r s).tracker = s.tracker :=
  (withdrawPulses_closes scope r s).tracker
@[simp] theorem withdrawPulses_plan : (withdrawPulses scope r s).plan = s.plan :=
  (withdrawPulses_closes scope r s).plan
@[simp] theorem withdrawPulses_diag : (withdrawPulses scope r s).diag = s.diag :=
  (withdrawPulses_closes scope r s).diag

theorem withdrawPulses_queue :
    (withdrawPulses scope r s).queue =
      { s.queue with entries := s.queue.entries.filter fun e => !e.pulseIn scope } :=
  (withdrawPulses_closes scope r s).queue

theorem withdrawPulses_fuelcut : (withdrawPulses scope r s).run.fuelcut = s.run.fuelcut :=
  (withdrawPulses_closes scope r s).fuelcut

theorem withdrawPulses_band : (withdrawPulses scope r s).run.band = s.run.band :=
  (withdrawPulses_closes scope r s).band

end

theorem emptyWaiting_all_eq (x : BankState) : x.emptyWaiting (fun _ => true) = { x with waiting := none } := by
  simp [emptyWaiting_eq]

section
variable (s : State)

@[simp] theorem queueLoss_timebase : (queueLoss s).timebase = s.timebase := withdrawPulses_timebase ..
@[simp] theorem queueLoss_tracker : (queueLoss s).tracker = s.tracker := withdrawPulses_tracker ..
@[simp] theorem queueLoss_plan : (queueLoss s).plan = s.plan := withdrawPulses_plan ..

theorem queueLoss_queue :
    (queueLoss s).queue =
      { s.queue with entries := [], pendingMarks := [], commitRef := none, frontier := none } := by
  simp [queueLoss, withdrawPulses_queue]

theorem queueLoss_banks (b : Bank) : (queueLoss s).bank b = { s.bank b with waiting := none } := by
  rw [queueLoss_bank, emptyWaiting_all_eq]

theorem queueLoss_fuelcut : (queueLoss s).run.fuelcut = s.run.fuelcut := withdrawPulses_fuelcut ..

theorem queueLoss_band : (queueLoss s).run.band = s.run.band := withdrawPulses_band ..

theorem queueToCam_queue :
    (queueToCam s).queue =
      { s.queue with
        entries := s.queue.entries.filter fun e => !e.isPulse
        commitRef := none
        frontier := match s.queue.commitRef with
          | some e => some ((e.angle + e.span) % 7200)
          | none => s.queue.frontier } := by
  simp only [queueToCam, State.withQueue_queue, withdrawPulses_queue, pulseIn_all, FiringQueue.atMove]
  cases s.queue.commitRef <;> rfl

@[simp] theorem queueToCam_bank (b : Bank) : (queueToCam s).bank b = { s.bank b with waiting := none } := by
  rw [queueToCam, State.withQueue_bank, withdrawPulses_bank, emptyWaiting_all_eq]

end

end Sys2Proof.Machine
end

section
/-! The machine, its resets, and the outputs of the banks (R113, R114, R130, R144, R157, R160, R165). -/

namespace Sys2Proof.Machine

/-! ## A step (log entries 2 and 7) -/

theorem step_of_command {s : State} {c : Instr} {rest : List Instr} (h : s.pending = c :: rest) :
    step s = exec c (s.withPending rest) := by
  simp [step, h]

theorem step_of_own_event {s : State} {c : Instr} (h : s.pending = []) (hc : ownEvent s = some c) :
    step s = exec c s := by
  simp [step, h, hc]

theorem step_of_idle {s : State} (h : s.pending = []) (hc : ownEvent s = none) : step s = .next (idleOn s) := by
  simp [step, h, hc]

theorem ownEvent_of_held {s : State} (h : s.resetHeld = true) : ownEvent s = none := by
  simp [ownEvent, h]

/-! ## An idle part (R157, R165) -/

theorem servable_of_room {l : Link} {f : Frame} {rest : List Frame} (h : l.inbound = f :: rest)
    (room : l.replies.length < 4) : servable l = some (f, rest) := by
  simp [servable, h, room]

theorem servable_none {l : Link} (h : l.inbound = [] ∨ 4 ≤ l.replies.length) : servable l = none := by
  unfold servable
  split
  next f rest hf =>
    have full : 4 ≤ l.replies.length := h.resolve_left (by simp [hf])
    simp [Nat.not_lt.mpr full]
  next => rfl

theorem idleOn_of_servable {s : State} {f : Frame} {rest : List Frame} (h : s.resetHeld = false)
    (hs : servable s.link = some (f, rest)) : idleOn s = serveHead f rest s := by
  simp [idleOn, h, hs]

theorem idleOn_of_waiting {s : State} (hs : servable s.link = none)
    (hw : awaitsValue s = true ∨ s.run.stands = true) : idleOn s = s := by
  simp [idleOn, hs, hw]

theorem idleOn_of_ticking {s : State} (h : s.resetHeld = false) (hs : servable s.link = none)
    (hv : awaitsValue s = false) (hw : s.run.stands = false) : idleOn s = tick s := by
  simp [idleOn, h, hs, hv, hw]

/-- Settles O1. -/
theorem stepRunsFrontCommand : Obligations.StepRunsFrontCommand := by
  unfold Obligations.StepRunsFrontCommand
  exact fun _ _ _ h => step_of_command h

/-- Settles O2: the branches of an idle step in their order. -/
theorem idleStepRunsPart : Obligations.IdleStepRunsPart := by
  unfold Obligations.IdleStepRunsPart
  intro s hp
  refine ⟨fun held => ?_, fun c hc => step_of_own_event hp hc, fun released own => ⟨?_, fun empty => ⟨?_, ?_⟩⟩⟩
  · rw [step_of_idle hp (ownEvent_of_held held), idleOn_held held]
  · intro f rest hf room
    rw [step_of_idle hp own, idleOn_of_servable released (servable_of_room hf room)]
    rfl
  · intro hw
    rw [step_of_idle hp own, idleOn_of_waiting (servable_none empty) hw]
  · intro hv hw
    rw [step_of_idle hp own, idleOn_of_ticking released (servable_none empty) hv hw]

/-! ## The state after a reset (R1, R44, R65, R89, R113, R131, R144, R160) -/

theorem reset_eq_resetState : State.reset = resetState .w60 false { vbat := 520 } [] := rfl

/-- Settles O3: the reset state is the state a power-on reset leaves, which is sound. -/
theorem resetStateSound : Obligations.ResetStateSound := by
  unfold Obligations.ResetStateSound
  rw [reset_eq_resetState]
  obtain ⟨bounded, gated⟩ := resetState_sound .w60 false { vbat := 520 } []
  exact ⟨bounded, gated, resetState_tied .w60 false { vbat := 520 } []⟩

@[simp] theorem resetState_bank (w : Wheel) (low : Bool) (v : Feed) (p : List Instr) (b : Bank) :
    (resetState w low v p).bank b = resetBank := by
  cases b <;> rfl

theorem resetPlan_page (i : PageIx) : resetPlan.page i = emptyPage := by cases i <;> rfl

theorem resetPlan_cyls (c : Cyl) : resetPlan.cyls.get c = undefinedCyl := PerCyl.get_fill ..

theorem emptyPage_lists (c : Cyl) : emptyPage.lists.get c = emptyList := PerCyl.get_fill ..

/-- Settles O8: `resetState` gives each block the value of its reset table. -/
theorem powerOnResetValues : Obligations.PowerOnResetValues := by
  unfold Obligations.PowerOnResetValues
  intro w low v s
  refine ⟨resetState w low v s.pending, rfl, rfl, rfl, rfl, rfl, rfl, resetPlan_cyls, rfl, rfl, rfl, rfl,
    fun i => ?_, rfl, rfl, rfl, rfl, rfl, rfl, fun c => ⟨PerCyl.get_fill .., PerCyl.get_fill ..⟩, rfl,
    fun b => resetState_bank .., fun c => ⟨PerCyl.get_fill .., PerCyl.get_fill .., PerCyl.get_fill ..⟩,
    rfl, rfl, rfl, rfl, rfl, rfl, rfl, rfl, rfl, rfl, rfl, rfl⟩
  change (resetPlan.page i).serial = 0 ∧ ∀ c, (resetPlan.page i).lists.get c = _
  rw [resetPlan_page]
  exact ⟨rfl, emptyPage_lists⟩

/-! ## What a bank drives (R114, R130) -/

section
variable {s : State} {b : Bank}

theorem outputs_of_boost {p : Pulse} (h : (s.bank b).drive = .boost p) :
    highSide s b = .boost ∧ selectedBy s b = some p.output := by
  simp [highSide, selectedBy, h]

theorem outputs_of_hold {p : Pulse} (h : (s.bank b).drive = .hold p) :
    highSide s b = .hold ∧ selectedBy s b = some p.output := by
  simp [highSide, selectedBy, h]

theorem outputs_of_decay {p : Pulse} {e i : Tick} (h : (s.bank b).drive = .decay p e i) :
    highSide s b = .off ∧ selectedBy s b = none := by
  simp [highSide, selectedBy, h]

theorem outputs_of_idle (h : (s.bank b).drive = .idle) (hc : s.diag.coil = none) :
    highSide s b = .off ∧ selectedBy s b = none := by
  simp [highSide, selectedBy, h, hc]

theorem outputs_of_check {x : CoilCheck} (h : (s.bank b).drive = .idle) (hc : s.diag.coil = some x) (hx : x.bank = b) :
    highSide s b = .hold ∧ selectedBy s b = some x.output := by
  simp [highSide, selectedBy, h, hc, hx]

theorem outputs_of_other_check {x : CoilCheck} (h : (s.bank b).drive = .idle) (hc : s.diag.coil = some x)
    (hx : x.bank ≠ b) : highSide s b = .off ∧ selectedBy s b = none := by
  simp [highSide, selectedBy, h, hc, hx]

end

/-- Settles O7: one lemma for each driver state and for a check. -/
theorem bankDrivesByState : Obligations.BankDrivesByState := by
  unfold Obligations.BankDrivesByState
  exact fun s b => ⟨fun _ => outputs_of_boost, fun _ => outputs_of_hold, fun _ _ _ => outputs_of_decay,
    fun idle => ⟨outputs_of_idle idle, fun _ hc => ⟨outputs_of_check idle hc, outputs_of_other_check idle hc⟩⟩⟩

/-! ## A pin reset (R113, R144, R160) -/

theorem assertReset_bank (s : State) (b : Bank) :
    (assertReset s).bank b = { s.bank b with drive := .idle, waiting := none } := by
  cases b <;> rfl

/-- Settles O9. -/
theorem pinResetSwitchesOff : Obligations.PinResetSwitchesOff := by
  unfold Obligations.PinResetSwitchesOff
  refine ⟨fun s => ⟨assertReset s, rfl, rfl, fun b => ?_, assertReset_bank s, rfl, rfl, rfl, rfl, rfl, rfl, rfl, rfl,
    rfl, rfl⟩, fun s low v => ⟨fun held => ?_, fun released => ?_⟩⟩
  · exact outputs_of_idle (by rw [assertReset_bank]) rfl
  · have release : exec (.pinResetRelease low v) s = .next (resetState s.tracker.wheel low v s.pending) := by
      simp [exec, execPinResetRelease, held]
    exact ⟨release, release⟩
  · simp [exec, execPinResetRelease, released]

/-! ## No event while RESET_N is asserted (R144, R160) -/

theorem taken_of_held {s : State} (h : s.resetHeld = true) (t : State) :
    (.next (if s.resetHeld then s else t) : Result) = .next s := by
  simp [h]

/-- Every row but the three of a reset takes its event through `take`. -/
theorem exec_of_held {s : State} {c : Instr} (h : s.resetHeld = true) (hp : ∀ w l v, c ≠ .powerOnReset w l v)
    (ha : c ≠ .pinResetAssert) (hr : ∀ l v, c ≠ .pinResetRelease l v) : exec c s = .next s := by
  cases c with
  | powerOnReset w l v => exact absurd rfl (hp w l v)
  | pinResetAssert => exact absurd rfl ha
  | pinResetRelease l v => exact absurd rfl (hr l v)
  | _ => exact taken_of_held h _

/-- Settles O10. -/
theorem heldResetTakesNoEvent : Obligations.HeldResetTakesNoEvent := by
  unfold Obligations.HeldResetTakesNoEvent
  exact fun _ _ h hp ha hr => exec_of_held h hp ha hr

end Sys2Proof.Machine
end

section
/-! The strobe and the fired marks (R96, R103), and the banks' phases and recharge (R116, R125 to R127). -/

namespace Sys2Proof.Machine

/-- An event of the part itself commanded before it is due has no effect (log entry 7). -/
theorem takeDue_of_not_due {due : State → Bool} {f : State → State} {s : State} (h : due s = false) :
    takeDue due f s = .next s := by
  simp [takeDue, take, h]

/-! ## STROBE (R103) -/

theorem strobeDue_of_until {s : State} {u : Tick} (h : s.queue.strobeUntil = some u) :
    strobeDue s = reached u s.timebase := by
  simp [strobeDue, h]

/-- Settles O23. -/
theorem strobeEndsAtItsTime : Obligations.StrobeEndsAtItsTime := by
  unfold Obligations.StrobeEndsAtItsTime
  intro s u released hu
  rw [← strobeDue_of_until hu]
  exact ⟨fun due => takeDue_of_due released due rfl, fun early => takeDue_of_not_due early⟩

/-! ## A fired mark (R96, R103) -/

/-- The first due entry is the one that FIRE fires. -/
theorem exec_fire_of_firstDue {s : State} {e : Entry} (h : s.resetHeld = false) (he : firstDue s = some e) :
    exec .fire s = .next (fireFirst s) :=
  takeDue_of_due (due := fun t => (firstDue t).isSome) h (by simp [he]) rfl

theorem fireFirst_of_mark {s : State} {e : Entry} {i : MarkIx} (he : firstDue s = some e) (hk : e.key = .mark i) :
    fireFirst s = fireMark i e (removeKey (.mark i) s) := by
  simp [fireFirst, he, hk, fireEntry]

/-- The notice of a fired mark, if its flag is set. -/
def markNotice (i : MarkIx) (m : AngleMark) (s : State) : State :=
  if m.notice then queueNotice (.mark i.val (interpolated s.tracker s.timebase) (speed s.tracker)) s else s

/-- The end of the strobe pulse of a fired mark, if its flag is set. -/
def markStrobe (m : AngleMark) (s : State) : Option Tick :=
  if m.strobe then some (s.timebase + 20) else s.queue.strobeUntil

@[simp] theorem markNotice_queue (i : MarkIx) (m : AngleMark) (s : State) : (markNotice i m s).queue = s.queue := by
  unfold markNotice
  split <;> simp

@[simp] theorem markNotice_timebase (i : MarkIx) (m : AngleMark) (s : State) :
    (markNotice i m s).timebase = s.timebase := by
  unfold markNotice
  split <;> simp

theorem withQueue_of_eq {s : State} {x : FiringQueue} (h : x = s.queue) : s.withQueue x = s := by
  subst h
  rfl

theorem markOutputs_of_mark {s : State} {i : MarkIx} {m : AngleMark} (h : s.plan.marks[i.val]? = some m) :
    markOutputs i s = (markNotice i m s).withQueue { s.queue with strobeUntil := markStrobe m s } := by
  have outputs : markOutputs i s =
      if m.strobe then (markNotice i m s).withQueue
          { (markNotice i m s).queue with strobeUntil := some (later (markNotice i m s).timebase 20) }
        else markNotice i m s := by
    simp only [markOutputs, h]
    rfl
  rw [outputs]
  cases hm : m.strobe with
  | true => simp [markStrobe, hm, later]
  | false => simp [markStrobe, hm, withQueue_of_eq]

theorem queueNotice_withQueue (n : NoticeBody) (s : State) (x : FiringQueue) :
    queueNotice n (s.withQueue x) = (queueNotice n s).withQueue x := by
  cases h : s.link.enable.getLsbD n.index with
  | true => simp only [queueNotice, State.withQueue_link, h, if_true]; rfl
  | false => simp [queueNotice, h]

theorem markNotice_withQueue (i : MarkIx) (m : AngleMark) (s : State) (x : FiringQueue) :
    markNotice i m (s.withQueue x) = (markNotice i m s).withQueue x := by
  unfold markNotice
  split
  · exact queueNotice_withQueue ..
  · rfl

theorem markNotice_eq_withLink (i : MarkIx) (m : AngleMark) (s : State) : ∃ l, markNotice i m s = s.withLink l := by
  unfold markNotice
  split
  · exact queueNotice_eq_withLink ..
  · exact ⟨s.link, rfl⟩

/-- Settles O20: the entry goes back, then the two outputs by their flags. -/
theorem firedMarkPutBack : Obligations.FiredMarkPutBack := by
  unfold Obligations.FiredMarkPutBack
  intro s e i m released he hk hm
  obtain ⟨l, hl⟩ := markNotice_eq_withLink i m s
  have back : markOutputs i (insertEntry { e with commit := none } (removeKey (.mark i) s)) = _ :=
    markOutputs_of_mark hm
  refine ⟨_, exec_fire_of_firstDue released he, ?_⟩
  rw [fireFirst_of_mark he hk, fireMark, back, insertEntry, removeKey, markNotice_withQueue, markNotice_withQueue, hk]
  refine ⟨rfl, ?_, ?_⟩
  · change (markNotice i m s).link = _
    unfold markNotice
    split <;> rfl
  · simp [hl]

/-! ## BOOST (R116) -/

section
variable {s : State} {b : Bank} {p : Pulse}

theorem peakArrives_of_boost (h : (s.bank b).drive = .boost p) :
    peakArrives b s = enterHold b { p with peak := some s.timebase } s := by
  simp [peakArrives, h]

theorem boostLimitExpires_of_boost (h : (s.bank b).drive = .boost p) :
    boostLimitExpires b s = enterHold b { p with noPeak := true } s := by
  simp [boostLimitExpires, h]

theorem boostLimitDue_of_boost (h : (s.bank b).drive = .boost p) :
    boostLimitDue b s = decide (p.boostLimit ≤ elapsed p.start s.timebase) := by
  simp [boostLimitDue, h]

theorem peakArrives_of_not_boost (h : (s.bank b).drive.isBoost = false) : peakArrives b s = s := by
  unfold peakArrives
  split
  next hd => simp [hd, Drive.isBoost] at h
  next => rfl

theorem boostLimitDue_of_not_boost (h : (s.bank b).drive.isBoost = false) : boostLimitDue b s = false := by
  unfold boostLimitDue
  split
  next hd => simp [hd, Drive.isBoost] at h
  next => rfl

end

/-- Settles O24. -/
theorem boostEndsInHold : Obligations.BoostEndsInHold := by
  unfold Obligations.BoostEndsInHold
  refine fun s b released => ⟨fun p hp => ⟨?_, fun passed => ?_⟩, fun other => ⟨?_, ?_⟩⟩
  · exact take_of_released released (peakArrives_of_boost hp)
  · exact takeDue_of_due released (by simp [boostLimitDue_of_boost hp, passed]) (boostLimitExpires_of_boost hp)
  · exact take_of_released released (peakArrives_of_not_boost other)
  · exact takeDue_of_not_due (boostLimitDue_of_not_boost other)

/-! ## The CUR test (R127) -/

theorem curTestDue_of_energized {s : State} {b : Bank} {p : Pulse} (h : (s.bank b).drive.energized = some p) :
    curTestDue b s = true ↔ p.curTest = .pending ∧ 60 ≤ elapsed p.start s.timebase := by
  simp [curTestDue, h]

/-- Settles O25. -/
theorem curTestRecorded : Obligations.CurTestRecorded := by
  unfold Obligations.CurTestRecorded
  refine fun s b p cur released => ⟨fun pending passed => ⟨fun hp => ?_, fun hp => ?_⟩, fun early driven => ?_⟩
  · refine takeDue_of_due released ((curTestDue_of_energized (by rw [hp]; rfl)).mpr ⟨pending, passed⟩) ?_
    rw [recordCur, hp]
    rfl
  · refine takeDue_of_due released ((curTestDue_of_energized (by rw [hp]; rfl)).mpr ⟨pending, passed⟩) ?_
    rw [recordCur, hp]
    rfl
  · have energized : (s.bank b).drive.energized = some p := by rcases driven with hp | hp <;> rw [hp] <;> rfl
    refine takeDue_of_not_due (Bool.eq_false_iff.mpr fun due => ?_)
    obtain ⟨pending, passed⟩ := (curTestDue_of_energized energized).mp due
    exact early.elim (absurd pending) (Nat.not_lt.mpr passed)

/-! ## The recharge (R125, R126) -/

section
variable {x : BankState} {band : SupplyBand} {n : Nat}

theorem recharging_iff : x.recharging band = true ↔ x.drive.isBoost = false ∧ band ≠ .critical ∧ x.reserve < 100 := by
  simp [BankState.recharging, and_assoc]

theorem recharging_of_band (h : rechargeInterval band = some n) (hb : x.drive.isBoost = false)
    (hr : x.reserve < 100) : x.recharging band = true := by
  refine recharging_iff.mpr ⟨hb, fun critical => ?_, hr⟩
  rw [critical] at h
  cases h

theorem unitDue_of_interval (h : rechargeInterval band = some n) (hb : x.drive.isBoost = false)
    (hr : x.reserve < 100) : x.unitDue band = decide (n ≤ x.phase) := by
  simp [BankState.unitDue, recharging_of_band h hb hr, h]

theorem unitDue_of_not_recharging (h : x.recharging band = false) : x.unitDue band = false := by
  simp [BankState.unitDue, h]

theorem countPhase_of_not_recharging (h : x.recharging band = false) : x.countPhase band = x := by
  simp [BankState.countPhase, h]

theorem countPhase_of_early (h : x.recharging band = true) (hu : x.unitDue band = false) :
    x.countPhase band = { x with phase := x.phase + 1 } := by
  simp [BankState.countPhase, h, hu]

theorem gainUnit_of_due (h : x.unitDue band = true) :
    x.gainUnit band = { x with reserve := x.reserve + 1, phase := 0 } := by
  simp [BankState.gainUnit, h]

end

theorem tick_bank (s : State) (b : Bank) : (tick s).bank b = (s.bank b).countPhase s.run.band := by
  cases b <;> rfl

theorem rechargeInterval_of_band {band : SupplyBand} {n : Nat}
    (h : band = .normal ∧ n = 50 ∨ band = .low ∧ n = 100) : rechargeInterval band = some n := by
  rcases h with ⟨rfl, rfl⟩ | ⟨rfl, rfl⟩ <;> rfl

/-- Settles O29. -/
theorem reserveRecharges : Obligations.ReserveRecharges := by
  unfold Obligations.ReserveRecharges
  refine fun s b released => ⟨fun n hn still below => ⟨fun early => ?_, fun reached => ?_⟩, fun stopped => ?_⟩
  · have interval := rechargeInterval_of_band hn
    have notDue : (s.bank b).unitDue s.run.band = false := by
      simpa [unitDue_of_interval interval still below] using early
    rw [tick_bank, countPhase_of_early (recharging_of_band interval still below) notDue]
    exact ⟨rfl, takeDue_of_not_due (due := fun t => (t.bank b).unitDue t.run.band) notDue⟩
  · have due : (s.bank b).unitDue s.run.band = true := by
      simpa [unitDue_of_interval (rechargeInterval_of_band hn) still below] using reached
    refine takeDue_of_due (due := fun t => (t.bank b).unitDue t.run.band) released due ?_
    rw [settleRecharge, gainUnit_of_due due]
  · have off : (s.bank b).recharging s.run.band = false := by
      refine Bool.eq_false_iff.mpr fun on => ?_
      obtain ⟨still, sound, below⟩ := recharging_iff.mp on
      rcases stopped with critical | boost | full
      · exact sound critical
      · rw [still] at boost
        cases boost
      · exact absurd below (Nat.not_lt.mpr full)
    rw [tick_bank, countPhase_of_not_recharging off]
    exact ⟨rfl, takeDue_of_not_due (due := fun t => (t.bank b).unitDue t.run.band) (unitDue_of_not_recharging off)⟩

end Sys2Proof.Machine
end

section
/-! The FUELCUT_N line, the supply filter and the clock monitor (R151, R153 to R159, R186). -/

namespace Sys2Proof.Machine

/-! ## The line (R151, R153) -/

theorem lineHeld_iff (low : Bool) (s : State) :
    lineHeld low s = true ↔
      s.run.lineLow = low ∧ s.run.fuelcut = !low ∧ 4 ≤ elapsed s.run.lineSince s.timebase := by
  cases low <;> simp [lineHeld, and_assoc]

theorem lineHeld_of_short {s : State} (h : elapsed s.run.lineSince s.timebase < 4) (low : Bool) :
    lineHeld low s = false :=
  Bool.eq_false_iff.mpr fun held => absurd ((lineHeld_iff low s).mp held).2.2 (Nat.not_le.mpr h)

/-- Settles O32. -/
theorem fuelcutLineFiltered : Obligations.FuelcutLineFiltered := by
  unfold Obligations.FuelcutLineFiltered
  refine fun s released => ⟨fun low change => ?_, fun low same => ?_, fun short => ⟨?_, ?_⟩, fun high cut held => ?_⟩
  · exact take_of_released released (by simp [lineChanges, change])
  · exact take_of_released released (by simp [lineChanges, same])
  · exact takeDue_of_not_due (lineHeld_of_short short true)
  · exact takeDue_of_not_due (lineHeld_of_short short false)
  · exact takeDue_of_due released ((lineHeld_iff false s).mpr ⟨high, cut, held⟩) rfl

/-! ## The class of a sample (R154) -/

/-- The least sample that a band in force does not class CRITICAL. -/
def lowLimit : SupplyBand → Nat
  | .critical => 290
  | _ => 280

/-- The least sample that a band in force classes NORMAL. -/
def normalLimit : SupplyBand → Nat
  | .normal => 360
  | _ => 370

/-- The limits lie below the largest sample, so its clamping changes no class. -/
theorem classOf_clamped (band : SupplyBand) (v : Nat) :
    classOf band (min 800 v) =
      if v < lowLimit band then .critical else if v < normalLimit band then .low else .normal := by
  have below (n : Nat) (h : n ≤ 800) : min 800 v < n ↔ v < n := by omega
  cases band with
  | critical => exact if_congr (below 290 (by decide)) rfl (if_congr (below 370 (by decide)) rfl rfl)
  | low => exact if_congr (below 280 (by decide)) rfl (if_congr (below 370 (by decide)) rfl rfl)
  | normal => exact if_congr (below 280 (by decide)) rfl (if_congr (below 360 (by decide)) rfl rfl)

theorem eq_code_of_ranks {rank : SupplyBand → Nat} (h0 : rank .critical = 0) (h1 : rank .low = 1)
    (h2 : rank .normal = 2) : rank = SupplyBand.code := by
  funext x
  cases x
  · exact h0
  · exact h1
  · exact h2

theorem sideOf_of_ne {band x : SupplyBand} (h : x ≠ band) :
    sideOf band x = if x.code < band.code then .down else .up := by
  cases band <;> cases x <;> first | exact absurd rfl h | rfl

/-! ## The filter (R155) -/

theorem fullRun_of_four {r : RunControl} (h : r.filterRun = 4) : r.fullRun = r.filterNearest := by
  simp [RunControl.fullRun, h]

theorem fullRun_of_not_four {r : RunControl} (h : r.filterRun ≠ 4) : r.fullRun = none := by
  simp [RunControl.fullRun, h]

section
variable {x : SupplyBand} {s : State}

theorem filterSample_of_in_force (h : x = s.run.band) : filterSample x s = s.withRun s.run.clearFilter := by
  simp [filterSample, h]

theorem filterSample_of_not_full (h : x ≠ s.run.band) (hf : (s.run.countSample x).fullRun = none) :
    filterSample x s = s.withRun (s.run.countSample x) := by
  simp [filterSample, h, hf]

theorem filterSample_of_full {new : SupplyBand} (h : x ≠ s.run.band)
    (hf : (s.run.countSample x).fullRun = some new) :
    filterSample x s = changeBand new (s.withRun (s.run.countSample x)) := by
  simp [filterSample, h, hf]

theorem countSample_of_turned (hd : s.run.filterDir ≠ sideOf s.run.band x) :
    s.run.countSample x =
      { s.run with filterRun := 1, filterDir := sideOf s.run.band x, filterNearest := some x } := by
  simp [RunControl.countSample, hd]

theorem countSample_of_straight (hd : s.run.filterDir = sideOf s.run.band x) :
    s.run.countSample x =
      { s.run with
        filterRun := s.run.filterRun + 1
        filterNearest := some (nearerBand s.run.band s.run.filterNearest x) } := by
  simp [RunControl.countSample, hd]

theorem filterSample_of_turned (h : x ≠ s.run.band) (hd : s.run.filterDir ≠ sideOf s.run.band x) :
    filterSample x s =
      s.withRun { s.run with filterRun := 1, filterDir := sideOf s.run.band x, filterNearest := some x } := by
  rw [filterSample_of_not_full h (fullRun_of_not_four ?_), countSample_of_turned hd]
  simp [countSample_of_turned hd]

theorem filterSample_of_short (h : x ≠ s.run.band) (hd : s.run.filterDir = sideOf s.run.band x)
    (hr : s.run.filterRun ≠ 3) :
    filterSample x s =
      s.withRun
        { s.run with
          filterRun := s.run.filterRun + 1
          filterNearest := some (nearerBand s.run.band s.run.filterNearest x) } := by
  rw [filterSample_of_not_full h (fullRun_of_not_four ?_), countSample_of_straight hd]
  simpa [countSample_of_straight hd] using hr

theorem filterSample_of_fourth (h : x ≠ s.run.band) (hd : s.run.filterDir = sideOf s.run.band x)
    (hr : s.run.filterRun = 3) :
    filterSample x s =
      changeBand (nearerBand s.run.band s.run.filterNearest x)
        (s.withRun
          { s.run with
            filterRun := s.run.filterRun + 1
            filterNearest := some (nearerBand s.run.band s.run.filterNearest x) }) := by
  have full : (s.run.countSample x).fullRun = some (nearerBand s.run.band s.run.filterNearest x) := by
    rw [countSample_of_straight hd]
    exact fullRun_of_four (by simp [hr])
  rw [filterSample_of_full h full, countSample_of_straight hd]

end

/-- The state that takes a sample, at the moment of it (R154). -/
def sampled (s : State) : State := s.withRun { s.run with lastSample := s.run.lastSample + 2000 }

@[simp] theorem sampled_band (s : State) : (sampled s).run.band = s.run.band := by simp [sampled]
@[simp] theorem sampled_filterRun (s : State) : (sampled s).run.filterRun = s.run.filterRun := by simp [sampled]
@[simp] theorem sampled_filterDir (s : State) : (sampled s).run.filterDir = s.run.filterDir := by simp [sampled]
@[simp] theorem sampled_filterNearest (s : State) : (sampled s).run.filterNearest = s.run.filterNearest := by
  simp [sampled]

theorem takeSample_eq (v : Nat) (s : State) :
    takeSample v s = filterSample (classOf s.run.band (min 800 v)) (sampled s) := rfl

/-- Settles O34: a sample is classed, and its class clears, turns, advances or completes the filter's run. -/
theorem supplyFilterTakesSample : Obligations.SupplyFilterTakesSample := by
  unfold Obligations.SupplyFilterTakesSample
  intro s v low normal x near side rank gap released due hlow hnormal hx h0 h1 h2 hside hgap hnear
  obtain rfl := eq_code_of_ranks h0 h1 h2
  have hnear : nearerBand s.run.band s.run.filterNearest x = near := by
    rw [hnear]
    cases s.run.filterNearest with
    | none => rfl
    | some y =>
      refine if_congr ?_ rfl rfl
      rw [hgap, hgap, bandGap, bandGap, Nat.add_comm (x.code - _), Nat.add_comm (y.code - _)]
  have hlow : low = lowLimit s.run.band := by
    rw [hlow]
    cases s.run.band <;> rfl
  have hnormal : normal = normalLimit s.run.band := by
    rw [hnormal]
    cases s.run.band <;> rfl
  have hx : classOf s.run.band (min 800 v) = x := by
    rw [classOf_clamped, ← hlow, ← hnormal, ← hx]
  have hside (h : x ≠ s.run.band) : sideOf s.run.band x = side := by rw [sideOf_of_ne h, hside]
  have taken : exec (.vbatSample v) s = .next (filterSample x (sampled s)) := by
    have due : sampleDue s = true := by
      unfold sampleDue
      exact decide_eq_true due
    rw [← hx, ← takeSample_eq]
    exact takeDue_of_due released due rfl
  rw [taken]
  refine ⟨fun same => ?_, fun other turned => ?_, fun other straight short => ?_, fun other straight three => ?_⟩
  · rw [filterSample_of_in_force (by simpa using same)]
    simp [sampled, RunControl.clearFilter]
  · rw [filterSample_of_turned (by simpa using other) (by simpa [hside other] using turned), sampled_band, hside other]
    simp [sampled]
  · rw [filterSample_of_short (by simpa using other) (by simpa [hside other] using straight) (by simpa using short),
      sampled_band, sampled_filterNearest, hnear]
    simp [sampled]
  · rw [filterSample_of_fourth (by simpa using other) (by simpa [hside other] using straight) (by simpa using three),
      sampled_band, sampled_filterNearest, hnear]
    simp [sampled, changeBand, RunControl.clearFilter]

/-! ## The clock monitor (R158, R159, R186) -/

theorem countPasses_iff (n : Nat) : countPasses (min 65535 n) = true ↔ 1400 ≤ n ∧ n ≤ 1800 := by
  simp only [countPasses, Bool.and_eq_true, decide_eq_true_eq, Config.monitorLow, Config.monitorHigh]
  omega

theorem windowEnds_of_pass {n : Nat} {s : State} (h : 1400 ≤ n ∧ n ≤ 1800 ∨ s.run.monitor = false) :
    windowEnds n s = s := by
  rw [← countPasses_iff] at h
  rcases h with h | h <;> simp [windowEnds, h]

theorem windowEnds_of_fail {n : Nat} {s : State} (hm : s.run.monitor = true) (h : n < 1400 ∨ 1800 < n) :
    windowEnds n s = switchClock (min 65535 n) s := by
  have fails : countPasses (min 65535 n) = false := Bool.eq_false_iff.mpr fun passes => by
    have := (countPasses_iff n).mp passes
    omega
  simp [windowEnds, hm, fails]

/-- Settles O35: the switch after a reset with a dead crystal is run out on the reset state. -/
theorem monitorWindowJudged : Obligations.MonitorWindowJudged := by
  unfold Obligations.MonitorWindowJudged
  refine ⟨fun s n released => ⟨fun pass => take_of_released released (windowEnds_of_pass pass),
    fun monitor fail => take_of_released released (windowEnds_of_fail monitor fail)⟩, fun s w low v => ?_⟩
  refine ⟨resetState w low { vbat := v, crystal := some 0 } s.pending,
    switchClock 0 (resetState w low { vbat := v, crystal := some 0 } s.pending), rfl, rfl,
    take_of_released rfl (windowEnds_of_fail rfl (.inl (by decide))), ?_⟩
  rw [switchClock, queueNotice_of_enabled (show resetEnable.getLsbD 9 = true by decide)]
  exact ⟨rfl, rfl, rfl, rfl, rfl⟩

end Sys2Proof.Machine
end

section
/-! The receiving side of the link (R161 to R164): a byte in each framer state, and a whole frame read from its bytes. -/

namespace Sys2Proof.Machine

/-! ## An event of the received line (R157, R161, R186) -/

section
variable {f : State → State} {s : State}

theorem takeHeard_of_standing (h : s.run.stands = true) : takeHeard f s = .next s := by
  simp [takeHeard, take, h]

theorem takeHeard_of_running (hr : s.resetHeld = false) (h : s.run.stands = false) : takeHeard f s = .next (f s) := by
  simp [takeHeard, take, hr, h]

end

/-! ## One byte (R163) -/

theorem Link.discard_eq (l : Link) :
    l.discard =
      { l with framer := .hunt, byteDeadline := none, frameErrors := min 255 (l.frameErrors + 1) } := rfl

section
variable {l : Link} {x : Byte} {now : Tick}

theorem Link.byteArrives_error_hunt (h : l.framer = .hunt) : l.byteArrives x true now = l := by
  simp [Link.byteArrives, Link.inHunt, h]

theorem Link.byteArrives_error_frame (h : l.framer ≠ .hunt) : l.byteArrives x true now = l.discard := by
  simp [Link.byteArrives, Link.inHunt, h]

/-- The start byte opens a frame and sets no inter-byte deadline (log entry 12). -/
theorem Link.byteArrives_start (h : l.framer = .hunt) :
    l.byteArrives 0xA5 false now = { l with framer := .length } := by
  simp [Link.byteArrives, Link.takeByte, h, Link.setDeadline, Link.inHunt, Link.toFramer]

theorem Link.byteArrives_noise (h : l.framer = .hunt) (hx : x ≠ 0xA5) :
    l.byteArrives x false now = { l with byteDeadline := none } := by
  have taken : l.takeByte x = l := by
    simp only [Link.takeByte, h]
    exact if_neg hx
  simp [Link.byteArrives, taken, Link.setDeadline, Link.inHunt, h]

/-- A byte taken within a frame, that leaves the framer within it, sets the deadline. -/
theorem Link.byteArrives_within {y : Framer} (h : l.framer ≠ .hunt) (ht : l.takeByte x = l.toFramer y)
    (hy : y ≠ .hunt) :
    l.byteArrives x false now = { l with framer := y, byteDeadline := some (later now 120) } := by
  simp [Link.byteArrives, ht, Link.setDeadline, Link.inHunt, Link.toFramer, h, hy]

theorem Link.byteArrives_long (h : l.framer = .length) (hx : 60 < x.toNat) :
    l.byteArrives x false now = l.discard := by
  have taken : l.takeByte x = l.discard := by simp [Link.takeByte, h, Nat.not_le.mpr hx]
  have hunting : l.discard.inHunt = true := rfl
  simp [Link.byteArrives, taken, Link.setDeadline, hunting]
  rfl

theorem Link.byteArrives_length (h : l.framer = .length) (hx : x.toNat ≤ 60) :
    l.byteArrives x false now = { l with framer := .kind x.toNat, byteDeadline := some (later now 120) } :=
  Link.byteArrives_within (by simp [h]) (by simp [Link.takeByte, h, hx]) (by simp)

end

theorem exec_byteReceived_of_standing {s : State} (h : s.run.stands = true) (x : Byte) (bad : Bool) :
    exec (.byteReceived x bad) s = .next s :=
  takeHeard_of_standing (f := fun t => t.withLink (t.link.byteArrives x bad t.timebase)) h

theorem exec_byteReceived_of_running {s : State} (hr : s.resetHeld = false) (h : s.run.stands = false) (x : Byte)
    (bad : Bool) : exec (.byteReceived x bad) s = .next (s.withLink (s.link.byteArrives x bad s.timebase)) :=
  takeHeard_of_running (f := fun t => t.withLink (t.link.byteArrives x bad t.timebase)) hr h

/-- Settles O36. -/
theorem byteTakenByFramer : Obligations.ByteTakenByFramer := by
  unfold Obligations.ByteTakenByFramer
  refine fun s x released => ⟨fun stands bad => exec_byteReceived_of_standing stands x bad, fun runs => ?_⟩
  rw [exec_byteReceived_of_running released runs, exec_byteReceived_of_running released runs]
  refine ⟨fun hunt => ⟨?_, ?_⟩, fun length => ?_, fun frame => ?_⟩
  · rw [Link.byteArrives_error_hunt hunt]
    rfl
  · by_cases hx : x = 0xA5
    · rw [hx, Link.byteArrives_start hunt]
      rfl
    · rw [Link.byteArrives_noise hunt hx, if_neg hx, if_neg hx, ← hunt]
  · by_cases hx : x.toNat ≤ 60
    · rw [Link.byteArrives_length length hx, if_pos hx]
      simp [later]
    · rw [Link.byteArrives_long length (Nat.lt_of_not_le hx), if_neg hx, Link.discard_eq]
  · rw [Link.byteArrives_error_frame frame, Link.discard_eq]

theorem byteDeadlineDue_of_deadline {s : State} {u : Tick} (h : s.link.byteDeadline = some u) :
    byteDeadlineDue s = reached u s.timebase := by
  simp [byteDeadlineDue, h]

/-- Settles O38. -/
theorem interByteDeadlineDiscards : Obligations.InterByteDeadlineDiscards := by
  unfold Obligations.InterByteDeadlineDiscards
  intro s u released hu
  rw [← byteDeadlineDue_of_deadline hu]
  exact ⟨fun due => takeDue_of_due (f := fun t => t.withLink t.link.discard) released due rfl,
    fun early => takeDue_of_not_due (f := fun t => t.withLink t.link.discard) early⟩

/-! ## The bytes of a frame, one after another (R162, R163) -/

/-- The link after a list of sound bytes, each with its time. -/
def Link.hears (l : Link) (xs : List (Byte × Tick)) : Link :=
  xs.foldl (fun m xt => m.byteArrives xt.1 false xt.2) l

@[simp] theorem Link.hears_nil (l : Link) : l.hears [] = l := rfl

@[simp] theorem Link.hears_cons (l : Link) (x : Byte) (t : Tick) (xs : List (Byte × Tick)) :
    l.hears ((x, t) :: xs) = (l.byteArrives x false t).hears xs := rfl

theorem Link.hears_append (l : Link) (xs ys : List (Byte × Tick)) : l.hears (xs ++ ys) = (l.hears xs).hears ys :=
  List.foldl_append

/-- The link within a frame: the framer's state, and a deadline set. -/
def Link.reading (l : Link) (x : Framer) (d : Tick) : Link := { l with framer := x, byteDeadline := some d }

theorem Link.reading_arrives {l : Link} {x y : Framer} {d t : Tick} {b : Byte} (hx : x ≠ .hunt) (hy : y ≠ .hunt)
    (h : (l.reading x d).takeByte b = (l.reading x d).toFramer y) :
    (l.reading x d).byteArrives b false t = l.reading y (later t 120) :=
  Link.byteArrives_within hx h hy

theorem afterPayload_ne_hunt (n : Nat) (kind tag : Byte) (got : List Byte) :
    afterPayload n kind tag got ≠ .hunt := by
  unfold afterPayload
  split <;> simp

/-- The payload bytes gather in the framer, which then waits for the CRC. -/
theorem Link.hears_payload (l : Link) (kind tag : Byte) (n : Nat) (p : List Byte) :
    ∀ (got : List Byte) (ts : List Tick) (d : Tick), got.length + p.length = n → ts.length = p.length →
      ∃ d', (l.reading (afterPayload n kind tag got) d).hears (p.zip ts)
        = l.reading (.crcHigh kind tag (got ++ p)) d' := by
  induction p with
  | nil =>
    intro got ts d hn _
    have whole : ¬ got.length < n := by simp at hn; omega
    exact ⟨d, by simp [afterPayload, whole]⟩
  | cons x p ih =>
    intro got ts d hn hts
    cases ts with
    | nil => simp at hts
    | cons t ts =>
      have more : got.length < n := by simp at hn; omega
      obtain ⟨d', hd'⟩ := ih (got ++ [x]) ts (later t 120) (by simp at hn ⊢; omega) (by simpa using hts)
      refine ⟨d', ?_⟩
      have arrives : (l.reading (.payload n kind tag got) d).byteArrives x false t
          = l.reading (afterPayload n kind tag (got ++ [x])) (later t 120) :=
        Link.reading_arrives (by simp) (afterPayload_ne_hunt _ _ _ _) rfl
      rw [afterPayload, if_pos more, List.zip_cons_cons, Link.hears_cons, arrives, hd', List.append_assoc]
      rfl

/-- The high byte of the CRC a frame carries. -/
def Frame.crcHighByte (f : Frame) : Byte := byte ((crc16 f.covered).toNat / 256)

/-- The low byte of the CRC a frame carries. -/
def Frame.crcLowByte (f : Frame) : Byte := byte (crc16 f.covered).toNat

/-- A frame on the line without its last byte. -/
def Frame.wireHead (f : Frame) : List Byte :=
  [0xA5, byte f.payload.length, f.kind, f.tag] ++ f.payload ++ [f.crcHighByte]

theorem Frame.wire_eq (f : Frame) : f.wire = f.wireHead ++ [f.crcLowByte] := by
  simp [Frame.wire, Frame.covered, Frame.wireHead, Frame.crcHighByte, Frame.crcLowByte, be16]

theorem Frame.wireHead_length (f : Frame) : f.wireHead.length = f.payload.length + 5 := by
  simp [Frame.wireHead]

theorem byte_toNat {n : Nat} (h : n < 256) : (byte n).toNat = n := by
  simp [byte, Nat.mod_eq_of_lt h]

/-- All bytes but the last bring the framer to the check. -/
theorem Link.hears_wireHead {l : Link} {f : Frame} (h : l.framer = .hunt) (hf : f.payload.length ≤ 60) {ts : List Tick}
    (hts : ts.length = f.payload.length + 5) :
    ∃ d, l.hears (f.wireHead.zip ts) = l.reading (.crcLow f.kind f.tag f.payload f.crcHighByte) d := by
  have len : (byte f.payload.length).toNat = f.payload.length := byte_toNat (by omega)
  match ts, hts with
  | t0 :: t1 :: t2 :: t3 :: ts, hts =>
    obtain ⟨body, last, rfl, hbody⟩ : ∃ body last, ts = body ++ [last] ∧ body.length = f.payload.length := by
      refine ⟨ts.dropLast, ts.getLast (by rintro rfl; simp at hts), (List.dropLast_append_getLast _).symm, ?_⟩
      simp at hts ⊢
      omega
    have length : ({ l with framer := .length } : Link).byteArrives (byte f.payload.length) false t1
        = l.reading (.kind f.payload.length) (later t1 120) := by
      rw [Link.byteArrives_length rfl (by omega), len]
      rfl
    have kind : (l.reading (.kind f.payload.length) (later t1 120)).byteArrives f.kind false t2
        = l.reading (.tag f.payload.length f.kind) (later t2 120) :=
      Link.reading_arrives (by simp) (by simp) rfl
    have tag : (l.reading (.tag f.payload.length f.kind) (later t2 120)).byteArrives f.tag false t3
        = l.reading (afterPayload f.payload.length f.kind f.tag []) (later t3 120) :=
      Link.reading_arrives (by simp) (afterPayload_ne_hunt _ _ _ _) rfl
    obtain ⟨d, payload⟩ := l.hears_payload f.kind f.tag f.payload.length f.payload [] body (later t3 120)
      (by simp) hbody
    have crc : (l.reading (.crcHigh f.kind f.tag f.payload) d).byteArrives f.crcHighByte false last
        = l.reading (.crcLow f.kind f.tag f.payload f.crcHighByte) (later last 120) :=
      Link.reading_arrives (by simp) (by simp) rfl
    have split : f.wireHead.zip (t0 :: t1 :: t2 :: t3 :: (body ++ [last]))
        = (0xA5, t0) :: (byte f.payload.length, t1) :: (f.kind, t2) :: (f.tag, t3) ::
            (f.payload.zip body ++ [(f.crcHighByte, last)]) := by
      simp [Frame.wireHead, List.zip_append hbody.symm]
    refine ⟨later last 120, ?_⟩
    rw [split, Link.hears_cons, Link.byteArrives_start h, Link.hears_cons, length, Link.hears_cons, kind,
      Link.hears_cons, tag, Link.hears_append, payload, List.nil_append, Link.hears_cons, crc, Link.hears_nil]

/-! ## The check (R164) -/

theorem crc_bytes (f : Frame) (x : Byte) : crc16 f.covered = (f.crcHighByte ++ x : BitVec 16) ↔ x = f.crcLowByte := by
  have low : x.toNat < 256 := x.isLt
  have whole : (crc16 f.covered).toNat < 65536 := (crc16 f.covered).isLt
  rw [← ofNat_wordAt_pair, wordAt_pair, ← BitVec.toNat_inj, ← BitVec.toNat_inj]
  simp only [Frame.crcHighByte, Frame.crcLowByte, byte, BitVec.toNat_ofNat]
  omega

/-- The last byte decides: a good frame is accepted, any other discarded. -/
theorem Link.reading_last (l : Link) (f : Frame) (d t : Tick) (x : Byte) :
    (l.reading (.crcLow f.kind f.tag f.payload f.crcHighByte) d).byteArrives x false t =
      if x = f.crcLowByte then ({ l with framer := .hunt, byteDeadline := none } : Link).accept f
      else l.discard := by
  have checked : (l.reading (.crcLow f.kind f.tag f.payload f.crcHighByte) d).takeByte x =
      if x = f.crcLowByte then ({ l with framer := .hunt, byteDeadline := none } : Link).accept f
      else l.discard := if_congr (crc_bytes f x) rfl rfl
  rw [Link.byteArrives, if_neg (by simp), checked]
  split
  · unfold Link.accept
    split <;> rfl
  · rfl

/-- A frame's bytes but the last, and then any byte. -/
theorem Link.hears_frame {l : Link} {f : Frame} (h : l.framer = .hunt) (hf : f.payload.length ≤ 60) {ts : List Tick}
    (hts : ts.length = f.payload.length + 6) (x : Byte) :
    l.hears ((f.wireHead ++ [x]).zip ts) =
      if x = f.crcLowByte then ({ l with framer := .hunt, byteDeadline := none } : Link).accept f
      else l.discard := by
  have some_time : ts ≠ [] := by rintro rfl; simp at hts
  have init : ts.dropLast.length = f.payload.length + 5 := by simp [hts]
  obtain ⟨d, hd⟩ := Link.hears_wireHead h hf init
  rw [← List.dropLast_append_getLast some_time, List.zip_append (by rw [init, Frame.wireHead_length]),
    Link.hears_append, hd]
  exact Link.reading_last ..

/-- Settles O37: the framer's states follow the fields of the frame, and the last byte decides. -/
theorem frameReadFromItsBytes : Obligations.FrameReadFromItsBytes := by
  unfold Obligations.FrameReadFromItsBytes
  intro l f times hunt fits htimes
  have last (x : Byte) := Link.hears_frame hunt fits htimes x
  have whole : l.hears (f.wire.zip times) = ({ l with framer := .hunt, byteDeadline := none } : Link).accept f := by
    rw [Frame.wire_eq, last, if_pos rfl]
  refine ⟨fun room => ?_, fun full => ?_, fun x hx => ?_⟩
  · exact whole.trans (by simp [Link.accept, room])
  · exact whole.trans (by simp [Link.accept, Nat.not_lt.mpr full, Link.countError, satAdd])
  · rw [Frame.wire_eq, List.getLast?_concat] at hx
    rw [Frame.wire_eq, List.dropLast_concat]
    exact (last x).trans (if_neg fun same => hx (congrArg some same))

end Sys2Proof.Machine
end

section
/-! The sending side of the link (R160, R161, R165 to R168): the bits on the line, the next frame, the place and the frame
of a notice, and what becomes of a request before its owner sees it. -/

namespace Sys2Proof.Machine

/-! ## The bits of a frame on the line (R161) -/

theorem byteLevels_length (x : Byte) : (byteLevels x).length = 10 := rfl

theorem flatMap_byteLevels_length (xs : List Byte) : (xs.flatMap byteLevels).length = 10 * xs.length := by
  induction xs with
  | nil => rfl
  | cons x xs ih =>
    rw [List.flatMap_cons, List.length_append, ih, byteLevels_length, List.length_cons]
    omega

/-- Bit `k` of byte `j`: the bytes stand back to back, ten bits each. -/
theorem flatMap_byteLevels_get {xs : List Byte} {j k : Nat} {x : Byte} (hj : xs[j]? = some x) (hk : k < 10) :
    (xs.flatMap byteLevels)[10 * j + k]? = (byteLevels x)[k]? := by
  induction xs generalizing j with
  | nil => simp at hj
  | cons y xs ih =>
    rw [List.flatMap_cons]
    cases j with
    | zero =>
      obtain rfl : y = x := by simpa using hj
      rw [List.getElem?_append_left (by rw [byteLevels_length]; omega), Nat.mul_zero, Nat.zero_add]
    | succ j =>
      rw [List.getElem?_append_right (by rw [byteLevels_length]; omega), byteLevels_length,
        show 10 * (j + 1) + k - 10 = 10 * j + k by omega]
      exact ih (by simpa using hj)

theorem byteLevels_get (x : Byte) {k : Nat} (hk : k < 10) :
    (byteLevels x)[k]? = some (if k < 1 then false else if k < 9 then x.getLsbD (k - 1) else true) := by
  interval_cases k <;> rfl

theorem Frame.wire_length (f : Frame) : f.wire.length = f.payload.length + 6 := by
  rw [Frame.wire_eq, List.length_append, Frame.wireHead_length]
  rfl

theorem Frame.levelAt_of_byte {f : Frame} {j n : Nat} {x : Byte} (hn : n < 20) (hx : f.wire[j]? = some x) :
    f.levelAt (20 * j + n) = if n < 2 then false else if n < 18 then x.getLsbD (n / 2 - 1) else true := by
  have half : (20 * j + n) / 2 = 10 * j + n / 2 := by omega
  rw [Frame.levelAt, half, Frame.levels, flatMap_byteLevels_get hx (by omega), byteLevels_get x (by omega),
    Option.getD_some]
  exact if_congr (by omega) rfl (if_congr (by omega) rfl rfl)

theorem Frame.levelAt_past {f : Frame} {t : Nat} (h : 20 * (f.payload.length + 6) ≤ t) : f.levelAt t = true := by
  have past : f.levels.length ≤ t / 2 := by
    rw [Frame.levels, flatMap_byteLevels_length, Frame.wire_length]
    omega
  rw [Frame.levelAt, List.getElem?_eq_none past]
  rfl

theorem elapsed_later {t : Tick} {n : Nat} (h : n < 4294967296) : elapsed t (later t n) = n := by
  simp [elapsed, later, Nat.mod_eq_of_lt h]

theorem Sending.sentFor_of_begun (f : Frame) (begun : Tick) {t : Nat} (h : t < 4294967296) :
    ({ frame := f, doneAt := later begun (20 * (f.payload.length + 6)) } : Sending).sentFor (later begun t) = t := by
  have back : later begun (20 * (f.payload.length + 6)) - BitVec.ofNat 32 f.ticks = begun :=
    BitVec.add_sub_cancel ..
  rw [Sending.sentFor, back, elapsed_later h]

/-! ## The next frame (R166) -/

theorem frameSentDue_of_sending {s : State} {x : Sending} (h : s.link.sending = some x) :
    frameSentDue s = reached x.doneAt s.timebase := by
  simp [frameSentDue, h]

section
variable {l : Link} {now : Tick}

theorem Link.takeFrame_of_reply {f : Frame} {rest : List Frame} (hs : l.sending = none) (h : l.replies = f :: rest) :
    l.takeFrame now = { l with replies := rest, sending := some (beginFrame f now) } := by
  simp [Link.takeFrame, hs, h]

theorem Link.takeFrame_of_notice {n : Notice} {rest : List Notice} (hs : l.sending = none) (hr : l.replies = [])
    (h : l.notices = n :: rest) :
    l.takeFrame now = { l with notices := rest, sending := some (beginFrame n.frame now) } := by
  simp [Link.takeFrame, hs, hr, h]

theorem Link.takeFrame_of_none (hs : l.sending = none) (hr : l.replies = []) (h : l.notices = []) :
    l.takeFrame now = l := by
  simp [Link.takeFrame, hs, hr, h]

end

/-- Settles O39. -/
theorem frameSentTakesNext : Obligations.FrameSentTakesNext := by
  unfold Obligations.FrameSentTakesNext
  refine ⟨fun s h => ?_, fun s f begun t released _ hsend htime ht => ?_, fun s x released hx reach => ?_⟩
  · rcases h with held | idle
    · simp [txd, held]
    · simp [txd, idle]
  · have level : txd s = f.levelAt t := by
      simp only [txd, released, hsend, Bool.false_eq_true, if_false]
      rw [htime, Sending.sentFor_of_begun f begun ht]
    rw [level]
    refine ⟨fun j n x hjn hn hx => ?_, Frame.levelAt_past⟩
    rw [hjn]
    exact Frame.levelAt_of_byte hn hx
  · have ended : exec .frameSent s = .next (endFrame s) :=
      takeDue_of_due released ((frameSentDue_of_sending hx).trans reach) rfl
    rw [ended, endFrame]
    refine ⟨fun f rest hf => ?_, fun n rest hr hn => ?_, fun hr hn => ?_⟩
    · rw [Link.takeFrame_of_reply (l := { s.link with sending := none }) rfl hf]
      rfl
    · rw [Link.takeFrame_of_notice (l := { s.link with sending := none }) rfl hr hn]
      rfl
    · rw [Link.takeFrame_of_none (l := { s.link with sending := none }) rfl hr hn]

/-! ## What becomes of a frame before its owner sees it (R163 to R165) -/

section
variable {f : Frame} {served : State → State} {s : State}

theorem servesNow_of_ready (h : LinkReady s) : servesNow s.link = true := by
  obtain ⟨_, _, empty, room⟩ := h
  simp [servesNow, empty, room]

theorem servesNow_of_waiting (h : s.link.inbound ≠ [] ∨ 4 ≤ s.link.replies.length) : servesNow s.link = false := by
  rcases h with waiting | full
  · simp [servesNow, waiting]
  · simp [servesNow, Nat.not_lt.mpr full]

theorem arrive_of_ready (hf : f.payload.length ≤ 60) (h : LinkReady s) : arrive f served s = served s := by
  simp [arrive, Nat.not_lt.mpr hf, servesNow_of_ready h]

theorem arrive_of_waiting (hf : f.payload.length ≤ 60) (h : s.link.inbound ≠ [] ∨ 4 ≤ s.link.replies.length) :
    arrive f served s = s.withLink (s.link.accept f) := by
  simp [arrive, Nat.not_lt.mpr hf, servesNow_of_waiting h]

end

theorem Link.accept_of_room {l : Link} (h : l.inbound.length < 4) (f : Frame) :
    l.accept f = { l with inbound := l.inbound ++ [f] } := by
  simp [Link.accept, h]

theorem Link.accept_of_full {l : Link} (h : 4 ≤ l.inbound.length) (f : Frame) :
    l.accept f = { l with frameErrors := min 255 (l.frameErrors + 1) } := by
  simp [Link.accept, Nat.not_lt.mpr h, Link.countError, satAdd]

/-- Settles O41. -/
theorem unknownKindRefused : Obligations.UnknownKindRefused := by
  unfold Obligations.UnknownKindRefused
  intro s kind tag p released hkind fits
  have unknown : isRequestKind kind = false := by
    simp only [isRequestKind, Bool.and_eq_false_iff, decide_eq_false_iff_not]
    omega
  have taken : exec (.unknownKind kind tag p) s =
      takeHeard (arrive { kind := kind, tag := tag, payload := p } (refuseKind kind tag)) s := by
    simp [exec, execUnknownKind, unknown]
  rw [taken]
  refine ⟨fun ready => ?_, fun runs waiting => ?_, takeHeard_of_standing⟩
  · have runs : s.run.stands = false := ready.2.1
    rw [takeHeard_of_running released runs, arrive_of_ready fits ready]
    rfl
  · rw [takeHeard_of_running released runs, arrive_of_waiting fits waiting]

/-- A request command is the arrival of a frame of its kind (log entry 8). -/
theorem exec_requestCommand {kind : Nat} {tag : Byte} {p : List Byte} {c : Instr}
    (h : requestCommand kind tag p = some c) : ∃ owner, ∀ s, exec c s = Machine.request kind owner tag p s := by
  unfold requestCommand at h
  split at h
  case h_25 => cases h
  all_goals
    cases h
    exact ⟨_, fun _ => rfl⟩

theorem serve_of_bad_length {kind : Nat} {p : List Byte} (h : lengthAllowed kind p = false) (owner : Owner) (tag : Byte)
    (s : State) : serve kind owner tag p s = pushReply (byte kind) tag (.refused .badLength) s := by
  simp [serve, h]

/-- Settles O42. -/
theorem requestAcceptedOrQueued : Obligations.RequestAcceptedOrQueued := by
  unfold Obligations.RequestAcceptedOrQueued
  intro s kind tag p c released hc fits
  obtain ⟨owner, hexec⟩ := exec_requestCommand hc
  rw [hexec, Machine.request]
  refine ⟨fun ready badLength => ?_, fun runs => ⟨fun waiting room => ?_, fun full => ?_⟩, takeHeard_of_standing⟩
  · have runs : s.run.stands = false := ready.2.1
    rw [takeHeard_of_running released runs, arrive_of_ready fits ready, serve_of_bad_length badLength]
    rfl
  · rw [takeHeard_of_running released runs, arrive_of_waiting fits waiting, Link.accept_of_room room]
  · have waiting : s.link.inbound ≠ [] := fun empty => by simp [empty] at full
    rw [takeHeard_of_running released runs, arrive_of_waiting fits (.inl waiting), Link.accept_of_full full]

/-! ## The place of a notice (R167, R168) -/

theorem Notice.isRoutine_iff (n : Notice) : n.isRoutine = true ↔ n.body.level = .routine := by
  unfold Notice.isRoutine
  cases n.body.level <;> decide

theorem Notice.isRoutine_of_urgent {n : Notice} (h : n.body.level = .urgent) : n.isRoutine = false := by
  rw [Notice.isRoutine, h]
  decide

section
variable {l : Link} {n : Notice}

theorem Link.enqueueNotice_of_room (h : l.notices.length < 16) :
    l.enqueueNotice n = { l with notices := l.notices ++ [n] } := by
  simp [Link.enqueueNotice, h]

theorem Link.enqueueNotice_of_routine (h : 16 ≤ l.notices.length) (hn : n.body.level = .routine) :
    l.enqueueNotice n = { l with lost := min 255 (l.lost + 1) } := by
  simp [Link.enqueueNotice, Nat.not_lt.mpr h, (Notice.isRoutine_iff n).mpr hn, Link.countLost, satAdd]

theorem Link.enqueueNotice_of_all_urgent (h : 16 ≤ l.notices.length) (hn : n.body.level = .urgent)
    (hl : ∀ m ∈ l.notices, m.body.level = .urgent) :
    l.enqueueNotice n = { l with lost := min 255 (l.lost + 1) } := by
  have none_routine : l.notices.any Notice.isRoutine = false :=
    List.any_eq_false.mpr fun m hm => by simp [Notice.isRoutine_of_urgent (hl m hm)]
  simp only [Link.enqueueNotice, Nat.not_lt.mpr h, Notice.isRoutine_of_urgent hn, none_routine, if_false,
    Bool.false_eq_true, Link.countLost, satAdd]

/-- The oldest ROUTINE notice gives way. -/
theorem Link.enqueueNotice_of_displaced {old new : List Notice} {m : Notice} (h : 16 ≤ l.notices.length)
    (hn : n.body.level = .urgent) (hl : l.notices = old ++ m :: new) (ho : ∀ k ∈ old, k.body.level = .urgent)
    (hm : m.body.level = .routine) :
    l.enqueueNotice n = { l with notices := old ++ new ++ [n], lost := min 255 (l.lost + 1) } := by
  have routine := (Notice.isRoutine_iff m).mpr hm
  have some_routine : l.notices.any Notice.isRoutine = true := by
    rw [hl]
    simp [routine]
  have erased : l.notices.eraseP Notice.isRoutine = old ++ new := by
    rw [hl, List.eraseP_append_right _ fun k hk => by simp [Notice.isRoutine_of_urgent (ho k hk)],
      List.eraseP_cons_of_pos routine]
  simp only [Link.enqueueNotice, Nat.not_lt.mpr h, Notice.isRoutine_of_urgent hn, some_routine, erased, if_false,
    if_true, Bool.false_eq_true, Link.countLost, satAdd]

end

theorem NoticeBody.level_urgent_iff (x : NoticeBody) : x.level = .urgent ↔
    (∃ o m k, x = .syncChange o m k) ∨ (∃ c i h k, x = .cylDisabled c i h k) ∨ (∃ b, x = .fuelcutChange b) ∨
      (∃ o m, x = .supplyBand o m) ∨ (∃ i, x = .clockBackup i) ∨ (∃ i m, x = .planStale i m) ∨
      ∃ b i, x = .stopDone b i := by
  cases x <;> simp [NoticeBody.level]

theorem NoticeBody.level_cases (x : NoticeBody) : x.level = .urgent ∨ x.level = .routine := by
  cases x.level
  · exact .inl rfl
  · exact .inr rfl

/-- The frame of a notice: its fields follow its kind code and its time (R180). -/
theorem Notice.frame_eq {time : Tick} {f : Byte → List Byte → Frame}
    (hf : ∀ kind fields, f kind fields = { kind := kind, tag := 0, payload := be32 time.toNat ++ fields })
    (m : NoticeBody) :
    Notice.frame { time := time, body := m } = f (byte (0xC0 + m.index)) (noticeFields m) := by
  rw [hf]
  rfl

/-- Settles O40: the place by the space, then the frame of each kind by its fields, then the codes. -/
theorem noticeQueuedBySpace : Obligations.NoticeQueuedBySpace := by
  unfold Obligations.NoticeQueuedBySpace
  refine fun l n x s => ⟨Link.enqueueNotice_of_room, Link.enqueueNotice_of_routine, Link.enqueueNotice_of_all_urgent,
    fun _ _ _ => Link.enqueueNotice_of_displaced, queueNotice_of_disabled, NoticeBody.level_urgent_iff x,
    NoticeBody.level_cases, fun time f g hf hg => ?_, fun i => ⟨rfl, rfl, rfl⟩,
    rfl, rfl, rfl, rfl, rfl, rfl, rfl, rfl, rfl, rfl, rfl, rfl, rfl, rfl, rfl, rfl⟩
  have frame (m : NoticeBody) : g m = f (byte (0xC0 + m.index)) (noticeFields m) := by
    rw [hg, Notice.frame_eq hf]
  simp only [frame]
  refine ⟨fun _ _ _ => rfl, fun _ => rfl, fun _ _ => rfl, fun _ _ => rfl, fun _ => rfl, fun _ _ _ => rfl,
    fun _ _ _ _ => ⟨rfl, rfl⟩, fun _ _ _ => rfl, fun c r i k => ?_, fun _ _ => rfl, fun _ => rfl, fun b => ?_,
    fun b i => ?_, fun _ => rfl, fun _ => rfl⟩
  · rw [← toMicros_eq]
    rfl
  · rw [noticeFields, byte_bit]
    rfl
  · rw [noticeFields, byte_bit]
    rfl

/-! ## The reports (R30, R168, R175, R184) -/

theorem statusBytes_flags (p : PlanStore) :
    planFlags p = (if p.swapPending then 1 else 0) + (if p.stale then 2 else 0) := by
  rw [planFlags, mul_bit]
  rfl

theorem latchFlags_eq (t : Tracker) :
    latchFlags t = (if t.crankFault then 1 else 0) + (if t.camFault then 2 else 0) := by
  rw [latchFlags, mul_bit]
  rfl

theorem disabledFlags_eq (d : PerCyl Bool) :
    disabledFlags d = (if d.get .c1 then 1 else 0) + (if d.get .c2 then 2 else 0) + (if d.get .c3 then 4 else 0)
      + (if d.get .c4 then 8 else 0) + (if d.get .c5 then 16 else 0) + (if d.get .c6 then 32 else 0) := by
  simp only [disabledFlags, mul_bit]
  rfl

theorem PageIx.byte_code (ix : PageIx) : byte ix.code = match ix with | .p0 => 0 | .p1 => 1 := by
  cases ix <;> rfl

/-- Settles O44: each report's fields in their order, the flags by their bits. -/
theorem reportsClearTheirCount : Obligations.ReportsClearTheirCount := by
  unfold Obligations.ReportsClearTheirCount
  refine fun s tag ready => ⟨?_, fun hist hh => ?_⟩
  · refine request_acked ready (by simp) rfl (Prod.ext (congrArg Answer.ack ?_) rfl)
    rw [statusBytes, statusBytes_flags, latchFlags_eq, disabledFlags_eq, byte_bit, PageIx.byte_code]
    rfl
  · refine request_acked ready (by simp) rfl (Prod.ext (congrArg Answer.ack ?_) rfl)
    subst hh
    rw [trackerBytes, latchFlags_eq]
    simp [histInUse, periodAt, be16OrAbsent, List.getD_eq_getElem?_getD]

end Sys2Proof.Machine
end

section
/-! The tracker's moves (R20 to R23), the first and the spurious crank edge (R3, R12), the edge that carries the angle
(R39) and the speed (R41). -/

namespace Sys2Proof.Machine

/-! ## The moves of the sync state, by what the Firing Queue is told (R20 to R23) -/

section
variable {new : Sync} {s : State} (cause : SyncCause)

/-- A move between states that know no cycle angle is told to nobody. -/
theorem moveTo_untold (h : s.tracker.sync.holdsAngle = false) (k : new.holdsAngle = false) :
    moveTo new cause s =
      queueNotice (.syncChange s.tracker.sync new cause) (s.withTracker { s.tracker with sync := new }) := by
  simp [moveTo, tellMove, h, k, Tracker.lose]

theorem moveTo_gain (h : s.tracker.sync.holdsAngle = false) (k : new.holdsAngle = true) :
    moveTo new cause s =
      queueGain (queueNotice (.syncChange s.tracker.sync new cause) (s.withTracker { s.tracker with sync := new })) := by
  simp [moveTo, tellMove, h, k, Tracker.lose]

theorem moveTo_loss (h : s.tracker.sync.holdsAngle = true) (k : new.holdsAngle = false) :
    moveTo new cause s =
      landIfPending none (queueLoss (queueNotice (.syncChange s.tracker.sync new cause)
        (s.withTracker { s.tracker with sync := new, cam := { s.tracker.cam with hist := [], tp := none } }))) := by
  simp [moveTo, tellMove, h, k, Tracker.lose, Tracker.withCam]

theorem moveTo_toCam (h : s.tracker.sync = .fullSync) :
    moveTo .camLimp cause s =
      queueToCam (queueNotice (.syncChange .fullSync .camLimp cause)
        (s.withTracker { s.tracker with sync := .camLimp })) := by
  simp [moveTo, tellMove, h, Tracker.lose, Sync.holdsAngle]

theorem moveTo_toCrank (h : s.tracker.sync = .camLimp) :
    moveTo .fullSync cause s =
      queueToCrank (queueNotice (.syncChange .camLimp .fullSync cause)
        (s.withTracker { s.tracker with sync := .fullSync })) := by
  simp [moveTo, tellMove, h, Tracker.lose, Sync.holdsAngle]

end

/-! ## Crank edges before their class (R2, R3, R12) -/

theorem exec_crankEdge {s : State} (h : s.resetHeld = false) :
    exec .crankEdge s = .next (crankEdge (abortCoilCheck .edge s)) :=
  take_of_released (f := fun t => crankEdge (abortCoilCheck .edge t)) h rfl

theorem exec_camEdge {s : State} (h : s.resetHeld = false) :
    exec .camEdge s = .next (camEdge (abortCoilCheck .edge s)) :=
  take_of_released (f := fun t => camEdge (abortCoilCheck .edge t)) h rfl

section
variable {s : State}

theorem crankEdge_of_none (h : s.tracker.prevCrank = none) : crankEdge s = crankFirst s := by
  simp [crankEdge, h]

theorem crankEdge_of_some {p : Tick} (h : s.tracker.prevCrank = some p) :
    crankEdge s = crankMeasured (rawInterval p s.timebase) s := by
  simp [crankEdge, h]

theorem crankFirst_of_stopped (h : s.tracker.sync = .stopped) :
    crankFirst s =
      queueNotice (.syncChange .stopped .seeking .firstEdge)
        (s.withTracker
          { s.tracker with
            sync := .seeking, prevCrank := some s.timebase, stallRef := some s.timebase, crankHist := [],
            crankTp := none, refGap := false, gapCount := 0, cam := { s.tracker.cam with candidates := 0 } }) := by
  rw [crankFirst, if_pos h, moveTo_untold _ (by simp [h, Sync.holdsAngle]) rfl]
  simp [h]

theorem crankFirst_of_moving (h : s.tracker.sync ≠ .stopped) :
    crankFirst s = s.withTracker { s.tracker with prevCrank := some s.timebase, stallRef := some s.timebase } := by
  rw [crankFirst, if_neg h]

theorem crankMeasured_of_spurious {i : Nat} (h : crankSpurious s.tracker i = true) :
    crankMeasured i s = s.withTracker { s.tracker with spurious := min 255 (s.tracker.spurious + 1) } := by
  simp [crankMeasured, h, satAdd]

theorem crankMeasured_of_accepted {i : Nat} (h : crankSpurious s.tracker i = false) :
    crankMeasured i s =
      crankByState (crankClass s.tracker.crankHist i)
        (s.withTracker
          (s.tracker.measure s.plan.engine.accelComp (crankClass s.tracker.crankHist i) i s.timebase)) := by
  simp [crankMeasured, h]

end

/-- Settles O11. -/
theorem firstCrankEdgeSeeks : Obligations.FirstCrankEdgeSeeks := by
  unfold Obligations.FirstCrankEdgeSeeks
  intro s released stopped first
  rw [exec_crankEdge released, crankEdge_of_none (by simpa using first), crankFirst_of_stopped (by simpa using stopped)]
  simp

/-- Settles O12. -/
theorem spuriousCrankEdgeRejected : Obligations.SpuriousCrankEdgeRejected := by
  unfold Obligations.SpuriousCrankEdgeRejected
  intro s p tp released hp htp early
  rw [exec_crankEdge released, crankEdge_of_some (p := p) (by simpa using hp),
    crankMeasured_of_spurious (by simpa [crankSpurious, htp] using early)]
  simp

/-! ## The speed (R41) -/

theorem speed_of_short {t : Tracker} (h : (histInUse t).length < 2) : speed t = 0 := by
  unfold speed
  split
  · rfl
  · split
    next t1 t2 rest hist => simp [hist] at h
    next => rfl

theorem speed_of_two {t : Tracker} {t1 t2 : Nat} {rest : List Nat} (hs : t.sync ≠ .stopped)
    (h : histInUse t = t1 :: t2 :: rest) : speed t = min 65535 (speedConstant t / t1) := by
  simp [speed, hs, h]

/-- Settles O59. -/
theorem speedFromNewestPeriod : Obligations.SpeedFromNewestPeriod := by
  unfold Obligations.SpeedFromNewestPeriod
  refine fun t => ⟨fun stopped => by simp [speed, stopped], fun _ short => speed_of_short short,
    fun t1 t2 rest limp hist => ?_, fun t1 t2 rest moving crank hist => ?_⟩
  · rw [speed_of_two (by simp [limp]) (by simpa [histInUse, limp] using hist)]
    simp [speedConstant, limp]
  · exact (speed_of_two moving (by simpa [histInUse, crank] using hist)).trans
      (congrArg (fun c => min 65535 (c / t1)) (if_neg crank))

/-! ## The edge that carries the angle (R34, R39) -/

theorem carrier_of_no_angle {t : Tracker} (h : t.sync = .stopped ∨ t.sync = .seeking) : carrier t = none := by
  rcases h with h | h <;> simp [carrier, h]

theorem carrier_of_crank {t : Tracker} {a : Nat} {time : Tick} {tp : Nat} (h : t.sync = .halfSync ∨ t.sync = .fullSync)
    (ha : t.edgeAngle = some a) (ht : t.prevCrank = some time) (hp : t.crankTp = some tp) :
    carrier t = some
      { angle := a, time := time, tp := tp, span := crankSpan t.wheel t.tooth, perTp := pitchSteps t.wheel } := by
  rcases h with h | h <;> simp [carrier, h, ha, ht, hp]

theorem carrier_of_cam {t : Tracker} {a : Nat} {time : Tick} {tp : Nat} (h : t.sync = .camLimp)
    (ha : t.edgeAngle = some a) (ht : t.cam.lastAccepted = some time) (hp : t.cam.tp = some tp) :
    carrier t = some { angle := a, time := time, tp := tp, span := camSpan t, perTp := 1200 } := by
  simp [carrier, h, ha, ht, hp]

theorem camSpan_of_next {t : Tracker} {x y : CamId} {n : Nat} (h : t.cam.identity = x) (hx : x.next = some (y, n)) :
    camSpan t = n := by
  simp [camSpan, h, hx]

theorem CamId.next_regular {k : Fin 6} (h : k ≠ 0) : (CamId.regular k).next = some (.regular (k + 1), 1200) := by
  simp [CamId.next, h]

theorem interpolated_of_carrier {t : Tracker} {e : EdgeRef} (h : carrier t = some e) (now : Tick) :
    interpolated t now = some ((e.angle + advance e now) % (if t.sync = .halfSync then 3600 else 7200)) := by
  simp [interpolated, h]

theorem interpolated_of_none {t : Tracker} (h : carrier t = none) (now : Tick) : interpolated t now = none := by
  simp [interpolated, h]

/-- Settles O60. -/
theorem interpolatedAngleHeld : Obligations.InterpolatedAngleHeld := by
  unfold Obligations.InterpolatedAngleHeld
  refine fun t now => ⟨fun absent => ?_, fun a pitch time tp held ha ht hp hpitch => ?_,
    fun a time tp limp ha ht hp => ?_, fun e he => interpolated_of_carrier he now, fun x hx => ?_⟩
  · have none_carries := carrier_of_no_angle absent
    exact ⟨none_carries, interpolated_of_none none_carries now⟩
  · rw [carrier_of_crank held ha ht hp, hpitch]
    cases t.wheel <;> rfl
  · have carries := carrier_of_cam limp ha ht hp
    refine ⟨fun first => ?_, fun extra => ?_, fun k regular later => ?_⟩
    · rw [carries, camSpan_of_next first rfl]
    · rw [carries, camSpan_of_next extra rfl]
    · rw [carries, camSpan_of_next regular (CamId.next_regular later)]
  · cases he : carrier t with
    | none =>
      rw [interpolated_of_none he] at hx
      cases hx
    | some e =>
      rw [interpolated_of_carrier he] at hx
      cases hx
      split
      · exact Nat.mod_lt _ (by decide)
      · exact Nat.mod_lt _ (by decide)

end Sys2Proof.Machine
end

section
/-! The fields of a payload (R173, R176, R177), and the requests that store a cylinder, a pulse list, a window, a mark, a
derate pattern and a test cut (R47, R50, R59 to R63). -/

namespace Sys2Proof.Machine

/-! ## Fields and lengths (R172, R173) -/

/-- A word below 65536 is read back from its two bytes. -/
theorem word_of_bytes {n : Nat} (h : n < 65536) : 256 * (byte (n / 256)).toNat + (byte n).toNat = n := by
  simp only [byte, BitVec.toNat_ofNat]
  omega

theorem toNat_beq_one (x : Byte) : (x.toNat == 1) = (x == 1) := by
  rw [Bool.eq_iff_iff, beq_iff_eq, beq_iff_eq, ← BitVec.toNat_inj]
  rfl

theorem isFlag_iff (n : Nat) : isFlag n = true ↔ n ≤ 1 := by simp [isFlag]

theorem isFlag_eq_false {n : Nat} (h : 1 < n) : isFlag n = false :=
  Bool.eq_false_iff.mpr fun flag => absurd ((isFlag_iff n).mp flag) (Nat.not_le.mpr h)

theorem lengthAllowed_fixed {kind : Nat} {p : List Byte} (hk : kind ≠ 0x08) (h : p.length = fixedLength kind) :
    lengthAllowed kind p = true := by
  simp [lengthAllowed, hk, h]

/-! ## The enumerations of a request (R185) -/

theorem bankOf_code (b : Bank) : bankOf (bankCode b) = some b := by cases b <;> rfl

theorem bankOf_eq_none {n : Nat} (h : 1 < n) : bankOf n = none := by
  unfold bankOf
  split
  · omega
  · omega
  · rfl

theorem outputOf_number (o : Output) : outputOf (o.val + 1) = some o := by
  fin_cases o <;> rfl

theorem outputOf_eq_none {n : Nat} (h : n = 0 ∨ 6 < n) : outputOf n = none := by
  unfold outputOf
  split
  case h_7 => rfl
  all_goals omega

theorem bankSetOf_code (b : BankSet) : bankSetOf b.code = some b := by cases b <;> rfl

theorem bankSetOf_eq_none {n : Nat} (h : ∀ b : BankSet, b.code ≠ n) : bankSetOf n = none := by
  unfold bankSetOf
  split
  · exact absurd rfl (h .onlyA)
  · exact absurd rfl (h .onlyB)
  · exact absurd rfl (h .both)
  · rfl

theorem kindOf_code (k : PulseKind) : kindOf k.code = some k := by cases k <;> rfl

theorem kindOf_eq_none {n : Nat} (h : ∀ k : PulseKind, k.code ≠ n) : kindOf n = none := by
  unfold kindOf
  split
  · exact absurd rfl (h .pilot)
  · exact absurd rfl (h .main)
  · exact absurd rfl (h .post)
  · rfl

/-! ## SET_CYLINDER (R47, R48, R176) -/

section
variable {p : List Byte}

theorem placementOf_undefined (h : byteAt p 1 = 0) : placementOf p = some none := by simp [placementOf, h]

theorem placementOf_bad_flag (h : 1 < byteAt p 1) : placementOf p = none := by
  have h0 : byteAt p 1 ≠ 0 := by omega
  have h1 : byteAt p 1 ≠ 1 := by omega
  simp [placementOf, h0, h1]

theorem placementOf_defined (h : byteAt p 1 = 1) :
    placementOf p =
      match bankOf (byteAt p 4), outputOf (byteAt p 5) with
      | some b, some o =>
        if wordAt p 2 ≤ 7199 then some (some { tdc := wordAt p 2, bank := b, output := o }) else none
      | _, _ => none := by
  unfold placementOf
  rw [h]
  rfl

theorem placementOf_bad_bank (h : byteAt p 1 = 1) (hb : 1 < byteAt p 4) : placementOf p = none := by
  rw [placementOf_defined h, bankOf_eq_none hb]

theorem placementOf_bad_output (h : byteAt p 1 = 1) (ho : byteAt p 5 = 0 ∨ 6 < byteAt p 5) : placementOf p = none := by
  rw [placementOf_defined h, outputOf_eq_none ho]
  cases bankOf (byteAt p 4) <;> rfl

theorem placementOf_bad_tdc (h : byteAt p 1 = 1) (ht : 7199 < wordAt p 2) : placementOf p = none := by
  rw [placementOf_defined h]
  split
  · exact if_neg (Nat.not_le.mpr ht)
  · rfl

theorem placementOf_sound {b : Bank} {o : Output} (h : byteAt p 1 = 1) (ht : wordAt p 2 ≤ 7199)
    (hb : bankCode b = byteAt p 4) (ho : o.val + 1 = byteAt p 5) :
    placementOf p = some (some { tdc := wordAt p 2, bank := b, output := o }) := by
  rw [placementOf_defined h, ← hb, ← ho, bankOf_code, outputOf_number]
  exact if_pos ht

end

theorem clampTo_zero (hi x : Nat) : clampTo 0 hi x = min hi x := by simp [clampTo]

theorem cylinderOf_eq (place : Option Placement) (p : List Byte) :
    cylinderOf place p = { place := place, eoiLimit := min 1799 (wordAt p 6), disabled := byteAt p 8 == 1 } := by
  rw [cylinderOf, clampTo_zero]

theorem testCutWithout_eq (c : Cyl) (place : Option Placement) (t : Option (Cyl × Nat)) :
    testCutWithout c place t = if place = none then t.filter (fun x => x.1 != c) else t := by
  cases place <;> rfl

section
variable {p : List Byte} {s : State}

theorem answerSetCylinder_of_no_cyl (h : Cyl.ofNum (byteAt p 0) = none) : answerSetCylinder p s = (.refused .badValue, s) := by
  simp [answerSetCylinder, h]

theorem answerSetCylinder_of_no_place (h : placementOf p = none) : answerSetCylinder p s = (.refused .badValue, s) := by
  unfold answerSetCylinder
  rw [h]
  cases Cyl.ofNum (byteAt p 0) <;> rfl

variable {c : Cyl} {place : Option Placement}

theorem answerSetCylinder_of_read (hc : Cyl.ofNum (byteAt p 0) = some c) (hp : placementOf p = some place) :
    answerSetCylinder p s = setCylinder c place p s := by
  simp [answerSetCylinder, hc, hp]

theorem placeRefused_iff : placeRefused c place s = true ↔
    ∃ q, place = some q ∧ placementTaken s.plan.cyls c q = true := by
  cases place <;> simp [placeRefused]

theorem setCylinder_of_bad_value
    (h : (∃ q, place = some q ∧ placementTaken s.plan.cyls c q = true) ∨ 1 < byteAt p 8) :
    setCylinder c place p s = (.refused .badValue, s) := by
  rcases h with taken | flag
  · simp [setCylinder, placeRefused_iff.mpr taken]
  · simp [setCylinder, isFlag_eq_false flag]

theorem setCylinder_of_good_value (h : ∀ q, place = some q → placementTaken s.plan.cyls c q = false)
    (hf : byteAt p 8 ≤ 1) :
    setCylinder c place p s =
      if s.run.mode ≠ .halt ∧ place ≠ (s.plan.cyls.get c).place then (.refused .wrongMode, s)
      else (.ack (cylinderBytes c (cylinderOf place p)), storeCylinder c (cylinderOf place p) s) := by
  have free : placeRefused c place s = false := Bool.eq_false_iff.mpr fun refused => by
    obtain ⟨q, hq, taken⟩ := placeRefused_iff.mp refused
    rw [h q hq] at taken
    cases taken
  simp [setCylinder, free, (isFlag_iff _).mpr hf]

end

/-- Settles O46. -/
theorem setCylinderStoresRecord : Obligations.SetCylinderStoresRecord := by
  unfold Obligations.SetCylinderStoresRecord
  refine ⟨fun num defined bank out disable tdc eoi p htdc heoi hp => ?_, fun s tag p ready hlen bad => ?_,
    fun s tag p c place ready hlen hc hplace => ⟨fun bad => ?_, fun free flag => ⟨fun running moved => ?_,
      fun still => ?_⟩⟩⟩
  · subst hp
    set p := [num, defined] ++ be16 tdc ++ [bank, out] ++ be16 eoi ++ [disable] with p_eq
    have tdcAt : wordAt p 2 = tdc := word_of_bytes htdc
    refine ⟨rfl, word_of_bytes heoi, rfl, fun no => placementOf_undefined no, fun bad => placementOf_bad_flag bad,
      fun yes => ⟨fun bad => ?_, fun b o hle hb ho => ?_⟩⟩
    · rcases bad with farTdc | badBank | noOutput
      · exact placementOf_bad_tdc yes (by rwa [tdcAt])
      · exact placementOf_bad_bank yes badBank
      · exact placementOf_bad_output yes noOutput
    · rw [placementOf_sound (p := p) yes (by rwa [tdcAt]) hb ho, tdcAt]
  · refine request_refused ready (by omega) (lengthAllowed_fixed (by decide) hlen) ?_
    rcases bad with zero | above | noPlace
    · exact answerSetCylinder_of_no_cyl (Cyl.ofNum_eq_none (.inl zero))
    · exact answerSetCylinder_of_no_cyl (Cyl.ofNum_eq_none (.inr above))
    · exact answerSetCylinder_of_no_place noPlace
  · refine request_refused ready (by omega) (lengthAllowed_fixed (by decide) hlen) ?_
    rw [answerSetCylinder_of_read hc hplace, setCylinder_of_bad_value bad]
  · refine request_refused ready (by omega) (lengthAllowed_fixed (by decide) hlen) ?_
    rw [answerSetCylinder_of_read hc hplace, setCylinder_of_good_value free flag, if_pos ⟨running, moved⟩]
  · refine request_acked ready (by omega) (lengthAllowed_fixed (by decide) hlen) ?_
    have kept : ¬ (s.run.mode ≠ .halt ∧ place ≠ (s.plan.cyls.get c).place) := fun ⟨running, moved⟩ =>
      still.elim running moved
    rw [answerSetCylinder_of_read hc hplace, setCylinder_of_good_value free flag, if_neg kept, cylinderOf_eq,
      storeCylinder, testCutWithout_eq]

/-! ## SET_WINDOW (R59) -/

section
variable {p : List Byte}

theorem windowOf_of_set {b : BankSet} (h : bankSetOf (byteAt p 5) = some b) :
    windowOf p =
      if byteAt p 0 ≤ 3 ∧ wordAt p 1 ≤ 7199 ∧ wordAt p 3 ≤ 7199 ∧ isFlag (byteAt p 6) then
        some (byteAt p 0, { start := wordAt p 1, stop := wordAt p 3, banks := b, enabled := byteAt p 6 == 1 })
      else none := by
  simp [windowOf, h]

theorem windowOf_of_no_set (h : bankSetOf (byteAt p 5) = none) : windowOf p = none := by simp [windowOf, h]

end

theorem answerSetWindow_of_none {p : List Byte} (h : windowOf p = none) (s : State) :
    answerSetWindow p s = (.refused .badValue, s) := by
  simp [answerSetWindow, h]

theorem answerSetWindow_of_some {p : List Byte} {i : Nat} {w : QuietWindow} (h : windowOf p = some (i, w)) (s : State) :
    answerSetWindow p s =
      (.ack (windowBytes i w), s.withPlan { s.plan with windows := s.plan.windows.set i w }) := by
  simp [answerSetWindow, h]

/-! ## SET_MARK (R60, R96) -/

section
variable {p : List Byte}

theorem markOf_of_index (h : byteAt p 0 < 8) :
    markOf p =
      if wordAt p 1 ≤ 7199 ∧ isFlag (byteAt p 3) ∧ isFlag (byteAt p 4) ∧ isFlag (byteAt p 5) then
        some (⟨byteAt p 0, h⟩,
          { angle := wordAt p 1, enabled := byteAt p 3 == 1, notice := byteAt p 4 == 1, strobe := byteAt p 5 == 1 })
      else none := by
  simp [markOf, h]

theorem markOf_of_no_index (h : 7 < byteAt p 0) : markOf p = none := by
  have outside : ¬ byteAt p 0 < 8 := by omega
  simp [markOf, outside]

end

theorem answerSetMark_of_none {p : List Byte} (h : markOf p = none) (s : State) :
    answerSetMark p s = (.refused .badValue, s) := by
  simp [answerSetMark, h]

theorem answerSetMark_of_some {p : List Byte} {i : MarkIx} {m : AngleMark} (h : markOf p = some (i, m)) (s : State) :
    answerSetMark p s = (.ack (markBytes i m), storeMark i m s) := by
  simp [answerSetMark, h]

section
variable {s : State} {i : MarkIx} {m old : AngleMark}

theorem storeMark_of_unmoved (h : markMoved (s.plan.marks[i.val]?) m = false) :
    storeMark i m s = s.withPlan { s.plan with marks := s.plan.marks.set i.val m } := by
  simp [storeMark, h]

theorem storeMark_of_moved (h : markMoved (s.plan.marks[i.val]?) m = true) :
    storeMark i m s = markChanged i (s.withPlan { s.plan with marks := s.plan.marks.set i.val m }) := by
  simp [storeMark, h]

/-- A changed mark touches the queue alone: its entry goes and, with the angle known, its index waits. -/
theorem markChanged_eq (i : MarkIx) (s : State) : ∃ q : FiringQueue, markChanged i s = s.withQueue q ∧
    q.entries = s.queue.entries.filter (fun e => !(e.key == .mark i)) ∧
    (s.tracker.sync.holdsAngle = true → i ∈ q.pendingMarks) ∧
    (s.tracker.sync.holdsAngle = false → q.pendingMarks = s.queue.pendingMarks) := by
  unfold markChanged
  split
  next known =>
    refine ⟨_, rfl, rfl, fun _ => List.mem_append_right _ (List.mem_singleton.mpr rfl), fun lost => ?_⟩
    rw [known.1] at lost
    cases lost
  next unknown =>
    exact ⟨_, rfl, rfl, fun known => not_not.mp fun absent => unknown ⟨known, absent⟩, fun _ => rfl⟩

end

/-- Settles O49. -/
theorem windowsAndMarksStored : Obligations.WindowsAndMarksStored := by
  unfold Obligations.WindowsAndMarksStored
  refine ⟨fun i set enable start stop p hstart hstop hp => ?_, fun i enable notice strobe angle p hangle hp => ?_,
    fun s tag p ready => ⟨fun hlen => ⟨fun none_read => ?_, fun i w read => ?_⟩,
      fun hlen => ⟨fun none_read => ?_, fun i m read same_angle same_enable => ?_, fun i m old read hold moved => ?_⟩⟩⟩
  · subst hp
    have startAt : wordAt ([i] ++ be16 start ++ be16 stop ++ [set, enable]) 1 = start := word_of_bytes hstart
    have stopAt : wordAt ([i] ++ be16 start ++ be16 stop ++ [set, enable]) 3 = stop := word_of_bytes hstop
    have read {b : BankSet} (hb : bankSetOf set.toNat = some b) :
        windowOf ([i] ++ be16 start ++ be16 stop ++ [set, enable]) =
          if i.toNat ≤ 3 ∧ start ≤ 7199 ∧ stop ≤ 7199 ∧ isFlag enable.toNat then
            some (i.toNat, { start := start, stop := stop, banks := b, enabled := enable.toNat == 1 })
          else none := by
      refine (windowOf_of_set (p := [i] ++ be16 start ++ be16 stop ++ [set, enable]) hb).trans ?_
      rw [startAt, stopAt]
      rfl
    refine ⟨fun bad => ?_, fun b hb hi h1 h2 he => ?_⟩
    · cases hset : bankSetOf set.toNat with
      | none => exact windowOf_of_no_set (p := [i] ++ be16 start ++ be16 stop ++ [set, enable]) hset
      | some b =>
        refine (read hset).trans (if_neg fun ⟨hi, h1, h2, he⟩ => ?_)
        have he : enable.toNat ≤ 1 := (isFlag_iff _).mp he
        rcases bad with bad | bad | bad | bad | bad
        · omega
        · omega
        · omega
        · rw [bankSetOf_eq_none bad] at hset
          cases hset
        · omega
    · rw [read (by rw [← hb, bankSetOf_code]), if_pos ⟨hi, h1, h2, (isFlag_iff _).mpr he⟩, toNat_beq_one]
  · subst hp
    have angleAt : wordAt ([i] ++ be16 angle ++ [enable, notice, strobe]) 1 = angle := word_of_bytes hangle
    have read (hi : i.toNat < 8) :
        markOf ([i] ++ be16 angle ++ [enable, notice, strobe]) =
          if angle ≤ 7199 ∧ isFlag enable.toNat ∧ isFlag notice.toNat ∧ isFlag strobe.toNat then
            some (⟨i.toNat, hi⟩,
              ⟨angle, enable.toNat == 1, notice.toNat == 1, strobe.toNat == 1⟩)
          else none := by
      refine (markOf_of_index (p := [i] ++ be16 angle ++ [enable, notice, strobe]) hi).trans ?_
      rw [angleAt]
      rfl
    refine ⟨fun bad => ?_, fun ix hix h1 he hn hs => ?_⟩
    · by_cases hi : i.toNat < 8
      · refine (read hi).trans (if_neg fun ⟨h1, he, hn, hs⟩ => ?_)
        rw [isFlag_iff] at he hn hs
        omega
      · exact markOf_of_no_index (p := [i] ++ be16 angle ++ [enable, notice, strobe]) (Nat.lt_of_not_le fun h => hi (Nat.lt_succ_of_le h))
    · rw [read (by omega), if_pos ⟨h1, (isFlag_iff _).mpr he, (isFlag_iff _).mpr hn, (isFlag_iff _).mpr hs⟩,
        toNat_beq_one, toNat_beq_one, toNat_beq_one]
      exact congrArg some (Prod.ext (Fin.ext hix.symm) rfl)
  · exact request_refused ready (by omega) (lengthAllowed_fixed (by decide) hlen) (answerSetWindow_of_none none_read s)
  · exact request_acked ready (by omega) (lengthAllowed_fixed (by decide) hlen) (answerSetWindow_of_some read s)
  · exact request_refused ready (by omega) (lengthAllowed_fixed (by decide) hlen) (answerSetMark_of_none none_read s)
  · refine request_acked ready (by omega) (lengthAllowed_fixed (by decide) hlen) ?_
    obtain ⟨old, hold, hangle⟩ := Option.map_eq_some_iff.mp same_angle
    have henabled : old.enabled = m.enabled := by simpa [hold] using same_enable
    rw [answerSetMark_of_some read, storeMark_of_unmoved (by simp [markMoved, hold, hangle, henabled])]
  · have changed : markMoved (s.plan.marks[i.val]?) m = true := by simpa [markMoved, hold] using moved
    obtain ⟨q, hq, entries, known, unknown⟩ :=
      markChanged_eq i (s.withPlan { s.plan with marks := s.plan.marks.set i.val m })
    refine ⟨_, request_acked ready (by omega) (lengthAllowed_fixed (by decide) hlen) (answerSetMark_of_some read s), ?_⟩
    rw [storeMark_of_moved changed, hq]
    exact ⟨rfl, entries, known, unknown, rfl, rfl, rfl, fun b => by simp, rfl, rfl⟩

/-! ## SET_DERATE and TEST_CUT (R61 to R63) -/

section
variable {x y : Byte} {s : State}

theorem answerTestCut_of_cancel : answerTestCut [0, y] s = (.ack [0, 0], s.withPlan { s.plan with testCut := none }) := rfl

theorem answerTestCut_of_no_cyl (h : Cyl.ofNum x.toNat = none) (h0 : x.toNat ≠ 0) :
    answerTestCut [x, y] s = (.refused .badValue, s) := by
  simp [answerTestCut, h, h0]

theorem answerTestCut_of_cyl {c : Cyl} (h : Cyl.ofNum x.toNat = some c) :
    answerTestCut [x, y] s =
      if isDefined s c then
        (.ack [byte c.num, byte (clampTo 1 255 y.toNat)], setTestCut (some (c, clampTo 1 255 y.toNat)) s)
      else (.refused .notDefined, s) := by
  have h0 : x.toNat ≠ 0 := fun zero => by
    rw [zero] at h
    cases h
  simp [answerTestCut, h, h0]

end

theorem clampTo_byte (y : Byte) : clampTo 1 255 y.toNat = max 1 y.toNat := by
  have : y.toNat < 256 := y.isLt
  simp only [clampTo]
  omega

theorem derateHolds_iff (p : PlanStore) : derateHolds p = true ↔ p.derateN ≤ p.derateAcc + p.derateK := by
  simp [derateHolds]

theorem derateHolds_eq_false {p : PlanStore} (h : p.derateAcc + p.derateK < p.derateN) : derateHolds p = false :=
  Bool.eq_false_iff.mpr fun holds => absurd ((derateHolds_iff p).mp holds) (Nat.not_le.mpr h)

/-- Settles O50. -/
theorem derateAndTestCutStored : Obligations.DerateAndTestCutStored := by
  unfold Obligations.DerateAndTestCutStored
  refine fun s tag x y ready => ⟨fun n k hn hk => ?_, ?_, fun above => ?_, fun c => ⟨fun undefined => ?_,
    fun defined => ?_⟩, fun q hk hacc => derateHolds_eq_false (by omega)⟩
  · have n_eq : derateNOf [x, y] = n := hn.symm
    have k_eq : derateKOf [x, y] = k := by rw [derateKOf, n_eq, clampTo_zero, hk]; rfl
    refine request_acked ready (by simp) rfl ?_
    rw [answerSetDerate, n_eq, k_eq]
  · exact request_acked ready (by simp) rfl answerTestCut_of_cancel
  · exact request_refused ready (by simp) rfl (answerTestCut_of_no_cyl (Cyl.ofNum_eq_none (.inr above)) (by omega))
  · refine request_refused ready (by simp) rfl ?_
    rw [answerTestCut_of_cyl (Cyl.ofNum_byte_num c), if_neg (by simp [isDefined, undefined])]
  · refine request_acked ready (by simp) rfl ?_
    rw [answerTestCut_of_cyl (Cyl.ofNum_byte_num c),
      if_pos (by simpa [isDefined, Option.isSome_iff_ne_none] using defined), clampTo_byte]
    rfl

/-- Settles O51. -/
theorem derateAccumulatorAdvances : Obligations.DerateAccumulatorAdvances := by
  unfold Obligations.DerateAccumulatorAdvances
  intro p hk hacc
  refine ⟨fun below => ⟨derateHolds_eq_false below, if_neg (Nat.not_le.mpr below)⟩,
    fun reached => ⟨(derateHolds_iff p).mpr reached, if_pos reached⟩, ?_⟩
  unfold derateAfter
  split <;> omega

end Sys2Proof.Machine
end

section
/-! START and STOP, with the ARM entries a START inserts (R93, R94, R145, R146), and SET_PULSES with its list (R50, R177). -/

namespace Sys2Proof.Machine

/-! ## START (R93, R145) -/

theorem insertArmList_entries (cs : List Cyl) :
    ∀ s : State, ∃ xs, insertArmList cs s = s.withQueue { s.queue with entries := xs } := by
  induction cs with
  | nil => exact fun s => ⟨s.queue.entries, rfl⟩
  | cons c cs ih =>
    intro s
    obtain ⟨xs, hxs⟩ := ih (insertArm c s)
    refine ⟨xs, ?_⟩
    rw [insertArmList, hxs]
    unfold insertArm
    split <;> rfl

theorem findEntry_withRun (k : Key) (r : RunControl) (s : State) : findEntry k (s.withRun r) = findEntry k s := rfl

theorem anyDefined_iff (s : State) : anyDefined s = true ↔ ∃ c, (s.plan.cyls.get c).place ≠ none := by
  simp [anyDefined, isDefined, Cyl.mem_all, Option.isSome_iff_ne_none]

theorem anyDefined_eq_false {s : State} (h : ∀ c, (s.plan.cyls.get c).place = none) : anyDefined s = false :=
  Bool.eq_false_iff.mpr fun defined => by
    obtain ⟨c, hc⟩ := (anyDefined_iff s).mp defined
    exact hc (h c)

theorem enterRun_of_angle {s : State} (h : s.tracker.sync.holdsAngle = true) :
    enterRun s = insertArms (s.withRun { s.run with mode := .run, drainAt := none }) := if_pos h

theorem enterRun_of_no_angle {s : State} (h : s.tracker.sync.holdsAngle = false) :
    enterRun s = s.withRun { s.run with mode := .run, drainAt := none } :=
  if_neg fun known => by
    rw [show s.tracker.sync.holdsAngle = true from known] at h
    cases h

theorem answerStart_of_run {s : State} (h : s.run.mode = .run) (p : List Byte) : answerStart p s = (.ack [1], s) := by
  simp only [answerStart, h]
  rfl

theorem answerStart_of_undefined {s : State} (h : s.run.mode = .halt) (hc : ∀ c, (s.plan.cyls.get c).place = none)
    (p : List Byte) : answerStart p s = (.refused .notDefined, s) := by
  simp [answerStart, h, anyDefined_eq_false hc]

theorem answerStart_enters {s : State}
    (h : s.run.mode = .drain ∨ (s.run.mode = .halt ∧ ∃ c, (s.plan.cyls.get c).place ≠ none)) (p : List Byte) :
    answerStart p s = (.ack [1], enterRun s) := by
  rcases h with drain | ⟨halt, defined⟩
  · simp only [answerStart, drain]
    rfl
  · simp only [answerStart, halt, (anyDefined_iff s).mpr defined]
    rfl

theorem start_acked {s t : State} (tag : Byte) (ready : LinkReady s) (h : answerStart [] s = (.ack [1], t)) :
    exec (.start tag []) s = acked 0x12 tag [1] t := request_acked ready (by simp) rfl h

/-- Settles O53. -/
theorem startEntersRun : Obligations.StartEntersRun := by
  unfold Obligations.StartEntersRun
  refine fun s tag ready => ⟨fun halt undefined => ?_, fun run => start_acked tag ready (answerStart_of_run run []),
    fun enters => ⟨fun unknown => ?_, fun known => ?_⟩⟩
  · exact request_refused ready (by simp) rfl (answerStart_of_undefined halt undefined [])
  · refine start_acked tag ready ?_
    rw [answerStart_enters enters, enterRun_of_no_angle unknown]
  · refine ⟨_, start_acked tag ready (answerStart_enters enters []), enterRun_of_angle known, ?_, fun bounded => ?_⟩
    · rw [enterRun_of_angle known]
      exact insertArmList_entries _ _
    · have given := insertArms_gives (s := s.withRun { s.run with mode := .run, drainAt := none }) bounded.sorted
      rw [enterRun_of_angle known]
      refine ⟨fun c undefined => ?_, fun c pl placed => ?_, fun k other => ?_⟩
      · rw [given.find, findEntry_withRun]
        simp [givenArm, undefined]
      · rw [given.find, findEntry_withRun]
        simp [givenArm, placed, armEntry, cycleAngle, ← sub_eq_add_neg]
      · rw [given.find, findEntry_withRun]
        cases k with
        | arm c => exact absurd rfl (other c)
        | pulse c n => exact Option.or_none
        | mark i => exact Option.or_none

/-! ## STOP (R94, R146) -/

theorem removeArms_eq (s : State) :
    removeArms s = s.withQueue { s.queue with entries := s.queue.entries.filter fun e => !e.isArm } := by
  have same : (fun e : Entry => match e.key with | .arm _ => false | _ => true) = fun e => !e.isArm := by
    funext e
    unfold Entry.isArm
    cases e.key <;> rfl
  exact congrArg (fun f => s.withQueue { s.queue with entries := s.queue.entries.filter f }) same

theorem landIfPending_link_of_link {s t : State} (c : Option Cyl) (hp : t.plan = s.plan) (hl : t.link = s.link)
    (ht : t.timebase = s.timebase) : (landIfPending c t).link =
      (if s.plan.swapPending then queueNotice (.planSwapped s.plan.land.activePage.serial c) s else s).link := by
  cases h : s.plan.swapPending with
  | false => rw [landIfPending_of_none (hp ▸ h)]; exact hl
  | true =>
    rw [landIfPending_of_pending (hp ▸ h), hp]
    exact queueNotice_link_congr _ hl ht

theorem stopRun_of_open {s : State} (h : ∃ c, s.contexts.get c ≠ none) :
    stopRun s = enterDrain (landIfPending none (removeArms s)) := by
  refine if_pos ((anyOpen_iff _).mpr ?_)
  rwa [landIfPending_contexts]

theorem stopRun_of_closed {s : State} (h : ∀ c, s.contexts.get c = none) :
    stopRun s = queueNotice (.stopDone false 0) (haltRun (landIfPending none (removeArms s))) := by
  refine if_neg fun opened => ?_
  obtain ⟨c, hc⟩ := (anyOpen_iff _).mp opened
  rw [landIfPending_contexts] at hc
  exact hc (h c)

theorem answerStop_of_run {s : State} (h : s.run.mode = .run) (p : List Byte) :
    answerStop p s = (.ack [byte (stopRun s).run.mode.code], stopRun s) := by
  simp only [answerStop, h]

theorem answerStop_of_drain {s : State} (h : s.run.mode = .drain) (p : List Byte) : answerStop p s = (.ack [2], s) := by
  simp only [answerStop, h]
  rfl

theorem answerStop_of_halt {s : State} (h : s.run.mode = .halt) (p : List Byte) : answerStop p s = (.ack [0], s) := by
  simp only [answerStop, h]
  rfl

theorem stop_acked {s t : State} {x : Byte} (tag : Byte) (ready : LinkReady s) (h : answerStop [] s = (.ack [x], t)) :
    exec (.stop tag []) s = acked 0x13 tag [x] t := request_acked ready (by simp) rfl h

/-- Settles O54. -/
theorem stopDrainsOrHalts : Obligations.StopDrainsOrHalts := by
  unfold Obligations.StopDrainsOrHalts
  refine fun s tag ready => ⟨fun halt => stop_acked tag ready (answerStop_of_halt halt []),
    fun drain => stop_acked tag ready (answerStop_of_drain drain []), fun run u hu => ?_⟩
  have landed_link : (landIfPending none (removeArms s)).link = u.link :=
    hu ▸ landIfPending_link_of_link none rfl rfl rfl
  have landed_plan : (landIfPending none (removeArms s)).plan = if s.plan.swapPending then s.plan.land else s.plan :=
    landIfPending_plan ..
  have landed_diag : (landIfPending none (removeArms s)).diag = s.diag := landIfPending_diag ..
  have time_kept : u.timebase = s.timebase := by
    rw [hu]
    split
    · exact queueNotice_timebase ..
    · rfl
  refine ⟨fun opened => ?_, fun closed => ?_⟩
  · have stopped := stopRun_of_open opened
    refine ⟨stopRun s, stop_acked tag ready ?_, ?_⟩
    · rw [answerStop_of_run run, stopped]
      rfl
    · rw [stopped]
      refine ⟨?_, ?_, landed_plan, landed_link, landIfPending_contexts .., landIfPending_tracker .., fun b => ?_,
        landed_diag⟩
      · simp [enterDrain, removeArms_eq, later, Config.drainTicks]
      · simp [enterDrain, removeArms_eq]
      · simp [enterDrain, removeArms_eq]
  · have stopped := stopRun_of_closed closed
    have halted : (stopRun s).run = { s.run with mode := .halt, drainAt := none } := by
      simp [stopped, haltRun, removeArms_eq]
    refine ⟨stopRun s, stop_acked tag ready ?_, halted, ?_⟩
    · rw [answerStop_of_run run, halted]
      rfl
    · rw [stopped]
      refine ⟨?_, ?_, queueNotice_link_congr _ landed_link ?_, ?_, ?_, fun b => ?_, ?_⟩
      · simp [haltRun, removeArms_eq]
      · rw [queueNotice_plan]
        exact landed_plan
      · rw [time_kept]
        exact landIfPending_timebase ..
      · simp [haltRun, removeArms_eq]
      · simp [haltRun, removeArms_eq]
      · simp [haltRun, removeArms_eq]
      · rw [queueNotice_diag]
        exact landed_diag

/-! ## A position of a pulse list (R50, R177) -/

section
variable {p : List Byte} {i : Nat}

theorem positionOf_of_empty (h : wordAt p i = 0) : positionOf p i = some none := by simp [positionOf, h]

theorem positionOf_of_no_kind (h : wordAt p i ≠ 0) (hk : kindOf (byteAt p (i + 2)) = none) : positionOf p i = none := by
  simp [positionOf, h, hk]

theorem positionOf_of_kind {k : PulseKind} (h : wordAt p i ≠ 0) (hk : kindOf (byteAt p (i + 2)) = some k) :
    positionOf p i =
      if isFlag (byteAt p (i + 6)) then
        if byteAt p (i + 3) = 0 then
          if -1800 ≤ signedAt p (i + 4) ∧ signedAt p (i + 4) ≤ 1799 then
            some (some ⟨k, .angle (signedAt p (i + 4)), clampTo 60 5000 (wordAt p i), byteAt p (i + 6) == 1⟩)
          else none
        else if byteAt p (i + 3) = 1 then
          some (some ⟨k, .dwell (clampTo 50 5000 (wordAt p (i + 4))), clampTo 60 5000 (wordAt p i), false⟩)
        else none
      else none := by
  simp [positionOf, h, hk]

/-- A kind, an anchor type or a may-defer flag out of range fails the position. -/
theorem positionOf_of_bad (h : wordAt p i ≠ 0)
    (bad : (∀ k : PulseKind, k.code ≠ byteAt p (i + 2)) ∨ 1 < byteAt p (i + 3) ∨ 1 < byteAt p (i + 6)) :
    positionOf p i = none := by
  cases hk : kindOf (byteAt p (i + 2)) with
  | none => exact positionOf_of_no_kind h hk
  | some k =>
    rw [positionOf_of_kind h hk]
    rcases bad with noKind | noAnchor | noFlag
    · rw [kindOf_eq_none noKind] at hk
      cases hk
    · rw [if_neg (by omega : ¬ byteAt p (i + 3) = 0), if_neg (by omega : ¬ byteAt p (i + 3) = 1), ite_self]
    · rw [isFlag_eq_false noFlag]
      rfl

end

/-! ## A pulse list (R50) -/

section
variable {p : List Byte}

theorem positionsOf_eq_none {n : Nat} : ∀ {i : Nat}, (∃ j, j < n ∧ positionOf p (i + 7 * j) = none) →
    positionsOf p n i = none := by
  induction n with
  | zero => exact fun ⟨j, hj, _⟩ => absurd hj (Nat.not_lt_zero j)
  | succ n ih =>
    rintro i ⟨j, hj, bad⟩
    cases j with
    | zero =>
      have bad : positionOf p i = none := bad
      simp [positionsOf, bad]
    | succ j =>
      have rest : positionsOf p n (i + 7) = none :=
        ih ⟨j, by omega, by rwa [show i + 7 + 7 * j = i + 7 * (j + 1) by omega]⟩
      rw [positionsOf, rest]
      cases positionOf p i <;> rfl

theorem positionsOf_eq_some : ∀ {ys : List (Option PlanSlot)} {i : Nat},
    (∀ j, j < ys.length → positionOf p (i + 7 * j) = ys[j]?) → positionsOf p ys.length i = some ys := by
  intro ys
  induction ys with
  | nil => exact fun _ => rfl
  | cons y ys ih =>
    intro i h
    have first : positionOf p i = some y := h 0 (Nat.zero_lt_succ _)
    have rest : positionsOf p ys.length (i + 7) = some ys := ih fun j hj => by
      have := h (j + 1) (Nat.succ_lt_succ hj)
      rwa [show i + 7 * (j + 1) = i + 7 + 7 * j by omega] at this
    rw [List.length_cons, positionsOf, first, rest]

end

/-- Whether a position holds a MAIN slot. -/
def isMainSlot : Option PlanSlot → Bool
  | some y => y.kind == .main
  | none => false

theorem mainCount_eq (xs : List (Option PlanSlot)) : mainCount xs = xs.countP isMainSlot := by
  refine congrArg (fun f => xs.countP f) ?_
  funext x
  cases x <;> rfl

theorem countP_le_one_iff {α : Type} (f : α → Bool) (xs : List α) :
    xs.countP f ≤ 1 ↔ ∀ (i j : Nat) (x y : α), xs[i]? = some x → xs[j]? = some y → f x = true → f y = true → i = j := by
  induction xs with
  | nil => simp
  | cons a xs ih =>
    rw [List.countP_cons]
    constructor
    · intro h i j x y hi hj hx hy
      have none_after (ha : f a = true) (k : Nat) (z : α) (hk : xs[k]? = some z) : f z ≠ true := fun hz => by
        have positive : 0 < xs.countP f := List.countP_pos_iff.mpr ⟨z, List.mem_of_getElem? hk, hz⟩
        rw [if_pos ha] at h
        omega
      match i, j with
      | 0, 0 => rfl
      | 0, j + 1 => exact absurd hy (none_after (by rw [Option.some.inj hi]; exact hx) j y hj)
      | i + 1, 0 => exact absurd hx (none_after (by rw [Option.some.inj hj]; exact hy) i x hi)
      | i + 1, j + 1 => exact congrArg (· + 1) (ih.mp (by omega) i j x y hi hj hx hy)
    · intro h
      by_cases ha : f a = true
      · have none_after : xs.countP f = 0 := List.countP_eq_zero.mpr fun z hz fz => by
          obtain ⟨k, hk⟩ := List.mem_iff_getElem?.mp hz
          exact absurd (h 0 (k + 1) a z rfl hk ha fz) (by omega)
        rw [none_after, if_pos ha]
      · rw [if_neg ha]
        exact ih.mpr fun i j x y hi hj hx hy => Nat.succ.inj (h (i + 1) (j + 1) x y hi hj hx hy)

theorem mainCount_le_one_iff (xs : List (Option PlanSlot)) :
    mainCount xs ≤ 1 ↔ ∀ (i j : Nat) (x y : PlanSlot), xs[i]? = some (some x) → xs[j]? = some (some y) →
      x.kind = .main → y.kind = .main → i = j := by
  rw [mainCount_eq, countP_le_one_iff]
  constructor
  · exact fun h i j x y hi hj hx hy => h i j _ _ hi hj (by simp [isMainSlot, hx]) (by simp [isMainSlot, hy])
  · intro h i j x y hi hj hx hy
    cases x with
    | none => cases hx
    | some x =>
      cases y with
      | none => cases hy
      | some y => exact h i j x y hi hj (beq_iff_eq.mp hx) (beq_iff_eq.mp hy)

theorem dwellFirst_eq_false_iff (xs : List (Option PlanSlot)) :
    dwellFirst xs = false ↔ ∀ (j : Nat) (x : PlanSlot) (d : Nat), xs[j]? = some (some x) →
      (∀ i, i < j → xs[i]? = some none) → x.anchor ≠ .dwell d := by
  induction xs with
  | nil => simp [dwellFirst]
  | cons a xs ih =>
    cases a with
    | none =>
      rw [dwellFirst, ih]
      constructor
      · intro h j x d hj before
        cases j with
        | zero => cases hj
        | succ j => exact h j x d hj fun i hi => before (i + 1) (Nat.succ_lt_succ hi)
      · refine fun h j x d hj before => h (j + 1) x d hj fun i hi => ?_
        cases i with
        | zero => rfl
        | succ i => exact before i (Nat.lt_of_succ_lt_succ hi)
    | some a =>
      constructor
      · intro h j x d hj before
        cases j with
        | zero =>
          rintro dwell
          cases hj
          simp [dwellFirst, dwell] at h
        | succ j => cases before 0 (Nat.zero_lt_succ j)
      · intro h
        cases ha : a.anchor with
        | angle r => simp [dwellFirst, ha]
        | dwell d => exact absurd ha (h 0 a d rfl fun i hi => absurd hi (Nat.not_lt_zero i))

/-- The relative start of a position that holds an ANGLE slot. -/
def angleStartOf : Option PlanSlot → Option Int
  | some { kind := _, anchor := .angle r, energizeUs := _, mayDefer := _ } => some r
  | _ => none

theorem angleStartOf_eq_some (x : Option PlanSlot) (r : Int) :
    angleStartOf x = some r ↔ ∃ y, x = some y ∧ y.anchor = .angle r := by
  unfold angleStartOf
  split
  · simp
  next other =>
    refine ⟨nofun, fun ⟨y, hy, hr⟩ => ?_⟩
    obtain ⟨k, anchor, us, defer⟩ := y
    subst hr
    exact absurd hy (other k r us defer)

theorem angleStarts_eq (xs : List (Option PlanSlot)) : angleStarts xs = xs.filterMap angleStartOf := by
  induction xs with
  | nil => rfl
  | cons x xs ih =>
    rcases x with _ | ⟨k, (r | d), us, defer⟩
    · exact ih.trans (List.filterMap_cons_none rfl).symm
    · exact (congrArg (r :: ·) ih).trans (List.filterMap_cons_some (f := angleStartOf) rfl).symm
    · exact ih.trans (List.filterMap_cons_none rfl).symm

theorem rising_iff (xs : List Int) : rising xs = true ↔ xs.Pairwise (· < ·) := by
  induction xs with
  | nil => simp [rising]
  | cons x xs ih => simp [rising, ih]

theorem rising_angleStarts_iff (xs : List (Option PlanSlot)) :
    rising (angleStarts xs) = true ↔ ∀ (i j : Nat) (x y : PlanSlot) (a b : Int), i < j → xs[i]? = some (some x) →
      xs[j]? = some (some y) → x.anchor = .angle a → y.anchor = .angle b → a < b := by
  rw [rising_iff, angleStarts_eq, List.pairwise_filterMap, List.pairwise_iff_getElem]
  constructor
  · intro h i j x y a b hij hi hj ha hb
    obtain ⟨hi', hx⟩ := List.getElem?_eq_some_iff.mp hi
    obtain ⟨hj', hy⟩ := List.getElem?_eq_some_iff.mp hj
    exact h i j hi' hj' hij a ((angleStartOf_eq_some _ _).mpr ⟨x, hx, ha⟩) b ((angleStartOf_eq_some _ _).mpr ⟨y, hy, hb⟩)
  · intro h i j hi hj hij a ha b hb
    obtain ⟨x, hx, hxa⟩ := (angleStartOf_eq_some _ _).mp ha
    obtain ⟨y, hy, hyb⟩ := (angleStartOf_eq_some _ _).mp hb
    exact h i j x y a b hij (List.getElem?_eq_some_iff.mpr ⟨hi, hx⟩) (List.getElem?_eq_some_iff.mpr ⟨hj, hy⟩) hxa hyb

theorem listSound_iff (xs : List (Option PlanSlot)) :
    listSound xs = true ↔ mainCount xs ≤ 1 ∧ dwellFirst xs = false ∧ rising (angleStarts xs) = true := by
  simp [listSound, and_assoc]

theorem pulseListOf_of_positions {p : List Byte} {ys : List (Option PlanSlot)} (hn : byteAt p 2 ≤ 5)
    (h : positionsOf p (byteAt p 2) 3 = some ys) :
    pulseListOf p = if listSound ys then some (padList ys) else none := by
  simp [pulseListOf, hn, h]

/-! ## SET_PULSES (R50) -/

section
variable {p : List Byte} {s : State} {ix : PageIx} {c : Cyl}

theorem answerSetPulses_of_no_target (h : pageOf (byteAt p 0) = none ∨ Cyl.ofNum (byteAt p 1) = none) :
    answerSetPulses p s = (.refused .badValue, s) := by
  unfold answerSetPulses
  rcases h with noPage | noCyl
  · rw [noPage]
  · rw [noCyl]
    cases pageOf (byteAt p 0) <;> rfl

theorem answerSetPulses_of_target (hp : pageOf (byteAt p 0) = some ix) (hc : Cyl.ofNum (byteAt p 1) = some c) :
    answerSetPulses p s = setPulses ix c p s := by
  simp [answerSetPulses, hp, hc]

theorem setPulses_of_pending (h : s.plan.swapPending = true) : setPulses ix c p s = (.refused .swapPending, s) := by
  simp [setPulses, h]

theorem setPulses_of_active (h : s.plan.swapPending = false) (ha : ix = s.plan.active) :
    setPulses ix c p s = (.refused .pageActive, s) := by
  simp [setPulses, h, ha]

theorem setPulses_of_bad_list (h : s.plan.swapPending = false) (ha : ix ≠ s.plan.active)
    (hl : pulseListOf p = none) : setPulses ix c p s = (.refused .badValue, s) := by
  simp [setPulses, h, ha, hl]

theorem setPulses_of_list {xs : List (Option PlanSlot)} (h : s.plan.swapPending = false) (ha : ix ≠ s.plan.active)
    (hl : pulseListOf p = some xs) :
    setPulses ix c p s =
      (.ack (pulsesBytes ix c ((s.plan.page ix).putList c xs)),
        s.withPlan (s.plan.setPage ix ((s.plan.page ix).putList c xs))) := by
  simp [setPulses, h, ha, hl]

end

/-- Settles O47. -/
theorem setPulsesWritesInactivePage : Obligations.SetPulsesWritesInactivePage := by
  unfold Obligations.SetPulsesWritesInactivePage
  refine ⟨?_, ?_, fun s tag p ready hfits hlen => ⟨fun bad => ?_, fun ix c hp hc => ⟨fun pending => ?_,
    fun free active => ?_, fun free inactive => ⟨fun bad => ?_, fun xs read => ?_⟩⟩⟩⟩
  · rintro p i _ _ rfl rfl
    refine ⟨positionOf_of_empty, fun nonzero => ⟨positionOf_of_bad nonzero, fun k hk flag => ?_⟩⟩
    have read := positionOf_of_kind (k := k) nonzero (by rw [← hk, kindOf_code])
    rw [if_pos ((isFlag_iff _).mpr flag)] at read
    refine ⟨fun byAngle r hr => ?_, fun byDwell => ?_⟩
    · have start : signedAt p (i + 4) = r := hr.symm
      rw [if_pos byAngle, start] at read
      refine ⟨fun far => ?_, fun low high => ?_⟩
      · rw [read, if_neg (by omega)]
      · rw [read, if_pos ⟨low, high⟩]
        rfl
    · rw [read, if_neg (by omega), if_pos byDwell]
      rfl
  · rintro p _ rfl
    refine ⟨fun above => if_neg (Nat.not_le.mpr above), fun within bad => ?_, fun within ys sound hlen hpos hsound => ?_⟩
    · simp [pulseListOf, within, positionsOf_eq_none bad]
    · have read : positionsOf p (byteAt p 2) 3 = some ys := hlen ▸ positionsOf_eq_some (hlen ▸ hpos)
      have checked : sound ↔ listSound ys = true := by
        rw [hsound, listSound_iff, mainCount_le_one_iff, dwellFirst_eq_false_iff, rising_angleStarts_iff]
      rw [pulseListOf_of_positions within read, checked]
      exact ⟨fun holds => if_pos holds, fun fails => if_neg fails⟩
  · refine request_refused ready hfits hlen (answerSetPulses_of_no_target ?_)
    rcases bad with noPage | zero | above
    · exact .inl (pageOf_eq_none noPage)
    · exact .inr (Cyl.ofNum_eq_none (.inl zero))
    · exact .inr (Cyl.ofNum_eq_none (.inr above))
  · exact request_refused ready hfits hlen ((answerSetPulses_of_target hp hc).trans (setPulses_of_pending pending))
  · exact request_refused ready hfits hlen ((answerSetPulses_of_target hp hc).trans (setPulses_of_active free active))
  · exact request_refused ready hfits hlen ((answerSetPulses_of_target hp hc).trans (setPulses_of_bad_list free inactive bad))
  · exact request_acked ready hfits hlen ((answerSetPulses_of_target hp hc).trans (setPulses_of_list free inactive read))

end Sys2Proof.Machine
end

section
/-! Sync losses and the move into CAM_LIMP: what they leave of the queue, the banks and the plan, and the tracker events that
end in them: a gap error, the two deadlines and the stall timeout (R15, R16, R18, R22, R23, R26). -/

namespace Sys2Proof.Machine

/-! ## A state that differs in the tracker alone, as far as a loss reads it -/

/-- A second state has the cycles, the queue, the banks, the run and the plan of a first. -/
structure SameCycles (s u : State) : Prop where
  contexts : u.contexts = s.contexts
  queue : u.queue = s.queue
  bank : ∀ b, u.bank b = s.bank b
  run : u.run = s.run
  plan : u.plan = s.plan
  timebase : u.timebase = s.timebase

namespace SameCycles

theorem linked {s u : State} (h : SameCycles s u) (l : s.Linked) : u.Linked :=
  (Calm.of_eq h.contexts h.queue h.bank (congrArg RunControl.mode h.run)).linked l

theorem ends {s u t : State} (h : SameCycles s u) {o : SlotOutcome} (e : UnstartedEnd o u t) : UnstartedEnd o s t := by
  obtain ⟨entries, starts⟩ := e
  exact ⟨fun e he => entries e (by rwa [h.queue]), fun b r hr => starts b r (by rwa [h.bank])⟩

theorem trans {s t u : State} (h : SameCycles s t) (k : SameCycles t u) : SameCycles s u :=
  ⟨k.contexts.trans h.contexts, k.queue.trans h.queue, fun b => (k.bank b).trans (h.bank b), k.run.trans h.run,
    k.plan.trans h.plan, k.timebase.trans h.timebase⟩

theorem withTracker (s : State) (x : Tracker) : SameCycles s (s.withTracker x) :=
  ⟨rfl, rfl, fun _ => State.withTracker_bank .., rfl, rfl, rfl⟩

theorem queueNotice (n : NoticeBody) (s : State) : SameCycles s (queueNotice n s) :=
  ⟨queueNotice_contexts .., queueNotice_queue .., queueNotice_bank n s, queueNotice_run .., queueNotice_plan ..,
    queueNotice_timebase ..⟩

theorem setCamFault (c : CamFaultCause) (s : State) : SameCycles s (setCamFault c s) := by
  unfold Machine.setCamFault
  dsimp only
  split
  · exact withTracker s _
  · exact (withTracker s _).trans (queueNotice _ _)

theorem abortCoilCheck (c : AbortCause) (s : State) : SameCycles s (abortCoilCheck c s) :=
  ⟨abortCoilCheck_contexts .., abortCoilCheck_queue .., abortCoilCheck_bank c s, abortCoilCheck_run ..,
    abortCoilCheck_plan .., abortCoilCheck_timebase ..⟩

end SameCycles

theorem setCamFault_diag (c : CamFaultCause) (s : State) : (setCamFault c s).diag = s.diag := by
  unfold setCamFault
  dsimp only
  split
  · rfl
  · exact queueNotice_diag ..

/-! ## A sync loss (R22, R55, R108) -/

/-- What a sync loss makes of a state, after the notices of a list: the queue and the waiting slots are empty, a pending
swap lands, and every unstarted pulse is withdrawn. -/
structure LosesAngle (first : List NoticeBody) (s t : State) : Prop where
  queue : t.queue = { s.queue with entries := [], pendingMarks := [], commitRef := none, frontier := none }
  bank : ∀ b, t.bank b = { s.bank b with waiting := none }
  plan : t.plan = if s.plan.swapPending then s.plan.land else s.plan
  fuelcut : t.run.fuelcut = s.run.fuelcut
  band : t.run.band = s.run.band
  timebase : t.timebase = s.timebase
  notices : WithdrawalNotices first (swapNotice s) s t
  ends : s.Linked → UnstartedEnd (.withdrawn .syncLost) s t

namespace LosesAngle

variable {first : List NoticeBody} {s t : State}

theorem waiting (h : LosesAngle first s t) (b : Bank) : (t.bank b).waiting = none := by rw [h.bank]

theorem drive (h : LosesAngle first s t) (b : Bank) : (t.bank b).drive = (s.bank b).drive := by rw [h.bank]

theorem entries (h : LosesAngle first s t) : t.queue.entries = [] := by rw [h.queue]

end LosesAngle

section
variable {s u : State} {first : List NoticeBody} {new : Sync} (cause : SyncCause)

theorem moveTo_losesAngle (same : SameCycles s u) (raises : Raises first s u) (known : u.tracker.sync.holdsAngle = true)
    (lost : new.holdsAngle = false) :
    LosesAngle (first ++ [.syncChange u.tracker.sync new cause]) s (moveTo new cause u) := by
  have told := moveTo_notices new cause known lost raises same.queue (fun b => by rw [same.bank])
    (congrArg RunControl.mode same.run) same.plan
  rw [moveTo_loss cause known lost] at told ⊢
  have before : SameCycles s (queueNotice (.syncChange u.tracker.sync new cause)
      (u.withTracker { u.tracker with sync := new, cam := { u.tracker.cam with hist := [], tp := none } })) :=
    same.trans ((SameCycles.withTracker u _).trans (SameCycles.queueNotice _ _))
  refine ⟨?_, fun b => ?_, ?_, ?_, ?_, ?_, told, fun l => ?_⟩
  · rw [landIfPending_queue, queueLoss_queue, before.queue]
  · rw [landIfPending_bank, queueLoss_banks, before.bank]
  · rw [landIfPending_plan, queueLoss_plan, before.plan]
  · rw [landIfPending_run, queueLoss_fuelcut, before.run]
  · rw [landIfPending_run, queueLoss_band, before.run]
  · rw [landIfPending_timebase, queueLoss_timebase, before.timebase]
  · have linked := before.linked l
    exact before.ends ((queueLoss_ends linked).settles ((queueLoss_settles _).own linked.own) (landIfPending_settles ..))

theorem moveTo_loss_tracker (known : u.tracker.sync.holdsAngle = true) (lost : new.holdsAngle = false) :
    (moveTo new cause u).tracker =
      { u.tracker with sync := new, cam := { u.tracker.cam with hist := [], tp := none } } := by
  rw [moveTo_loss cause known lost]
  simp

theorem moveTo_loss_diag (known : u.tracker.sync.holdsAngle = true) (lost : new.holdsAngle = false) :
    (moveTo new cause u).diag = u.diag := by
  rw [moveTo_loss cause known lost, landIfPending_diag, queueLoss_diag, queueNotice_diag]
  rfl

end

section
variable {new : Sync} (cause : SyncCause) (s : State) {x : Tracker}

/-- A loss on a state whose tracker alone is changed. -/
theorem moveTo_losesAngle_withTracker (known : x.sync.holdsAngle = true) (lost : new.holdsAngle = false) :
    LosesAngle [.syncChange x.sync new cause] s (moveTo new cause (s.withTracker x)) :=
  moveTo_losesAngle (u := s.withTracker x) cause (SameCycles.withTracker s x) (.of_eq rfl rfl) known lost

theorem moveTo_loss_withTracker_tracker (known : x.sync.holdsAngle = true) (lost : new.holdsAngle = false) :
    (moveTo new cause (s.withTracker x)).tracker = { x with sync := new, cam := { x.cam with hist := [], tp := none } } :=
  moveTo_loss_tracker (u := s.withTracker x) cause known lost

theorem moveTo_loss_withTracker_diag (known : x.sync.holdsAngle = true) (lost : new.holdsAngle = false) :
    (moveTo new cause (s.withTracker x)).diag = s.diag :=
  moveTo_loss_diag (u := s.withTracker x) cause known lost

theorem moveTo_untold_withTracker (unknown : x.sync.holdsAngle = false) (lost : new.holdsAngle = false) :
    moveTo new cause (s.withTracker x) =
      queueNotice (.syncChange x.sync new cause) (s.withTracker { x with sync := new }) :=
  moveTo_untold (s := s.withTracker x) cause unknown lost

end

section
variable {new : Sync} (c : CamFaultCause) (cause : SyncCause) (s : State) {x : Tracker}

/-- A loss after the cam fault latch is set: CAM_FAULT stands before SYNC_CHANGE if the latch was clear. -/
theorem moveTo_setCamFault_losesAngle (known : x.sync.holdsAngle = true) (lost : new.holdsAngle = false) :
    LosesAngle ((if x.camFault then [] else [.camFault c]) ++ [.syncChange x.sync new cause]) s
      (moveTo new cause (setCamFault c (s.withTracker x))) := by
  have faulted := setCamFault_tracker c (s.withTracker x)
  have result := moveTo_losesAngle (u := setCamFault c (s.withTracker x)) cause
    ((SameCycles.withTracker s x).trans (SameCycles.setCamFault c _)) (setCamFault_raises c rfl rfl)
    (by rw [faulted]; exact known) lost
  rwa [faulted] at result

theorem moveTo_setCamFault_tracker (known : x.sync.holdsAngle = true) (lost : new.holdsAngle = false) :
    (moveTo new cause (setCamFault c (s.withTracker x))).tracker =
      { x with camFault := true, sync := new, cam := { x.cam with hist := [], tp := none } } := by
  have faulted := setCamFault_tracker c (s.withTracker x)
  rw [moveTo_loss_tracker cause (by rw [faulted]; exact known) lost, faulted]
  rfl

theorem moveTo_setCamFault_diag (known : x.sync.holdsAngle = true) (lost : new.holdsAngle = false) :
    (moveTo new cause (setCamFault c (s.withTracker x))).diag = s.diag := by
  rw [moveTo_loss_diag cause (by rw [setCamFault_tracker]; exact known) lost, setCamFault_diag]
  rfl

end

theorem swapNotice_of_plan {s u : State} (h : u.plan = s.plan) : swapNotice u = swapNotice s := by
  simp only [swapNotice, h]

/-! ## The move into CAM_LIMP (R23, R97) -/

section
variable (s : State)

@[simp] theorem queueToCam_tracker : (queueToCam s).tracker = s.tracker := withdrawPulses_tracker ..
@[simp] theorem queueToCam_plan : (queueToCam s).plan = s.plan := withdrawPulses_plan ..
@[simp] theorem queueToCam_diag : (queueToCam s).diag = s.diag := withdrawPulses_diag ..
@[simp] theorem queueToCam_timebase : (queueToCam s).timebase = s.timebase := withdrawPulses_timebase ..

end

/-! ## A gap error (R15) -/

/-- The class of an edge and the counting state decide a gap error, and measuring changes neither. -/
theorem gapError_measure (t : Tracker) (accel : Bool) (k : CrankClass) (i : Nat) (now : Tick) :
    gapError k (t.measure accel k i now) = gapError k t := by
  cases k <;> rfl

section
variable {s : State} {p : Tick}

theorem crankCounting_of_gapError {k : CrankClass} (h : gapError k s.tracker = true) :
    crankCounting k s = moveTo .seeking .gapError (s.withTracker (s.tracker.afterGapError k)) := if_pos h

theorem crankByState_of_counting (k : CrankClass) (h : s.tracker.sync = .halfSync ∨ s.tracker.sync = .fullSync) :
    crankByState k s = crankCounting k s := by
  rcases h with h | h
  · simp only [crankByState, h]
  · simp only [crankByState, h]

/-- An accepted edge, once a running coil check is aborted, is measured and then taken by the sync state it finds. -/
theorem exec_crankEdge_of_accepted (released : s.resetHeld = false) (hp : s.tracker.prevCrank = some p)
    (accepted : crankSpurious s.tracker (rawInterval p s.timebase) = false) :
    exec .crankEdge s = .next
      (crankByState (crankClass s.tracker.crankHist (rawInterval p s.timebase))
        ((abortCoilCheck .edge s).withTracker
          (s.tracker.measure s.plan.engine.accelComp (crankClass s.tracker.crankHist (rawInterval p s.timebase))
            (rawInterval p s.timebase) s.timebase))) := by
  rw [exec_crankEdge released, crankEdge_of_some (p := p) (by simpa using hp),
    crankMeasured_of_accepted (by simpa using accepted)]
  simp

theorem exec_crankEdge_of_gapError {k : CrankClass} (released : s.resetHeld = false)
    (hp : s.tracker.prevCrank = some p) (accepted : crankSpurious s.tracker (rawInterval p s.timebase) = false)
    (hk : k = crankClass s.tracker.crankHist (rawInterval p s.timebase)) (error : gapError k s.tracker = true)
    (counting : s.tracker.sync = .halfSync ∨ s.tracker.sync = .fullSync) :
    exec .crankEdge s = .next
      (moveTo .seeking .gapError
        ((abortCoilCheck .edge s).withTracker
          ((s.tracker.measure s.plan.engine.accelComp k (rawInterval p s.timebase) s.timebase).afterGapError k))) := by
  have measured := exec_crankEdge_of_accepted released hp accepted
  rw [← hk] at measured
  generalize htracker : s.tracker.measure s.plan.engine.accelComp k (rawInterval p s.timebase) s.timebase = x at *
  have error : gapError k x = true := by rw [← htracker, gapError_measure, error]
  have counting : x.sync = .halfSync ∨ x.sync = .fullSync := by rwa [← htracker]
  rw [measured, crankByState_of_counting (s := (abortCoilCheck .edge s).withTracker x) k counting,
    crankCounting_of_gapError (s := (abortCoilCheck .edge s).withTracker x) error]
  rfl

end

theorem gapError_iff (k : CrankClass) (t : Tracker) : gapError k t = true ↔
    (k = .pitch ∧ t.tooth = lastTooth t.wheel ∨ k = .long ∨ k = .gap ∧ t.tooth ≠ lastTooth t.wheel) := by
  cases k <;> simp [gapError]

/-- An unstarted slot that ends without firing takes with it the PENDING DWELL slots that follow it, up to the first other
slot (R82). -/
theorem loseAnchor_of_dependents (deps rest : List Slot) (hd : ∀ y ∈ deps, y.st = .pending ∧ y.isDwell = true)
    (hr : ∀ y, rest.head? = some y → y.st ≠ .pending ∨ y.isDwell = false) :
    loseAnchor (deps ++ rest) = deps.map (fun y => { y with st := .resolved (.suppressed .anchorLost) }) ++ rest := by
  induction deps with
  | nil =>
    cases rest with
    | nil => rfl
    | cons y ys =>
      refine if_neg fun lost => ?_
      have pending : y.st = .pending := by
        cases hst : y.st <;> simp_all [SlotState.isPending]
      rcases hr y rfl with other | other
      · exact other pending
      · simp [other] at lost
  | cons d deps ih =>
    obtain ⟨hst, hdw⟩ := hd d (List.mem_cons_self ..)
    have rest_lost := ih fun y hy => hd y (List.mem_cons_of_mem d hy)
    simp [loseAnchor, hst, hdw, rest_lost, SlotState.isPending, Slot.resolve]

theorem resolveUnfired_skip (n : Nat) (o : SlotOutcome) (before xs : List Slot) (h : ∀ y ∈ before, y.num ≠ n) :
    resolveUnfired n o (before ++ xs) = before ++ resolveUnfired n o xs := by
  induction before with
  | nil => rfl
  | cons y ys ih =>
    have rest := ih fun z hz => h z (List.mem_cons_of_mem y hz)
    simp [resolveUnfired, h y (List.mem_cons_self ..), rest]

/-- Settles O15. -/
theorem gapErrorLosesSync : Obligations.GapErrorLosesSync := by
  unfold Obligations.GapErrorLosesSync
  refine ⟨?_, ?_, fun n o before deps rest x hx hb unstarted hd hr => ?_⟩
  · intro s p i k hist v released hp hi accepted hk hhist error hv
    subst hi
    have error := (gapError_iff k s.tracker).mpr error
    have left : (s.tracker.measure s.plan.engine.accelComp k (rawInterval p s.timebase) s.timebase).afterGapError k =
        { v with sync := s.tracker.sync } := by
      subst hv
      subst hhist
      rfl
    have reached := fun counting => exec_crankEdge_of_gapError released hp accepted hk error counting
    rw [left] at reached
    have seeking : { v with sync := Sync.seeking } = v := by rw [hv]
    have cam : v.cam = s.tracker.cam := by rw [hv]
    refine ⟨fun half => ?_, fun full => ?_⟩
    · rw [reached (.inl half), half, moveTo_untold_withTracker _ _ rfl rfl, seeking]
    · rw [full] at reached
      have lost := moveTo_losesAngle_withTracker .gapError (abortCoilCheck .edge s) (x := { v with sync := .fullSync })
        (new := .seeking) rfl rfl
      refine ⟨_, reached (.inr rfl), ?_, ?_, ?_⟩
      · rw [moveTo_loss_withTracker_tracker _ _ rfl rfl, ← cam]
        exact congrArg (fun w : Tracker => { w with cam := { v.cam with hist := [], tp := none } }) seeking
      · rw [← swapNotice_of_plan (abortCoilCheck_plan .edge s)]
        exact lost.notices
      · rw [lost.plan, abortCoilCheck_plan]
  · intro s p released full hp accepted error
    have reached := exec_crankEdge_of_gapError released hp accepted rfl error (.inr full)
    have same := SameCycles.abortCoilCheck .edge s
    generalize crankClass s.tracker.crankHist (rawInterval p s.timebase) = k at *
    generalize hx : (s.tracker.measure s.plan.engine.accelComp k (rawInterval p s.timebase) s.timebase).afterGapError k = x at *
    have known : x.sync.holdsAngle = true := by
      rw [← hx]
      exact congrArg Sync.holdsAngle full
    have lost := moveTo_losesAngle_withTracker .gapError (abortCoilCheck .edge s) known (new := .seeking) rfl
    have tracker := moveTo_loss_withTracker_tracker .gapError (abortCoilCheck .edge s) known (new := .seeking) rfl
    have diag := moveTo_loss_withTracker_diag .gapError (abortCoilCheck .edge s) known (new := .seeking) rfl
    rw [← hx] at reached lost tracker diag
    refine ⟨_, reached, ?_, ?_, ?_, ?_, ?_, ?_, ?_, lost.entries, ?_, ?_, fun b => ⟨lost.waiting b, ?_⟩, ?_, ?_, ?_,
      fun c => ?_, fun tied => same.ends (lost.ends (same.linked (tied released).1))⟩
    · rw [tracker]
    · rw [tracker]; rfl
    · rw [tracker]; rfl
    · rw [tracker]; rfl
    · rw [tracker]
    · rw [tracker]; rfl
    · rw [tracker]; rfl
    · rw [lost.queue]
    · rw [lost.queue]
    · rw [lost.drive, same.bank]
    · rw [lost.fuelcut, same.run]
    · rw [lost.band, same.run]
    · rw [lost.timebase, same.timebase]
    · have kept : (abortCoilCheck .edge s).diag = { s.diag with coil := none } := endCoilCheck_diag ..
      rw [diag, kept]
  · rw [resolveUnfired_skip n o before _ hb]
    simp [resolveUnfired, hx, unstarted, loseAnchor_of_dependents deps rest hd hr, Slot.resolve]

/-! ## The crank deadline (R16, R24) -/

section
variable {s : State} {p : Tick} {tp : Nat}

theorem crankDeadlineDue_of_passed (hp : s.tracker.prevCrank = some p) (htp : s.tracker.crankTp = some tp)
    (passed : 2 * crankInterval s.tracker.wheel s.tracker.tooth tp ≤ elapsed p s.timebase)
    (counting : s.tracker.sync = .halfSync ∨ s.tracker.sync = .fullSync) : crankDeadlineDue s = true := by
  have synced : (decide (s.tracker.sync = .halfSync) || decide (s.tracker.sync = .fullSync)) = true := by
    rcases counting with h | h <;> simp [h]
  simp [crankDeadlineDue, hp, htp, passed, synced]

theorem exec_crankDeadline {t : State} (released : s.resetHeld = false) (due : crankDeadlineDue s = true)
    (ht : crankDeadline s = t) : exec .crankDeadline s = .next t := takeDue_of_due released due ht

theorem crankDeadline_of_limp (h : s.tracker.sync = .fullSync ∧ limpAllowed s = true) :
    crankDeadline s =
      moveTo .camLimp .crankDeadline
        (s.withTracker
          { s.tracker.emptyCrank with
            edgeAngle := some (camAngle s.plan.engine.camSync s.tracker.cam.identity)
            cam := { s.tracker.cam with lastAccepted := s.tracker.cam.lastEdge } }) := if_pos h

theorem crankDeadline_of_seeking (h : ¬ (s.tracker.sync = .fullSync ∧ limpAllowed s = true)) :
    crankDeadline s =
      moveTo .seeking .crankDeadline (s.withTracker { s.tracker.emptyCrank with edgeAngle := none }) := if_neg h

end

theorem CamId.next_isSome_iff (x : CamId) : x.next.isSome = true ↔ (∃ k, x = .regular k) ∨ x = .extra := by
  cases x with
  | regular k =>
    by_cases hk : k = 0
    · simp [CamId.next, hk]
    · simp [CamId.next, hk]
  | extra => simp [CamId.next]
  | phantom => simp [CamId.next]
  | unknown => simp [CamId.next]

theorem limpAllowed_iff (s : State) : limpAllowed s = true ↔
    s.plan.engine.camLimp = true ∧ s.tracker.camFault = false ∧ s.tracker.cam.hist ≠ [] ∧
      ((∃ k, s.tracker.cam.identity = .regular k) ∨ s.tracker.cam.identity = .extra) := by
  rw [← CamId.next_isSome_iff]
  simp [limpAllowed, and_assoc]

theorem limpAllowed_of_fails {s : State}
    (h : s.plan.engine.camLimp = false ∨ s.tracker.camFault = true ∨ s.tracker.cam.hist = [] ∨
      s.tracker.cam.identity = .phantom ∨ s.tracker.cam.identity = .unknown) : ¬ limpAllowed s = true := by
  rw [limpAllowed_iff]
  rintro ⟨enabled, clear, fed, identified⟩
  rcases h with h | h | h | h | h
  · rw [h] at enabled
    cases enabled
  · rw [h] at clear
    cases clear
  · exact fed h
  · rw [h] at identified
    rcases identified with ⟨k, hk⟩ | hk <;> cases hk
  · rw [h] at identified
    rcases identified with ⟨k, hk⟩ | hk <;> cases hk

/-- Settles O17. -/
theorem crankDeadlineTaken : Obligations.CrankDeadlineTaken := by
  unfold Obligations.CrankDeadlineTaken
  refine fun s p tp released hp htp passed => ⟨fun half => ?_, fun full enabled clear fed identified => ?_,
    fun full fails => ?_⟩
  · refine exec_crankDeadline released (crankDeadlineDue_of_passed hp htp passed (.inl half)) ?_
    have unknown : ({ s.tracker.emptyCrank with edgeAngle := none } : Tracker).sync.holdsAngle = false :=
      congrArg Sync.holdsAngle half
    rw [crankDeadline_of_seeking (by simp [half])]
    refine (moveTo_untold_withTracker .crankDeadline s unknown (new := .seeking) rfl).trans ?_
    exact congrArg (fun x => queueNotice (.syncChange x .seeking .crankDeadline) _) half
  · have due := crankDeadlineDue_of_passed hp htp passed (.inr full)
    have limp := crankDeadline_of_limp ⟨full, (limpAllowed_iff s).mpr ⟨enabled, clear, fed, identified⟩⟩
    generalize hx : ({ s.tracker.emptyCrank with
      edgeAngle := some (camAngle s.plan.engine.camSync s.tracker.cam.identity)
      cam := { s.tracker.cam with lastAccepted := s.tracker.cam.lastEdge } } : Tracker) = x at limp
    have sync : x.sync = .fullSync := by
      rw [← hx]
      exact full
    have limp : crankDeadline s = queueToCam (queueNotice (.syncChange .fullSync .camLimp .crankDeadline)
        (s.withTracker { x with sync := .camLimp })) := limp.trans (moveTo_toCam (s := s.withTracker x) .crankDeadline sync)
    have before : SameCycles s (queueNotice (.syncChange .fullSync .camLimp .crankDeadline)
        (s.withTracker { x with sync := .camLimp })) :=
      (SameCycles.withTracker s _).trans (SameCycles.queueNotice _ _)
    refine ⟨_, exec_crankDeadline released due limp, ?_, ?_, ?_, ?_, ?_, fun b => ?_, ?_, ?_, ?_, ?_, fun tied => ?_⟩
    · rw [queueToCam_tracker, queueNotice_tracker, ← hx]
      rfl
    · rw [queueToCam_queue, before.queue]
    · rw [queueToCam_queue]
    · rw [queueToCam_queue, before.queue] <;> rfl
    · rw [queueToCam_queue, before.queue]
    · rw [queueToCam_bank, before.bank]
      exact ⟨rfl, rfl⟩
    · rw [queueToCam_plan, before.plan]
    · rw [queueToCam_diag, queueNotice_diag]
      rfl
    · rw [queueToCam_timebase, before.timebase]
    · exact toCam_notices (.notice (t := s.withTracker { x with sync := .camLimp }) _ rfl rfl) before.queue
        (fun b => by rw [before.bank]) (congrArg RunControl.mode before.run)
    · exact before.ends (queueToCam_ends (before.linked (tied released).1))
  · have due := crankDeadlineDue_of_passed hp htp passed (.inr full)
    have seek := crankDeadline_of_seeking (s := s) fun limp => limpAllowed_of_fails fails limp.2
    have known : ({ s.tracker.emptyCrank with edgeAngle := none } : Tracker).sync.holdsAngle = true :=
      congrArg Sync.holdsAngle full
    have lost := moveTo_losesAngle_withTracker .crankDeadline s known (new := .seeking) rfl
    refine ⟨_, exec_crankDeadline released due seek, moveTo_loss_withTracker_tracker .crankDeadline s known rfl,
      lost.queue, lost.bank, lost.plan, moveTo_loss_withTracker_diag .crankDeadline s known rfl, lost.timebase,
      lost.fuelcut, lost.band, ?_, fun tied => lost.ends (tied released).1⟩
    rw [← full]
    exact lost.notices

/-! ## The cam deadline (R26) -/

section
variable {s : State} {p : Tick} {tp : Nat}

theorem camDeadlineDue_of_passed (limp : s.tracker.sync = .camLimp) (hp : s.tracker.cam.lastAccepted = some p)
    (htp : s.tracker.cam.tp = some tp) (passed : 2 * camInterval (camSpan s.tracker) tp ≤ elapsed p s.timebase) :
    camDeadlineDue s = true := by
  simp [camDeadlineDue, hp, htp, passed, limp]

theorem exec_camDeadline (released : s.resetHeld = false) (due : camDeadlineDue s = true) :
    exec .camDeadline s = .next (camDeadline s) := takeDue_of_due released due rfl

end

/-- Settles O18. -/
theorem camDeadlineTaken : Obligations.CamDeadlineTaken := by
  unfold Obligations.CamDeadlineTaken
  intro s p tp released limp hp htp passed
  have known : ({ s.tracker with half := none, edgeAngle := none } : Tracker).sync.holdsAngle = true :=
    congrArg Sync.holdsAngle limp
  have lost := moveTo_setCamFault_losesAngle .limpDeadline .camDeadline s known (new := .seeking) rfl
  refine ⟨_, exec_camDeadline released (camDeadlineDue_of_passed limp hp htp passed), ?_, lost.entries, ?_, ?_, ?_,
    fun b => ⟨lost.waiting b, lost.drive b⟩, ?_, lost.timebase, lost.plan, ?_, fun tied => lost.ends (tied released).1⟩
  · exact moveTo_setCamFault_tracker .limpDeadline .camDeadline s known rfl
  · rw [camDeadline, lost.queue]
  · rw [camDeadline, lost.queue]
  · rw [camDeadline, lost.queue]
  · exact moveTo_setCamFault_diag .limpDeadline .camDeadline s known rfl
  · rw [← limp]
    exact lost.notices

/-! ## The stall timeout (R18) -/

section
variable {s : State} {r : Tick}

theorem stallDue_of_passed (hr : stallFrom s.tracker = some r) (passed : stallTicks s ≤ elapsed r s.timebase) :
    stallDue s = true := by
  simp [stallDue, hr, passed]

theorem exec_stallTimeout {t : State} (released : s.resetHeld = false) (due : stallDue s = true) (ht : stall s = t) :
    exec .stallTimeout s = .next t := takeDue_of_due released due ht

theorem stall_of_moving (h : s.tracker.sync ≠ .stopped) :
    stall s = moveTo .stopped .stall (s.withTracker s.tracker.stalled) := if_neg h

theorem stall_of_stopped (h : s.tracker.sync = .stopped) :
    stall s = s.withTracker { s.tracker with cam := resetCam } := if_pos h

end

/-- Settles O19. -/
theorem stallTimeoutTaken : Obligations.StallTimeoutTaken := by
  unfold Obligations.StallTimeoutTaken
  refine fun s r released passed => ⟨fun moving hr => ?_, fun stopped hr => ?_⟩
  · have due := stallDue_of_passed (s := s) ((if_neg moving).trans hr) passed
    refine ⟨_, exec_stallTimeout released due (stall_of_moving moving), ?_⟩
    cases known : s.tracker.sync.holdsAngle with
    | true =>
      have lost := moveTo_losesAngle_withTracker .stall s (x := s.tracker.stalled) known (new := .stopped) rfl
      exact ⟨moveTo_loss_withTracker_tracker .stall s (x := s.tracker.stalled) known rfl,
        fun _ => ⟨lost.entries, lost.waiting, lost.plan, lost.notices, fun tied => lost.ends (tied released).1⟩,
        nofun, lost.drive, moveTo_loss_withTracker_diag .stall s (x := s.tracker.stalled) known rfl, lost.timebase⟩
    | false =>
      rw [moveTo_untold_withTracker .stall s (x := s.tracker.stalled) known rfl]
      refine ⟨by simp [Tracker.stalled], nofun, fun _ => ⟨by simp, by simp, by simp, ?_⟩, by simp, by simp, by simp⟩
      exact queueNotice_link_congr _ rfl rfl
  · exact exec_stallTimeout released (stallDue_of_passed ((if_pos stopped).trans hr) passed) (stall_of_stopped stopped)

end Sys2Proof.Machine
end

section
/-! The queue at an edge handed on: the commit window, the catch-up and the pending marks, entry by entry (R96 to R101). -/

namespace Sys2Proof.Machine

/-! ## The entry of a key (R90) -/

theorem findEntry_of_queue {s t : State} (h : t.queue.entries = s.queue.entries) (k : Key) :
    findEntry k t = findEntry k s := by
  rw [findEntry, findEntry, h]

theorem findEntry_removeKey_self (k : Key) (s : State) : findEntry k (removeKey k s) = none := by
  refine List.find?_eq_none.mpr fun e he hk => ?_
  exact removeKey_noEntry k s e he (beq_iff_eq.mp hk)

theorem findEntry_removeKey_other {k j : Key} (h : j ≠ k) (s : State) : findEntry j (removeKey k s) = findEntry j s := by
  simp only [findEntry, removeKey, State.withQueue_queue, List.find?_filter]
  refine congrArg (fun f => List.find? f s.queue.entries) ?_
  funext e
  by_cases hj : e.key = j
  · simp [hj, h]
  · simp [hj]

section
variable {f : Entry → Entry}

/-- Whether an entry is that of a key after it is committed under its own key. -/
theorem key_setCommit (hf : ∀ e, (f e).key = e.key) (k : Key) (e : Entry) : (if e.key = k then f e else e).key = e.key := by
  split
  · exact hf e
  · rfl

theorem findEntry_setCommit (hf : ∀ e, (f e).key = e.key) (k j : Key) (s : State) :
    findEntry j (setCommit k f s) = (findEntry j s).map fun e => if e.key = k then f e else e := by
  simp only [findEntry, setCommit, State.withQueue_queue, List.find?_map]
  refine congrArg (fun g => Option.map _ (List.find? g s.queue.entries)) ?_
  funext e
  exact congrArg (· == j) (key_setCommit hf k e)

theorem findEntry_setCommit_other (hf : ∀ e, (f e).key = e.key) {k j : Key} (h : j ≠ k) (s : State) :
    findEntry j (setCommit k f s) = findEntry j s := by
  rw [findEntry_setCommit hf]
  cases he : findEntry j s with
  | none => rfl
  | some e => exact congrArg some (if_neg fun hk => h ((findEntry_spec he).2.symm.trans hk))

theorem findEntry_setCommit_self (hf : ∀ e, (f e).key = e.key) {k : Key} {s : State} {e : Entry}
    (h : findEntry k s = some e) : findEntry k (setCommit k f s) = some (f e) := by
  rw [findEntry_setCommit hf, h]
  exact congrArg some (if_pos (findEntry_spec h).2)

end

theorem findEntry_reportUnfired (k : Key) (c : Cyl) (n : Nat) (o : SlotOutcome) (s : State) :
    findEntry k (reportUnfired c n o s) = findEntry k s :=
  findEntry_of_queue (by rw [(reportUnfired_closes c n o s).queue]) k

theorem findEntry_updateSlots (k : Key) (c : Cyl) (f : List Slot → List Slot) (s : State) :
    findEntry k (updateSlots c f s) = findEntry k s :=
  findEntry_of_queue (by rw [(updateSlots_closes c f s).queue]) k

/-- With keys that do not repeat, an entry of the queue is the entry of its key. -/
theorem entry_unique {s : State} (b : s.queue.Bounded) {e y : Entry} (he : e ∈ s.queue.entries)
    (hy : findEntry y.key s = some y) (hk : e.key = y.key) : e = y :=
  List.inj_on_of_nodup_map b.nodup he (findEntry_spec hy).1 hk

/-! ## The keys of a window (R98, R101) -/

theorem insertSorted_perm (before : Entry → Entry → Bool) (e : Entry) (xs : List Entry) :
    (insertSorted before e xs).Perm (e :: xs) := by
  induction xs with
  | nil => exact .refl _
  | cons x xs ih =>
    unfold insertSorted
    split
    · exact .refl _
    · exact (ih.cons x).trans (.swap e x xs)

theorem sortEntries_perm (before : Entry → Entry → Bool) (xs : List Entry) : (sortEntries before xs).Perm xs := by
  induction xs with
  | nil => exact .refl _
  | cons x xs ih => exact (insertSorted_perm before x _).trans (ih.cons x)

theorem keysWithin_nodup {s : State} (b : s.queue.Bounded) (angle n : Nat) : (keysWithin angle n s).Nodup := by
  have ordered : ((queueOrder s).map Entry.key).Nodup := ((sortEntries_perm _ _).map Entry.key).nodup_iff.mpr b.nodup
  exact ordered.sublist (List.filter_sublist.map Entry.key)

theorem mem_keysWithin_iff {s : State} (b : s.queue.Bounded) {y : Entry} (hy : findEntry y.key s = some y)
    (angle n : Nat) : y.key ∈ keysWithin angle n s ↔ y.waitingWithin angle n = true := by
  rw [keysWithin, List.mem_map]
  constructor
  · rintro ⟨e, he, hk⟩
    obtain ⟨ordered, within⟩ := List.mem_filter.mp he
    rwa [← entry_unique b ((queueOrder_mem s e).mp ordered) hy hk]
  · exact fun within => ⟨y, List.mem_filter.mpr ⟨(queueOrder_mem s y).mpr (findEntry_spec hy).1, within⟩, rfl⟩

theorem waitingWithin_iff {y : Entry} {target : Nat} (hc : y.commit = none) (ht : y.target = some target)
    (angle n : Nat) : y.waitingWithin angle n = true ↔ forward angle target < n := by
  simp [Entry.waitingWithin, hc, ht]

/-! ## The commit of an entry (R98, R99) -/

/-- An entry with a commitment at an edge to a target. -/
def Entry.committedAt (y : Entry) (e : EdgeRef) (target : Nat) : Entry :=
  { y with commit := some { ref := e.time, delay := delay e (forward e.angle target) } }

section
variable {e : EdgeRef} {s : State} {y : Entry} {target : Nat}

theorem commitKey_of_unpulsed (hy : findEntry y.key s = some y) (hc : y.commit = none) (ht : y.target = some target)
    (hk : ∀ c n, y.key ≠ .pulse c n) :
    commitKey e y.key s = setCommit y.key (fun z => z.committedAt e target) s := by
  simp only [commitKey, hy, ht, hc]
  cases hkey : y.key with
  | pulse c n => exact absurd hkey (hk c n)
  | arm c => cases y.pulse <;> rfl
  | mark i => cases y.pulse <;> rfl

theorem commitKey_of_pulse {c : Cyl} {n : Nat} {q : PulseKind × Nat} (hy : findEntry y.key s = some y)
    (hc : y.commit = none) (ht : y.target = some target) (hk : y.key = .pulse c n) (hq : y.pulse = some q) :
    commitKey e y.key s = commitPulse e c n target q.2 s := by
  rw [hk] at hy ⊢
  simp only [commitKey, hy, ht, hc, hq]

variable {c : Cyl} {n energize : Nat} {x : CycleContext}

theorem commitPulse_of_limit (hx : s.contexts.get c = some x)
    (short : commitAvailable e x.armAngle x.eoiAngle target < 120) :
    commitPulse e c n target energize s = reportUnfired c n (.suppressed .limit) (removeKey (.pulse c n) s) := by
  simp only [commitPulse, hx]
  exact if_pos short

theorem commitPulse_of_available (hx : s.contexts.get c = some x)
    (available : 120 ≤ commitAvailable e x.armAngle x.eoiAngle target) :
    commitPulse e c n target energize s =
      updateSlots c
        (mapSlot n (Slot.commitTo (later e.time (delay e (forward e.angle target)))
          (decide (commitAvailable e x.armAngle x.eoiAngle target < (energize : Int)))))
        (setCommit (.pulse c n)
          (fun y => { y.committedAt e target with
            pulse := y.pulse.map fun q =>
              (q.1, min energize (commitAvailable e x.armAngle x.eoiAngle target).toNat) })
          s) := by
  simp only [commitPulse, hx]
  exact if_neg (Int.not_lt.mpr available)

end

section
variable {e : EdgeRef} {k j : Key}

theorem findEntry_commitPulse_other {c : Cyl} {n : Nat} (h : j ≠ .pulse c n) (target energize : Nat) (s : State) :
    findEntry j (commitPulse e c n target energize s) = findEntry j s := by
  cases hx : s.contexts.get c with
  | none =>
    simp only [commitPulse, hx]
    exact findEntry_removeKey_other h s
  | some x =>
    by_cases short : commitAvailable e x.armAngle x.eoiAngle target < 120
    · rw [commitPulse_of_limit hx short, findEntry_reportUnfired, findEntry_removeKey_other h]
    · rw [commitPulse_of_available hx (Int.not_lt.mp short), findEntry_updateSlots,
        findEntry_setCommit_other (by exact fun _ => rfl) h]

/-- The commit of one key leaves the entries of the others. -/
theorem findEntry_commitKey_other (h : j ≠ k) (s : State) : findEntry j (commitKey e k s) = findEntry j s := by
  unfold commitKey
  split
  · rfl
  · split
    · split
      · exact findEntry_commitPulse_other h ..
      · rfl
      · exact findEntry_setCommit_other (by exact fun _ => rfl) h s
    · rfl

/-- The catch-up of one key leaves the entries of the others. -/
theorem findEntry_catchUpKey_other (h : j ≠ k) (s : State) : findEntry j (catchUpKey e k s) = findEntry j s := by
  unfold catchUpKey
  split
  · rw [findEntry_reportUnfired, findEntry_removeKey_other h]
  · exact findEntry_setCommit_other (by exact fun _ => rfl) h s

end

/-! ## A list of keys, one after another -/

theorem commitKeys_eq_foldl (e : EdgeRef) (ks : List Key) :
    ∀ s, commitKeys e ks s = ks.foldl (fun t k => commitKey e k t) s := by
  induction ks with
  | nil => exact fun _ => rfl
  | cons k ks ih => exact fun s => ih _

theorem catchUpKeys_eq_foldl (e : EdgeRef) (ks : List Key) :
    ∀ s, catchUpKeys e ks s = ks.foldl (fun t k => catchUpKey e k t) s := by
  induction ks with
  | nil => exact fun _ => rfl
  | cons k ks ih => exact fun s => ih _

section
variable {f : State → Key → State} {j : Key}

theorem findEntry_foldl_of_not_mem (other : ∀ k s, j ≠ k → findEntry j (f s k) = findEntry j s) (ks : List Key) :
    ∀ s, j ∉ ks → findEntry j (ks.foldl f s) = findEntry j s := by
  induction ks with
  | nil => exact fun _ _ => rfl
  | cons k ks ih =>
    intro s h
    rw [List.foldl_cons, ih _ fun hj => h (List.mem_cons_of_mem k hj), other k s fun hj => h (hj ▸ List.mem_cons_self ..)]

/-- A key of the list is taken in a state that has what the keys before it keep. -/
theorem findEntry_foldl_of_mem {P : State → Prop} (other : ∀ k s, j ≠ k → findEntry j (f s k) = findEntry j s)
    (keep : ∀ k s, j ≠ k → P s → P (f s k)) (ks : List Key) :
    ∀ s, ks.Nodup → j ∈ ks → P s → ∃ t, P t ∧ findEntry j (ks.foldl f s) = findEntry j (f t j) := by
  induction ks with
  | nil => exact fun _ _ hj => absurd hj List.not_mem_nil
  | cons k ks ih =>
    intro s nodup hj hP
    obtain ⟨fresh, nodup⟩ := List.nodup_cons.mp nodup
    by_cases hk : j = k
    · subst hk
      exact ⟨s, hP, findEntry_foldl_of_not_mem other ks _ fresh⟩
    · exact ih _ nodup ((List.mem_cons.mp hj).resolve_left hk) (keep k s hk hP)

end

/-! ## The limits of a context stand through the window -/

/-- Every context open in a second state was open in a first, with the same arm angle and limit. -/
def LimitsFrom (s t : State) : Prop :=
  ∀ c y, t.contexts.get c = some y → ∃ x, s.contexts.get c = some x ∧ y.armAngle = x.armAngle ∧ y.eoiAngle = x.eoiAngle

namespace LimitsFrom

theorem of_contexts {s t : State} (h : t.contexts = s.contexts) : LimitsFrom s t :=
  fun c y hy => ⟨y, by rwa [← h], rfl, rfl⟩

theorem trans {s t u : State} (h : LimitsFrom s t) (k : LimitsFrom t u) : LimitsFrom s u := by
  intro c z hz
  obtain ⟨y, hy, arm_y, eoi_y⟩ := k c z hz
  obtain ⟨x, hx, arm_x, eoi_x⟩ := h c y hy
  exact ⟨x, hx, arm_y.trans arm_x, eoi_y.trans eoi_x⟩

theorem updateSlots (c : Cyl) (f : List Slot → List Slot) (s : State) : LimitsFrom s (updateSlots c f s) := by
  intro d y hy
  rw [updateSlots_get] at hy
  split at hy
  next same =>
    obtain ⟨x, hx, rfl⟩ := Option.map_eq_some_iff.mp hy
    exact ⟨x, same ▸ hx, rfl, rfl⟩
  next other => exact ⟨y, hy, rfl, rfl⟩

theorem closeTest (c : Cyl) (s : State) : LimitsFrom s (closeTest c s) := by
  rcases closeTest_spec c s with ⟨kept, _, _⟩ | ⟨x, _, _, closed, _⟩
  · exact of_contexts kept
  · intro d y hy
    rw [closed, PerCyl.get_set] at hy
    split at hy
    · cases hy
    · exact ⟨y, hy, rfl, rfl⟩

theorem reportUnfired (c : Cyl) (n : Nat) (o : SlotOutcome) (s : State) : LimitsFrom s (reportUnfired c n o s) :=
  (updateSlots c _ s).trans (closeTest c _)

theorem commitPulse (e : EdgeRef) (c : Cyl) (n target energize : Nat) (s : State) :
    LimitsFrom s (commitPulse e c n target energize s) := by
  cases hx : s.contexts.get c with
  | none =>
    simp only [Machine.commitPulse, hx]
    exact of_contexts rfl
  | some x =>
    by_cases short : commitAvailable e x.armAngle x.eoiAngle target < 120
    · rw [commitPulse_of_limit hx short]
      exact (of_contexts rfl).trans (reportUnfired _ _ _ _)
    · rw [commitPulse_of_available hx (Int.not_lt.mp short)]
      exact (of_contexts rfl).trans (updateSlots _ _ _)

theorem commitKey (e : EdgeRef) (k : Key) (s : State) : LimitsFrom s (commitKey e k s) := by
  unfold Machine.commitKey
  split
  · exact of_contexts rfl
  · split
    · split
      · exact commitPulse _ _ _ _ _ _
      · exact of_contexts rfl
      · exact of_contexts rfl
    · exact of_contexts rfl

end LimitsFrom

/-! ## The commit window (R98, R99) -/

section
variable {s : State} {e : EdgeRef} {y : Entry} {target : Nat}

theorem takeWindow_of_beyond (b : s.queue.Bounded) (hy : findEntry y.key s = some y) (hc : y.commit = none)
    (ht : y.target = some target) (far : e.span ≤ forward e.angle target) :
    findEntry y.key (takeWindow e s) = some y := by
  have outside : y.key ∉ keysWithin e.angle e.span s := fun within =>
    absurd ((waitingWithin_iff hc ht _ _).mp ((mem_keysWithin_iff b hy _ _).mp within)) (Nat.not_lt.mpr far)
  rw [takeWindow, commitKeys_eq_foldl, findEntry_foldl_of_not_mem (fun _ t h => findEntry_commitKey_other h t) _ _ outside, hy]

/-- An entry within the window is committed in a state that still holds it, and whose contexts have the limits they had. -/
theorem takeWindow_commits (b : s.queue.Bounded) (l : s.Linked) (hy : findEntry y.key s = some y) (hc : y.commit = none)
    (ht : y.target = some target) (near : forward e.angle target < e.span) :
    ∃ t, (findEntry y.key t = some y ∧ t.Linked ∧ LimitsFrom s t) ∧
      findEntry y.key (takeWindow e s) = findEntry y.key (commitKey e y.key t) := by
  have within := (mem_keysWithin_iff b hy _ _).mpr ((waitingWithin_iff hc ht e.angle e.span).mpr near)
  rw [takeWindow, commitKeys_eq_foldl]
  refine findEntry_foldl_of_mem (P := fun t => findEntry y.key t = some y ∧ t.Linked ∧ LimitsFrom s t)
    (fun _ t h => findEntry_commitKey_other h t) (fun k t hk ⟨held, linked, limits⟩ => ⟨?_, ?_, ?_⟩) _ s
    (keysWithin_nodup b _ _) within ⟨hy, l, .of_contexts rfl⟩
  · rw [findEntry_commitKey_other hk, held]
  · exact (commitKey_keeps e k t linked).1
  · exact limits.trans (.commitKey e k t)

/-- A WAITING PULSE entry's context is open, with the limits it had at the start of the window. -/
theorem context_of_waiting {t : State} {c : Cyl} {n : Nat} {x : CycleContext} (held : findEntry y.key t = some y)
    (linked : t.Linked) (limits : LimitsFrom s t) (hk : y.key = .pulse c n) (hc : y.commit = none)
    (hx : s.contexts.get c = some x) :
    ∃ z, t.contexts.get c = some z ∧ z.armAngle = x.armAngle ∧ z.eoiAngle = x.eoiAngle := by
  have waiting := linked.waitingEntry y (findEntry_spec held).1 c n hk hc
  cases hz : t.contexts.get c with
  | none => simp [slotAt, hz] at waiting
  | some z =>
    obtain ⟨x', hx', arm, eoi⟩ := limits c z hz
    rw [hx] at hx'
    cases hx'
    exact ⟨z, rfl, arm, eoi⟩

end

section
variable {e : EdgeRef} {s : State} {y : Entry} {target : Nat} {c : Cyl} {n energize : Nat} {kind : PulseKind}
  {x : CycleContext}

theorem findEntry_commitKey_of_limit (hy : findEntry y.key s = some y) (hc : y.commit = none)
    (ht : y.target = some target) (hk : y.key = .pulse c n) (hq : y.pulse = some (kind, energize))
    (hx : s.contexts.get c = some x) (short : commitAvailable e x.armAngle x.eoiAngle target < 120) :
    findEntry y.key (commitKey e y.key s) = none := by
  rw [commitKey_of_pulse hy hc ht hk hq, commitPulse_of_limit hx short, findEntry_reportUnfired, hk,
    findEntry_removeKey_self]

theorem findEntry_commitKey_of_available (hy : findEntry y.key s = some y) (hc : y.commit = none)
    (ht : y.target = some target) (hk : y.key = .pulse c n) (hq : y.pulse = some (kind, energize))
    (hx : s.contexts.get c = some x) (available : 120 ≤ commitAvailable e x.armAngle x.eoiAngle target) :
    findEntry y.key (commitKey e y.key s) =
      some { y.committedAt e target with
        pulse := some (kind, min energize (commitAvailable e x.armAngle x.eoiAngle target).toNat) } := by
  rw [commitKey_of_pulse hy hc ht hk hq, commitPulse_of_available hx available, findEntry_updateSlots, ← hk,
    findEntry_setCommit_self (by exact fun _ => rfl) hy, hq]
  rfl

end

/-! ## The catch-up (R101) -/

section
variable {s : State} {e : EdgeRef} {f : Nat}

theorem catchUp_of_far (hf : s.queue.frontier = some f) (far : 3600 ≤ forward f e.angle) :
    catchUp e s = dropFrontier s := by
  simp only [catchUp, hf]
  exact if_pos far

theorem catchUp_of_passed (hf : s.queue.frontier = some f) (near : forward f e.angle < 3600) :
    catchUp e s = dropFrontier (catchUpKeys e (keysWithin f (forward f e.angle) s) s) := by
  simp only [catchUp, hf]
  exact if_neg (Nat.not_le.mpr near)

theorem catchUp_frontier (hf : s.queue.frontier = some f) : (catchUp e s).queue.frontier = none := by
  by_cases far : 3600 ≤ forward f e.angle
  · rw [catchUp_of_far hf far]
    rfl
  · rw [catchUp_of_passed hf (Nat.not_le.mp far)]
    rfl

theorem findEntry_dropFrontier (k : Key) (s : State) : findEntry k (dropFrontier s) = findEntry k s := rfl

variable {y : Entry} {target : Nat}

theorem catchUp_of_unpassed (b : s.queue.Bounded) (hf : s.queue.frontier = some f) (hy : findEntry y.key s = some y)
    (hc : y.commit = none) (ht : y.target = some target)
    (h : 3600 ≤ forward f e.angle ∨ forward f e.angle ≤ forward f target) : findEntry y.key (catchUp e s) = some y := by
  by_cases far : 3600 ≤ forward f e.angle
  · rw [catchUp_of_far hf far, findEntry_dropFrontier, hy]
  · have outside : y.key ∉ keysWithin f (forward f e.angle) s := fun within =>
      absurd ((waitingWithin_iff hc ht _ _).mp ((mem_keysWithin_iff b hy _ _).mp within))
        (Nat.not_lt.mpr (h.resolve_left far))
    rw [catchUp_of_passed hf (Nat.not_le.mp far), findEntry_dropFrontier, catchUpKeys_eq_foldl,
      findEntry_foldl_of_not_mem (fun _ t h => findEntry_catchUpKey_other h t) _ _ outside, hy]

/-- A passed entry is caught up in a state that still holds it. -/
theorem catchUp_catches (b : s.queue.Bounded) (hf : s.queue.frontier = some f) (hy : findEntry y.key s = some y)
    (hc : y.commit = none) (ht : y.target = some target) (near : forward f e.angle < 3600)
    (passed : forward f target < forward f e.angle) :
    ∃ t, findEntry y.key t = some y ∧ findEntry y.key (catchUp e s) = findEntry y.key (catchUpKey e y.key t) := by
  have within := (mem_keysWithin_iff b hy _ _).mpr ((waitingWithin_iff hc ht f (forward f e.angle)).mpr passed)
  rw [catchUp_of_passed hf near, findEntry_dropFrontier, catchUpKeys_eq_foldl]
  refine findEntry_foldl_of_mem (P := fun t => findEntry y.key t = some y)
    (fun _ t h => findEntry_catchUpKey_other h t) (fun k t hk held => ?_) _ s (keysWithin_nodup b _ _) within hy
  rw [findEntry_catchUpKey_other hk, held]

end

theorem findEntry_catchUpKey_unpulsed {e : EdgeRef} {y : Entry} {s : State} (hy : findEntry y.key s = some y)
    (hk : ∀ c n, y.key ≠ .pulse c n) :
    findEntry y.key (catchUpKey e y.key s) = some { y with commit := some { ref := e.time, delay := 0 } } := by
  unfold catchUpKey
  split
  next c n key => exact absurd key (hk c n)
  · exact findEntry_setCommit_self (by exact fun _ => rfl) hy

theorem catchUpKey_of_pulse {k : Key} {c : Cyl} {n : Nat} (hk : k = .pulse c n) (e : EdgeRef) (s : State) :
    catchUpKey e k s = reportUnfired c n (.suppressed .late) (removeKey k s) := by
  subst hk
  rfl

/-! ## The pending marks (R96) -/

theorem insertPendingMarks_gives {s : State} (h : s.KeySorted) :
    Gives (fun k => match k with
        | .mark i => if i ∈ s.queue.pendingMarks then givenMark s i else none
        | _ => none)
      (s.withQueue { s.queue with pendingMarks := [] }) (insertPendingMarks s) :=
  insertMarkList_gives (s := s.withQueue { s.queue with pendingMarks := [] }) s.queue.pendingMarks h

/-! ## The available time of a commit (R37, R38, R99) -/

theorem limitPassed_iff (arm limit angle : Nat) : limitPassed arm limit angle = true ↔ forward arm limit < forward arm angle := by
  simp [limitPassed]

theorem commitAvailable_of_ahead {e : EdgeRef} {arm limit target : Nat}
    (h : forward arm e.angle ≤ forward arm limit ∨ forward e.angle arm ≤ forward e.angle target) :
    commitAvailable e arm limit target
      = (delay e (forward e.angle limit) : Int) - (delay e (forward e.angle target) : Int) := by
  refine if_neg fun passed => ?_
  obtain ⟨beyond, notBefore⟩ := Bool.and_eq_true_iff.mp passed
  rcases h with h | h
  · exact absurd ((limitPassed_iff ..).mp beyond) (Nat.not_lt.mpr h)
  · simp [edgeBeforeArm, h] at notBefore

theorem commitAvailable_of_passed {e : EdgeRef} {arm limit target : Nat} (beyond : forward arm limit < forward arm e.angle)
    (behind : forward e.angle target < forward e.angle arm) : commitAvailable e arm limit target = 0 := by
  have passed : commitLimitPassed e arm limit target = true := by
    simp [commitLimitPassed, (limitPassed_iff ..).mpr beyond, edgeBeforeArm, behind]
  exact if_pos passed

end Sys2Proof.Machine
end

section
/-! Accepted crank edges: the gap search with its confirmation, the recovery from CAM_LIMP, tooth counting, and the hand-off of
an edge to the Firing Queue (R4 to R7, R11, R13, R27, R96 to R101). -/

namespace Sys2Proof.Machine

/-! ## Measuring and classing an edge (R4, R5) -/

section
variable {t1 i : Nat} {hist : List Nat}

theorem crankClass_pitch (h : 10 * i < 22 * t1) : crankClass (t1 :: hist) i = .pitch := if_pos h

theorem crankClass_gap (low : 22 * t1 ≤ 10 * i) (high : 10 * i ≤ 38 * t1) : crankClass (t1 :: hist) i = .gap :=
  (if_neg (Nat.not_lt.mpr low)).trans (if_pos high)

end

section
variable (t : Tracker)

theorem gapSearch_gap : t.gapSearch .gap =
    { t with
      refGap := true, tooth := 0
      gapCount := if t.refGap then (if t.tooth = lastTooth t.wheel then min 4 (t.gapCount + 1) else 0) else 1 } := by
  unfold Tracker.gapSearch
  cases h : t.refGap with
  | false => rfl
  | true =>
    by_cases last : t.tooth = lastTooth t.wheel
    · simp [last, satAdd, ← h]
    · simp [last, ← h]

theorem gapSearch_pitch : t.gapSearch .pitch =
    { t with
      refGap := t.refGap && decide (t.tooth ≠ lastTooth t.wheel)
      tooth := if t.refGap ∧ t.tooth ≠ lastTooth t.wheel then t.tooth + 1 else t.tooth
      gapCount := if t.refGap ∧ t.tooth = lastTooth t.wheel then 0 else t.gapCount } := by
  unfold Tracker.gapSearch
  cases h : t.refGap with
  | false =>
    simp only [Bool.false_and, Bool.false_eq_true, false_and, if_false]
    exact congrArg (fun r => { t with refGap := r }) h
  | true =>
    by_cases last : t.tooth = lastTooth t.wheel
    · simp [last]
    · simp [last, ← h]

end

theorem interpolated_measure {t : Tracker} (h : t.sync = .camLimp) (accel : Bool) (k : CrankClass) (i : Nat)
    (now at_ : Tick) : interpolated (t.measure accel k i now) at_ = interpolated t at_ := by
  simp [interpolated, carrier, Tracker.measure, h, camSpan]

/-! ## The hand-off of an edge (R7, R98) -/

theorem handOn_of_carrier {s : State} {e : EdgeRef} (h : carrier s.tracker = some e) :
    handOn s = fireDue 68 (setCommitRef e (takeWindow e (catchUp e (insertPendingMarks s)))) := by
  simp only [handOn, h]
  rfl

theorem crankSpan_eq (w : Wheel) (tooth : Nat) :
    crankSpan w tooth = if tooth = lastTooth w then 3 * pitchSteps w else pitchSteps w := rfl

theorem crankSpan_zero (w : Wheel) : crankSpan w 0 = pitchSteps w := by cases w <;> rfl

theorem halfOffset_some (half : Bool) : halfOffset (some half) = if half then 3600 else 0 := by cases half <;> rfl

/-! ## The gap search of SEEKING (R5, R13) -/

section
variable {s : State} {k : CrankClass} {v : Tracker}

theorem confirms_iff (g : Nat) : v.confirms g k = true ↔ k = .gap ∧ g ≤ v.gapCount := by simp [Tracker.confirms]

theorem confirms_of_fails {g : Nat} (h : k ≠ .gap ∨ v.gapCount < g) : ¬ v.confirms g k = true := by
  rw [confirms_iff]
  exact fun ⟨gap, reached⟩ => h.elim (· gap) (Nat.not_lt.mpr reached)

theorem crankSeeking_unconfirmed (hv : s.tracker.gapSearch k = v) (h : k ≠ .gap ∨ v.gapCount < s.plan.engine.gapConfirm) :
    crankSeeking k s = s.withTracker v := by
  subst hv
  exact if_neg (confirms_of_fails h)

theorem crankSeeking_confirmed (hv : s.tracker.gapSearch k = v) (gap : k = .gap)
    (reached : s.plan.engine.gapConfirm ≤ v.gapCount) :
    crankSeeking k s = moveTo .halfSync .gapConfirmed
      (s.withTracker
        { v with
          tooth := 0, half := none, edgeAngle := some (s.plan.engine.gapOffset % 3600)
          cam := { s.tracker.cam with revsNoExtra := 0 } }) := by
  subst hv
  exact if_pos ((confirms_iff _).mpr ⟨gap, reached⟩)

/-! ## The recovery search of CAM_LIMP (R27) -/

theorem crankRecovery_unconfirmed (hv : s.tracker.gapSearch k = v)
    (h : k ≠ .gap ∨ v.gapCount < s.plan.engine.gapConfirm) : crankRecovery k s = s.withTracker v := by
  subst hv
  exact if_neg (confirms_of_fails h)

theorem crankRecovery_confirmed {x : Nat} (hv : s.tracker.gapSearch k = v) (gap : k = .gap)
    (reached : s.plan.engine.gapConfirm ≤ v.gapCount) (hx : interpolated s.tracker s.timebase = some x) :
    crankRecovery k s = crankRestore x (s.withTracker v) := by
  subst hv
  refine (if_pos ((confirms_iff _).mpr ⟨gap, reached⟩)).trans ?_
  rw [hx]

end

theorem nearerHalf_eq (gapOffset angle : Nat) :
    nearerHalf gapOffset angle =
      (decide (distance 7200 angle ((gapOffset + 3600) % 7200) < distance 7200 angle (gapOffset % 7200)),
        min (distance 7200 angle (gapOffset % 7200)) (distance 7200 angle ((gapOffset + 3600) % 7200))) := by
  unfold nearerHalf
  split
  next nearer => rw [decide_eq_true nearer, Nat.min_eq_right (Nat.le_of_lt nearer)]
  next farther => rw [decide_eq_false farther, Nat.min_eq_left (Nat.le_of_not_lt farther)]

theorem crankRestore_of_far {s : State} {x : Nat}
    (far : s.plan.engine.camTolerance < (nearerHalf s.plan.engine.gapOffset x).2) :
    crankRestore x s = s.withTracker { s.tracker with gapCount := 0 } := if_neg (Nat.not_le.mpr far)

theorem crankRestore_of_near {s : State} {x : Nat} (limp : s.tracker.sync = .camLimp)
    (near : (nearerHalf s.plan.engine.gapOffset x).2 ≤ s.plan.engine.camTolerance) :
    crankRestore x s =
      handOn (queueToCrank (queueNotice (.syncChange .camLimp .fullSync .crankRestored)
        (s.withTracker
          { s.tracker.restore s.plan.engine.gapOffset (nearerHalf s.plan.engine.gapOffset x).1 with
            sync := .fullSync }))) := by
  refine (if_pos near).trans (congrArg handOn ?_)
  exact moveTo_toCrank (s := s.withTracker _) .crankRestored limp

/-- The move back to the crank forms the catch-up frontier where a commit reference stands (R97). -/
theorem queueToCrank_eq (s : State) :
    queueToCrank s = s.withQueue
      { s.queue with
        commitRef := none
        frontier := match s.queue.commitRef with
          | some e => some ((e.angle + e.span) % 7200)
          | none => s.queue.frontier } := by
  unfold queueToCrank FiringQueue.atMove
  cases h : s.queue.commitRef with
  | none => simp [← h]
  | some e => rfl

/-- Settles O13. -/
theorem gapConfirmedHalfSync : Obligations.GapConfirmedHalfSync := by
  unfold Obligations.GapConfirmedHalfSync
  refine ⟨fun s released moving first => ?_, fun s p t1 hist released seeking hp hhist accepted low high reference last
    reached => ?_, fun s p i k v released hp hi accepted hk hv => ?_⟩
  · rw [exec_crankEdge released, crankEdge_of_none (by simpa using first), crankFirst_of_moving (by simpa using moving)]
    simp
  · have measured := exec_crankEdge_of_accepted released hp accepted
    rw [hhist, crankClass_gap low high] at measured
    generalize hx : s.tracker.measure s.plan.engine.accelComp .gap (rawInterval p s.timebase) s.timebase = x at measured
    have sync : x.sync = .seeking := hx ▸ seeking
    have count : (x.gapSearch .gap).gapCount = min 4 (s.tracker.gapCount + 1) := by
      rw [gapSearch_gap, ← hx]
      simp [Tracker.measure, reference, last]
    have search := crankSeeking_confirmed (s := (abortCoilCheck .edge s).withTracker x) rfl rfl
      (by simpa [count] using reached)
    rw [measured, crankByState, State.withTracker_tracker, sync]
    refine congrArg Host.Outcome.next (search.trans ?_)
    refine (moveTo_untold_withTracker .gapConfirmed ((abortCoilCheck .edge s).withTracker x) ?_ rfl).trans ?_
    · rw [gapSearch_gap]
      exact congrArg Sync.holdsAngle sync
    · simp [gapSearch_gap, ← hx, Tracker.measure, crankPushed, reference, last, seeking, hhist]
  · subst hi
    have measured := exec_crankEdge_of_accepted released hp accepted
    have class_eq : crankClass s.tracker.crankHist (rawInterval p s.timebase) = k := hk.symm
    rw [class_eq] at measured
    have search : (s.tracker.measure s.plan.engine.accelComp k (rawInterval p s.timebase) s.timebase).gapSearch k = v := by
      subst hv
      cases k with
      | gap => exact gapSearch_gap _
      | pitch => exact gapSearch_pitch _
      | long => rfl
    have tooth : k = .gap → v.tooth = 0 := by
      rintro rfl
      rw [hv]
    have sync : v.sync = s.tracker.sync := by rw [hv]
    have cam : v.cam = s.tracker.cam := by rw [hv]
    have wheel : v.wheel = s.tracker.wheel := by rw [hv]
    have time : v.prevCrank = some s.timebase := by rw [hv]
    clear hv hk
    generalize hx : s.tracker.measure s.plan.engine.accelComp k (rawInterval p s.timebase) s.timebase = x at *
    have x_sync : x.sync = s.tracker.sync := hx ▸ rfl
    have x_cam : x.cam = s.tracker.cam := hx ▸ rfl
    have x_interpolated : s.tracker.sync = .camLimp → interpolated x s.timebase = interpolated s.tracker s.timebase :=
      fun limp => hx ▸ interpolated_measure limp ..
    refine ⟨fun searching unconfirmed => ?_, fun seeking gap reached => ?_,
      fun limp gap reached a d0 d1 half hangle hd0 hd1 hhalf => ?_⟩
    · rw [measured]
      refine congrArg Host.Outcome.next ?_
      have unconfirmed : k ≠ .gap ∨ v.gapCount < ((abortCoilCheck .edge s).withTracker x).plan.engine.gapConfirm := by
        simpa using unconfirmed
      rcases searching with seeking | limp
      · rw [crankByState, State.withTracker_tracker, x_sync, seeking]
        exact crankSeeking_unconfirmed (s := (abortCoilCheck .edge s).withTracker x) search unconfirmed
      · rw [crankByState, State.withTracker_tracker, x_sync, limp]
        exact crankRecovery_unconfirmed (s := (abortCoilCheck .edge s).withTracker x) search unconfirmed
    · rw [measured, crankByState, State.withTracker_tracker, x_sync, seeking]
      refine congrArg Host.Outcome.next ?_
      refine (crankSeeking_confirmed (s := (abortCoilCheck .edge s).withTracker x) search gap (by simpa using reached)).trans ?_
      refine (moveTo_untold_withTracker .gapConfirmed ((abortCoilCheck .edge s).withTracker x) ?_ rfl).trans ?_
      · exact congrArg Sync.holdsAngle (sync.trans seeking)
      · simp [sync, seeking, x_cam, ← tooth gap]
    · have restored := crankRecovery_confirmed (s := (abortCoilCheck .edge s).withTracker x) search gap
        (by simpa using reached) (x := a) (by simpa [x_interpolated limp] using hangle)
      have taken : exec .crankEdge s = .next (crankRestore a ((abortCoilCheck .edge s).withTracker v)) := by
        rw [measured, crankByState, State.withTracker_tracker, x_sync, limp]
        exact congrArg Host.Outcome.next restored
      have nearer : nearerHalf s.plan.engine.gapOffset a = (half, min d0 d1) := by
        rw [nearerHalf_eq, hhalf, hd0, hd1]
      refine ⟨fun far => ?_, fun near tp e htp he => ?_⟩
      · rw [taken, crankRestore_of_far (by simpa [nearer] using far)]
        rfl
      · rw [taken, crankRestore_of_near (s := (abortCoilCheck .edge s).withTracker v) (sync.trans limp)
          (by simpa [nearer] using near)]
        have plan : ((abortCoilCheck .edge s).withTracker v).plan = s.plan := abortCoilCheck_plan ..
        refine congrArg Host.Outcome.next ?_
        rw [queueToCrank_eq, plan, State.withTracker_tracker]
        refine (handOn_of_carrier (e := e) ?_).trans ?_
        · rw [State.withQueue_tracker, queueNotice_tracker]
          refine (carrier_of_crank (t := { v.restore s.plan.engine.gapOffset (nearerHalf s.plan.engine.gapOffset a).1 with
            sync := .fullSync }) (.inr rfl) rfl time htp).trans ?_
          rw [he]
          simp [nearer, Tracker.restore, crankSpan_zero, halfOffset_some, wheel]
        · rw [he]
          simp [nearer, Tracker.restore, halfOffset_some, ← tooth gap, cam] <;> rfl

end Sys2Proof.Machine
end

section
/-! Tooth counting in HALF_SYNC and FULL_SYNC, the revolutions without an extra tooth, and the queue at an edge handed on
(R5 to R7, R11, R96 to R101). -/

namespace Sys2Proof.Machine

/-! ## A counted edge (R5, R6, R11) -/

section
variable {s : State}

theorem countRevolution_of_tooth (h : s.tracker.tooth ≠ 0) : countRevolution s = s := if_neg fun first => h first.1

/-- At tooth 0 the revolutions are counted up to 4; the fourth sets the cam fault latch, with its notice if it was clear. -/
theorem countRevolution_of_first (h : s.tracker.tooth = 0) :
    countRevolution s =
      (if s.tracker.cam.revsNoExtra = 3 ∧ s.tracker.camFault = false then queueNotice (.camFault .missing) else id)
        (s.withTracker
          { s.tracker with
            camFault := s.tracker.camFault || decide (s.tracker.cam.revsNoExtra = 3)
            cam := { s.tracker.cam with
              revsNoExtra := if s.tracker.cam.revsNoExtra < 4 then s.tracker.cam.revsNoExtra + 1
                else s.tracker.cam.revsNoExtra } }) := by
  unfold countRevolution
  by_cases below : s.tracker.cam.revsNoExtra < 4
  · rw [if_pos ⟨h, below⟩]
    by_cases fourth : s.tracker.cam.revsNoExtra = 3
    · cases clear : s.tracker.camFault with
      | false => simp [fourth, setCamFault, clear, Tracker.withCam]
      | true => simp [fourth, setCamFault, clear, Tracker.withCam]
    · simp [below, fourth, Tracker.withCam]
  · have notFourth : s.tracker.cam.revsNoExtra ≠ 3 := by omega
    rw [if_neg fun counted => below counted.2, if_neg fun faulted => notFourth faulted.1, decide_eq_false notFourth,
      Bool.or_false, if_neg below]
    rfl

variable {k : CrankClass}

/-- A counted edge moves the tooth, then counts the revolution, and in FULL_SYNC is handed on. -/
theorem crankCounting_of_counted (h : gapError k s.tracker = false) :
    crankCounting k s =
      (fun t => if t.tracker.sync = .fullSync then handOn t else t)
        (countRevolution
          (s.withTracker
            { s.tracker.countTooth k with
              edgeAngle := some (countedAngle s.plan.engine.gapOffset (s.tracker.countTooth k)) })) :=
  if_neg (by simp [h])

end

theorem countedAngle_of_half {t : Tracker} (h : t.sync = .halfSync) (gapOffset : Nat) :
    countedAngle gapOffset t = (gapOffset + t.tooth * pitchSteps t.wheel) % 3600 := by
  simp [countedAngle, h, withinAngle]

theorem countedAngle_of_full {t : Tracker} {half : Bool} (h : t.sync = .fullSync) (hh : t.half = some half)
    (gapOffset : Nat) : countedAngle gapOffset t =
      (gapOffset + t.tooth * pitchSteps t.wheel + (if half then 3600 else 0)) % 7200 := by
  simp [countedAngle, h, hh, crankCycleAngle, halfOffset_some]

section
variable {s : State} {p : Tick}

theorem exec_crankEdge_of_counted {k : CrankClass} (released : s.resetHeld = false)
    (hp : s.tracker.prevCrank = some p) (accepted : crankSpurious s.tracker (rawInterval p s.timebase) = false)
    (hk : crankClass s.tracker.crankHist (rawInterval p s.timebase) = k) (counted : gapError k s.tracker = false)
    (counting : s.tracker.sync = .halfSync ∨ s.tracker.sync = .fullSync) :
    exec .crankEdge s = .next
      ((fun t => if t.tracker.sync = .fullSync then handOn t else t)
        (countRevolution
          ((abortCoilCheck .edge s).withTracker
            { (s.tracker.measure s.plan.engine.accelComp k (rawInterval p s.timebase) s.timebase).countTooth k with
              edgeAngle := some (countedAngle s.plan.engine.gapOffset
                ((s.tracker.measure s.plan.engine.accelComp k (rawInterval p s.timebase) s.timebase).countTooth k)) }))) := by
  have measured := exec_crankEdge_of_accepted released hp accepted
  rw [hk] at measured
  generalize htracker : s.tracker.measure s.plan.engine.accelComp k (rawInterval p s.timebase) s.timebase = x at *
  have counted : gapError k x = false := by rw [← htracker, gapError_measure, counted]
  have counting : x.sync = .halfSync ∨ x.sync = .fullSync := by rwa [← htracker]
  have plan : ((abortCoilCheck .edge s).withTracker x).plan = s.plan := abortCoilCheck_plan ..
  rw [measured, crankByState_of_counting (s := (abortCoilCheck .edge s).withTracker x) k counting,
    crankCounting_of_counted (s := (abortCoilCheck .edge s).withTracker x) counted, plan]
  rfl

end

/-! ## The edge in FULL_SYNC -/

theorem givenMark_of_mark {s : State} {i : MarkIx} {m : AngleMark} (h : s.plan.marks[i.val]? = some m) :
    givenMark s i =
      if m.enabled then some { key := .mark i, target := some m.angle, pulse := none, commit := none } else none := by
  simp [givenMark, h]

/-- A slot change on the slot of a number is decided by what it does to that slot. -/
theorem mapSlot_congr {n : Nat} {f g : Slot → Slot} {z : Slot} (xs : List Slot) (hz : findSlot n xs = some z)
    (h : f z = g z) : mapSlot n f xs = mapSlot n g xs := by
  induction xs with
  | nil => rfl
  | cons x xs ih =>
    unfold mapSlot
    split
    next found =>
      have hx : x = z := by simpa [findSlot, found] using hz
      rw [hx, h]
    next other =>
      rw [ih (by simpa [findSlot, other] using hz)]

/-- The crank edges of O14: a pitch edge below the last tooth. -/
theorem pitchEdge_counted {s : State} {p : Tick} {t1 : Nat} {hist : List Nat} (released : s.resetHeld = false)
    (hp : s.tracker.prevCrank = some p) (hhist : s.tracker.crankHist = t1 :: hist)
    (accepted : crankSpurious s.tracker (rawInterval p s.timebase) = false)
    (pitch : 10 * rawInterval p s.timebase < 22 * t1) (below : s.tracker.tooth ≠ lastTooth s.tracker.wheel)
    (counting : s.tracker.sync = .halfSync ∨ s.tracker.sync = .fullSync) {v : Tracker}
    (hv : v = { s.tracker with
      prevCrank := some s.timebase, stallRef := some s.timebase
      crankHist := pushPeriod (rawInterval p s.timebase) (t1 :: hist)
      crankTp := formTp s.plan.engine.accelComp (pushPeriod (rawInterval p s.timebase) (t1 :: hist))
      tooth := s.tracker.tooth + 1
      edgeAngle := some (countedAngle s.plan.engine.gapOffset { s.tracker with tooth := s.tracker.tooth + 1 }) }) :
    exec .crankEdge s = .next
      ((fun t => if t.tracker.sync = .fullSync then handOn t else t) ((abortCoilCheck .edge s).withTracker v)) := by
  have hk : crankClass s.tracker.crankHist (rawInterval p s.timebase) = .pitch := by
    rw [hhist, crankClass_pitch pitch]
  have counted : gapError .pitch s.tracker = false := decide_eq_false below
  rw [exec_crankEdge_of_counted released hp accepted hk counted counting, countRevolution_of_tooth (Nat.succ_ne_zero _), hv]
  simp [Tracker.measure, Tracker.countTooth, crankPushed, hhist, countedAngle, crankCycleAngle, withinAngle] <;> rfl

/-- Settles O14. -/
theorem pitchEdgeCountedHalfSync : Obligations.PitchEdgeCountedHalfSync := by
  unfold Obligations.PitchEdgeCountedHalfSync
  refine ⟨fun s p t1 hist released hp hhist accepted pitch below => ⟨fun half => ?_, fun half tp e full hh htp he => ?_⟩,
    fun s u p t1 hist v released hp hhist accepted low high last hu hv => ?_,
    fun s e y target d b l hy hc ht hd => ⟨takeWindow_of_beyond b hy hc ht, fun near => ?_⟩,
    fun s e y target d hy hc ht hd => ⟨fun unpulsed => ?_, fun c n kind en x z av hk hq hx hz hst hav => ?_⟩,
    fun e arm limit target => ⟨commitAvailable_of_ahead, commitAvailable_of_passed⟩,
    fun s e f b hf => ⟨catchUp_frontier hf, fun y target hy hc ht => ⟨catchUp_of_unpassed b hf hy hc ht,
      fun near passed => ?_⟩⟩,
    fun s b => ?_⟩
  · rw [pitchEdge_counted released hp hhist accepted pitch below (.inl half) rfl]
    simp [half, countedAngle_of_half]
  · have angle := countedAngle_of_full (t := { s.tracker with tooth := s.tracker.tooth + 1 }) full hh
      s.plan.engine.gapOffset
    generalize hv : ({ s.tracker with
      prevCrank := some s.timebase, stallRef := some s.timebase
      crankHist := pushPeriod (rawInterval p s.timebase) (t1 :: hist), crankTp := some tp
      tooth := s.tracker.tooth + 1, edgeAngle := some e.angle } : Tracker) = v
    have v_sync : v.sync = .fullSync := by rw [← hv]; exact full
    have v_edge : v.edgeAngle = some e.angle := by rw [← hv]
    have v_time : v.prevCrank = some s.timebase := by rw [← hv]
    have v_tp : v.crankTp = some tp := by rw [← hv]
    rw [pitchEdge_counted released hp hhist accepted pitch below (.inr full) (v := v) (by rw [← hv, htp, angle, he])]
    refine congrArg Host.Outcome.next ((if_pos v_sync).trans (handOn_of_carrier ?_))
    refine (carrier_of_crank (.inr v_sync) v_edge v_time v_tp).trans ?_
    rw [crankSpan_eq, ← hv, he]
  · have hk : crankClass s.tracker.crankHist (rawInterval p s.timebase) = .gap := by rw [hhist, crankClass_gap low high]
    have counted : gapError .gap s.tracker = false := decide_eq_false (not_not.mpr last)
    have reached := fun counting => exec_crankEdge_of_counted released hp accepted hk counted counting
    generalize hx : (s.tracker.measure s.plan.engine.accelComp .gap (rawInterval p s.timebase) s.timebase).countTooth .gap = x at reached
    have revolution := countRevolution_of_first (s := (abortCoilCheck .edge s).withTracker
      { x with edgeAngle := some (countedAngle s.plan.engine.gapOffset x) }) (by rw [← hx]; rfl)
    have left (hhalf : x.half = v.half) (hangle : some (countedAngle s.plan.engine.gapOffset x) = v.edgeAngle) :
        countRevolution ((abortCoilCheck .edge s).withTracker
          { x with edgeAngle := some (countedAngle s.plan.engine.gapOffset x) }) = u := by
      have tracker : ({ x with
          edgeAngle := some (countedAngle s.plan.engine.gapOffset x)
          camFault := s.tracker.camFault || decide (s.tracker.cam.revsNoExtra = 3)
          cam := { s.tracker.cam with
            revsNoExtra := if s.tracker.cam.revsNoExtra < 4 then s.tracker.cam.revsNoExtra + 1
              else s.tracker.cam.revsNoExtra } } : Tracker) = v := by
        rw [hv, ← hhalf, ← hangle, ← hx]
        simp [Tracker.measure, Tracker.countTooth, crankPushed, hhist, satAdd]
      have x_cam : x.cam = s.tracker.cam := by rw [← hx]; rfl
      have x_fault : x.camFault = s.tracker.camFault := by rw [← hx]; rfl
      rw [revolution, hu, ← tracker]
      simp only [State.withTracker_tracker, x_cam, x_fault]
      split <;> rfl
    have u_tracker : u.tracker = v := by
      rw [hu]
      split
      · exact queueNotice_tracker ..
      · rfl
    refine ⟨fun half hhalf hangle => ?_, fun half tp e full hh hhalf hangle htp he => ?_⟩
    · have sync : x.sync = .halfSync := by rw [← hx]; exact half
      have angle : countedAngle s.plan.engine.gapOffset x = s.plan.engine.gapOffset % 3600 := by
        rw [countedAngle_of_half sync, ← hx]
        simp [Tracker.measure, Tracker.countTooth]
      have x_half : x.half = v.half := by
        rw [hhalf, ← hx]
        simp [Tracker.measure, Tracker.countTooth, half]
      have u_sync : u.tracker.sync = .halfSync := by rw [u_tracker, hv]; exact half
      rw [reached (.inl half), left x_half (by rw [angle, hangle])]
      refine congrArg Host.Outcome.next (if_neg ?_)
      rw [u_sync]
      decide
    · have sync : x.sync = .fullSync := by rw [← hx]; exact full
      have x_half : x.half = some (!half) := by
        rw [← hx]
        simp [Tracker.measure, Tracker.countTooth, full, hh]
      have angle : countedAngle s.plan.engine.gapOffset x = e.angle := by
        rw [countedAngle_of_full sync x_half, he, ← hx]
        cases half <;> simp [Tracker.measure, Tracker.countTooth]
      have u_sync : u.tracker.sync = .fullSync := by rw [u_tracker, hv]; exact full
      rw [reached (.inr full), left (by rw [x_half, hhalf]) (by rw [angle, hangle])]
      refine congrArg Host.Outcome.next ((if_pos u_sync).trans (handOn_of_carrier ?_))
      have v_time : v.prevCrank = some s.timebase := by rw [hv]
      have v_tooth : v.tooth = 0 := by rw [hv]
      have v_wheel : v.wheel = s.tracker.wheel := by rw [hv]
      rw [u_tracker, carrier_of_crank (.inr (u_tracker ▸ u_sync)) hangle v_time htp, v_tooth, v_wheel, crankSpan_zero, he]
  · obtain ⟨t, ⟨held, linked, limits⟩, taken⟩ := takeWindow_commits b l hy hc ht near
    rw [taken]
    subst hd
    refine ⟨fun unpulsed => ?_, fun c n kind en x hk hq hx => ?_⟩
    · rw [commitKey_of_unpulsed held hc ht unpulsed, findEntry_setCommit_self (by exact fun _ => rfl) held]
      rfl
    · obtain ⟨z, hz, arm, eoi⟩ := context_of_waiting held linked limits hk hc hx
      rw [← arm, ← eoi]
      exact ⟨findEntry_commitKey_of_limit held hc ht hk hq hz, findEntry_commitKey_of_available held hc ht hk hq hz⟩
  · rw [commitKey_of_unpulsed hy hc ht unpulsed, hd]
    rfl
  · subst hav
    refine ⟨fun short => ?_, fun available => ⟨?_, ?_⟩⟩
    · rw [commitKey_of_pulse hy hc ht hk hq, commitPulse_of_limit hx short, hk]
      rfl
    · rw [findEntry_commitKey_of_available hy hc ht hk hq hx available, hd]
      rfl
    · rw [commitKey_of_pulse hy hc ht hk hq, commitPulse_of_available hx available]
      have committed : Slot.commitTo (later e.time (delay e (forward e.angle target)))
          (decide (commitAvailable e x.armAngle x.eoiAngle target < (en : Int))) z =
          { z with
            st := .committed (later e.time d)
            truncated := z.truncated || decide (commitAvailable e x.armAngle x.eoiAngle target < (en : Int)) } := by
        rw [hd]
        simp only [Slot.commitTo, hst]
        rfl
      unfold updateSlots
      rw [show (setCommit (.pulse c n) _ s).contexts = s.contexts from rfl, hx]
      exact congrArg (fun xs => s.contexts.set c (some { x with slots := xs })) (mapSlot_congr x.slots hz committed)
  · obtain ⟨t, held, caught⟩ := catchUp_catches b hf hy hc ht near passed
    refine ⟨fun unpulsed => ?_, fun c n hk => ⟨?_, catchUpKey_of_pulse hk e s⟩⟩
    · rw [caught, findEntry_catchUpKey_unpulsed held unpulsed]
    · rw [caught, catchUpKey_of_pulse hk, findEntry_reportUnfired, findEntry_removeKey_self]
  · have given := insertPendingMarks_gives b.sorted
    refine ⟨given.entries, fun i m hm => ?_, fun k other => ?_⟩
    · rw [given.find]
      refine congrArg (Option.or _) ?_
      by_cases listed : i ∈ s.queue.pendingMarks
      · simp [listed, givenMark_of_mark hm]
      · simp [listed]
    · rw [given.find]
      cases k with
      | mark i => exact absurd rfl (other i)
      | arm c => exact Option.or_none
      | pulse c n => exact Option.or_none

end Sys2Proof.Machine
end

section
/-! Cam edges: the identity of an edge, the half it phases, the entries of a sync gain, and what an edge does in each sync
state (R8 to R11, R14, R17, R21, R25, R26, R28). -/

namespace Sys2Proof.Machine

/-! ## The nearest candidate (R9) -/

section
variable {m a : Nat}

/-- The distance of a candidate from an angle. -/
def candidateDistance (m a : Nat) (x : CamId × Nat) : Nat := distance m a x.2

theorem nearest_mem (best : CamId × Nat) (xs : List (CamId × Nat)) : nearest m a best xs ∈ best :: xs := by
  induction xs generalizing best with
  | nil => exact List.mem_singleton.mpr rfl
  | cons x xs ih =>
    unfold nearest
    split
    · exact List.mem_cons_of_mem best (ih x)
    · rcases List.mem_cons.mp (ih best) with first | later
      · rw [first]
        exact List.mem_cons_self ..
      · exact List.mem_cons_of_mem best (List.mem_cons_of_mem x later)

theorem nearest_stays {best : CamId × Nat} {xs : List (CamId × Nat)}
    (h : ∀ y ∈ xs, candidateDistance m a best ≤ candidateDistance m a y) : nearest m a best xs = best := by
  induction xs with
  | nil => rfl
  | cons x xs ih =>
    refine (if_neg (Nat.not_lt.mpr (h x (List.mem_cons_self ..)))).trans ?_
    exact ih fun y hy => h y (List.mem_cons_of_mem x hy)

theorem nearest_moves {z : CamId × Nat} {post : List (CamId × Nat)}
    (hpost : ∀ y ∈ post, candidateDistance m a z ≤ candidateDistance m a y) (pre : List (CamId × Nat)) :
    ∀ best, candidateDistance m a z < candidateDistance m a best →
      (∀ y ∈ pre, candidateDistance m a z < candidateDistance m a y) → nearest m a best (pre ++ z :: post) = z := by
  induction pre with
  | nil => exact fun best closer _ => (if_pos closer).trans (nearest_stays hpost)
  | cons p pre ih =>
    intro best closer hpre
    rw [List.cons_append, nearest]
    split
    · exact ih p (hpre p (List.mem_cons_self ..)) fun y hy => hpre y (List.mem_cons_of_mem p hy)
    · exact ih best closer fun y hy => hpre y (List.mem_cons_of_mem p hy)

/-- The first of the nearest candidates is the identity, if it lies within the tolerance. -/
theorem identifyAmong_of_nearest {tolerance : Nat} {pre post : List (CamId × Nat)} {z : CamId × Nat}
    (near : candidateDistance m a z ≤ tolerance) (hpre : ∀ y ∈ pre, candidateDistance m a z < candidateDistance m a y)
    (hpost : ∀ y ∈ post, candidateDistance m a z ≤ candidateDistance m a y) :
    identifyAmong m tolerance a (pre ++ z :: post) = z.1 := by
  cases pre with
  | nil =>
    simp only [List.nil_append, identifyAmong, nearest_stays hpost]
    exact if_pos near
  | cons p pre =>
    simp only [List.cons_append, identifyAmong, nearest_moves hpost pre p (hpre p (List.mem_cons_self ..))
      fun y hy => hpre y (List.mem_cons_of_mem p hy)]
    exact if_pos near

theorem identifyAmong_of_far {tolerance : Nat} {xs : List (CamId × Nat)}
    (far : ∀ y ∈ xs, tolerance < candidateDistance m a y) : identifyAmong m tolerance a xs = .unknown := by
  cases xs with
  | nil => rfl
  | cons x xs => exact if_neg (Nat.not_le.mpr (far _ (nearest_mem x xs)))

end

/-- Whether a cam identity is a regular tooth. -/
def CamId.isRegular : CamId → Bool
  | .regular _ => true
  | _ => false

theorem CamId.isRegular_iff (x : CamId) : x.isRegular = true ↔ ∃ k, x = .regular k := by
  cases x <;> simp [CamId.isRegular]

/-- The regular teeth stand before the others. -/
def RegularFirst (cs : List CamId) : Prop := cs.Pairwise fun y x => x.isRegular = true → y.isRegular = true

/-- Among candidates without repeats, the regular teeth first, a tie goes to a regular tooth. -/
theorem identifyAmong_map {m a tolerance : Nat} {cs : List CamId} (g : CamId → CamId × Nat) (hg : ∀ x, (g x).1 = x)
    (nodup : cs.Nodup) (regular : RegularFirst cs) :
    ((∀ x ∈ cs, tolerance < candidateDistance m a (g x)) → identifyAmong m tolerance a (cs.map g) = .unknown) ∧
    (∀ x ∈ cs, candidateDistance m a (g x) ≤ tolerance →
      (∀ y ∈ cs, y ≠ x → candidateDistance m a (g x) < candidateDistance m a (g y) ∨
        (candidateDistance m a (g x) = candidateDistance m a (g y) ∧ (∃ k, x = .regular k) ∧ ∀ k, y ≠ .regular k)) →
      identifyAmong m tolerance a (cs.map g) = x) := by
  refine ⟨fun far => identifyAmong_of_far fun y hy => ?_, fun x hx near closest => ?_⟩
  · obtain ⟨x, hx, rfl⟩ := List.mem_map.mp hy
    exact far x hx
  · obtain ⟨pre, post, rfl⟩ := List.append_of_mem hx
    obtain ⟨_, nodup_rest, apart⟩ := List.nodup_append.mp nodup
    obtain ⟨_, _, before⟩ := List.pairwise_append.mp regular
    have fresh : x ∉ post := (List.nodup_cons.mp nodup_rest).1
    rw [List.map_append, List.map_cons, identifyAmong_of_nearest near ?_ ?_, hg]
    · intro z hz
      obtain ⟨y, hy, rfl⟩ := List.mem_map.mp hz
      have other : y ≠ x := apart y hy x (List.mem_cons_self ..)
      rcases closest y (List.mem_append_left _ hy) other with closer | ⟨_, x_regular, y_other⟩
      · exact closer
      · have y_regular := before y hy x (List.mem_cons_self ..) ((CamId.isRegular_iff x).mpr x_regular)
        obtain ⟨k, hk⟩ := (CamId.isRegular_iff y).mp y_regular
        exact absurd hk (y_other k)
    · intro z hz
      obtain ⟨y, hy, rfl⟩ := List.mem_map.mp hz
      have other : y ≠ x := fun same => fresh (same ▸ hy)
      rcases closest y (List.mem_append_right _ (List.mem_cons_of_mem x hy)) other with closer | ⟨tie, _, _⟩
      · exact Nat.le_of_lt closer
      · exact Nat.le_of_eq tie

theorem identifyCam_of_half {s : State} {a : Nat} (h : s.tracker.sync = .halfSync)
    (ha : interpolated s.tracker s.timebase = some a) :
    identifyCam s = identifyAmong 3600 s.plan.engine.camTolerance a (halfCandidates s.plan.engine.camSync) := by
  simp [identifyCam, ha, h]

theorem identifyCam_of_full {s : State} {a : Nat} (h : s.tracker.sync = .fullSync)
    (ha : interpolated s.tracker s.timebase = some a) :
    identifyCam s = identifyAmong 7200 s.plan.engine.camTolerance a (fullCandidates s.plan.engine.camSync) := by
  simp [identifyCam, ha, h]

theorem interpolated_lt {t : Tracker} {now : Tick} {a : Nat} (h : interpolated t now = some a) :
    a < if t.sync = .halfSync then 3600 else 7200 := by
  cases he : carrier t with
  | none =>
    rw [interpolated_of_none he] at h
    cases h
  | some e =>
    rw [interpolated_of_carrier he, Option.some.injEq] at h
    rw [← h]
    exact Nat.mod_lt _ (by split <;> decide)

/-- The distance of two angles within a revolution, as the lesser of the two ways round. -/
theorem distance_half {a p : Nat} (ha : a < 3600) (hp : p < 3600) :
    distance 3600 a p = min ((p + (3600 - a)) % 3600) ((a + (3600 - p)) % 3600) := by
  unfold distance
  omega

theorem distance_full {a p : Nat} (ha : a < 7200) (hp : p < 7200) :
    distance 7200 a p = min ((p + (7200 - a)) % 7200) ((a + (7200 - p)) % 7200) := by
  unfold distance
  omega

/-! ## Phasing (R14) -/

theorem advanceNow_of_carrier {s : State} {e : EdgeRef} (h : carrier s.tracker = some e) :
    advanceNow s = advance e s.timebase := by
  simp [advanceNow, h]

theorem crankCycleAngle_advanced (gapOffset adv : Nat) (t : Tracker) (half : Bool) :
    (crankCycleAngle gapOffset t half + adv) % 7200 =
      (gapOffset + t.tooth * pitchSteps t.wheel + (if half then 3600 else 0) + adv) % 7200 := by
  rw [crankCycleAngle, halfOffset_some, Nat.mod_add_mod]

/-! ## The entries of a sync gain (R21, R93, R96) -/

theorem insertMarkList_entries (is : List MarkIx) :
    ∀ s : State, ∃ xs, insertMarkList is s = s.withQueue { s.queue with entries := xs } := by
  induction is with
  | nil => exact fun s => ⟨s.queue.entries, rfl⟩
  | cons i is ih =>
    intro s
    obtain ⟨xs, hxs⟩ := ih (insertMark i s)
    refine ⟨xs, ?_⟩
    rw [insertMarkList, hxs]
    unfold insertMark
    split
    · split <;> rfl
    · rfl

theorem queueGain_entries (s : State) :
    ∃ xs, queueGain s = s.withQueue { s.queue with entries := xs, commitRef := none } := by
  obtain ⟨xs, hxs⟩ := insertMarkList_entries (List.finRange 8) (s.withQueue { s.queue with commitRef := none })
  have marks : insertMarks (s.withQueue { s.queue with commitRef := none }) =
      s.withQueue { s.queue with entries := xs, commitRef := none } := hxs
  unfold queueGain
  rw [marks]
  dsimp only
  split
  · obtain ⟨ys, hys⟩ := insertArmList_entries Cyl.all (s.withQueue { s.queue with entries := xs, commitRef := none })
    exact ⟨ys, hys⟩
  · exact ⟨xs, rfl⟩

theorem queueGain_tracker (s : State) : (queueGain s).tracker = s.tracker := by
  obtain ⟨xs, hxs⟩ := queueGain_entries s
  rw [hxs]
  rfl

theorem armEntry_eq (s : State) (c : Cyl) (pl : Placement) :
    armEntry s c pl =
      { key := .arm c, pulse := none, commit := none
        target := some (((pl.tdc : Int) - (s.plan.engine.armingLead : Int)) % 7200).toNat } := by
  rw [armEntry, cycleAngle, ← sub_eq_add_neg]

/-! ## A cam edge by sync state (R9) -/

theorem handOn_eq_handEdge {s : State} {e : EdgeRef} (h : carrier s.tracker = some e) : handOn s = handEdge e s :=
  handOn_of_carrier h

theorem extraLike_iff (i : Nat) (raw : List Nat) :
    extraLike i raw = true ↔ ∃ q rest, raw = q :: rest ∧ 3 * i < q := by
  cases raw with
  | nil => simp [extraLike]
  | cons q rest => simp [extraLike]

theorem isCandidate_iff (c : CamHistory) (now : Tick) :
    isCandidate c now = true ↔ ∃ p i rest, c.lastEdge = some p ∧ c.raw = i :: rest ∧ 3 * rawInterval p now < i := by
  cases h : c.lastEdge with
  | none => simp [isCandidate, camRaw, h]
  | some p => simp [isCandidate, camRaw, h, extraLike_iff]

theorem searched_eq (c : CamHistory) (cand : Bool) :
    searched c cand =
      (if cand then (if c.candidates = 0 then 1 else if c.sinceCandidate = 6 then 2 else 1)
        else if c.sinceCandidate = 6 then 0 else c.candidates,
       if cand then 0 else if c.sinceCandidate = 6 then 7 else min 7 (c.sinceCandidate + 1)) := by
  unfold searched
  cases cand with
  | true => rfl
  | false =>
    by_cases sixth : c.sinceCandidate = 6
    · simp [sixth]
    · simp [sixth, satAdd]

section
variable {s : State} {t : Tracker} {cand : Bool}

/-- What a cam edge in STOPPED records, with the cam-only search advanced. -/
def searchRecorded (t : Tracker) (now : Tick) (cand : Bool) : Tracker :=
  { t with
    stallRef := some now
    cam := { t.cam with
      lastEdge := some now, lastAccepted := some now, raw := pushRaw (camRaw t.cam now) t.cam.raw
      identity := .unknown, candidates := (searched t.cam cand).1, sinceCandidate := (searched t.cam cand).2 } }

theorem camStopped_eq (hc : isCandidate s.tracker.cam s.timebase = cand)
    (ht : searchRecorded s.tracker s.timebase cand = t) :
    camStopped s =
      if (cand && decide (t.cam.candidates = 2)) && (t.crankFault && s.plan.engine.camLimp) then
        handOn (moveTo .camLimp .camStart (s.withTracker (t.startCam s.plan.engine)))
      else s.withTracker t := by
  have recorded : (s.tracker.recordCam s.timebase .unknown).withCam
      { (s.tracker.recordCam s.timebase .unknown).cam with
        candidates := (searched s.tracker.cam cand).1
        sinceCandidate := (searched s.tracker.cam cand).2 } = t := ht
  unfold camStopped
  rw [hc, recorded]
  rfl

theorem camStopped_of_quiet (hc : isCandidate s.tracker.cam s.timebase = cand)
    (ht : searchRecorded s.tracker s.timebase cand = t)
    (h : cand = false ∨ t.cam.candidates ≠ 2 ∨ t.crankFault = false ∨ s.plan.engine.camLimp = false) :
    camStopped s = s.withTracker t := by
  rw [camStopped_eq hc ht]
  refine if_neg fun starts => ?_
  simp only [Bool.and_eq_true, decide_eq_true_eq] at starts
  obtain ⟨⟨candidate, second⟩, faulted, enabled⟩ := starts
  rcases h with h | h | h | h
  · rw [h] at candidate
    cases candidate
  · exact h second
  · rw [h] at faulted
    cases faulted
  · rw [h] at enabled
    cases enabled

theorem camStopped_of_start (hc : isCandidate s.tracker.cam s.timebase = true)
    (ht : searchRecorded s.tracker s.timebase true = t) (stopped : s.tracker.sync = .stopped)
    (second : t.cam.candidates = 2) (faulted : t.crankFault = true) (enabled : s.plan.engine.camLimp = true) :
    camStopped s =
      handOn (queueGain (queueNotice (.syncChange .stopped .camLimp .camStart)
        (s.withTracker { t.startCam s.plan.engine with sync := .camLimp }))) := by
  have sync : (t.startCam s.plan.engine).sync = .stopped := by
    rw [← ht]
    exact stopped
  have gained := moveTo_gain (s := s.withTracker (t.startCam s.plan.engine)) (new := .camLimp) .camStart
    (congrArg Sync.holdsAngle sync) rfl
  rw [State.withTracker_tracker, sync, State.withTracker_withTracker] at gained
  have starts : ((true && decide (t.cam.candidates = 2)) && (t.crankFault && s.plan.engine.camLimp)) = true := by
    rw [second, faulted, enabled]
    rfl
  rw [camStopped_eq hc ht, if_pos starts, gained]

end

/-! ### HALF_SYNC and FULL_SYNC (R9 to R11, R14, R17) -/

section
variable {s : State}

theorem camHalf_of_extra (half : s.tracker.sync = .halfSync) (h : identifyCam s = .extra) :
    camHalf s =
      queueGain (queueNotice (.syncChange .halfSync .fullSync .camPhased)
        (s.withTracker
          { (s.tracker.recordCam s.timebase .extra).phase s.plan.engine.gapOffset
              (phasedHalf s.plan.engine.gapOffset s.plan.engine.camSync (advanceNow s) s.tracker) with
            sync := .fullSync })) := by
  have gained := moveTo_gain (s := s.withTracker ((s.tracker.recordCam s.timebase .extra).phase s.plan.engine.gapOffset
    (phasedHalf s.plan.engine.gapOffset s.plan.engine.camSync (advanceNow s) s.tracker))) (new := .fullSync) .camPhased
    (congrArg Sync.holdsAngle half) rfl
  have sync : ((s.tracker.recordCam s.timebase .extra).phase s.plan.engine.gapOffset
    (phasedHalf s.plan.engine.gapOffset s.plan.engine.camSync (advanceNow s) s.tracker)).sync = .halfSync := half
  rw [State.withTracker_tracker, sync] at gained
  exact (if_pos h).trans gained

theorem camHalf_of_other (h : identifyCam s ≠ .extra) :
    camHalf s = s.withTracker (s.tracker.recordCam s.timebase (identifyCam s)) := if_neg h

theorem camIdentified_of_quiet {x : CamId} (h : x = .unknown ∨ ∃ k, x = .regular k) : camIdentified x s = s := by
  rcases h with rfl | ⟨k, rfl⟩ <;> rfl

theorem camPhantom_of_first (h : s.tracker.cam.wrongPhase = 0) :
    camPhantom s = s.withTracker
      { s.tracker with cam := { s.tracker.cam with wrongPhase := 1, revsNoExtra := 0 } } := if_pos h

theorem camPhantom_of_second (h : s.tracker.cam.wrongPhase ≠ 0) :
    camPhantom s = moveTo .halfSync .camWrongPhase
      (setCamFault .wrongPhase
        (s.withTracker
          { s.tracker with
            half := none
            edgeAngle := some (withinAngle s.plan.engine.gapOffset s.tracker)
            cam := { s.tracker.cam with wrongPhase := 0, revsNoExtra := 0 } })) := if_neg h

end

/-- The cam history is fed by an edge that is the tooth expected after the previous one, and by no other (R10). -/
theorem feedFull_eq {c : Tracker} {accel : Bool} {now : Tick} {id : CamId} {hist : List Nat} {tp : Option Nat}
    (fed : ∀ p x span, c.cam.lastEdge = some p → c.cam.identity.next = some (x, span) → id = x →
      hist = pushPeriod ((2 * (rawInterval p now * 1200) + span) / (2 * span)) c.cam.hist ∧ tp = formTp accel hist)
    (unfed : (∀ p x span, c.cam.lastEdge = some p → c.cam.identity.next = some (x, span) → id ≠ x) →
      hist = c.cam.hist ∧ tp = c.cam.tp) :
    c.feedFull accel now id =
      { c with
        stallRef := some now
        cam := { c.cam with
          lastEdge := some now, lastAccepted := some now, raw := pushRaw (camRaw c.cam now) c.cam.raw, identity := id
          hist := hist, tp := tp } } := by
  by_cases expected : ∃ p x span, c.cam.lastEdge = some p ∧ c.cam.identity.next = some (x, span) ∧ id = x
  · obtain ⟨p, x, span, hp, hx, rfl⟩ := expected
    obtain ⟨rfl, rfl⟩ := fed p id span hp hx rfl
    have period : fullPeriod c.cam now id = some (camPeriod (rawInterval p now) span) := by
      simp [fullPeriod, camRaw, hp, hx]
    simp only [Tracker.feedFull, period]
    rfl
  · have period : fullPeriod c.cam now id = none := by
      unfold fullPeriod
      split
      next i y span hi hy =>
        obtain ⟨p, hp, _⟩ := Option.map_eq_some_iff.mp hi
        exact if_neg fun same => expected ⟨p, y, span, hp, hy, same⟩
      · rfl
    obtain ⟨rfl, rfl⟩ := unfed fun p x span hp hx same => expected ⟨p, x, span, hp, hx, same⟩
    simp only [Tracker.feedFull, period]
    rfl

/-! ### CAM_LIMP (R25, R26) -/

section
variable {s : State} {p : Tick} {x : CamId} {span tp : Nat}

theorem camInterval_eq (span tp : Nat) : camInterval span tp = (2 * (span * tp) + 1200) / 2400 := rfl

theorem camLimpEdge_of_spurious (hp : s.tracker.cam.lastAccepted = some p)
    (hx : s.tracker.cam.identity.next = some (x, span)) (htp : s.tracker.cam.tp = some tp)
    (soon : 4 * rawInterval p s.timebase < (2 * (span * tp) + 1200) / 2400) :
    camLimpEdge s = s.withTracker { s.tracker with spurious := min 255 (s.tracker.spurious + 1) } := by
  have spurious : camSpurious s.tracker (rawInterval p s.timebase) span = true := by
    simp [camSpurious, htp, camInterval_eq, soon]
  simp [camLimpEdge, hp, hx, spurious, satAdd]

theorem camLimpEdge_of_tested (hp : s.tracker.cam.lastAccepted = some p)
    (hx : s.tracker.cam.identity.next = some (x, span)) (htp : s.tracker.cam.tp = some tp)
    (late : (2 * (span * tp) + 1200) / 2400 ≤ 4 * rawInterval p s.timebase) :
    camLimpEdge s = camTested (rawInterval p s.timebase) span x s := by
  have accepted : camSpurious s.tracker (rawInterval p s.timebase) span = false := by
    simp [camSpurious, htp, camInterval_eq, Nat.not_lt.mpr late]
  simp [camLimpEdge, hp, hx, accepted]

theorem camPasses_iff {e : EngineRec} {t : Tracker} (htp : t.cam.tp = some tp) (i : Nat) (x : CamId) :
    camPasses e t i x = true ↔
      (x = .extra ∧ (∃ q rest, t.cam.raw = q :: rest ∧ 3 * i < q) ∧
        distance 7200 ((e.camSync + 6900 + i * 1200 / tp) % 7200) e.camSync ≤ e.camTolerance) ∨
      ((∃ k, x = .regular k) ∧ ∀ q rest, t.cam.raw = q :: rest → q ≤ 3 * i) := by
  cases x with
  | extra => simp [camPasses, extraLike_iff, htp, estimatedAngle]
  | regular k =>
    have apart : (extraLike i t.cam.raw = false) ↔ ∀ q rest, t.cam.raw = q :: rest → q ≤ 3 * i := by
      rw [← Bool.not_eq_true, extraLike_iff]
      simp only [not_exists, not_and, Nat.not_lt]
    simp [camPasses, apart]
  | phantom => simp [camPasses]
  | unknown => simp [camPasses]

end

/-! ### The edge, with a running coil check aborted -/

section
variable {s : State}

theorem camEdge_of_stopped (h : s.tracker.sync = .stopped) : camEdge s = camStopped s := by simp only [camEdge, h]

theorem camEdge_of_seeking (h : s.tracker.sync = .seeking) :
    camEdge s = s.withTracker (s.tracker.recordCam s.timebase .unknown) := by simp only [camEdge, h]

theorem camEdge_of_half (h : s.tracker.sync = .halfSync) : camEdge s = camHalf s := by simp only [camEdge, h]

theorem camEdge_of_full (h : s.tracker.sync = .fullSync) :
    camEdge s = camIdentified (identifyCam s)
      (s.withTracker (s.tracker.feedFull s.plan.engine.accelComp s.timebase (identifyCam s))) := by
  simp only [camEdge, h, camFull]

theorem camEdge_of_limp (h : s.tracker.sync = .camLimp) : camEdge s = camLimpEdge s := by simp only [camEdge, h]

theorem identifyCam_congr {a : State} (ht : a.tracker = s.tracker) (hp : a.plan = s.plan) (hn : a.timebase = s.timebase) :
    identifyCam a = identifyCam s := by
  simp only [identifyCam, ht, hp, hn]

theorem advanceNow_congr {a : State} (ht : a.tracker = s.tracker) (hn : a.timebase = s.timebase) :
    advanceNow a = advanceNow s := by
  simp only [advanceNow, ht, hn]

end

/-- Settles O16. -/
theorem camEdgePhases : Obligations.CamEdgePhases := by
  unfold Obligations.CamEdgePhases
  refine ⟨fun s m a cs place dist hcs ha he hph h0 h1 h2 h3 h4 h5 hdist => ?_, fun s e adv camSync d he hadv hd => ?_,
    fun s b => ⟨queueGain_entries s, fun i k hk => ?_, fun c => ?_, fun c n => ?_⟩, fun s released => ?_⟩
  · have bound := interpolated_lt ha
    rcases hcs with ⟨half, rfl, rfl⟩ | ⟨full, rfl, rfl⟩
    · rw [half, if_pos rfl] at bound
      have placed : ∀ x ∈ [CamId.regular 0, .regular 1, .regular 2, .extra],
          place x = camAngle s.plan.engine.camSync x % 3600 := by
        simp only [List.forall_mem_cons, he, h0, h1, h2, camAngle, Fin.val_zero, Fin.val_one, Fin.val_two]
        refine ⟨by omega, by omega, by omega, by omega, by simp⟩
      have apart : ∀ x ∈ [CamId.regular 0, .regular 1, .regular 2, .extra],
          candidateDistance 3600 a (x, camAngle s.plan.engine.camSync x % 3600) = dist x := fun x hx => by
        rw [hdist, placed x hx]
        exact distance_half bound (Nat.mod_lt _ (by decide))
      obtain ⟨far, near⟩ := identifyAmong_map (m := 3600) (a := a) (tolerance := s.plan.engine.camTolerance)
        (cs := [.regular 0, .regular 1, .regular 2, .extra]) (fun x => (x, camAngle s.plan.engine.camSync x % 3600))
        (fun _ => rfl) (by decide) (by unfold RegularFirst; decide)
      rw [identifyCam_of_half half ha]
      refine ⟨fun h => far fun x hx => by rw [apart x hx]; exact h x hx,
        fun x hx within closest => near x hx (by rwa [apart x hx]) fun y hy other => ?_⟩
      rw [apart x hx, apart y hy]
      exact closest y hy other
    · rw [full, if_neg (by decide)] at bound
      have placed : ∀ x ∈ [CamId.regular 0, .regular 1, .regular 2, .regular 3, .regular 4, .regular 5, .extra, .phantom],
          place x = camAngle s.plan.engine.camSync x := by
        simp only [List.forall_mem_cons, he, hph, h0, h1, h2, h3, h4, h5, camAngle]
        refine ⟨?_, ?_, ?_, ?_, ?_, ?_, trivial, trivial, by simp⟩
        · rfl
        · show _ = (_ + 6900 + 1 * 1200) % 7200; omega
        · show _ = (_ + 6900 + 2 * 1200) % 7200; omega
        · show _ = (_ + 6900 + 3 * 1200) % 7200; omega
        · show _ = (_ + 6900 + 4 * 1200) % 7200; omega
        · show _ = (_ + 6900 + 5 * 1200) % 7200; omega
      have below : ∀ x, camAngle s.plan.engine.camSync x < 7200 := fun x => by
        cases x <;> simp [camAngle, Nat.mod_lt]
      have apart : ∀ x ∈ [CamId.regular 0, .regular 1, .regular 2, .regular 3, .regular 4, .regular 5, .extra, .phantom],
          candidateDistance 7200 a (x, camAngle s.plan.engine.camSync x) = dist x := fun x hx => by
        rw [hdist, placed x hx]
        exact distance_full bound (below x)
      obtain ⟨far, near⟩ := identifyAmong_map (m := 7200) (a := a) (tolerance := s.plan.engine.camTolerance)
        (cs := [.regular 0, .regular 1, .regular 2, .regular 3, .regular 4, .regular 5, .extra, .phantom])
        (fun x => (x, camAngle s.plan.engine.camSync x))
        (fun _ => rfl) (by decide) (by unfold RegularFirst; decide)
      rw [identifyCam_of_full full ha]
      refine ⟨fun h => far fun x hx => by rw [apart x hx]; exact h x hx,
        fun x hx within closest => near x hx (by rwa [apart x hx]) fun y hy other => ?_⟩
      rw [apart x hx, apart y hy]
      exact closest y hy other
  · have phased : phasedHalf s.plan.engine.gapOffset camSync (advanceNow s) s.tracker = decide (d true < d false) := by
      rw [advanceNow_of_carrier he, advance, ← hadv, phasedHalf, crankCycleAngle_advanced, crankCycleAngle_advanced, hd, hd]
    rw [phased]
    exact ⟨fun h => decide_eq_true h, fun h => decide_eq_false (Nat.lt_asymm h)⟩
  · rw [(queueGain_gives b.sorted).find]
    exact congrArg (Option.or _) (givenMark_of_mark hk)
  · rw [(queueGain_gives b.sorted).find]
    refine congrArg (Option.or _) ?_
    unfold givenArm
    cases hm : s.run.mode <;> cases hp : (s.plan.cyls.get c).place <;> simp [hp, armEntry_eq]
  · rw [(queueGain_gives b.sorted).find]
    exact Option.or_none
  · have same := SameCycles.abortCoilCheck .edge s
    have tracker : (abortCoilCheck .edge s).tracker = s.tracker := abortCoilCheck_tracker ..
    have identity := identifyCam_congr tracker same.plan same.timebase
    have adv := advanceNow_congr tracker same.timebase
    have reached := exec_camEdge released
    have swap := swapNotice_of_plan same.plan
    generalize abortCoilCheck .edge s = a at *
    have plan := same.plan
    have time := same.timebase
    refine ⟨fun stopped cand n since t hcand hn hsince ht => ?_, fun seeking => ?_, fun half extra => ?_,
      fun half other => ?_, fun full hist tp t fed unfed ht => ?_, fun limp p x span tp i hp hx htp hi => ?_⟩
    · have candidate : isCandidate a.tracker.cam a.timebase = cand := by
        rw [Bool.eq_iff_iff, isCandidate_iff, tracker, time, ← hcand]
      have recorded : searchRecorded a.tracker a.timebase cand = t := by
        rw [ht, hn, hsince, tracker, time, searchRecorded, searched_eq]
      have count : t.cam.candidates = n := by rw [ht]
      have fault : t.crankFault = s.tracker.crankFault := by rw [ht]
      have edge : t.cam.lastAccepted = some s.timebase := by rw [ht]
      have stopped : a.tracker.sync = .stopped := by rw [tracker, stopped]
      rw [reached, camEdge_of_stopped stopped]
      refine ⟨fun quiet => congrArg Host.Outcome.next (camStopped_of_quiet candidate recorded ?_),
        fun tp starts second faulted enabled htp => congrArg Host.Outcome.next ?_⟩
      · rwa [count, fault, plan]
      · subst starts
        rw [camStopped_of_start candidate recorded stopped (count.trans second) (fault.trans faulted) (by rw [plan, enabled])]
        have started : { t.startCam a.plan.engine with sync := Sync.camLimp } =
            { t with
              sync := .camLimp, edgeAngle := some (s.plan.engine.camSync % 7200), crankHist := [], crankTp := none
              refGap := false, gapCount := 0
              cam := { t.cam with identity := .extra, hist := startHistory t.cam.raw, tp := some tp } } := by
          rw [← htp, plan]
          rfl
        rw [started]
        refine handOn_eq_handEdge ?_
        rw [queueGain_tracker, queueNotice_tracker]
        exact carrier_of_cam rfl rfl edge rfl
    · rw [reached, camEdge_of_seeking (by rw [tracker, seeking]), tracker, time]
      rfl
    · rw [reached, camEdge_of_half (by rw [tracker, half]), camHalf_of_extra (by rw [tracker, half]) (identity.trans extra),
        adv, tracker, time, plan]
      rfl
    · rw [reached, camEdge_of_half (by rw [tracker, half]), camHalf_of_other (by rwa [identity]), identity, tracker, time]
      rfl
    · have recorded : a.tracker.feedFull a.plan.engine.accelComp a.timebase (identifyCam a) = t := by
        rw [identity, tracker, time, plan, feedFull_eq fed unfed, ht]
      have wrong : t.cam.wrongPhase = s.tracker.cam.wrongPhase := by rw [ht]
      have sync : t.sync = .fullSync := by rw [ht]; exact full
      have fault : t.camFault = s.tracker.camFault := by rw [ht]
      have within : withinAngle s.plan.engine.gapOffset t = (s.plan.engine.gapOffset +
          s.tracker.tooth * pitchSteps s.tracker.wheel) % 3600 := by
        rw [ht]
        rfl
      clear ht
      rw [reached, camEdge_of_full (by rw [tracker, full]), recorded, identity]
      refine ⟨fun quiet => congrArg Host.Outcome.next (camIdentified_of_quiet quiet), fun extra => ?_, fun phantom first => ?_,
        fun phantom second => ⟨_, rfl, ?_⟩⟩
      · rw [extra]
        rfl
      · rw [phantom]
        exact congrArg Host.Outcome.next (camPhantom_of_first (s := a.withTracker t) (wrong.trans first))
      · have lost := moveTo_setCamFault_losesAngle .wrongPhase .camWrongPhase a (x := { t with
            half := none, edgeAngle := some (withinAngle s.plan.engine.gapOffset t)
            cam := { t.cam with wrongPhase := 0, revsNoExtra := 0 } }) (new := .halfSync)
          (congrArg Sync.holdsAngle sync) rfl
        have moved := moveTo_setCamFault_tracker .wrongPhase .camWrongPhase a (x := { t with
            half := none, edgeAngle := some (withinAngle s.plan.engine.gapOffset t)
            cam := { t.cam with wrongPhase := 0, revsNoExtra := 0 } }) (new := .halfSync)
          (congrArg Sync.holdsAngle sync) rfl
        have taken := camPhantom_of_second (s := a.withTracker t) (by rw [State.withTracker_tracker, wrong]; exact second)
        rw [State.withTracker_plan, plan] at taken
        rw [phantom, show camIdentified .phantom (a.withTracker t) = _ from taken]
        refine ⟨moved.trans ?_, lost.entries, fun b => ⟨lost.waiting b, (lost.drive b).trans (by rw [same.bank])⟩, ?_, ?_, ?_⟩
        · rw [within]
        · exact lost.plan.trans (by rw [plan])
        · exact lost.timebase.trans time
        · have told := lost.notices
          rw [swap] at told
          rw [← fault, ← sync]
          exact told
    · subst hi
      have limp : a.tracker.sync = .camLimp := by rw [tracker, limp]
      have hp : a.tracker.cam.lastAccepted = some p := by rw [tracker, hp]
      have hx : a.tracker.cam.identity.next = some (x, span) := by rw [tracker, hx]
      have htp' : a.tracker.cam.tp = some tp := by rw [tracker, htp]
      rw [reached, camEdge_of_limp limp]
      refine ⟨fun soon => ?_, fun late => ?_⟩
      · rw [camLimpEdge_of_spurious hp hx htp' (by rwa [time]), tracker]
      · rw [camLimpEdge_of_tested hp hx htp' (by rwa [time]), time, camTested, plan, tracker, time]
        refine ⟨camPasses_iff htp _ x, fun y next hist tp' passes hy hhist htp' => ?_, fun fails => ⟨_, rfl, ?_⟩⟩
        · have accepted : s.tracker.acceptCam s.plan.engine s.timebase (rawInterval p s.timebase) span x =
              { s.tracker with
                stallRef := some s.timebase, edgeAngle := some (camAngle s.plan.engine.camSync x)
                cam := { s.tracker.cam with
                  lastEdge := some s.timebase, lastAccepted := some s.timebase
                  raw := pushRaw (some (rawInterval p s.timebase)) s.tracker.cam.raw, identity := x, hist := hist
                  tp := some tp' } } := by
            rw [← htp', hhist]
            rfl
          rw [if_pos passes, accepted]
          refine congrArg Host.Outcome.next (handOn_eq_handEdge ?_)
          refine (carrier_of_cam (t := { s.tracker with
                stallRef := some s.timebase, edgeAngle := some (camAngle s.plan.engine.camSync x)
                cam := { s.tracker.cam with
                  lastEdge := some s.timebase, lastAccepted := some s.timebase
                  raw := pushRaw (some (rawInterval p s.timebase)) s.tracker.cam.raw, identity := x, hist := hist
                  tp := some tp' } }) (by rw [← tracker]; exact limp) rfl rfl rfl).trans ?_
          rw [camSpan_of_next rfl hy]
        · rw [if_neg (by rw [fails]; decide), camMismatch, tracker, time]
          rw [tracker] at limp
          have known := congrArg Sync.holdsAngle limp
          have lost := moveTo_setCamFault_losesAngle .limpMismatch .camMismatch a (x := { s.tracker with
            stallRef := some s.timebase, half := none, edgeAngle := none
            cam := { s.tracker.cam with
              lastEdge := some s.timebase, raw := pushRaw (camRaw s.tracker.cam s.timebase) s.tracker.cam.raw
              identity := .unknown } }) (new := .seeking) known rfl
          have moved := moveTo_setCamFault_tracker .limpMismatch .camMismatch a (x := { s.tracker with
            stallRef := some s.timebase, half := none, edgeAngle := none
            cam := { s.tracker.cam with
              lastEdge := some s.timebase, raw := pushRaw (camRaw s.tracker.cam s.timebase) s.tracker.cam.raw
              identity := .unknown } }) (new := .seeking) known rfl
          refine ⟨moved, lost.entries, fun b => ⟨lost.waiting b, (lost.drive b).trans (by rw [same.bank])⟩, ?_, ?_, ?_⟩
          · exact lost.plan.trans (by rw [plan])
          · exact lost.timebase.trans time
          · have told := lost.notices
            rw [swap] at told
            rw [← limp]
            exact told

end Sys2Proof.Machine
end

section
/-! Start arbitration: a start request at a bank, the fired PULSE entry that makes it, and the end of DECAY that serves the
waiting start (R115, R120, R122 to R124). -/

namespace Sys2Proof.Machine

/-! ## A start at an IDLE bank (R115, R123, R124) -/

section
variable {b : Bank} {r : StartReq} {s : State}

theorem serveStart_of_shed (lesser : r.kind ≠ .main) (short : (s.bank b).reserve < s.plan.engine.cost r.kind) :
    serveStart b r s = reportUnfired r.cyl r.slot (.shed .boost) s := if_pos ⟨lesser, short⟩

theorem serveStart_of_paid (h : r.kind = .main ∨ s.plan.engine.cost r.kind ≤ (s.bank b).reserve) :
    serveStart b r s = enterBoost b r s :=
  if_neg fun ⟨lesser, short⟩ => h.elim lesser (Nat.not_le.mpr short)

/-! ## A start request at a bank, by the first test that decides it (R122) -/

theorem startArrives_of_fuelcut (h : s.run.fuelcut = true) :
    startArrives b r s = reportUnfired r.cyl r.slot (.withdrawn .fuelcut) s := if_pos h

theorem startArrives_of_critical (h : s.run.fuelcut = false) (hb : s.run.band = .critical) :
    startArrives b r s = reportUnfired r.cyl r.slot (.shed .supply) s := by
  rw [startArrives, h, if_neg Bool.false_ne_true, if_pos hb]
  rfl

theorem startArrives_of_idle (h : s.run.fuelcut = false) (hb : s.run.band ≠ .critical)
    (idle : (s.bank b).drive = .idle) : startArrives b r s = serveStart b r s := by
  rw [startArrives, h, if_neg Bool.false_ne_true, if_neg hb, if_pos ((Drive.isIdle_iff _).mpr idle)]

theorem startArrives_of_busy (h : s.run.fuelcut = false) (hb : s.run.band ≠ .critical)
    (busy : (s.bank b).drive ≠ .idle) :
    startArrives b r s =
      match (s.bank b).waiting with
      | none => holdStart b r s
      | some w =>
        if w.kind ≠ .main ∧ r.kind = .main then shedStart w .collision (holdStart b r s)
        else shedStart r .collision s := by
  rw [startArrives, h, if_neg Bool.false_ne_true, if_neg hb, if_neg fun idle => busy ((Drive.isIdle_iff _).mp idle)] <;> rfl

/-! ## The waiting start (R120, R123) -/

theorem serveWaiting_of_fuelcut (h : s.run.fuelcut = true) :
    serveWaiting b r s = reportUnfired r.cyl r.slot (.withdrawn .fuelcut) s := if_pos h

theorem serveWaiting_of_critical (h : s.run.fuelcut = false) (hb : s.run.band = .critical) :
    serveWaiting b r s = reportUnfired r.cyl r.slot (.shed .supply) s := by
  rw [serveWaiting, h, if_neg Bool.false_ne_true, if_pos hb]
  rfl

theorem serveWaiting_of_slipped (h : s.run.fuelcut = false) (hb : s.run.band ≠ .critical)
    (late : 2 * s.plan.engine.maxSlipUs < elapsed r.committed s.timebase) :
    serveWaiting b r s = reportUnfired r.cyl r.slot (.shed .collision) s := by
  rw [serveWaiting, h, if_neg Bool.false_ne_true, if_neg hb, if_pos late]
  rfl

theorem serveWaiting_of_timely (h : s.run.fuelcut = false) (hb : s.run.band ≠ .critical)
    (timely : elapsed r.committed s.timebase ≤ 2 * s.plan.engine.maxSlipUs) :
    serveWaiting b r s = serveStart b r s := by
  rw [serveWaiting, h, if_neg Bool.false_ne_true, if_neg hb, if_neg (Nat.not_lt.mpr timely)]

theorem endDecay_of_none (h : (s.bank b).waiting = none) :
    endDecay b s = s.withBank b { s.bank b with drive := .idle } := by
  simp only [endDecay, h]

theorem endDecay_of_waiting (h : (s.bank b).waiting = some r) :
    endDecay b s = serveWaiting b r (s.withBank b { s.bank b with drive := .idle, waiting := none }) := by
  simp only [endDecay, h]

theorem exec_decayEnd {p : Pulse} {ended idleAt : Tick} {t : State} (released : s.resetHeld = false)
    (decay : (s.bank b).drive = .decay p ended idleAt) (due : reached idleAt s.timebase = true)
    (ht : endDecay b s = t) : exec (.decayEnd b) s = .next t :=
  takeDue_of_due released (by simp only [decayEndDue, decay, due]) ht

end

/-- Settles O28. -/
theorem decayEndServesWaiting : Obligations.DecayEndServesWaiting := by
  unfold Obligations.DecayEndServesWaiting
  intro s b p ended u released decay due
  have served := fun {t : State} => exec_decayEnd (t := t) released decay due
  refine ⟨fun free => served (endDecay_of_none free), fun r hr v hv => ?_, fun r hr uncut live => ?_⟩
  · have idle : endDecay b s = serveWaiting b r v := hv ▸ endDecay_of_waiting hr
    have run : v.run = s.run := by rw [hv, State.withBank_run]
    have plan : v.plan = s.plan := by rw [hv, State.withBank_plan]
    have time : v.timebase = s.timebase := by rw [hv, State.withBank_timebase]
    have reserve : (v.bank b).reserve = (s.bank b).reserve := by rw [hv, State.withBank_bank_same]
    refine ⟨fun cut => served (idle.trans (serveWaiting_of_fuelcut (by rw [run, cut]))),
      fun uncut dead => served (idle.trans (serveWaiting_of_critical (by rw [run, uncut]) (by rw [run, dead]))),
      fun uncut live timely lesser short => served (idle.trans ?_)⟩
    rw [serveWaiting_of_timely (by rw [run, uncut]) (by rwa [run]) (by rwa [time, plan])]
    exact serveStart_of_shed lesser (by rwa [reserve, plan])
  · refine ⟨fun late => served ?_, fun timely paid => served ?_⟩
    · rw [endDecay_of_waiting hr]
      exact serveWaiting_of_slipped (by simpa using uncut) (by simpa using live) (by simpa using late)
    · rw [endDecay_of_waiting hr, serveWaiting_of_timely (by simpa using uncut) (by simpa using live) (by simpa using timely),
        serveStart_of_paid (by simpa using paid)]
      simp [enterBoost, pulseOf, slipOf, Config.slipMax]

/-! ## A fired PULSE entry (R104) -/

section
variable {s : State} {e : Entry} {c : Cyl} {n : Nat} {x : CycleContext} {k : PulseKind} {energize : Nat}
  {q : Commitment}

theorem exec_fire_of_pulse (released : s.resetHeld = false) (he : firstDue s = some e) (hk : e.key = .pulse c n)
    (hp : e.pulse = some (k, energize)) (hq : e.commit = some q) (hx : s.contexts.get c = some x) :
    exec .fire s = .next
      (startArrives x.bank (startRequest c n k energize q.time x)
        (s.withQueue { s.queue with entries := s.queue.entries.filter fun y => !(y.key == e.key) })) := by
  have contexts : (removeKey e.key s).contexts.get c = some x := hx
  rw [exec_fire_of_firstDue released he]
  simp only [fireFirst, he, fireEntry]
  rw [hk]
  simp only [firePulse]
  rw [← hk, contexts, hp, hq]
  rfl

end

/-- Settles O22. -/
theorem firedPulseStarts : Obligations.FiredPulseStarts := by
  unfold Obligations.FiredPulseStarts
  refine ⟨?_, ?_, fun s c n o at_ linked committed => reportUnfired_outcome linked.own o committed rfl⟩
  · intro s e c n x k en q released he hk hp hq hx uncut live idle paid
    rw [exec_fire_of_pulse released he hk hp hq hx, startArrives_of_idle (by exact uncut) (by exact live) (by simpa using idle),
      serveStart_of_paid (by simpa [startRequest] using paid)]
    simp [enterBoost, pulseOf, slipOf, Config.slipMax, startRequest]
  · intro s u e c n x k en q r released he hk hp hq hx hu hr
    have fired : exec .fire s = .next (startArrives x.bank r u) := by
      rw [exec_fire_of_pulse released he hk hp hq hx, hu, hr]
      rfl
    have run : u.run = s.run := by rw [hu]; rfl
    have plan : u.plan = s.plan := by rw [hu]; rfl
    have bank : u.bank x.bank = s.bank x.bank := by rw [hu]; exact State.withQueue_bank ..
    have cyl : r.cyl = c := by rw [hr]
    have slot : r.slot = n := by rw [hr]
    have kind : r.kind = k := by rw [hr]
    rw [fired, ← cyl, ← slot, ← kind, ← bank, ← run, ← plan]
    refine ⟨fun cut => by rw [startArrives_of_fuelcut cut], fun uncut dead => by rw [startArrives_of_critical uncut dead],
      fun uncut live => ⟨fun idle lesser short => ?_, fun busy => ?_⟩⟩
    · rw [startArrives_of_idle uncut live idle, serveStart_of_shed lesser short]
    · have arrives := startArrives_of_busy (r := r) uncut live busy
      refine ⟨fun free => ?_, fun w hw => ⟨fun w_lesser main => ?_, fun kept => ?_⟩⟩
      · rw [free] at arrives
        exact congrArg Host.Outcome.next arrives
      · rw [hw] at arrives
        exact congrArg Host.Outcome.next (arrives.trans (if_pos ⟨w_lesser, main⟩))
      · rw [hw] at arrives
        exact congrArg Host.Outcome.next (arrives.trans (if_neg fun ⟨w_lesser, main⟩ =>
          kept.elim w_lesser fun lesser => lesser main))

end Sys2Proof.Machine
end

section
/-! SET_ENGINE: its payload, its checks, and what a stored record does to the tracker, the expiry and the stall timeout
(R18, R19, R45, R58, R176). -/

namespace Sys2Proof.Machine

/-! ## The payload (R45, R176) -/

theorem engineInRange_iff (p : List Byte) : engineInRange p = true ↔
    wordAt p 0 ≤ 3599 ∧ wordAt p 2 ≤ 7199 ∧ 600 ≤ wordAt p 4 ∧ wordAt p 4 ≤ 3600 ∧ byteAt p 11 ≤ 1 ∧ byteAt p 12 ≤ 1 := by
  simp [engineInRange, isFlag_iff, and_assoc]

theorem samePlacement_iff (x y : EngineRec) : x.samePlacement y = true ↔
    x.gapOffset = y.gapOffset ∧ x.camSync = y.camSync ∧ x.armingLead = y.armingLead := by
  simp [EngineRec.samePlacement, and_assoc]

theorem clampTo_threshold (y : Byte) : clampTo 16 255 y.toNat = max 16 y.toNat := by
  have : y.toNat < 256 := y.isLt
  simp only [clampTo]
  omega

theorem withPlan_linked {s : State} (l : s.Linked) (x : PlanStore) : (s.withPlan x).Linked :=
  (Calm.of_eq (s := s) (t := s.withPlan x) rfl rfl (fun _ => State.withPlan_bank ..) rfl).linked l

/-! ## What SET_ENGINE's effects leave of the rest -/

/-- The record, the cylinders, the fuel cut, the drives, the time and the reset line stand between two states. -/
structure KeepsSettings (s t : State) : Prop where
  engine : t.plan.engine = s.plan.engine
  cyls : t.plan.cyls = s.plan.cyls
  fuelcut : t.run.fuelcut = s.run.fuelcut
  drive : ∀ b, (t.bank b).drive = (s.bank b).drive
  timebase : t.timebase = s.timebase
  resetHeld : t.resetHeld = s.resetHeld

namespace KeepsSettings

theorem refl (s : State) : KeepsSettings s s := ⟨rfl, rfl, rfl, fun _ => rfl, rfl, rfl⟩

theorem trans {s t u : State} (h : KeepsSettings s t) (k : KeepsSettings t u) : KeepsSettings s u :=
  ⟨k.engine.trans h.engine, k.cyls.trans h.cyls, k.fuelcut.trans h.fuelcut, fun b => (k.drive b).trans (h.drive b),
    k.timebase.trans h.timebase, k.resetHeld.trans h.resetHeld⟩

theorem withTracker (s : State) (x : Tracker) : KeepsSettings s (s.withTracker x) :=
  ⟨rfl, rfl, rfl, fun b => by rw [State.withTracker_bank], rfl, rfl⟩

theorem queueNotice (n : NoticeBody) (s : State) : KeepsSettings s (queueNotice n s) :=
  ⟨by rw [queueNotice_plan], by rw [queueNotice_plan], by rw [queueNotice_run], fun b => by rw [queueNotice_bank],
    queueNotice_timebase .., queueNotice_resetHeld ..⟩

theorem setStale (s : State) : KeepsSettings s (s.withPlan { s.plan with stale := true }) :=
  ⟨rfl, rfl, rfl, fun b => by rw [State.withPlan_bank], rfl, rfl⟩

/-- A move to a state without the angle keeps the settings: a swap that lands changes none of them. -/
theorem moveTo {new : Sync} (cause : SyncCause) (s : State) (x : Tracker) (lost : new.holdsAngle = false) :
    KeepsSettings s (moveTo new cause (s.withTracker x)) := by
  cases known : x.sync.holdsAngle with
  | false =>
    rw [moveTo_untold_withTracker cause s known lost]
    exact (withTracker s _).trans (queueNotice _ _)
  | true =>
    have loses := moveTo_losesAngle_withTracker cause s known lost
    refine ⟨?_, ?_, loses.fuelcut, loses.drive, loses.timebase, ?_⟩
    · rw [loses.plan]
      split <;> rfl
    · rw [loses.plan]
      split <;> rfl
    · rw [moveTo_loss (s := s.withTracker x) cause known lost, landIfPending]
      split
      · rw [landSwap, queueNotice_resetHeld]
        exact (withdrawPulses_resetHeld ..).trans (queueNotice_resetHeld ..)
      · exact (withdrawPulses_resetHeld ..).trans (queueNotice_resetHeld ..)

theorem moveIfPlaced (old : EngineRec) (s : State) : KeepsSettings s (moveIfPlaced old s) := by
  unfold Machine.moveIfPlaced definitionMove
  split
  · split
    · exact moveTo .definition s _ rfl
    · exact refl s
  · exact refl s

theorem staleIfChanged (old : EngineRec) (s : State) : KeepsSettings s (staleIfChanged old s) := by
  unfold Machine.staleIfChanged staleTest
  split
  · exact refl s
  · split
    · exact (setStale s).trans (queueNotice _ _)
    · exact refl s

theorem stallIfDue (s : State) : KeepsSettings s (stallIfDue s) := by
  unfold Machine.stallIfDue stall
  split
  · split
    · exact withTracker s _
    · exact moveTo .stall s _ rfl
  · exact refl s

end KeepsSettings

/-! ## The effects one after another (R18, R19, R58) -/

section
variable {s : State} {old : EngineRec}

theorem wheelsMoved_eq_false {x y : EngineRec} (hg : y.gapOffset = x.gapOffset) (hc : y.camSync = x.camSync) :
    wheelsMoved x y = false := by
  simp [wheelsMoved, hg, hc]

theorem wheelsMoved_eq_true {x y : EngineRec} (h : y.gapOffset ≠ x.gapOffset ∨ y.camSync ≠ x.camSync) :
    wheelsMoved x y = true := by
  rcases h with h | h
  · simp [wheelsMoved, Ne.symm h]
  · simp [wheelsMoved, Ne.symm h]

theorem moveIfPlaced_of_unmoved (h : wheelsMoved old s.plan.engine = false) : moveIfPlaced old s = s := by
  simp [moveIfPlaced, h]

theorem moveIfPlaced_of_seeking (h : s.tracker.sync = .stopped ∨ s.tracker.sync = .seeking) : moveIfPlaced old s = s := by
  unfold moveIfPlaced definitionMove
  rcases h with h | h <;> simp [h, Sync.movesOnDefinition]

theorem moveIfPlaced_of_moved (hw : wheelsMoved old s.plan.engine = true)
    (h : s.tracker.sync = .halfSync ∨ s.tracker.sync = .fullSync ∨ s.tracker.sync = .camLimp) :
    moveIfPlaced old s = moveTo .seeking .definition
      (s.withTracker { s.tracker with refGap := false, gapCount := 0, half := none, edgeAngle := none }) := by
  have moves : s.tracker.sync.movesOnDefinition = true := by
    rcases h with h | h | h <;> rw [h] <;> rfl
  rw [moveIfPlaced, hw, definitionMove, moves]
  rfl

theorem staleIfChanged_of_same (h : s.plan.engine.planExpiry = old.planExpiry) : staleIfChanged old s = s :=
  if_pos h.symm

theorem staleIfChanged_of_reached (h : s.plan.engine.planExpiry ≠ old.planExpiry)
    (reached : s.plan.expiry = s.plan.engine.planExpiry) (fresh : s.plan.stale = false) :
    staleIfChanged old s =
      queueNotice (.planStale s.plan.activePage.serial s.plan.engine.planExpiry)
        (s.withPlan { s.plan with stale := true }) :=
  (if_neg (Ne.symm h)).trans (if_pos ⟨reached, fresh⟩)

theorem staleIfChanged_of_unreached (h : s.plan.engine.planExpiry ≠ old.planExpiry)
    (unreached : s.plan.expiry ≠ s.plan.engine.planExpiry ∨ s.plan.stale = true) : staleIfChanged old s = s := by
  refine (if_neg (Ne.symm h)).trans (if_neg fun ⟨reached, fresh⟩ => ?_)
  rcases unreached with other | stale
  · exact other reached
  · rw [stale] at fresh
    cases fresh

theorem stallIfDue_of_due (h : stallDue s = true) : stallIfDue s = stall s := if_pos h

theorem stallIfDue_of_not_due (h : stallDue s = false) : stallIfDue s = s := if_neg (by simp [h])

theorem exec_stallTimeout_eq (released : s.resetHeld = false) : exec .stallTimeout s = .next (stallIfDue s) :=
  take_of_released (f := fun t => if stallDue t then stall t else t) released rfl

theorem stallDue_of_none (h : stallFrom s.tracker = none) : stallDue s = false := by simp [stallDue, h]

theorem stallDue_of_early {r : Tick} (h : stallFrom s.tracker = some r) (early : elapsed r s.timebase < stallTicks s) :
    stallDue s = false := by
  simp [stallDue, h, Nat.not_le.mpr early]

theorem stall_tracker_of_moving (h : s.tracker.sync ≠ .stopped) :
    (stall s).tracker = { s.tracker.stalled with sync := .stopped } := by
  rw [stall_of_moving h]
  cases known : s.tracker.sync.holdsAngle with
  | true => exact moveTo_loss_withTracker_tracker .stall s (x := s.tracker.stalled) known rfl
  | false =>
    rw [moveTo_untold_withTracker .stall s (x := s.tracker.stalled) known rfl, queueNotice_tracker]
    rfl

end

theorem storeEngine_eq (e : EngineRec) (s : State) :
    storeEngine e s = s.withPlan
      { s.plan with
        engine := e
        expiry := if e.planExpiry = s.plan.engine.planExpiry then s.plan.expiry
          else min s.plan.expiry e.planExpiry } := by
  rw [storeEngine, expiryUnder]
  exact congrArg (fun n => s.withPlan { s.plan with engine := e, expiry := n }) (if_congr eq_comm rfl rfl)

/-! ## The request -/

section
variable {p : List Byte} {s : State}

theorem answerSetEngine_of_out_of_range (h : engineInRange p = false) : answerSetEngine p s = (.refused .badValue, s) := by
  simp [answerSetEngine, h]

theorem answerSetEngine_of_wrong_mode (h : engineInRange p = true) (running : s.run.mode ≠ .halt)
    (moved : (engineOf p).samePlacement s.plan.engine = false) : answerSetEngine p s = (.refused .wrongMode, s) := by
  simp [answerSetEngine, h, running, moved]

theorem answerSetEngine_of_stored (h : engineInRange p = true)
    (allowed : s.run.mode = .halt ∨ (engineOf p).samePlacement s.plan.engine = true) :
    answerSetEngine p s =
      (.ack (engineBytes (engineOf p)), engineStored s.plan.engine (storeEngine (engineOf p) s)) := by
  have stored : ¬ (s.run.mode ≠ .halt ∧ (engineOf p).samePlacement s.plan.engine = false) := by
    rintro ⟨running, moved⟩
    rcases allowed with halt | same
    · exact running halt
    · rw [same] at moved
      cases moved
  simp only [answerSetEngine, h, if_neg stored]
  rfl

end

/-- Settles O45. -/
theorem setEngineStoresRecord : Obligations.SetEngineStoresRecord := by
  unfold Obligations.SetEngineStoresRecord
  refine ⟨fun gap cam lead tol stall rpm expiry boost slip g accel limp pilot main post thr p hwords hp => ?_,
    samePlacement_iff, fun s tag p ready hlen => ?_⟩
  · simp only [List.forall_mem_cons] at hwords
    obtain ⟨hgap, hcam, hlead, htol, hstall, hrpm, hexpiry, hboost, hslip, -⟩ := hwords
    have gapAt : wordAt p 0 = gap := by
      simp only [hp, be16, List.cons_append, List.nil_append, wordAt, byteAt_cons_succ, byteAt_cons_zero]
      exact word_of_bytes hgap
    have camAt : wordAt p 2 = cam := by
      simp only [hp, be16, List.cons_append, List.nil_append, wordAt, byteAt_cons_succ, byteAt_cons_zero]
      exact word_of_bytes hcam
    have leadAt : wordAt p 4 = lead := by
      simp only [hp, be16, List.cons_append, List.nil_append, wordAt, byteAt_cons_succ, byteAt_cons_zero]
      exact word_of_bytes hlead
    have tolAt : wordAt p 6 = tol := by
      simp only [hp, be16, List.cons_append, List.nil_append, wordAt, byteAt_cons_succ, byteAt_cons_zero]
      exact word_of_bytes htol
    have stallAt : wordAt p 9 = stall := by
      simp only [hp, be16, List.cons_append, List.nil_append, wordAt, byteAt_cons_succ, byteAt_cons_zero]
      exact word_of_bytes hstall
    have rpmAt : wordAt p 13 = rpm := by
      simp only [hp, be16, List.cons_append, List.nil_append, wordAt, byteAt_cons_succ, byteAt_cons_zero]
      exact word_of_bytes hrpm
    have expiryAt : wordAt p 15 = expiry := by
      simp only [hp, be16, List.cons_append, List.nil_append, wordAt, byteAt_cons_succ, byteAt_cons_zero]
      exact word_of_bytes hexpiry
    have boostAt : wordAt p 20 = boost := by
      simp only [hp, be16, List.cons_append, List.nil_append, wordAt, byteAt_cons_succ, byteAt_cons_zero]
      exact word_of_bytes hboost
    have slipAt : wordAt p 22 = slip := by
      simp only [hp, be16, List.cons_append, List.nil_append, wordAt, byteAt_cons_succ, byteAt_cons_zero]
      exact word_of_bytes hslip
    have gAt : byteAt p 8 = g.toNat := by rw [hp]; rfl
    have accelAt : byteAt p 11 = accel.toNat := by rw [hp]; rfl
    have limpAt : byteAt p 12 = limp.toNat := by rw [hp]; rfl
    have pilotAt : byteAt p 17 = pilot.toNat := by rw [hp]; rfl
    have mainAt : byteAt p 18 = main.toNat := by rw [hp]; rfl
    have postAt : byteAt p 19 = post.toNat := by rw [hp]; rfl
    have thrAt : byteAt p 24 = thr.toNat := by rw [hp]; rfl
    refine ⟨by rw [hp]; rfl, ?_, ?_⟩
    · rw [engineInRange_iff, gapAt, camAt, leadAt, accelAt, limpAt]
    · rw [engineOf, gapAt, camAt, leadAt, tolAt, stallAt, rpmAt, expiryAt, boostAt, slipAt, gAt, accelAt, limpAt,
        pilotAt, mainAt, postAt, thrAt, clampTo_threshold, clampTo_zero, toNat_beq_one, toNat_beq_one]
      rfl
  · have fixed : lengthAllowed 0x04 p = true := lengthAllowed_fixed (by decide) hlen
    have fits : p.length ≤ 60 := by omega
    refine ⟨fun bad => request_refused ready fits fixed (answerSetEngine_of_out_of_range bad),
      fun good running moved => request_refused ready fits fixed (answerSetEngine_of_wrong_mode good running moved),
      fun good allowed => ?_⟩
    have accepted : exec (.setEngine tag p) s = acked 0x04 tag (engineBytes (engineOf p))
        (engineStored s.plan.engine (storeEngine (engineOf p) s)) :=
      request_acked ready fits fixed (answerSetEngine_of_stored good allowed)
    have store := storeEngine_eq (engineOf p) s
    refine ⟨⟨_, accepted, ?_⟩, fun sameGap sameCam sameExpiry notDue => ?_, fun e stored moved he hstored hmoved => ?_⟩
    · have kept := ((KeepsSettings.moveIfPlaced s.plan.engine (storeEngine (engineOf p) s)).trans
        (KeepsSettings.staleIfChanged s.plan.engine _)).trans (KeepsSettings.stallIfDue _)
      exact ⟨kept.engine, kept.cyls, kept.fuelcut, fun b => (kept.drive b).trans (by rw [storeEngine, State.withPlan_bank]),
        kept.timebase⟩
    · rw [if_pos sameExpiry] at store
      rw [accepted, store, engineStored,
        moveIfPlaced_of_unmoved (s := s.withPlan { s.plan with engine := engineOf p })
          (wheelsMoved_eq_false sameGap sameCam),
        staleIfChanged_of_same (s := s.withPlan { s.plan with engine := engineOf p }) sameExpiry,
        stallIfDue_of_not_due notDue]
    · subst he
      rw [← hstored] at store
      rw [store, engineStored] at accepted
      have engine : stored.plan.engine = engineOf p := by rw [hstored]; rfl
      have tracker : stored.tracker = s.tracker := by rw [hstored]; rfl
      have u_kept := KeepsSettings.moveIfPlaced s.plan.engine stored
      have v_kept := u_kept.trans (KeepsSettings.staleIfChanged s.plan.engine _)
      have v_time : (staleIfChanged s.plan.engine (moveIfPlaced s.plan.engine stored)).timebase = s.timebase := by
        rw [v_kept.timebase, hstored]
        rfl
      have v_ticks : stallTicks (staleIfChanged s.plan.engine (moveIfPlaced s.plan.engine stored)) =
          2000 * (engineOf p).stallMs := by
        rw [stallTicks, v_kept.engine, engine]
      have u_engine : (moveIfPlaced s.plan.engine stored).plan.engine = engineOf p := u_kept.engine.trans engine
      refine ⟨moveIfPlaced s.plan.engine stored, staleIfChanged s.plan.engine (moveIfPlaced s.plan.engine stored), _,
        accepted, fun still => ?_, fun changed => ⟨fun half => ?_, fun angled => ?_⟩, fun sameExpiry => ?_,
        fun newExpiry => ⟨fun reached fresh => ?_, fun unreached => ?_⟩, ?_, fun from_ hfrom => ?_⟩
      · rcases still with ⟨sameGap, sameCam⟩ | stopped
        · exact moveIfPlaced_of_unmoved (by rw [engine]; exact wheelsMoved_eq_false sameGap sameCam)
        · exact moveIfPlaced_of_seeking (by rwa [tracker])
      · have unknown : ({ s.tracker with refGap := false, gapCount := 0, half := none, edgeAngle := none } :
            Tracker).sync.holdsAngle = false := congrArg Sync.holdsAngle half
        rw [moveIfPlaced_of_moved (by rw [engine]; exact wheelsMoved_eq_true changed) (.inl (by rw [tracker, half])), hmoved,
          tracker, moveTo_untold_withTracker .definition stored unknown (new := .seeking) rfl, if_pos half]
      · have moves : s.tracker.sync = .halfSync ∨ s.tracker.sync = .fullSync ∨ s.tracker.sync = .camLimp := .inr angled
        have known : ({ s.tracker with refGap := false, gapCount := 0, half := none, edgeAngle := none } :
            Tracker).sync.holdsAngle = true := (Sync.holdsAngle_iff _).mpr angled
        have notHalf : s.tracker.sync ≠ .halfSync := by
          rcases angled with h | h <;> rw [h] <;> decide
        have placed := moveIfPlaced_of_moved (s := stored) (by rw [engine]; exact wheelsMoved_eq_true changed)
          (by rwa [tracker])
        rw [tracker] at placed
        have loses := moveTo_losesAngle_withTracker .definition stored known (new := .seeking) rfl
        have moved_tracker := moveTo_loss_withTracker_tracker .definition stored known (new := .seeking) rfl
        rw [placed]
        refine ⟨?_, ?_, ?_, fun b => ?_, ?_, ?_, fun tied => ?_⟩
        · rw [moveTo_loss (s := stored.withTracker _) .definition known rfl, hmoved, if_neg notHalf]
          rfl
        · rw [moved_tracker, hmoved, queueNotice_tracker, if_neg notHalf]
          rfl
        · rw [loses.queue, hstored]
          rfl
        · rw [loses.bank, hstored, State.withPlan_bank]
        · rw [loses.plan, hstored]
          rfl
        · rw [moveTo_loss_withTracker_diag .definition stored known rfl, hstored]
          rfl
        · have linked : stored.Linked := by
            rw [hstored]
            exact withPlan_linked (tied ready.1).1 _
          obtain ⟨entries, starts⟩ := loses.ends linked
          refine ⟨fun y hy => entries y ?_, fun b r hr => starts b r ?_⟩
          · rw [hstored]
            exact hy
          · rw [hstored, State.withPlan_bank]
            exact hr
      · exact staleIfChanged_of_same (by rw [u_engine, sameExpiry])
      · rw [← u_engine] at reached newExpiry ⊢
        exact staleIfChanged_of_reached newExpiry reached fresh
      · rw [← u_engine] at unreached newExpiry
        exact staleIfChanged_of_unreached newExpiry unreached
      · refine exec_stallTimeout_eq (v_kept.resetHeld.trans ?_)
        rw [hstored]
        exact ready.1
      · have edge : stallFrom (staleIfChanged s.plan.engine (moveIfPlaced s.plan.engine stored)).tracker = from_ := hfrom.symm
        refine ⟨fun absent => ?_, fun r hr early => ?_, fun r hr passed => ⟨fun stopped => ?_, fun moving => ?_⟩⟩
        · exact stallIfDue_of_not_due (stallDue_of_none (edge.trans absent))
        · exact stallIfDue_of_not_due (stallDue_of_early (edge.trans hr) (by rwa [v_time, v_ticks]))
        · have due := stallDue_of_passed (edge.trans hr) (by rwa [v_time, v_ticks])
          rw [stallIfDue_of_due due, stall_of_stopped stopped]
        · have due := stallDue_of_passed (edge.trans hr) (by rwa [v_time, v_ticks])
          rw [stallIfDue_of_due due, stall_tracker_of_moving moving]
          rfl

end Sys2Proof.Machine
end

section
/-! Circuit Diagnosis at the end of a pulse: the score, the warning, the fault-disabled latch with its withdrawal, and
what the bank that enters DECAY leaves unchanged (R117, R132 to R135). -/

namespace Sys2Proof.Machine

/-! ## Values by cylinder -/

@[simp] theorem PerCyl.set_set {α : Type} (p : PerCyl α) (c : Cyl) (x y : α) : (p.set c x).set c y = p.set c y := by
  cases c <;> rfl

@[simp] theorem PerCyl.set_get {α : Type} (p : PerCyl α) (c : Cyl) : p.set c (p.get c) = p := by
  cases c <;> rfl

/-! ## The tests of a classification (R132 to R135) -/

/-- The diagnosis state with a new score of a cylinder against the fault threshold: the warning is armed below half the
threshold, and the latch is set at it. -/
def Diagnosis.scored (d : Diagnosis) (c : Cyl) (n thr : Nat) : Diagnosis :=
  { d with
    score := d.score.set c n
    warnArmed := d.warnArmed.set c (decide (n < thr / 2))
    disabled := d.disabled.set c (d.disabled.get c || decide (thr ≤ n)) }

/-- The score a classification gives a cylinder. -/
def newScore (c : Cyl) (k : Classification) (s : State) : Nat := scoreAfter k (s.diag.score.get c)

/-- Whether a classification warns: half the threshold reached with the warning armed. -/
def warns (c : Cyl) (k : Classification) (s : State) : Bool :=
  decide (s.plan.engine.faultThreshold / 2 ≤ newScore c k s) && s.diag.warnArmed.get c

/-- Whether a classification sets a clear latch. -/
def disables (c : Cyl) (k : Classification) (s : State) : Bool :=
  decide (s.plan.engine.faultThreshold ≤ newScore c k s) && !s.diag.disabled.get c

/-- The state with its new score, and with FAULT_WARN where the classification warns. -/
def scoredAndWarned (c : Cyl) (k : Classification) (s : State) : State :=
  if warns c k s then
    queueNotice (.faultWarn c (newScore c k s) s.plan.engine.faultThreshold k)
      (s.withDiag (s.diag.scored c (newScore c k s) s.plan.engine.faultThreshold))
  else s.withDiag (s.diag.scored c (newScore c k s) s.plan.engine.faultThreshold)

theorem queueNotice_withDiag (n : NoticeBody) (s : State) (x : Diagnosis) :
    queueNotice n (s.withDiag x) = (queueNotice n s).withDiag x := by
  cases h : s.link.enable.getLsbD n.index with
  | true => simp only [queueNotice, State.withDiag_link, h, if_true]; rfl
  | false => simp [queueNotice, h]

section
variable (c : Cyl) (k : Classification) (s : State)

/-- The latch of the new diagnosis state, written by whether the classification sets it. -/
theorem scored_disabled :
    (s.diag.scored c (newScore c k s) s.plan.engine.faultThreshold).disabled =
      if disables c k s then s.diag.disabled.set c true else s.diag.disabled := by
  unfold Diagnosis.scored disables
  cases hd : s.diag.disabled.get c with
  | true =>
    have same := PerCyl.set_get s.diag.disabled c
    rw [hd] at same
    simp [same]
  | false =>
    have unset := PerCyl.set_get s.diag.disabled c
    rw [hd] at unset
    by_cases ht : s.plan.engine.faultThreshold ≤ newScore c k s
    · simp [ht]
    · simp [ht, unset]

/-- The score change, the re-arming test and the warning test, with the latch left to the disable test. -/
theorem warnTest_scoreAndRearm (thr n : Nat) (ht : thr = s.plan.engine.faultThreshold) (hn : n = newScore c k s) :
    warnTest c k (scoreAndRearm c k s) =
      if warns c k s then
        queueNotice (.faultWarn c n thr k)
          (s.withDiag { s.diag with
            score := s.diag.score.set c n, warnArmed := s.diag.warnArmed.set c (decide (n < thr / 2)) })
      else
        s.withDiag { s.diag with
          score := s.diag.score.set c n, warnArmed := s.diag.warnArmed.set c (decide (n < thr / 2)) } := by
  unfold warnTest scoreAndRearm warns rearmed
  rw [← hn, ← ht]
  unfold newScore at hn
  rw [← hn]
  by_cases half : thr / 2 ≤ n
  · have low : ¬ n < thr / 2 := Nat.not_lt.mpr half
    cases armed : s.diag.warnArmed.get c with
    | true => simp [half, low, ← ht]
    | false => simp [low, ← ht]
  · have low : n < thr / 2 := Nat.not_le.mp half
    simp [half, low, ← ht]

/-- Circuit Diagnosis in closed form: the score and the warning, then the withdrawal and CYL_DISABLED where the latch is
set (R132 to R135). -/
theorem diagnose_eq :
    diagnose c k s =
      if disables c k s then
        queueNotice (.cylDisabled c (newScore c k s) s.plan.engine.faultThreshold k)
          (withdrawPulses (fun d => d == c) .fault (scoredAndWarned c k s))
      else scoredAndWarned c k s := by
  unfold diagnose
  rw [warnTest_scoreAndRearm c k s _ _ rfl rfl]
  have latch := scored_disabled c k s
  generalize hu : { s.diag with
      score := s.diag.score.set c (newScore c k s)
      warnArmed := s.diag.warnArmed.set c
        (decide (newScore c k s < s.plan.engine.faultThreshold / 2)) } = u
  have score : u.score.get c = newScore c k s := by simp [← hu]
  have before : u.disabled = s.diag.disabled := by rw [← hu]
  have warned : scoredAndWarned c k s =
      (if warns c k s then queueNotice (.faultWarn c (newScore c k s) s.plan.engine.faultThreshold k) (s.withDiag u)
        else s.withDiag u).withDiag
          { u with disabled := (s.diag.scored c (newScore c k s) s.plan.engine.faultThreshold).disabled } := by
    unfold scoredAndWarned
    split
    · rw [← queueNotice_withDiag, State.withDiag_withDiag, ← hu]
      rfl
    · rw [State.withDiag_withDiag, ← hu]
      rfl
  generalize hv : (if warns c k s then
      queueNotice (.faultWarn c (newScore c k s) s.plan.engine.faultThreshold k) (s.withDiag u) else s.withDiag u) = v
    at warned ⊢
  have diag : v.diag = u := by rw [← hv]; split <;> simp
  have plan : v.plan = s.plan := by rw [← hv]; split <;> simp
  unfold disableTest
  rw [diag, plan, score, before, warned, latch]
  have same : v.withDiag { u with disabled := s.diag.disabled } = v := by rw [← before, ← diag]; rfl
  unfold disables
  by_cases ht : s.plan.engine.faultThreshold ≤ newScore c k s
  · cases hd : s.diag.disabled.get c with
    | true => simp [same]
    | false => simp [ht, State.withDiag]
  · simp [ht, same]

/-! ## What a classification changes and leaves, field by field -/

@[simp] theorem scoredAndWarned_queue : (scoredAndWarned c k s).queue = s.queue := by
  unfold scoredAndWarned; split <;> simp

@[simp] theorem scoredAndWarned_bank (b : Bank) : (scoredAndWarned c k s).bank b = s.bank b := by
  unfold scoredAndWarned; split <;> simp

@[simp] theorem scoredAndWarned_contexts : (scoredAndWarned c k s).contexts = s.contexts := by
  unfold scoredAndWarned; split <;> simp

@[simp] theorem scoredAndWarned_records : (scoredAndWarned c k s).records = s.records := by
  unfold scoredAndWarned; split <;> simp

@[simp] theorem scoredAndWarned_run : (scoredAndWarned c k s).run = s.run := by
  unfold scoredAndWarned; split <;> simp

@[simp] theorem scoredAndWarned_timebase : (scoredAndWarned c k s).timebase = s.timebase := by
  unfold scoredAndWarned; split <;> simp

@[simp] theorem scoredAndWarned_tracker : (scoredAndWarned c k s).tracker = s.tracker := by
  unfold scoredAndWarned; split <;> simp

@[simp] theorem scoredAndWarned_plan : (scoredAndWarned c k s).plan = s.plan := by
  unfold scoredAndWarned; split <;> simp

@[simp] theorem scoredAndWarned_diag :
    (scoredAndWarned c k s).diag = s.diag.scored c (newScore c k s) s.plan.engine.faultThreshold := by
  unfold scoredAndWarned; split <;> simp

theorem diagnose_of_disables (h : disables c k s = true) :
    diagnose c k s =
      queueNotice (.cylDisabled c (newScore c k s) s.plan.engine.faultThreshold k)
        (withdrawPulses (fun d => d == c) .fault (scoredAndWarned c k s)) := by
  rw [diagnose_eq, if_pos h]

theorem diagnose_of_spared (h : disables c k s = false) : diagnose c k s = scoredAndWarned c k s := by
  rw [diagnose_eq, h, if_neg Bool.false_ne_true]

theorem diagnose_queue :
    (diagnose c k s).queue =
      if disables c k s then
        { s.queue with entries := s.queue.entries.filter fun e => !e.pulseIn fun d => d == c }
      else s.queue := by
  cases h : disables c k s with
  | true => simp [diagnose_of_disables c k s h, withdrawPulses_queue]
  | false => simp [diagnose_of_spared c k s h]

theorem diagnose_bank (b : Bank) :
    (diagnose c k s).bank b =
      if disables c k s then { s.bank b with waiting := (s.bank b).waiting.filter fun r => r.cyl != c }
      else s.bank b := by
  cases h : disables c k s with
  | true => simp [diagnose_of_disables c k s h, withdrawPulses_bank, emptyWaiting_eq, bne]
  | false => simp [diagnose_of_spared c k s h]

@[simp] theorem diagnose_diag :
    (diagnose c k s).diag = s.diag.scored c (newScore c k s) s.plan.engine.faultThreshold := by
  cases h : disables c k s with
  | true => simp [diagnose_of_disables c k s h]
  | false => simp [diagnose_of_spared c k s h]

@[simp] theorem diagnose_timebase : (diagnose c k s).timebase = s.timebase := by
  cases h : disables c k s with
  | true => simp [diagnose_of_disables c k s h]
  | false => simp [diagnose_of_spared c k s h]

@[simp] theorem diagnose_tracker : (diagnose c k s).tracker = s.tracker := by
  cases h : disables c k s with
  | true => simp [diagnose_of_disables c k s h]
  | false => simp [diagnose_of_spared c k s h]

@[simp] theorem diagnose_plan : (diagnose c k s).plan = s.plan := by
  cases h : disables c k s with
  | true => simp [diagnose_of_disables c k s h]
  | false => simp [diagnose_of_spared c k s h]

@[simp] theorem diagnose_fuelcut : (diagnose c k s).run.fuelcut = s.run.fuelcut := by
  cases h : disables c k s with
  | true => simp [diagnose_of_disables c k s h, withdrawPulses_fuelcut]
  | false => simp [diagnose_of_spared c k s h]

@[simp] theorem diagnose_band : (diagnose c k s).run.band = s.run.band := by
  cases h : disables c k s with
  | true => simp [diagnose_of_disables c k s h, withdrawPulses_band]
  | false => simp [diagnose_of_spared c k s h]

/-- A latch that the classification sets leaves the cylinder no PULSE entry and no waiting start (R135, R136). -/
theorem diagnose_clears (h : disables c k s = true) :
    (∀ e ∈ (diagnose c k s).queue.entries, ∀ m, e.key ≠ .pulse c m) ∧
      ∀ d r, ((diagnose c k s).bank d).waiting = some r → r.cyl ≠ c := by
  refine ⟨fun e he m hk => ?_, fun d r hr => ?_⟩
  · rw [diagnose_queue, if_pos h] at he
    have kept := (List.mem_filter.mp he).2
    simp [Entry.pulseIn, hk] at kept
  · rw [diagnose_bank, if_pos h] at hr
    have kept := (Option.filter_eq_some_iff.mp hr).2
    simpa using kept

end

/-- The withdrawal of a scope gives each unstarted pulse of it the outcome WITHDRAWN (R83, R106). -/
theorem withdrawPulses_outcome {scope : Cyl → Bool} {s : State} (l : s.Linked) (r : WithdrawReason) {c : Cyl} {n : Nat}
    (hc : scope c = true) (h1 : 1 ≤ n) (h5 : n ≤ 5)
    (h : (∃ e ∈ s.queue.entries, e.key = .pulse c n) ∨ ∃ b w, (s.bank b).waiting = some w ∧ w.cyl = c ∧ w.slot = n) :
    outcomeAt (withdrawPulses scope r s) c n = some (.withdrawn r) := by
  refine reportWithdrawn_outcome r _ _ ((dropPulses_settles _ s).own l.own) c n (mem_unstartedPulses hc h1 h5 ?_) ?_
  · simp only [isUnstartedPulse, Bool.or_eq_true]
    rcases h with ⟨e, he, hk⟩ | ⟨b, w, hw, rfl, rfl⟩
    · exact .inl (.inl (List.any_eq_true.mpr ⟨e, he, by simp [hk]⟩))
    · cases b with
      | bankA => exact .inl (.inr (by rw [show s.bankA.waiting = some w from hw]; simp))
      | bankB => exact .inr (by rw [show s.bankB.waiting = some w from hw]; simp)
  · show Placed s c n
    rcases h with ⟨e, he, hk⟩ | ⟨b, w, hw, rfl, rfl⟩
    · cases hc : e.commit with
      | none => exact .inl (l.waitingEntry e he c n hk hc)
      | some k => exact .inr ⟨_, l.committedEntry e he c n k hk hc⟩
    · exact .inr ⟨_, (l.start b w hw).2.1⟩

/-! ## Entering DECAY (R117, R125) -/

section
variable (b : Bank) (p : Pulse) (s : State)

/-- The entry of DECAY changes its bank alone. -/
theorem startDecay_eq : startDecay b p s = s.withBank b ((startDecay b p s).bank b) := by
  obtain ⟨x, hx, _⟩ := startDecay_shape b p s
  rw [hx, State.withBank_bank_same]

theorem startDecay_drive_self :
    ((startDecay b p s).bank b).drive = .decay p s.timebase (s.timebase + 100) := by
  unfold startDecay
  dsimp only
  split
  · rw [settleRecharge, State.withBank_bank_same, (gainUnit_same _ _).1, State.withBank_bank_same]
    rfl
  · rw [State.withBank_bank_same]
    rfl

theorem startDecay_bank_other {d : Bank} (h : d ≠ b) : (startDecay b p s).bank d = s.bank d := by
  rw [startDecay_eq, State.withBank_bank, if_neg h]

@[simp] theorem startDecay_waiting (d : Bank) : ((startDecay b p s).bank d).waiting = (s.bank d).waiting := by
  obtain ⟨x, hx, hw, _⟩ := startDecay_shape b p s
  rw [hx, State.withBank_bank]
  split
  · next h => rw [hw, h]
  · rfl

@[simp] theorem startDecay_queue : (startDecay b p s).queue = s.queue := by
  rw [startDecay_eq, State.withBank_queue]
@[simp] theorem startDecay_contexts : (startDecay b p s).contexts = s.contexts := by
  rw [startDecay_eq, State.withBank_contexts]
@[simp] theorem startDecay_records : (startDecay b p s).records = s.records := by
  rw [startDecay_eq, State.withBank_records]
@[simp] theorem startDecay_run : (startDecay b p s).run = s.run := by rw [startDecay_eq, State.withBank_run]
@[simp] theorem startDecay_diag : (startDecay b p s).diag = s.diag := by rw [startDecay_eq, State.withBank_diag]
@[simp] theorem startDecay_timebase : (startDecay b p s).timebase = s.timebase := by
  rw [startDecay_eq, State.withBank_timebase]
@[simp] theorem startDecay_tracker : (startDecay b p s).tracker = s.tracker := by
  rw [startDecay_eq, State.withBank_tracker]
@[simp] theorem startDecay_plan : (startDecay b p s).plan = s.plan := by rw [startDecay_eq, State.withBank_plan]

end

end Sys2Proof.Machine
end

section
/-! The end of a pulse: the chain step by what it changes, the report to the cylinder's context, and the whole event at
a bank (R80, R81, R117 to R121). -/

namespace Sys2Proof.Machine

/-! ## The chain step (R81) -/

/-- A new entry is the one of its key. -/
theorem findEntry_insertEntry_new {e : Entry} {s : State} (h : findEntry e.key s = none) :
    findEntry e.key (insertEntry e s) = some e := by
  show (insertByKey e s.queue.entries).find? (fun y => y.key == e.key) = some e
  have absent : s.queue.entries.find? (fun y => y.key == e.key) = none := h
  generalize s.queue.entries = xs at absent
  induction xs with
  | nil => simp [insertByKey]
  | cons x xs ih =>
    obtain ⟨other, rest⟩ : (x.key == e.key) = false ∧ xs.find? (fun y => y.key == e.key) = none := by
      cases hx : x.key == e.key with
      | true => simp [hx] at absent
      | false => exact ⟨rfl, by simpa [List.find?_cons, hx] using absent⟩
    have differs : x.key ≠ e.key := by simpa using other
    unfold insertByKey
    rw [if_neg differs]
    split
    · simp
    · rw [List.find?_cons, other]
      exact ih rest

section
variable {c : Cyl} {n d : Nat} {ended : Tick} {s : State} {x : CycleContext} {y : Slot}

theorem chainAfter_of_pending (hx : s.contexts.get c = some x) (hy : slotAfter n x.slots = some y)
    (pending : y.st = .pending) (dwell : y.anchor = .dwell d) :
    chainAfter c n ended s = chainSlot c x y d ended s := by
  simp only [chainAfter, hx, hy, pending, dwell]

/-- The chain step has no effect, or chains the PENDING DWELL slot that follows. -/
theorem chainAfter_cases (c : Cyl) (n : Nat) (ended : Tick) (s : State) :
    chainAfter c n ended s = s ∨
      ∃ x y d, s.contexts.get c = some x ∧ slotAfter n x.slots = some y ∧ y.st = .pending ∧
        chainAfter c n ended s = chainSlot c x y d ended s := by
  unfold chainAfter
  split
  · exact .inl rfl
  · next x hx =>
    split
    · exact .inl rfl
    · next y hy =>
      split
      · next d pending _ => exact .inr ⟨x, y, d, hx, hy, pending, rfl⟩
      · exact .inl rfl

theorem chainSlot_of_block {o : SlotOutcome} (h : chainBlock s c x y (later ended d) = some o) :
    chainSlot c x y d ended s = updateSlots c (resolveUnfired y.num o) s := by
  simp only [chainSlot, h]

theorem chainSlot_of_free (h : chainBlock s c x y (later ended d) = none) :
    chainSlot c x y d ended s =
      insertEntry
        { key := .pulse c y.num, target := none, pulse := some (y.kind, chainEnergize s x y (later ended d)),
          commit := some { ref := ended, delay := d } }
        (updateSlots c
          (mapSlot y.num (Slot.commitTo (later ended d)
            (decide (chainEnergize s x y (later ended d) < y.energize))))
          s) := by
  simp only [chainSlot, h]

theorem chainBlock_of_fuelcut (h : s.run.fuelcut = true) (start : Tick) :
    chainBlock s c x y start = some (.withdrawn .fuelcut) := if_pos h

theorem chainBlock_of_disabled (h : s.run.fuelcut = false) (hd : s.diag.disabled.get c = true) (start : Tick) :
    chainBlock s c x y start = some (.withdrawn .fault) := by
  rw [chainBlock, h, if_neg Bool.false_ne_true, if_pos hd]

/-- Under the fuel cut and for a disabled cylinder the first cases of the chain test hold (R81). -/
theorem chainBlock_of_blocked (h : s.run.fuelcut = true ∨ s.diag.disabled.get c = true) (start : Tick) :
    ∃ o, chainBlock s c x y start = some o := by
  cases hf : s.run.fuelcut with
  | true => exact ⟨_, chainBlock_of_fuelcut hf start⟩
  | false => exact ⟨_, chainBlock_of_disabled hf (h.resolve_left (by simp [hf])) start⟩

theorem updateSlots_eq_withContexts (c : Cyl) (f : List Slot → List Slot) (s : State) :
    ∃ x, updateSlots c f s = s.withContexts x := by
  unfold updateSlots
  split
  · exact ⟨s.contexts, rfl⟩
  · exact ⟨_, rfl⟩

theorem updateSlots_queue (c : Cyl) (f : List Slot → List Slot) (s : State) : (updateSlots c f s).queue = s.queue := by
  obtain ⟨x, h⟩ := updateSlots_eq_withContexts c f s
  rw [h, State.withContexts_queue]

/-- The chain step changes the contexts and the queue alone. -/
theorem chainAfter_rest (c : Cyl) (n : Nat) (ended : Tick) (s : State) :
    ∃ x q, chainAfter c n ended s = (s.withContexts x).withQueue q := by
  rcases chainAfter_cases c n ended s with h | ⟨x, y, d, _, _, _, h⟩
  · exact ⟨s.contexts, s.queue, h⟩
  · rw [h]
    cases hb : chainBlock s c x y (later ended d) with
    | some o =>
      obtain ⟨z, hz⟩ := updateSlots_eq_withContexts c (resolveUnfired y.num o) s
      exact ⟨z, s.queue, by rw [chainSlot_of_block hb, hz]; rfl⟩
    | none =>
      rw [chainSlot_of_free hb]
      obtain ⟨z, hz⟩ := updateSlots_eq_withContexts c (mapSlot y.num (Slot.commitTo (later ended d)
        (decide (chainEnergize s x y (later ended d) < y.energize)))) s
      exact ⟨z, _, by rw [hz]; rfl⟩

/-- Nothing is chained under the fuel cut, or for a disabled cylinder. -/
theorem chainAfter_queue_of_blocked (h : s.run.fuelcut = true ∨ s.diag.disabled.get c = true) :
    (chainAfter c n ended s).queue = s.queue := by
  rcases chainAfter_cases c n ended s with h1 | ⟨x, y, d, _, _, _, h1⟩
  · rw [h1]
  · obtain ⟨o, ho⟩ := chainBlock_of_blocked h (x := x) (y := y) (later ended d)
    rw [h1, chainSlot_of_block ho, updateSlots_queue]

/-- Every slot of a cylinder's open context is past its start or resolved. -/
def NoneUnstarted (c : Cyl) (s : State) : Prop :=
  ∀ x, s.contexts.get c = some x → ∀ y ∈ x.slots, y.st.isUnstarted = false

theorem chainAfter_of_noneUnstarted (h : NoneUnstarted c s) : chainAfter c n ended s = s := by
  rcases chainAfter_cases c n ended s with h1 | ⟨x, y, d, hx, hy, pending, _⟩
  · exact h1
  · have started := h x hx y (slotAfter_mem hy)
    rw [pending] at started
    cases started

end

/-! ## The report of the end to the context (R80) -/

/-- The end report has no effect, or resolves the ENERGIZED slot of the pulse and makes the chain step. -/
theorem endReport_cases (p : Pulse) (ended : Tick) (k : Classification) (s : State) :
    endReport p ended k s = s ∨
      endReport p ended k s =
        chainAfter p.cyl p.slot ended (updateSlots p.cyl (mapSlot p.slot (Slot.fire p ended k)) s) := by
  unfold endReport
  split
  · exact .inl rfl
  · split
    · exact .inr rfl
    · exact .inl rfl

section
variable (p : Pulse) (ended : Tick) (k : Classification) (s : State)

theorem endReport_rest : ∃ x q, endReport p ended k s = (s.withContexts x).withQueue q := by
  rcases endReport_cases p ended k s with h | h
  · exact ⟨s.contexts, s.queue, h⟩
  · obtain ⟨z, hz⟩ := updateSlots_eq_withContexts p.cyl (mapSlot p.slot (Slot.fire p ended k)) s
    obtain ⟨x, q, hq⟩ := chainAfter_rest p.cyl p.slot ended (s.withContexts z)
    exact ⟨x, q, by rw [h, hz, hq, State.withContexts_withContexts]⟩

@[simp] theorem endReport_bank (b : Bank) : (endReport p ended k s).bank b = s.bank b := by
  obtain ⟨x, q, h⟩ := endReport_rest p ended k s
  simp [h]
@[simp] theorem endReport_diag : (endReport p ended k s).diag = s.diag := by
  obtain ⟨x, q, h⟩ := endReport_rest p ended k s
  simp [h]
@[simp] theorem endReport_run : (endReport p ended k s).run = s.run := by
  obtain ⟨x, q, h⟩ := endReport_rest p ended k s
  simp [h]
@[simp] theorem endReport_timebase : (endReport p ended k s).timebase = s.timebase := by
  obtain ⟨x, q, h⟩ := endReport_rest p ended k s
  simp [h]
@[simp] theorem endReport_tracker : (endReport p ended k s).tracker = s.tracker := by
  obtain ⟨x, q, h⟩ := endReport_rest p ended k s
  simp [h]
@[simp] theorem endReport_plan : (endReport p ended k s).plan = s.plan := by
  obtain ⟨x, q, h⟩ := endReport_rest p ended k s
  simp [h]
@[simp] theorem endReport_records : (endReport p ended k s).records = s.records := by
  obtain ⟨x, q, h⟩ := endReport_rest p ended k s
  simp [h]

variable {p ended k s}

theorem endReport_queue_of_blocked (h : s.run.fuelcut = true ∨ s.diag.disabled.get p.cyl = true) :
    (endReport p ended k s).queue = s.queue := by
  rcases endReport_cases p ended k s with h1 | h1
  · rw [h1]
  · obtain ⟨z, hz⟩ := updateSlots_eq_withContexts p.cyl (mapSlot p.slot (Slot.fire p ended k)) s
    rw [h1, chainAfter_queue_of_blocked (by rw [hz]; exact h), updateSlots_queue]

theorem endReport_of_closed (h : s.contexts.get p.cyl = none) : endReport p ended k s = s := by
  simp only [endReport, h]

end

/-! ## The close test -/

section
variable (close : Bool) (c : Cyl) (s : State)

theorem closeTestIf_closes : Closes s (closeTestIf close c s) := by
  unfold closeTestIf
  split
  · exact closeTest_closes c s
  · exact .refl s

theorem closeTestIf_settles : Settles s (closeTestIf close c s) := by
  unfold closeTestIf
  split
  · exact closeTest_settles c s
  · exact .refl s

theorem closeTestIf_of_closed (h : s.contexts.get c = none) : closeTestIf close c s = s := by
  unfold closeTestIf
  split
  · exact closeTest_same h
  · rfl

end

/-! ## The whole event at a bank (R117, R121) -/

/-- What the end of a pulse does outside the cycles: its bank goes to DECAY for 100 ticks, its cylinder is scored, and a
latch so set leaves the cylinder nothing unstarted. -/
structure EndsPulse (b : Bank) (q : Pulse) (s t : State) : Prop where
  drive : (t.bank b).drive = .decay q s.timebase (s.timebase + 100)
  others : ∀ d, d ≠ b → (t.bank d).drive = (s.bank d).drive
  diag : t.diag = s.diag.scored q.cyl (newScore q.cyl (classify q) s) s.plan.engine.faultThreshold
  latched : disables q.cyl (classify q) s = true →
    (∀ e ∈ t.queue.entries, ∀ m, e.key ≠ .pulse q.cyl m) ∧
      ∀ d r, (t.bank d).waiting = some r → r.cyl ≠ q.cyl
  tracker : t.tracker = s.tracker
  plan : t.plan = s.plan
  timebase : t.timebase = s.timebase
  fuelcut : t.run.fuelcut = s.run.fuelcut
  band : t.run.band = s.run.band

theorem newScore_startDecay (c : Cyl) (k : Classification) (b : Bank) (p : Pulse) (s : State) :
    newScore c k (startDecay b p s) = newScore c k s := by simp [newScore]

theorem disables_startDecay (c : Cyl) (k : Classification) (b : Bank) (p : Pulse) (s : State) :
    disables c k (startDecay b p s) = disables c k s := by simp [disables, newScore_startDecay]

/-- A set latch stands in the diagnosis state the classification leaves. -/
theorem scored_disabled_get (c : Cyl) (k : Classification) (s : State) :
    (s.diag.scored c (newScore c k s) s.plan.engine.faultThreshold).disabled.get c =
      (s.diag.disabled.get c || decide (s.plan.engine.faultThreshold ≤ newScore c k s)) := by
  simp [Diagnosis.scored]

theorem reportEnd_endsPulse (close : Bool) (b : Bank) (q : Pulse) (s : State) :
    EndsPulse b q s (reportEnd close q s.timebase (startDecay b q s)) := by
  unfold reportEnd
  have closes := closeTestIf_closes close q.cyl
    (endReport q s.timebase (classify q) (diagnose q.cyl (classify q) (startDecay b q s)))
  generalize closeTestIf close q.cyl
    (endReport q s.timebase (classify q) (diagnose q.cyl (classify q) (startDecay b q s))) = t at closes ⊢
  refine ⟨?_, fun d hd => ?_, ?_, fun h => ?_, ?_, ?_, ?_, ?_, ?_⟩
  · rw [closes.bank, endReport_bank, diagnose_drive, startDecay_drive_self]
  · rw [closes.bank, endReport_bank, diagnose_drive, startDecay_bank_other _ _ _ hd]
  · rw [closes.diag, endReport_diag, diagnose_diag, startDecay_diag, newScore_startDecay, startDecay_plan]
  · have sets : disables q.cyl (classify q) (startDecay b q s) = true := by rw [disables_startDecay, h]
    have latch : (diagnose q.cyl (classify q) (startDecay b q s)).diag.disabled.get q.cyl = true := by
      rw [diagnose_diag, scored_disabled, if_pos sets, PerCyl.get_set, if_pos rfl]
    obtain ⟨entries, waiting⟩ := diagnose_clears _ _ _ sets
    rw [closes.queue, endReport_queue_of_blocked (.inr latch)]
    exact ⟨entries, fun d r hr => waiting d r (by rw [closes.bank, endReport_bank] at hr; exact hr)⟩
  · rw [closes.tracker, endReport_tracker, diagnose_tracker, startDecay_tracker]
  · rw [closes.plan, endReport_plan, diagnose_plan, startDecay_plan]
  · rw [closes.timebase, endReport_timebase, diagnose_timebase, startDecay_timebase]
  · rw [closes.fuelcut, endReport_run, diagnose_fuelcut, startDecay_run]
  · rw [closes.band, endReport_run, diagnose_band, startDecay_run]

theorem endPulse_of_energized {b : Bank} {p : Pulse} {s : State} (h : (s.bank b).drive.energized = some p)
    (mark : Pulse → Pulse) (close : Bool) :
    endPulse b mark close s = reportEnd close (mark p) s.timebase (startDecay b (mark p) s) := by
  simp only [endPulse, h]

theorem endPulse_of_undriven {b : Bank} {s : State} (h : (s.bank b).drive.energized = none) (mark : Pulse → Pulse)
    (close : Bool) : endPulse b mark close s = s := by
  simp only [endPulse, h]

/-! ## The slot of the pulse and the slot after it (R80, R81) -/

theorem slotAfter_split {n : Nat} {y : Slot} {xs : List Slot} (hy : findSlot n xs = some y) :
    ∃ pre rest, xs = pre ++ y :: rest ∧ (∀ a ∈ pre, a.num ≠ y.num) ∧ slotAfter n xs = rest.head? := by
  have num := (findSlot_mem hy).2
  induction xs with
  | nil => cases hy
  | cons a as ih =>
    by_cases ha : a.num = n
    · have hay : a = y := by simpa [findSlot, ha] using hy
      exact ⟨[], as, by rw [hay]; rfl, by simp, by simp [slotAfter, ha]⟩
    · obtain ⟨pre, rest, h1, h2, h3⟩ := ih (by simpa [findSlot, ha] using hy)
      refine ⟨a :: pre, rest, by rw [h1]; rfl, fun z hz => ?_, by simp [slotAfter, ha, h3]⟩
      rcases List.mem_cons.mp hz with rfl | hz
      · exact fun e => ha (e.trans num)
      · exact h2 z hz

theorem slotAfter_append {y : Slot} {pre : List Slot} (rest : List Slot) (h : ∀ a ∈ pre, a.num ≠ y.num) :
    findSlot y.num (pre ++ y :: rest) = some y ∧ slotAfter y.num (pre ++ y :: rest) = rest.head? := by
  induction pre with
  | nil => simp [findSlot, slotAfter]
  | cons a as ih =>
    have ha := h a (by simp)
    obtain ⟨h1, h2⟩ := ih fun z hz => h z (by simp [hz])
    exact ⟨by simpa [findSlot, ha] using h1, by simpa [slotAfter, ha] using h2⟩

/-- A slot found by its number is held with the slot after it, and the other way round. -/
theorem holds_iff {s : State} {c : Cyl} {y : Slot} {w : Option Slot} :
    Holds s c y w ↔ ∃ x, s.contexts.get c = some x ∧ findSlot y.num x.slots = some y ∧
      ∀ z, w = some z → slotAfter y.num x.slots = some z := by
  constructor
  · rintro ⟨x, pre, rest, hx, hs, hpre, hw⟩
    obtain ⟨h1, h2⟩ := slotAfter_append rest hpre
    exact ⟨x, hx, by rw [hs, h1], fun z hz => by rw [hs, h2, hw z hz]⟩
  · rintro ⟨x, hx, hy, hw⟩
    obtain ⟨pre, rest, h1, h2, h3⟩ := slotAfter_split hy
    exact ⟨x, pre, rest, hx, h1, h2, fun z hz => by rw [← h3, hw z hz]⟩

theorem slotAfter_mapSlot {n : Nat} {f : Slot → Slot} (hf : ∀ x, (f x).num = x.num) (xs : List Slot) :
    slotAfter n (mapSlot n f xs) = slotAfter n xs := by
  induction xs with
  | nil => rfl
  | cons x xs ih =>
    by_cases hx : x.num = n
    · simp [mapSlot, slotAfter, hx, hf]
    · simp [mapSlot, slotAfter, hx, ih]

/-- A blocked chain step resolves the slot it would chain. -/
theorem chainAfter_slotAt_of_block {s : State} {c : Cyl} {x : CycleContext} {y : Slot} {n d : Nat} {ended : Tick}
    {o : SlotOutcome} (hx : s.contexts.get c = some x) (nodup : (x.slots.map Slot.num).Nodup)
    (hy : slotAfter n x.slots = some y) (pending : y.st = .pending) (dwell : y.anchor = .dwell d)
    (hb : chainBlock s c x y (later ended d) = some o) :
    slotAt (chainAfter c n ended s) c y.num = some (.resolved o) := by
  rw [chainAfter_of_pending hx hy pending dwell, chainSlot_of_block hb]
  refine resolveUnfired_slotAt o (st := .pending) ?_ rfl
  simp only [slotAt, hx]
  rw [findSlot_of_mem nodup (slotAfter_mem hy), Option.map_some, pending]

/-- A PENDING slot is of no unstarted pulse. -/
theorem isUnstartedPulse_of_pending {s : State} (l : s.Linked) {c : Cyl} {n : Nat}
    (h : slotAt s c n = some .pending) : isUnstartedPulse s c n = false := by
  have waiting : ∀ b r, (s.bank b).waiting = some r → (r.cyl == c && r.slot == n) = false := by
    intro b r hr
    cases same : r.cyl == c && r.slot == n with
    | false => rfl
    | true =>
      obtain ⟨rfl, rfl⟩ : r.cyl = c ∧ r.slot = n := by simpa using same
      have committed := (l.start b r hr).2.1
      rw [h] at committed
      cases committed
  have entries : s.queue.entries.any (fun e => e.key == .pulse c n) = false := by
    rw [List.any_eq_false]
    intro e he hk
    have key : e.key = .pulse c n := by simpa using hk
    cases hc : e.commit with
    | none => have at_ := l.waitingEntry e he c n key hc; rw [h] at at_; cases at_
    | some k => have at_ := l.committedEntry e he c n k key hc; rw [h] at at_; cases at_
  have none_ : ∀ b, (s.bank b).waiting.any (fun r => r.cyl == c && r.slot == n) = false := by
    intro b
    cases hw : (s.bank b).waiting with
    | none => rfl
    | some r => exact waiting b r hw
  unfold isUnstartedPulse
  rw [entries, show s.bankA.waiting.any _ = false from none_ .bankA,
    show s.bankB.waiting.any _ = false from none_ .bankB]
  rfl

theorem isUnstartedPulse_startDecay (b : Bank) (q : Pulse) (s : State) :
    isUnstartedPulse (startDecay b q s) = isUnstartedPulse s := by
  funext c n
  unfold isUnstartedPulse
  rw [startDecay_queue, show (startDecay b q s).bankA.waiting = s.bankA.waiting from startDecay_waiting b q s .bankA,
    show (startDecay b q s).bankB.waiting = s.bankB.waiting from startDecay_waiting b q s .bankB]

/-- The report of the end to a context that holds the ENERGIZED slot of the pulse. -/
theorem endReport_of_energized {q : Pulse} {ended : Tick} {k : Classification} {s : State} {x : CycleContext} {y : Slot}
    {start : Tick} {angle : Option Nat} {slip : Nat} {f : FiredResult} (hx : s.contexts.get q.cyl = some x)
    (hy : findSlot q.slot x.slots = some y) (energized : y.st = .energized start angle slip)
    (hf : f = { startAngle := angle, slip := slip, energized := elapsed q.start ended, truncated := y.truncated
                boostShort := q.boostShort, cut := q.cut, diagnosis := k }) :
    endReport q ended k s = chainAfter q.cyl q.slot ended
      (updateSlots q.cyl (mapSlot q.slot fun z => { z with st := .resolved (.fired f) }) s) := by
  have drives : x.drives q = true := by simp only [CycleContext.drives, hy, energized]
  have fires : Slot.fire q ended k y = { y with st := .resolved (.fired f) } := by
    simp only [Slot.fire, energized, Slot.resolve, hf]
  have update : updateSlots q.cyl (mapSlot q.slot (Slot.fire q ended k)) s =
      updateSlots q.cyl (mapSlot q.slot fun z => { z with st := .resolved (.fired f) }) s := by
    simp only [updateSlots, hx]
    rw [mapSlot_congr x.slots hy (g := fun z => { z with st := .resolved (.fired f) }) fires]
  simp only [endReport, hx, drives, if_true]
  rw [update]

theorem map_num_mapSlot {n : Nat} {f : Slot → Slot} (hf : ∀ x, (f x).num = x.num) (xs : List Slot) :
    (mapSlot n f xs).map Slot.num = xs.map Slot.num := (mapSlot_to n f hf xs).nums

/-- The chain test reads the contexts in nothing but the slot and the angles of its context. -/
theorem chainBlock_updateSlots (c : Cyl) (f : List Slot → List Slot) (s : State) :
    chainBlock (updateSlots c f s) = chainBlock s := by
  obtain ⟨x, h⟩ := updateSlots_eq_withContexts c f s
  rw [h]
  rfl

/-- The DWELL slot PENDING on a pulse takes the outcome of the chain test that holds at the pulse's end. -/
theorem endReport_outcome_of_block {q : Pulse} {ended : Tick} {k : Classification} {s : State} {x : CycleContext}
    {y z : Slot} {start : Tick} {angle : Option Nat} {slip d : Nat} {o : SlotOutcome}
    (hx : s.contexts.get q.cyl = some x) (nodup : (x.slots.map Slot.num).Nodup)
    (hy : findSlot q.slot x.slots = some y) (energized : y.st = .energized start angle slip)
    (hz : slotAfter q.slot x.slots = some z) (pending : z.st = .pending) (dwell : z.anchor = .dwell d)
    (hb : ∀ x, chainBlock s q.cyl x z (later ended d) = some o) :
    outcomeAt (endReport q ended k s) q.cyl z.num = some o := by
  rw [endReport_of_energized hx hy energized rfl]
  refine outcomeAt_of_slotAt ?_
  generalize ({ startAngle := angle, slip := slip, energized := elapsed q.start ended, truncated := y.truncated
                boostShort := q.boostShort, cut := q.cut, diagnosis := k } : FiredResult) = f
  have same : ∀ w : Slot, ({ w with st := .resolved (.fired f) } : Slot).num = w.num := fun _ => rfl
  refine chainAfter_slotAt_of_block (d := d)
    (x := { x with slots := mapSlot q.slot (fun w => { w with st := .resolved (.fired f) }) x.slots }) ?_ ?_ ?_
    pending dwell ?_
  · rw [updateSlots_get, if_pos rfl, hx]
    rfl
  · exact (map_num_mapSlot same x.slots).symm ▸ nodup
  · exact (slotAfter_mapSlot same x.slots).trans hz
  · rw [chainBlock_updateSlots, hb]

section
variable {b : Bank} {q : Pulse} {s : State} {x : CycleContext} {y : Slot} {start : Tick} {angle : Option Nat}
  {slip : Nat}

/-- Circuit Diagnosis leaves the ENERGIZED slot of the pulse, and the slot PENDING after it, in their context. -/
theorem diagnose_startDecay_holds (l : s.Linked) (d : Cyl) (k : Classification)
    (hx : s.contexts.get q.cyl = some x) (hy : findSlot q.slot x.slots = some y)
    (energized : y.st = .energized start angle slip) (w : Option Slot)
    (hw : ∀ z, w = some z → slotAfter q.slot x.slots = some z ∧ z.st = .pending) :
    ∃ x', (diagnose d k (startDecay b q s)).contexts.get q.cyl = some x' ∧
      (x'.slots.map Slot.num).Nodup ∧ findSlot q.slot x'.slots = some y ∧
      ∀ z, w = some z → slotAfter q.slot x'.slots = some z := by
  have num := (findSlot_mem hy).2
  have before : Holds (startDecay b q s) q.cyl y w := by
    rw [holds_iff, startDecay_contexts, num]
    exact ⟨x, hx, hy, fun z hz => (hw z hz).1⟩
  have after := diagnose_holds energized d k _ before fun z hz => by
    obtain ⟨next, pending⟩ := hw z hz
    rw [isUnstartedPulse_startDecay]
    refine isUnstartedPulse_of_pending l ?_
    rw [slotAt_of_mem l hx (slotAfter_mem next), pending]
  rw [holds_iff, num] at after
  obtain ⟨x', hx', hy', hz'⟩ := after
  refine ⟨x', hx', ?_, hy', hz'⟩
  have tied := (diagnose_keeps d k s l).1
  rw [diagnose_startDecay, startDecay_contexts] at hx'
  exact (tied.numbered _ _ hx').2

/-- The report of a pulse's end: Circuit Diagnosis, the slot FIRED, the chain step and the close test. -/
theorem reportEnd_of_energized {f : FiredResult} (l : s.Linked) (close : Bool) (hx : s.contexts.get q.cyl = some x)
    (hy : findSlot q.slot x.slots = some y) (energized : y.st = .energized start angle slip)
    (hf : f = { startAngle := angle, slip := slip, energized := elapsed q.start s.timebase, truncated := y.truncated
                boostShort := q.boostShort, cut := q.cut, diagnosis := classify q }) :
    reportEnd close q s.timebase (startDecay b q s) =
        closeTestIf close q.cyl (chainAfter q.cyl q.slot s.timebase
          (updateSlots q.cyl (mapSlot q.slot fun z => { z with st := .resolved (.fired f) })
            (diagnose q.cyl (classify q) (startDecay b q s)))) ∧
      outcomeAt (reportEnd close q s.timebase (startDecay b q s)) q.cyl q.slot = some (.fired f) := by
  obtain ⟨x', hx', _, hy', _⟩ := diagnose_startDecay_holds (b := b) l q.cyl (classify q) hx hy energized none
    fun _ h => by cases h
  have own : Own (diagnose q.cyl (classify q) (startDecay b q s)) :=
    (diagnose_settles _ _ _).own ((startDecay_settles b q s).own l.own)
  refine ⟨?_, ?_⟩
  · rw [reportEnd, endReport_of_energized hx' hy' energized hf]
  · have fired := endReport_outcome own s.timebase (classify q) hx' hy' energized
    rw [← hf] at fired
    exact (closeTestIf_settles _ _ _).stands ((endReport_settles _ _ _ _).own own) _ _ _ fired

/-- A DWELL slot PENDING on the pulse is WITHDRAWN where the chain test finds the fuel cut or a disabled cylinder. -/
theorem reportEnd_withdraws (l : s.Linked) (close : Bool) (hx : s.contexts.get q.cyl = some x)
    (hy : findSlot q.slot x.slots = some y) (energized : y.st = .energized start angle slip) {z : Slot} {d : Nat}
    (hz : slotAfter q.slot x.slots = some z) (pending : z.st = .pending) (dwell : z.anchor = .dwell d) :
    (s.run.fuelcut = true →
      outcomeAt (reportEnd close q s.timebase (startDecay b q s)) q.cyl z.num = some (.withdrawn .fuelcut)) ∧
    (s.run.fuelcut = false →
      (s.diag.disabled.get q.cyl = true ∨ s.plan.engine.faultThreshold ≤ newScore q.cyl (classify q) s) →
      outcomeAt (reportEnd close q s.timebase (startDecay b q s)) q.cyl z.num = some (.withdrawn .fault)) := by
  obtain ⟨x', hx', nodup, hy', hz'⟩ := diagnose_startDecay_holds (b := b) l q.cyl (classify q) hx hy energized (some z)
    fun w hw => by cases hw; exact ⟨hz, pending⟩
  have own : Own (diagnose q.cyl (classify q) (startDecay b q s)) :=
    (diagnose_settles _ _ _).own ((startDecay_settles b q s).own l.own)
  have cut : (diagnose q.cyl (classify q) (startDecay b q s)).run.fuelcut = s.run.fuelcut := by
    rw [diagnose_fuelcut, startDecay_run]
  have latch : (diagnose q.cyl (classify q) (startDecay b q s)).diag.disabled.get q.cyl =
      (s.diag.disabled.get q.cyl || decide (s.plan.engine.faultThreshold ≤ newScore q.cyl (classify q) s)) := by
    rw [diagnose_diag, scored_disabled_get, startDecay_diag, newScore_startDecay, startDecay_plan]
  unfold reportEnd
  have ends := fun o hb =>
    (closeTestIf_settles close q.cyl _).stands ((endReport_settles q s.timebase (classify q) _).own own) _ _ _
      (endReport_outcome_of_block (k := classify q) hx' nodup hy' energized (hz' z rfl) pending dwell (o := o) hb)
  refine ⟨fun h => ends _ fun x1 => chainBlock_of_fuelcut (cut.trans h) _, fun h hd => ends _ fun x1 =>
    chainBlock_of_disabled (cut.trans h) ?_ _⟩
  rw [latch]
  simpa using hd

end

end Sys2Proof.Machine
end

section
/-! The end of a pulse settled: the classification and its score, the chain step and the close by what they give, the end
time of a pulse and an overcurrent (R80, R81, R85, R117, R118, R127, R128, R132 to R135, R140). -/

namespace Sys2Proof.Machine

/-! ## Classification and score (R128, R132) -/

section
variable {p : Pulse}

theorem classify_of_ovc (h : p.ovc = true) : classify p = .overcurrent := by simp [classify, h]

theorem classify_of_open (h : p.ovc = false) (hc : p.curTest = .absent) : classify p = .openCircuit := by
  simp [classify, h, hc]

theorem classify_of_noPeak (h : p.ovc = false) (hc : p.curTest ≠ .absent) (hn : p.noPeak = true) :
    classify p = .noPeak := by
  simp [classify, h, hc, hn]

theorem classify_of_slow {k : Tick} (h : p.ovc = false) (hc : p.curTest ≠ .absent) (hn : p.noPeak = false)
    (hk : p.peak = some k) (slow : 3 * p.boostLimit < 4 * elapsed p.start k) : classify p = .slowPeak := by
  simp [classify, slowPeak, h, hc, hn, hk, slow]

theorem classify_of_quick {k : Tick} (h : p.ovc = false) (hc : p.curTest ≠ .absent) (hn : p.noPeak = false)
    (hk : p.peak = some k) (quick : 4 * elapsed p.start k ≤ 3 * p.boostLimit) : classify p = .ok := by
  simp [classify, slowPeak, h, hc, hn, hk, quick]

theorem classify_of_unpeaked (h : p.ovc = false) (hc : p.curTest ≠ .absent) (hn : p.noPeak = false)
    (hk : p.peak = none) : classify p = .ok := by
  simp [classify, slowPeak, h, hc, hn, hk]

end

/-! ## The chain step by its cases (R81) -/

/-- The chain test in the order of its cases, with the available time named. -/
theorem chainBlock_eq {s : State} {c : Cyl} {x : CycleContext} {y : Slot} {start : Tick} {av : Int}
    (hav : av = match chainEdge s with
      | some e => chainAvailable e x.armAngle x.eoiAngle start
      | none => 0) :
    chainBlock s c x y start =
      if s.run.fuelcut then some (.withdrawn .fuelcut)
      else if s.diag.disabled.get c then some (.withdrawn .fault)
      else if s.tracker.sync ≠ .fullSync ∧ s.tracker.sync ≠ .camLimp then some (.suppressed .limit)
      else if y.kind ≠ .main ∧ (s.tracker.sync = .camLimp ∨ s.run.clock = .backup) then some (.suppressed .limp)
      else if av < 120 then some (.suppressed .limit)
      else if 24 ≤ s.queue.entries.countP Entry.isPulse then some (.suppressed .queueFull)
      else none := by
  have angle : (!s.tracker.sync.holdsAngle) = true ↔ s.tracker.sync ≠ .fullSync ∧ s.tracker.sync ≠ .camLimp := by
    cases s.tracker.sync <;> simp [Sync.holdsAngle]
  have limp : (decide (y.kind ≠ .main) && mainOnly s) = true ↔
      y.kind ≠ .main ∧ (s.tracker.sync = .camLimp ∨ s.run.clock = .backup) := by
    simp [mainOnly]
  have full : pulsesFull s = true ↔ 24 ≤ s.queue.entries.countP Entry.isPulse := decide_eq_true_iff
  have tail : (match chainEdge s with
      | none => some (SlotOutcome.suppressed .limit)
      | some e =>
        if chainAvailable e x.armAngle x.eoiAngle start < (Config.minEnergize : Int) then some (.suppressed .limit)
        else if pulsesFull s then some (.suppressed .queueFull)
        else none) =
      if av < 120 then some (.suppressed .limit)
      else if 24 ≤ s.queue.entries.countP Entry.isPulse then some (.suppressed .queueFull)
      else none := by
    cases he : chainEdge s with
    | none => rw [he] at hav; subst hav; rfl
    | some e =>
      rw [he] at hav
      subst hav
      exact if_congr Iff.rfl rfl (if_congr full rfl rfl)
  unfold chainBlock
  refine if_congr Iff.rfl rfl (if_congr Iff.rfl rfl (if_congr angle rfl (if_congr limp rfl ?_)))
  exact (by rfl : _ = _).trans tail

theorem insertEntry_contexts (e : Entry) (s : State) : (insertEntry e s).contexts = s.contexts := rfl

/-- The slot the chain step finds takes the outcome of the test that holds, or its committed time (R81). -/
theorem chainAfter_slotAt {s : State} {c : Cyl} {x : CycleContext} {y : Slot} {n d : Nat} {ended : Tick}
    (hx : s.contexts.get c = some x) (nodup : (x.slots.map Slot.num).Nodup) (hy : slotAfter n x.slots = some y)
    (pending : y.st = .pending) (dwell : y.anchor = .dwell d) :
    slotAt (chainAfter c n ended s) c y.num = some
      (match chainBlock s c x y (later ended d) with
        | some o => .resolved o
        | none => .committed (later ended d)) := by
  cases hb : chainBlock s c x y (later ended d) with
  | some o => exact chainAfter_slotAt_of_block hx nodup hy pending dwell hb
  | none =>
    rw [chainAfter_of_pending hx hy pending dwell, chainSlot_of_free hb,
      slotAt_of_contexts (insertEntry_contexts _ _)]
    simp only [slotAt]
    rw [updateSlots_get, if_pos rfl, hx]
    simp only [Option.map_some]
    rw [findSlot_mapSlot _ _ _ (commitTo_num _ _), if_pos rfl, findSlot_of_mem nodup (slotAfter_mem hy)]
    simp [Slot.commitTo, pending]

/-- A chained slot's PULSE entry (R81, R105). -/
theorem chainAfter_findEntry {s : State} {c : Cyl} {x : CycleContext} {y : Slot} {n d : Nat} {ended : Tick} {av : Int}
    (hx : s.contexts.get c = some x) (hy : slotAfter n x.slots = some y) (pending : y.st = .pending)
    (dwell : y.anchor = .dwell d) (hb : chainBlock s c x y (later ended d) = none)
    (hav : av = match chainEdge s with
      | some e => chainAvailable e x.armAngle x.eoiAngle (later ended d)
      | none => 0)
    (absent : findEntry (.pulse c y.num) s = none) :
    findEntry (.pulse c y.num) (chainAfter c n ended s) = some
      { key := .pulse c y.num, target := none, pulse := some (y.kind, min y.energize av.toNat)
        commit := some { ref := ended, delay := d } } := by
  have energize : chainEnergize s x y (later ended d) = min y.energize av.toNat := by
    cases he : chainEdge s with
    | none =>
      have short : av < 120 := by rw [hav, he]; exact (by decide : (0 : Int) < 120)
      rw [chainBlock_eq hav, if_pos short] at hb
      split_ifs at hb
    | some e => rw [he] at hav; simp only [chainEnergize, he, hav]
  rw [chainAfter_of_pending hx hy pending dwell, chainSlot_of_free hb, energize]
  exact findEntry_insertEntry_new
    (e := { key := .pulse c y.num, target := none, pulse := some (y.kind, min y.energize av.toNat)
            commit := some { ref := ended, delay := d } }) ((findEntry_updateSlots ..).trans absent)

/-! ## The close (R85, R88, R147) -/

section
variable {c : Cyl} {x : CycleContext} {s : State}

theorem closeTest_of_unfinished (hx : s.contexts.get c = some x) (h : x.finished = false) : closeTest c s = s := by
  simp only [closeTest, hx, h, Bool.false_eq_true, if_false]

theorem closeTest_of_finished (hx : s.contexts.get c = some x) (h : x.finished = true) :
    closeTest c s = tellIfNoneOpen (removeContext c (writeRecord x.record s)) := by
  simp only [closeTest, hx, h, if_true]

theorem anyOpen_eq_false_iff : anyOpen s = false ↔ ∀ d, s.contexts.get d = none := by
  simp only [anyOpen, List.any_eq_false, Bool.not_eq_true, Option.isSome_eq_false_iff, Option.isNone_iff_eq_none]
  exact ⟨fun h d => h d (Cyl.mem_all d), fun h d _ => h d⟩

theorem tellIfNoneOpen_of_open (h : ∃ d, s.contexts.get d ≠ none) : tellIfNoneOpen s = s := by
  have opens : anyOpen s = true := by
    by_contra hf
    obtain ⟨d, hd⟩ := h
    exact hd (anyOpen_eq_false_iff.mp (by simpa using hf) d)
  rw [tellIfNoneOpen, if_pos opens]

theorem tellIfNoneOpen_of_none (h : ∀ d, s.contexts.get d = none) : tellIfNoneOpen s = noContextOpen s := by
  rw [tellIfNoneOpen, anyOpen_eq_false_iff.mpr h, if_neg Bool.false_ne_true]

end

/-! ## The end time of a pulse (R117) -/

theorem Drive.energized_of {d : Drive} {p : Pulse} (h : d = .boost p ∨ d = .hold p) : d.energized = some p := by
  rcases h with rfl | rfl <;> rfl

theorem exec_pulseEnd {s : State} {b : Bank} {p : Pulse} (released : s.resetHeld = false)
    (driven : (s.bank b).drive.energized = some p) (due : p.energize ≤ elapsed p.start s.timebase) :
    exec (.pulseEnd b) s = .next (reportEnd true p s.timebase (startDecay b p s)) :=
  takeDue_of_due released (by simp only [pulseEndDue, driven, due, decide_true]) (endPulse_of_energized driven id true)

/-- The available time of a chained start, with the passed limit spelled out (R38). -/
theorem chainAvailable_eq (e : EdgeRef) (arm limit : Nat) (start : Tick) :
    chainAvailable e arm limit start =
      if forward arm limit < forward arm e.angle then 0
      else signedDiff (later e.time (delay e (forward e.angle limit))) start :=
  if_congr decide_eq_true_iff rfl rfl

/-- A latch set by a score at the threshold is one the classification sets. -/
theorem disables_of_threshold {s : State} {c : Cyl} {k : Classification}
    (h : s.plan.engine.faultThreshold ≤ newScore c k s) (clear : s.diag.disabled.get c = false) :
    disables c k s = true := by
  simp [disables, h, clear]

/-- The context and the slot of a pulse being energized (R78, R121). -/
theorem State.Linked.context_of_driven {s : State} (l : s.Linked) {b : Bank} {p : Pulse}
    (h : (s.bank b).drive.energized = some p) : ∃ x y angle slip, s.contexts.get p.cyl = some x ∧
      findSlot p.slot x.slots = some y ∧ y.st = .energized p.start angle slip := by
  obtain ⟨_, angle, slip, slot⟩ := l.driven b p h
  unfold slotAt at slot
  cases hx : s.contexts.get p.cyl with
  | none => rw [hx] at slot; cases slot
  | some x =>
    rw [hx] at slot
    obtain ⟨y, hy, energized⟩ := Option.map_eq_some_iff.mp slot
    exact ⟨x, y, angle, slip, rfl, hy, energized⟩

/-- The whole event of a pulse that reaches its end time. -/
theorem pulseEnd_event {s : State} {b : Bank} {p : Pulse} (released : s.resetHeld = false)
    (drive : (s.bank b).drive = .boost p ∨ (s.bank b).drive = .hold p)
    (due : p.energize ≤ elapsed p.start s.timebase) :
    ∃ t, exec (.pulseEnd b) s = .next t ∧ t = reportEnd true p s.timebase (startDecay b p s) ∧ EndsPulse b p s t :=
  ⟨_, exec_pulseEnd released (Drive.energized_of drive) due, rfl, reportEnd_endsPulse true b p s⟩

/-- Circuit Diagnosis by its two tests, for O26. -/
theorem diagnose_tests (s u v : State) (c : Cyl) (k : Classification) (n thr : Nat) (w d : Bool)
    (hn : n = newScore c k s) (hthr : thr = s.plan.engine.faultThreshold) (hw : w = warns c k s)
    (hd : d = disables c k s)
    (hu : u = s.withDiag { s.diag with
      score := s.diag.score.set c n, warnArmed := s.diag.warnArmed.set c (decide (n < thr / 2))
      disabled := if d then s.diag.disabled.set c true else s.diag.disabled })
    (hv : v = if w then queueNotice (.faultWarn c n thr k) u else u) :
    (d = false → diagnose c k s = v) ∧
      (d = true →
        diagnose c k s = queueNotice (.cylDisabled c n thr k) (withdrawPulses (fun e => e == c) .fault v)) := by
  have scored : u = s.withDiag (s.diag.scored c n thr) := by
    rw [hu, hd, hthr, hn, ← scored_disabled]
    rfl
  have warned : v = scoredAndWarned c k s := by
    rw [hv, hw, scored, hn, hthr]
    rfl
  subst hn hthr hd
  exact ⟨fun h => by rw [diagnose_of_spared c k s h, warned], fun h => by rw [diagnose_of_disables c k s h, warned]⟩

/-- A latch that the classification sets withdraws the cylinder's unstarted pulses with FAULT (R83, R135). -/
theorem diagnose_outcome {s : State} {c : Cyl} {k : Classification} {m : Nat} (l : s.Linked)
    (sets : disables c k s = true) (h1 : 1 ≤ m) (h5 : m ≤ 5)
    (held : (∃ e ∈ s.queue.entries, e.key = .pulse c m) ∨
      ∃ b r, (s.bank b).waiting = some r ∧ r.cyl = c ∧ r.slot = m) :
    outcomeAt (diagnose c k s) c m = some (.withdrawn .fault) := by
  have calm : Calm s (scoredAndWarned c k s) := by
    unfold scoredAndWarned
    split
    · exact (withDiag_calm _ s).trans (queueNotice_calm _ _)
    · exact withDiag_calm _ s
  have l' := calm.linked l
  rw [diagnose_of_disables c k s sets]
  refine (queueNotice_settles _ _).stands ((withdrawPulses_settles _ _ _).own l'.own) _ _ _
    (withdrawPulses_outcome l' .fault (by simp) h1 h5 ?_)
  simpa using held

theorem pulseIn_match (c : Cyl) (e : Entry) :
    (!e.pulseIn fun d => d == c) = match e.key with
      | .pulse d _ => d != c
      | _ => true := by
  unfold Entry.pulseIn
  cases e.key <;> rfl

/-- Settles O26. -/
theorem pulseEndsInDecay : Obligations.PulseEndsInDecay := by
  unfold Obligations.PulseEndsInDecay
  refine ⟨fun s b p released drive due => ?_, fun p => ?_, fun n => ⟨rfl, rfl, rfl, rfl, rfl⟩,
    fun s u v c k n thr w d hn hthr hw hd hu hv => ?_, ?_, ?_⟩
  · have driven := Drive.energized_of drive
    obtain ⟨t, ht, rfl, ends⟩ := pulseEnd_event released drive due
    obtain ⟨off, unselected⟩ := outputs_of_decay ends.drive
    refine ⟨_, ht, rfl, ends.drive, off, unselected, ?_, ends.others, ends.tracker, ends.plan, ends.timebase,
      ends.fuelcut, ends.band, ?_, ?_⟩
    · rintro n rfl
      exact ⟨ends.diag, fun h clear => ends.latched (disables_of_threshold h clear)⟩
    · intro tied x y start angle slip hx hy energized f hf
      obtain ⟨whole, fired⟩ := reportEnd_of_energized (b := b) (tied released).1 true hx hy energized hf
      exact ⟨fired, whole⟩
    · intro tied uncut latched x z d hx hz pending dwell
      have l := (tied released).1
      obtain ⟨x', y, angle, slip, hx', hy, energized⟩ := l.context_of_driven driven
      obtain rfl : x' = x := Option.some.inj (hx'.symm.trans hx)
      exact (reportEnd_withdraws l true hx hy energized hz pending dwell).2 uncut latched
  · exact ⟨classify_of_ovc, classify_of_open, classify_of_noPeak,
      fun k h hc hn hk => ⟨classify_of_slow h hc hn hk, classify_of_quick h hc hn hk⟩, classify_of_unpeaked⟩
  · subst hthr
    obtain ⟨spared, disabled⟩ := diagnose_tests s u v c k n _ w d hn rfl
      (by rw [hw, hn]; rfl) (by rw [hd, hn]; rfl) hu hv
    refine ⟨spared, fun h => ?_⟩
    have sets : disables c k s = true := by rw [← h, hd, hn]; rfl
    refine ⟨disabled h, ?_, fun b => ?_, fun l m h1 h5 held => ?_⟩
    · rw [diagnose_queue, if_pos sets]
      exact List.filter_congr fun e _ => pulseIn_match c e
    · rw [diagnose_bank, if_pos sets]
    · exact diagnose_outcome l sets h1 h5 held
  · intro s t c x y n d ended av hx nodup hy pending dwell ht hav
    subst ht
    have available : av = match chainEdge s with
        | some e => chainAvailable e x.armAngle x.eoiAngle (later ended d)
        | none => 0 := by
      simp only [chainAvailable_eq]
      exact hav
    have slot := chainAfter_slotAt hx nodup hy pending dwell (ended := ended)
    have block := chainBlock_eq (y := y) (c := c) available
    refine ⟨?_, fun committed absent => ?_⟩
    · rw [slot, block]
      split_ifs <;> rfl
    · refine chainAfter_findEntry hx hy pending dwell ?_ available absent
      rw [slot] at committed
      cases hb : chainBlock s c x y (later ended d) with
      | none => rfl
      | some o => rw [hb] at committed; cases committed
  · intro s u c x r hx own hr hu
    have record : x.record = r := by rw [hr, ← own]; rfl
    have closed : removeContext c (writeRecord x.record s) = u := by
      rw [hu, record, writeRecord, removeContext, queueNotice_contexts, show r.cyl = c by rw [hr]]
      rfl
    have finished : (∀ y ∈ x.slots, y.st.isResolved = true) → closeTest c s = tellIfNoneOpen u := fun h => by
      rw [closeTest_of_finished hx (List.all_eq_true.mpr h), closed]
    have contexts : u.contexts = s.contexts.set c none := by rw [hu, State.withContexts_contexts]
    have records : u.records = s.records.set c (some r) := by
      rw [hu, State.withContexts_records, queueNotice_records, State.withRecords_records]
    have run : u.run = s.run := by rw [hu, State.withContexts_run, queueNotice_run, State.withRecords_run]
    refine ⟨fun ⟨y, hy, left⟩ => closeTest_of_unfinished hx (List.all_eq_false.mpr ⟨y, hy, by simp [left]⟩),
      fun resolved => ?_⟩
    obtain ⟨told, written⟩ := tellIfNoneOpen_same u
    refine ⟨by rw [finished resolved, told, contexts], by rw [finished resolved, written, records],
      fun drain none_ => ?_, fun h => ?_⟩
    · rw [finished resolved, tellIfNoneOpen_of_none, noContextOpen, run, if_pos drain]
      intro d
      rw [contexts, PerCyl.get_set]
      split
      · rfl
      · next other => exact none_ d other
    · rw [finished resolved]
      rcases h with mode | ⟨d, other, still⟩
      · unfold tellIfNoneOpen noContextOpen
        rw [run, if_neg mode]
        split <;> rfl
      · refine tellIfNoneOpen_of_open ⟨d, ?_⟩
        rw [contexts, PerCyl.get_set, if_neg other]
        exact still

/-! ## An overcurrent (R118, R140) -/

theorem exec_ovc_of_driven {s : State} {b : Bank} {p : Pulse} (released : s.resetHeld = false)
    (driven : (s.bank b).drive.energized = some p) :
    exec (.ovc b) s = .next (reportEnd true p.markOvc s.timebase (startDecay b p.markOvc s)) := by
  refine take_of_released released ?_
  simp only [overcurrentArrives, driven]
  exact endPulse_of_energized driven Pulse.markOvc true

theorem exec_ovc_of_undriven {s : State} {b : Bank} (released : s.resetHeld = false)
    (undriven : (s.bank b).drive.energized = none) :
    exec (.ovc b) s = .next (if inCoilWindow b s then endCoilCheck .overcurrent none s else s) :=
  take_of_released released (overcurrentArrives_of_undriven undriven)

/-- Settles O27. -/
theorem overcurrentEndsPulse : Obligations.OvercurrentEndsPulse := by
  unfold Obligations.OvercurrentEndsPulse
  refine fun s b released => ⟨fun p drive => ?_, fun undriven => ⟨fun x hx => ⟨fun bank early => ?_, fun out => ?_⟩,
    fun idle => ?_⟩⟩
  · have driven := Drive.energized_of drive
    have class_ : classify p.markOvc = .overcurrent := classify_of_ovc rfl
    have ends := reportEnd_endsPulse true b p.markOvc s
    refine ⟨_, exec_ovc_of_driven released driven, ends.drive, ?_, ends.others, ends.tracker, ends.plan, ends.timebase,
      ?_⟩
    · rintro n hn
      have score : newScore p.markOvc.cyl (classify p.markOvc) s = n := by rw [class_, hn]; rfl
      refine ⟨by rw [ends.diag, score]; rfl, fun reached_ clear => ends.latched ?_⟩
      exact disables_of_threshold (score ▸ reached_) clear
    · intro tied x y start angle slip hx hy energized f hf
      have l := (tied released).1
      obtain ⟨whole, fired⟩ := reportEnd_of_energized (b := b) (q := p.markOvc) l true hx hy energized
        (f := f) (by rw [hf, class_]; rfl)
      refine ⟨fired, by rw [whole, class_]; rfl, fun z d hz pending dwell => ?_⟩
      obtain ⟨cut, fault⟩ := reportEnd_withdraws (b := b) (q := p.markOvc) l true hx hy energized hz pending dwell
      refine ⟨cut, fun uncut latched => fault uncut (latched.imp_right fun h => ?_)⟩
      rw [class_]
      exact h
  · have window : inCoilWindow b s = true := (inCoilWindow_iff hx b).mpr ⟨bank, early⟩
    rw [exec_ovc_of_undriven released undriven, if_pos window, endCoilCheck_of_running hx]
  · have window : inCoilWindow b s = false := by
      by_contra h
      obtain ⟨bank, early⟩ := (inCoilWindow_iff hx b).mp (by simpa using h)
      exact out.elim (fun other => other bank) fun late => Nat.not_le.mpr late early
    rw [exec_ovc_of_undriven released undriven, window, if_neg Bool.false_ne_true]
  · rw [exec_ovc_of_undriven released undriven, inCoilWindow_of_no_check idle, if_neg Bool.false_ne_true]

end Sys2Proof.Machine
end

section
/-! The cuts of both banks' pulses once no pulse is unstarted, and the assertion of FUELCUT_N that makes them (R83, R119,
R132, R152). -/

namespace Sys2Proof.Machine

/-! ## A state without unstarted pulses (R106) -/

/-- The queue holds no PULSE entry and no bank a waiting start. -/
structure Unpulsed (s : State) : Prop where
  entries : ∀ e ∈ s.queue.entries, e.isPulse = false
  waiting : ∀ b, (s.bank b).waiting = none

theorem emptyWaiting_of_none (scope : Cyl → Bool) {x : BankState} (h : x.waiting = none) : x.emptyWaiting scope = x := by
  simp only [BankState.emptyWaiting, h]

theorem pulseIn_of_isPulse {e : Entry} (h : e.isPulse = false) (scope : Cyl → Bool) : e.pulseIn scope = false := by
  unfold Entry.isPulse at h
  unfold Entry.pulseIn
  split at h
  · cases h
  · rfl

/-- Dropping every unstarted pulse leaves none. -/
theorem dropPulses_unpulsed (s : State) : Unpulsed (dropPulses (fun _ => true) s) := by
  refine ⟨fun e he => ?_, fun b => ?_⟩
  · have kept := (List.mem_filter.mp he).2
    rw [pulseIn_all] at kept
    simpa using kept
  · rw [dropPulses_bank]
    exact emptyWaiting_all _

namespace Unpulsed

variable {s : State}

theorem of_eq {t : State} (h : Unpulsed s) (hq : t.queue = s.queue) (hb : ∀ b, (t.bank b).waiting = (s.bank b).waiting) :
    Unpulsed t :=
  ⟨by rw [hq]; exact h.entries, fun b => (hb b).trans (h.waiting b)⟩

theorem dropPulses_eq (h : Unpulsed s) (scope : Cyl → Bool) : dropPulses scope s = s := by
  have entries : (s.queue.entries.filter fun e => !e.pulseIn scope) = s.queue.entries :=
    List.filter_eq_self.mpr fun e he => by rw [pulseIn_of_isPulse (h.entries e he)]; rfl
  unfold dropPulses
  rw [entries, emptyWaiting_of_none scope (x := s.bankA) (h.waiting .bankA),
    emptyWaiting_of_none scope (x := s.bankB) (h.waiting .bankB)]
  rfl

/-- A withdrawal finds nothing to withdraw. -/
theorem withdrawPulses_eq (h : Unpulsed s) (scope : Cyl → Bool) (r : WithdrawReason) : withdrawPulses scope r s = s := by
  rw [withdrawPulses, unstartedPulses_none h.entries h.waiting, h.dropPulses_eq scope]
  rfl

theorem scoredAndWarned (h : Unpulsed s) (c : Cyl) (k : Classification) : Unpulsed (scoredAndWarned c k s) :=
  h.of_eq (scoredAndWarned_queue c k s) fun b => by rw [scoredAndWarned_bank]

/-- Circuit Diagnosis scores, warns and disables, and no more. -/
theorem diagnose_eq (h : Unpulsed s) (c : Cyl) (k : Classification) :
    diagnose c k s =
      if disables c k s then
        queueNotice (.cylDisabled c (newScore c k s) s.plan.engine.faultThreshold k) (Machine.scoredAndWarned c k s)
      else Machine.scoredAndWarned c k s := by
  rw [Machine.diagnose_eq, (h.scoredAndWarned c k).withdrawPulses_eq]

section
variable (h : Unpulsed s) (c : Cyl) (k : Classification)
include h

theorem diagnose_contexts : (diagnose c k s).contexts = s.contexts := by rw [h.diagnose_eq]; split <;> simp
theorem diagnose_records : (diagnose c k s).records = s.records := by rw [h.diagnose_eq]; split <;> simp
theorem diagnose_queue : (diagnose c k s).queue = s.queue := by rw [h.diagnose_eq]; split <;> simp
theorem diagnose_run : (diagnose c k s).run = s.run := by rw [h.diagnose_eq]; split <;> simp
theorem diagnose_bank (b : Bank) : (diagnose c k s).bank b = s.bank b := by rw [h.diagnose_eq]; split <;> simp

end

theorem startDecay (h : Unpulsed s) (b : Bank) (p : Pulse) : Unpulsed (startDecay b p s) :=
  h.of_eq (startDecay_queue b p s) (startDecay_waiting b p s)

end Unpulsed

/-! ## The cut of a pulse (R119) -/

/-- The drive of a bank whose pulse, if it energizes one, is cut. -/
def Drive.cutAt (now : Tick) (d : Drive) : Drive :=
  match d.energized with
  | some p => .decay p.markCut now (now + 100)
  | none => d

theorem Drive.cutAt_of_energized {now : Tick} {d : Drive} {p : Pulse} (h : d.energized = some p) :
    d.cutAt now = .decay { p with cut := true } now (now + 100) := by
  simp only [Drive.cutAt, h]
  rfl

theorem Drive.cutAt_of_undriven {now : Tick} {d : Drive} (h : d.energized = none) : d.cutAt now = d := by
  simp only [Drive.cutAt, h]

/-- What the cut of the pulses of some banks does while no pulse is unstarted and nothing can be chained. -/
structure Cuts (cut : Bank → Bool) (s t : State) : Prop where
  drive : ∀ d, (t.bank d).drive = if cut d then (s.bank d).drive.cutAt s.timebase else (s.bank d).drive
  waiting : ∀ d, (t.bank d).waiting = (s.bank d).waiting
  queue : t.queue = s.queue
  coil : t.diag.coil = s.diag.coil
  tracker : t.tracker = s.tracker
  plan : t.plan = s.plan
  timebase : t.timebase = s.timebase
  run : t.run = s.run ∨ s.run.mode = .drain ∧ t.run = { s.run with mode := .halt, drainAt := none }

namespace Cuts

variable {s t u : State} {cut : Bank → Bool}

theorem unpulsed (h : Cuts cut s t) (k : Unpulsed s) : Unpulsed t := k.of_eq h.queue h.waiting

theorem fuelcut (h : Cuts cut s t) : t.run.fuelcut = s.run.fuelcut := by
  rcases h.run with run | ⟨_, run⟩ <;> rw [run]

/-- The cut of bank A and then of bank B. -/
theorem both (h : Cuts (fun d => d == .bankA) s t) (k : Cuts (fun d => d == .bankB) t u) : Cuts (fun _ => true) s u := by
  refine ⟨fun d => ?_, fun d => (k.waiting d).trans (h.waiting d), k.queue.trans h.queue, k.coil.trans h.coil,
    k.tracker.trans h.tracker, k.plan.trans h.plan, k.timebase.trans h.timebase, ?_⟩
  · rw [k.drive, h.drive, h.timebase]
    cases d <;> rfl
  · rcases k.run with same | ⟨drain, halted⟩
    · rw [same]; exact h.run
    · rcases h.run with first | ⟨_, first⟩
      · rw [first] at drain halted; exact .inr ⟨drain, halted⟩
      · rw [first] at drain; cases drain

end Cuts

/-- A cylinder's chain step has nothing to insert: the fuel cut stands, or no slot of its context is unstarted. -/
def ChainsNothing (c : Cyl) (s : State) : Prop := s.run.fuelcut = true ∨ NoneUnstarted c s

theorem updateSlots_noneUnstarted {c d : Cyl} {f : List Slot → List Slot} {s : State} (h : NoneUnstarted c s)
    (hf : ∀ xs : List Slot, (∀ y ∈ xs, y.st.isUnstarted = false) → ∀ y ∈ f xs, y.st.isUnstarted = false) :
    NoneUnstarted c (updateSlots d f s) := by
  intro x hx
  rw [updateSlots_get] at hx
  split at hx
  · next same =>
    subst same
    obtain ⟨x', hx', rfl⟩ := Option.map_eq_some_iff.mp hx
    exact hf x'.slots (h x' hx')
  · exact h x hx

/-- A slot change keeps a property of slots that it gives to the slot it changes. -/
theorem mapSlot_forall {P : Slot → Prop} {n : Nat} {f : Slot → Slot} (hf : ∀ x, P x → P (f x)) {xs : List Slot}
    (h : ∀ y ∈ xs, P y) : ∀ y ∈ mapSlot n f xs, P y := by
  induction xs with
  | nil => exact h
  | cons x xs ih =>
    have head := h x (by simp)
    have rest : ∀ y ∈ xs, P y := fun y hy => h y (by simp [hy])
    unfold mapSlot
    split
    · exact List.forall_mem_cons.mpr ⟨hf x head, rest⟩
    · exact List.forall_mem_cons.mpr ⟨head, ih rest⟩

theorem fire_notUnstarted (p : Pulse) (ended : Tick) (k : Classification) (x : Slot) (h : x.st.isUnstarted = false) :
    (x.fire p ended k).st.isUnstarted = false := by
  unfold Slot.fire
  split
  · rfl
  · exact h

theorem endReport_queue_of_chainsNothing {p : Pulse} {ended : Tick} {k : Classification} {s : State}
    (h : ChainsNothing p.cyl s) : (endReport p ended k s).queue = s.queue := by
  rcases h with cut | started
  · exact endReport_queue_of_blocked (.inl cut)
  · rcases endReport_cases p ended k s with same | fired
    · rw [same]
    · rw [fired, chainAfter_of_noneUnstarted (updateSlots_noneUnstarted started fun _ =>
        mapSlot_forall (fire_notUnstarted p ended k)), updateSlots_queue]

theorem NoneUnstarted.of_contexts {c : Cyl} {s t : State} (h : NoneUnstarted c s) (e : t.contexts = s.contexts) :
    NoneUnstarted c t := fun x hx => h x (by rw [← e]; exact hx)

/-- The end of a pulse by a cut, while no pulse is unstarted and nothing can be chained. -/
theorem endPulse_cuts (b : Bank) (close : Bool) {s : State} (h : Unpulsed s) (nothing : ∀ c, ChainsNothing c s) :
    Cuts (fun d => d == b) s (endPulse b Pulse.markCut close s) := by
  cases driven : (s.bank b).drive.energized with
  | none =>
    rw [endPulse_of_undriven driven]
    refine ⟨fun d => ?_, fun _ => rfl, rfl, rfl, rfl, rfl, rfl, .inl rfl⟩
    split
    · next same =>
      obtain rfl : d = b := by simpa using same
      exact (Drive.cutAt_of_undriven driven).symm
    · rfl
  | some p =>
    rw [endPulse_of_energized driven]
    have ends := reportEnd_endsPulse close b p.markCut s
    have decay := h.startDecay b p.markCut
    have closes := closeTestIf_closes close p.markCut.cyl (endReport p.markCut s.timebase (classify p.markCut)
      (diagnose p.markCut.cyl (classify p.markCut) (startDecay b p.markCut s)))
    have chain : ChainsNothing p.markCut.cyl
        (diagnose p.markCut.cyl (classify p.markCut) (startDecay b p.markCut s)) :=
      (nothing p.markCut.cyl).imp (fun cut => by rw [diagnose_fuelcut, startDecay_run, cut])
        fun started => started.of_contexts (by rw [decay.diagnose_contexts, startDecay_contexts])
    have run := closes.run
    rw [endReport_run, decay.diagnose_run, startDecay_run] at run
    refine ⟨fun d => ?_, fun d => ?_, ?_, by rw [ends.diag]; rfl, ends.tracker, ends.plan, ends.timebase, run⟩
    · split
      · next same =>
        obtain rfl : d = b := by simpa using same
        rw [ends.drive, Drive.cutAt_of_energized driven]
        rfl
      · next other => exact ends.others d (by simpa using other)
    · rw [reportEnd, closes.bank, endReport_bank, decay.diagnose_bank, startDecay_waiting]
    · rw [reportEnd, closes.queue, endReport_queue_of_chainsNothing chain, decay.diagnose_queue, startDecay_queue]

/-! ## The cut of both banks under the fuel cut -/

/-- The cuts of the fuel cut (R119, R152). -/
theorem cutBanks_cuts_of_fuelcut {s : State} (h : Unpulsed s) (cut : s.run.fuelcut = true) :
    Cuts (fun _ => true) s (cutBanks s) := by
  have first := endPulse_cuts .bankA true h fun _ => .inl cut
  exact first.both (endPulse_cuts .bankB true (first.unpulsed h) fun _ => .inl (first.fuelcut.trans cut))

theorem cutBanks_of_undriven {s : State} (h : ∀ b, (s.bank b).drive.energized = none) : cutBanks s = s := by
  rw [cutBanks, cutPulse, cutPulse, endPulse_of_undriven (h .bankA), endPulse_of_undriven (h .bankB)]

theorem cutBanks_settles (s : State) : Settles s (cutBanks s) :=
  (endPulse_settles .bankA Pulse.markCut true s).trans (endPulse_settles .bankB Pulse.markCut true _)

/-- A cut pulse's slot is FIRED with the CUT mark (R80, R119). -/
theorem cutPulse_outcome {s : State} (l : s.Linked) {b : Bank} {p : Pulse} (h : (s.bank b).drive.energized = some p) :
    ∃ angle slip truncated, outcomeAt (cutPulse b s) p.cyl p.slot = some (.fired
      { startAngle := angle, slip := slip, energized := elapsed p.start s.timebase, truncated := truncated
        boostShort := p.boostShort, cut := true, diagnosis := classify { p with cut := true } }) := by
  obtain ⟨x, y, angle, slip, hx, hy, energized⟩ := l.context_of_driven h
  refine ⟨angle, slip, y.truncated, ?_⟩
  rw [cutPulse, endPulse_of_energized h]
  exact (reportEnd_of_energized (b := b) (q := p.markCut) l true hx hy energized rfl).2

/-- The cut of one bank's pulse leaves the other bank's drive and the time. -/
theorem cutPulse_other (b : Bank) (s : State) :
    (∀ d, d ≠ b → ((cutPulse b s).bank d).drive = (s.bank d).drive) ∧ (cutPulse b s).timebase = s.timebase := by
  unfold cutPulse
  cases h : (s.bank b).drive.energized with
  | none => rw [endPulse_of_undriven h]; exact ⟨fun _ _ => rfl, rfl⟩
  | some p =>
    rw [endPulse_of_energized h]
    have ends := reportEnd_endsPulse true b p.markCut s
    exact ⟨ends.others, ends.timebase⟩

/-- Both banks' cut pulses have their slots FIRED with the CUT mark. -/
theorem cutBanks_outcome {s : State} (l : s.Linked) {b : Bank} {p : Pulse} (h : (s.bank b).drive.energized = some p) :
    ∃ angle slip truncated, outcomeAt (cutBanks s) p.cyl p.slot = some (.fired
      { startAngle := angle, slip := slip, energized := elapsed p.start s.timebase, truncated := truncated
        boostShort := p.boostShort, cut := true, diagnosis := classify { p with cut := true } }) := by
  have settles := endPulse_settles .bankA Pulse.markCut true s
  cases b with
  | bankA =>
    obtain ⟨angle, slip, truncated, fired⟩ := cutPulse_outcome l h
    exact ⟨angle, slip, truncated,
      (endPulse_settles .bankB Pulse.markCut true _).stands (settles.own l.own) _ _ _ fired⟩
  | bankB =>
    obtain ⟨others, now⟩ := cutPulse_other .bankA s
    obtain ⟨angle, slip, truncated, fired⟩ := cutPulse_outcome (s := cutPulse .bankA s) (b := .bankB) (p := p)
      (cutPulse_keeps .bankA s l).1 (by rw [others _ (by decide)]; exact h)
    exact ⟨angle, slip, truncated, now ▸ fired⟩

/-! ## The assertion of FUELCUT_N (R152) -/

theorem withdrawPulses_unpulsed (r : WithdrawReason) (s : State) : Unpulsed (withdrawPulses (fun _ => true) r s) :=
  (dropPulses_unpulsed s).of_eq (withdrawPulses_closes _ r s).queue fun b => by
    rw [(withdrawPulses_closes _ r s).bank]

theorem exec_fuelcutAssertion {s : State} (released : s.resetHeld = false) (low : s.run.lineLow = true)
    (clear : s.run.fuelcut = false) (held : 4 ≤ elapsed s.run.lineSince s.timebase) :
    exec .fuelcutAssertion s = .next (assertFuelcut s) :=
  takeDue_of_due released ((lineHeld_iff true s).mpr ⟨low, clear, held⟩) rfl

/-- The abort of a coil check, spelled out. -/
theorem abortCoilCheck_eq (cause : AbortCause) (s : State) :
    abortCoilCheck cause s = match s.diag.coil with
      | some x => queueNotice (.coilResult x.cyl .aborted x.curTime (some cause))
          (s.withDiag { s.diag with coil := none })
      | none => s := by
  cases h : s.diag.coil with
  | some x => exact endCoilCheck_of_running h _ _
  | none => exact endCoilCheck_of_none h _ _

/-- The level of the fuel cut and its notice change the run and the link alone. -/
theorem setFuelcut_linked {s : State} (l : s.Linked) : (setFuelcut true s).Linked :=
  (queueNotice_calm _ _).linked (withRun_linked l _)

/-- Settles O33. -/
theorem fuelcutAssertionStopsFuel : Obligations.FuelcutAssertionStopsFuel := by
  unfold Obligations.FuelcutAssertionStopsFuel
  intro s released low clear held
  have whole : assertFuelcut s =
      cutBanks (withdrawPulses (fun _ => true) .fuelcut (setFuelcut true (abortCoilCheck .fuelcut s))) := rfl
  have level : setFuelcut true (abortCoilCheck .fuelcut s) =
      queueNotice (.fuelcutChange true) ((abortCoilCheck .fuelcut s).withRun { s.run with fuelcut := true }) := by
    rw [setFuelcut, abortCoilCheck_run]
  refine ⟨_, exec_fuelcutAssertion released low clear held, fun u v hu hv => ?_, ?_⟩
  · have check : u = abortCoilCheck .fuelcut s := hu.trans (abortCoilCheck_eq .fuelcut s).symm
    have asserted : setFuelcut true (abortCoilCheck .fuelcut s) = v := by rw [level, hv, check]
    rw [asserted] at whole
    refine ⟨whole, fun unpulsed idle => ?_⟩
    have bank : ∀ b, v.bank b = s.bank b := fun b => by rw [← asserted, level]; simp
    have none_ : Unpulsed v :=
      ⟨by rw [← asserted, level]; simpa using unpulsed, fun b => by rw [bank]; exact (idle b).1⟩
    rw [whole, none_.withdrawPulses_eq, cutBanks_of_undriven fun b => by rw [bank]; exact (idle b).2]
  · have unpulsed := withdrawPulses_unpulsed .fuelcut (setFuelcut true (abortCoilCheck .fuelcut s))
    have closes := withdrawPulses_closes (fun _ => true) .fuelcut (setFuelcut true (abortCoilCheck .fuelcut s))
    have linked : s.Linked → (setFuelcut true (abortCoilCheck .fuelcut s)).Linked := fun l =>
      setFuelcut_linked ((endCoilCheck_calm .aborted (some .fuelcut) s).linked l)
    have queue : (setFuelcut true (abortCoilCheck .fuelcut s)).queue = s.queue := by rw [level]; simp
    have bank : ∀ b, (setFuelcut true (abortCoilCheck .fuelcut s)).bank b = s.bank b := fun b => by rw [level]; simp
    have run : (setFuelcut true (abortCoilCheck .fuelcut s)).run = { s.run with fuelcut := true } := by
      rw [level]; simp
    have timebase : (setFuelcut true (abortCoilCheck .fuelcut s)).timebase = s.timebase := by rw [level]; simp
    have diag : (setFuelcut true (abortCoilCheck .fuelcut s)).diag = { s.diag with coil := none } := by
      rw [level]; simp [abortCoilCheck, endCoilCheck_diag]
    have tracker : (setFuelcut true (abortCoilCheck .fuelcut s)).tracker = s.tracker := by rw [level]; simp
    have plan : (setFuelcut true (abortCoilCheck .fuelcut s)).plan = s.plan := by rw [level]; simp
    rw [whole]
    generalize setFuelcut true (abortCoilCheck .fuelcut s) = v at *
    have drive : ∀ b, ((withdrawPulses (fun _ => true) .fuelcut v).bank b).drive = (s.bank b).drive := fun b => by
      rw [withdrawPulses_bank, emptyWaiting_all_eq, bank]
    have cuts := cutBanks_cuts_of_fuelcut unpulsed (by rw [withdrawPulses_fuelcut, run])
    have now : (withdrawPulses (fun _ => true) .fuelcut v).timebase = s.timebase := by
      rw [withdrawPulses_timebase, timebase]
    refine ⟨?_, ?_, ?_, fun b p hp => ?_, fun b hb => ?_, ?_, fun mode => ?_, ?_, ?_, ?_, fun tied => ?_⟩
    · rw [cuts.fuelcut, withdrawPulses_fuelcut, run]
    · rw [cuts.queue, withdrawPulses_queue, queue]
      simp only [pulseIn_all]
    · exact fun b => (cuts.waiting b).trans (unpulsed.waiting b)
    · rw [cuts.drive, if_pos rfl, drive, now, Drive.cutAt_of_energized hp]
    · rw [cuts.drive, if_pos rfl, drive, Drive.cutAt_of_undriven hb]
    · rw [cuts.coil, withdrawPulses_diag, diag]
    · have withdrawn : (withdrawPulses (fun _ => true) .fuelcut v).run = { s.run with fuelcut := true } := by
        rcases closes.run with same | ⟨drain, _⟩
        · exact same.trans run
        · exact absurd ((congrArg RunControl.mode run).symm.trans drain) mode
      rcases cuts.run with same | ⟨drain, _⟩
      · exact same.trans withdrawn
      · exact absurd ((congrArg RunControl.mode withdrawn).symm.trans drain) mode
    · rw [cuts.tracker, withdrawPulses_tracker, tracker]
    · rw [cuts.plan, withdrawPulses_plan, plan]
    · rw [cuts.timebase, now]
    · have l := linked (tied released).1
      have l' := (withdrawPulses_keeps (fun _ => true) .fuelcut v l).1
      obtain ⟨entries, starts⟩ := (withdrawPulses_ends l .fuelcut).settles l'.own (cutBanks_settles _)
      refine ⟨⟨by rw [← queue]; exact entries, fun b r hr => starts b r (by rw [bank]; exact hr)⟩, fun b p hp => ?_⟩
      have fired := cutBanks_outcome l' (b := b) (p := p) (by rw [drive, hp])
      rwa [now] at fired

end Sys2Proof.Machine
end

section
/-! RESET_RUN: what it clears, the cuts it makes with no context open, and what it leaves of the link (R44, R65, R112, R142,
R149, R170). -/

namespace Sys2Proof.Machine

/-! ## The link beside its notices (R168, R170) -/

/-- A second state has the received side of the link of a first. -/
structure SameReceiver (s t : State) : Prop where
  inbound : t.link.inbound = s.link.inbound
  enable : t.link.enable = s.link.enable
  frameErrors : t.link.frameErrors = s.link.frameErrors
  framer : t.link.framer = s.link.framer

namespace SameReceiver

theorem of_link {s t : State} (h : t.link = s.link) : SameReceiver s t := by
  refine ⟨?_, ?_, ?_, ?_⟩ <;> rw [h]

theorem trans {s t u : State} (h : SameReceiver s t) (k : SameReceiver t u) : SameReceiver s u :=
  ⟨k.inbound.trans h.inbound, k.enable.trans h.enable, k.frameErrors.trans h.frameErrors, k.framer.trans h.framer⟩

theorem withDiag (s : State) (x : Diagnosis) : SameReceiver s (s.withDiag x) := of_link (State.withDiag_link s x)

theorem queueNotice (n : NoticeBody) (s : State) : SameReceiver s (queueNotice n s) := by
  unfold Machine.queueNotice
  split
  · obtain ⟨inbound, _, _, enable, errors, framer⟩ := enqueueNotice_spec s.link { time := s.timebase, body := n }
    obtain ⟨inbound', _, errors', enable', framer', _⟩ :=
      takeFrame_spec (s.link.enqueueNotice { time := s.timebase, body := n }) s.timebase
    exact ⟨inbound'.trans inbound, enable'.trans enable, errors'.trans errors, framer'.trans framer⟩
  · exact .of_link rfl

theorem abortCoilCheck (cause : AbortCause) (s : State) : SameReceiver s (abortCoilCheck cause s) := by
  rcases endCoilCheck_cases .aborted (some cause) s with h | ⟨n, h⟩
  · exact .of_link (congrArg State.link h)
  · exact (show Machine.abortCoilCheck cause s = _ from h) ▸ (withDiag s _).trans (queueNotice _ _)

theorem scoredAndWarned (c : Cyl) (k : Classification) (s : State) : SameReceiver s (scoredAndWarned c k s) := by
  unfold Machine.scoredAndWarned
  split
  · exact (withDiag s _).trans (queueNotice _ _)
  · exact withDiag s _

/-- With no pulse unstarted Circuit Diagnosis raises notices alone. -/
theorem diagnose {s : State} (h : Unpulsed s) (c : Cyl) (k : Classification) : SameReceiver s (diagnose c k s) := by
  rw [h.diagnose_eq]
  split
  · exact (scoredAndWarned c k s).trans (queueNotice _ _)
  · exact scoredAndWarned c k s

theorem startDecay (b : Bank) (p : Pulse) (s : State) : SameReceiver s (startDecay b p s) := by
  rw [startDecay_eq]
  exact .of_link (State.withBank_link ..)

end SameReceiver

/-! ## The cuts with no context open (R119, R149) -/

theorem Bare.unpulsed {s : State} (h : Bare s) : Unpulsed s := ⟨h.entries, h.waiting⟩

/-- With no context open a cut is the entry of DECAY and Circuit Diagnosis. -/
theorem cutPulse_of_bare {s : State} (h : Bare s) (b : Bank) :
    cutPulse b s = match (s.bank b).drive.energized with
      | some p => diagnose p.cyl (classify { p with cut := true }) (startDecay b { p with cut := true } s)
      | none => s := by
  cases driven : (s.bank b).drive.energized with
  | none => exact endPulse_of_undriven driven ..
  | some p =>
    have closed : (diagnose p.markCut.cyl (classify p.markCut) (startDecay b p.markCut s)).contexts.get p.markCut.cyl
        = none := by
      rw [(h.unpulsed.startDecay b p.markCut).diagnose_contexts, startDecay_contexts]
      exact h.contexts _
    rw [cutPulse, endPulse_of_energized driven, reportEnd, endReport_of_closed closed, closeTestIf_of_closed _ _ _ closed]
    rfl

theorem cutPulse_bare_records {s : State} (h : Bare s) (b : Bank) :
    (cutPulse b s).records = s.records ∧ SameReceiver s (cutPulse b s) := by
  rw [cutPulse_of_bare h]
  cases (s.bank b).drive.energized with
  | none => exact ⟨rfl, .of_link rfl⟩
  | some p =>
    have decay := h.unpulsed.startDecay b { p with cut := true }
    exact ⟨(decay.diagnose_records ..).trans (startDecay_records ..),
      (SameReceiver.startDecay ..).trans (SameReceiver.diagnose decay ..)⟩

theorem NoneUnstarted.of_closed {c : Cyl} {s : State} (h : s.contexts.get c = none) : NoneUnstarted c s :=
  fun x hx => by rw [h] at hx; cases hx

/-- The cuts of RESET_RUN, with no context open (R119, R149). -/
theorem cutBanks_cuts_of_bare {s : State} (h : Bare s) : Cuts (fun _ => true) s (cutBanks s) := by
  have first := endPulse_cuts .bankA true h.unpulsed fun c => .inr (.of_closed (h.contexts c))
  have after : Bare (cutPulse .bankA s) := (cutPulse_bare .bankA h).1
  exact first.both (endPulse_cuts .bankB true after.unpulsed fun c => .inr (.of_closed (after.contexts c)))

/-! ## The state the cuts find (R44, R65, R112, R170) -/

/-- The state after everything of RESET_RUN that stands before the cuts. -/
def runCleared (s : State) : State := clearRun (emptyNotices s)

theorem resetRun_eq (s : State) : resetRun s = abortCoilCheck .resetRun (cutBanks (runCleared s)) := rfl

section
variable (s : State)

theorem runCleared_link : (runCleared s).link = { s.link with notices := [], lost := 0 } := by
  simp [runCleared, clearRun, removeArms, dropPulses, discardCycles, haltRun, emptyNotices]
theorem runCleared_diag : (runCleared s).diag = s.diag := by
  simp [runCleared, clearRun, removeArms, dropPulses, discardCycles, haltRun, emptyNotices]
theorem runCleared_timebase : (runCleared s).timebase = s.timebase := by
  simp [runCleared, clearRun, removeArms, dropPulses, discardCycles, haltRun, emptyNotices]
theorem runCleared_tracker : (runCleared s).tracker = s.tracker := by
  simp [runCleared, clearRun, removeArms, dropPulses, discardCycles, haltRun, emptyNotices]
theorem runCleared_plan : (runCleared s).plan = s.plan.resetRun := by
  simp [runCleared, clearRun, removeArms, dropPulses, discardCycles, haltRun, emptyNotices]
theorem runCleared_run : (runCleared s).run = { s.run with mode := .halt, drainAt := none } := by
  simp [runCleared, clearRun, removeArms, dropPulses, discardCycles, haltRun, emptyNotices]

theorem runCleared_contexts (c : Cyl) : (runCleared s).contexts.get c = none := PerCyl.get_fill _ c
theorem runCleared_records (c : Cyl) : (runCleared s).records.get c = none := PerCyl.get_fill _ c

theorem runCleared_bank (b : Bank) : (runCleared s).bank b = { s.bank b with waiting := none } := by
  have drops : (runCleared s).bank b = (s.bank b).emptyWaiting fun _ => true := by cases b <;> rfl
  rw [drops, emptyWaiting_all_eq]

theorem runCleared_entries :
    (runCleared s).queue.entries = s.queue.entries.filter fun e => !e.isPulse && !e.isArm := by
  show ((s.queue.entries.filter fun e => !e.pulseIn fun _ => true).filter fun e =>
    match e.key with | .arm _ => false | _ => true) = _
  rw [List.filter_filter]
  refine List.filter_congr fun e _ => ?_
  rw [pulseIn_all]
  unfold Entry.isPulse Entry.isArm
  cases e.key <;> rfl

theorem runCleared_bare : Bare (runCleared s) := by
  refine ⟨runCleared_contexts s, fun e he => ?_, fun b => by rw [runCleared_bank]⟩
  rw [runCleared_entries] at he
  have kept := (List.mem_filter.mp he).2
  rw [Bool.and_eq_true] at kept
  simpa using kept.1

end

theorem exec_resetRun {s : State} (tag : Byte) (ready : LinkReady s) :
    exec (.resetRun tag []) s = acked 0x14 tag [0] (resetRun s) :=
  request_acked (owner := answerResetRun) ready (by decide) (by decide) rfl

/-- Settles O55. -/
theorem resetRunClearsRun : Obligations.ResetRunClearsRun := by
  unfold Obligations.ResetRunClearsRun
  intro s tag ready
  have bare := runCleared_bare s
  have after : Bare (cutPulse .bankA (runCleared s)) := (cutPulse_bare .bankA bare).1
  have cuts := cutBanks_cuts_of_bare bare
  have coil : (cutBanks (runCleared s)).diag.coil = s.diag.coil := by rw [cuts.coil, runCleared_diag]
  have bank : ∀ b, ((runCleared s).bank b).drive = (s.bank b).drive := fun b => by rw [runCleared_bank]
  have contexts : ∀ c, (cutBanks (runCleared s)).contexts.get c = none :=
    (cutPulse_bare .bankB after).1.contexts
  obtain ⟨recordsA, receiverA⟩ := cutPulse_bare_records bare .bankA
  obtain ⟨recordsB, receiverB⟩ := cutPulse_bare_records after .bankB
  have receiver : SameReceiver (runCleared s) (resetRun s) := by
    rw [resetRun_eq]
    exact (receiverA.trans receiverB).trans (.abortCoilCheck ..)
  have run : (cutBanks (runCleared s)).run = (runCleared s).run :=
    cuts.run.elim id fun ⟨drain, _⟩ => by cases (congrArg RunControl.mode (runCleared_run s)).symm.trans drain
  refine ⟨resetRun s, runCleared s, exec_resetRun tag ready, runCleared_link s, runCleared_diag s,
    runCleared_timebase s, ?_, ?_, runCleared_contexts s, fun b => ⟨bank b, by rw [runCleared_bank]⟩, fun f hf => ?_,
    fun idle none_ => ?_, fun x idle hx => ?_, ?_, fun c => ⟨?_, ?_⟩, ?_, fun b => ?_, fun b p hp => ?_, fun b hb => ?_,
    ?_, ?_, ?_, ?_, receiver.inbound, receiver.enable, receiver.frameErrors, receiver.framer⟩
  · rw [resetRun_eq, abortCoilCheck_plan, cuts.plan]
  · rw [resetRun_eq, abortCoilCheck_queue, cuts.queue]
  · have byF : ∀ {v : State} (b : Bank), Bare v → cutPulse b v = f b v := fun {v} b hv =>
      (cutPulse_of_bare hv b).trans (hf b v).symm
    have cut : cutBanks (runCleared s) = f .bankB (f .bankA (runCleared s)) := by
      rw [cutBanks, byF _ after, byF _ bare]
    have aborted := abortCoilCheck_eq .resetRun (cutBanks (runCleared s))
    rw [coil, cut] at aborted
    exact (resetRun_eq s).trans (cut ▸ aborted)
  · rw [resetRun_eq, cutBanks_of_undriven fun b => by rw [bank]; exact idle b]
    rw [show abortCoilCheck .resetRun (runCleared s) = runCleared s from
      endCoilCheck_of_none ((congrArg Diagnosis.coil (runCleared_diag s)).trans none_) ..]
    exact runCleared_link s
  · rw [resetRun_eq, cutBanks_of_undriven fun b => by rw [bank]; exact idle b]
    rw [show abortCoilCheck .resetRun (runCleared s) = _ from
      endCoilCheck_of_running (x := x) ((congrArg Diagnosis.coil (runCleared_diag s)).trans hx) ..]
    refine queueNotice_link_congr _ ?_ ?_
    · rw [State.withDiag_link, runCleared_link, State.withLink_link]
    · rw [State.withDiag_timebase, runCleared_timebase, State.withLink_timebase]
  · rw [resetRun_eq, abortCoilCheck_run, run, runCleared_run]
  · rw [resetRun_eq, abortCoilCheck_contexts, contexts]
  · rw [resetRun_eq, abortCoilCheck_records, cutBanks, recordsB, recordsA, runCleared_records]
  · rw [resetRun_eq, abortCoilCheck_queue, cuts.queue, runCleared_entries]
  · rw [resetRun_eq, abortCoilCheck_bank, cuts.waiting, runCleared_bank]
  · rw [resetRun_eq, abortCoilCheck_bank, cuts.drive, if_pos rfl, bank, runCleared_timebase,
      Drive.cutAt_of_energized hp]
  · rw [resetRun_eq, abortCoilCheck_bank, cuts.drive, if_pos rfl, bank, Drive.cutAt_of_undriven hb]
  · rw [resetRun_eq, abortCoilCheck, endCoilCheck_diag]
  · rw [resetRun_eq, abortCoilCheck_tracker, cuts.tracker, runCleared_tracker]
  · rw [resetRun_eq, abortCoilCheck_timebase, cuts.timebase, runCleared_timebase]
  · rw [resetRun_eq, abortCoilCheck_plan, cuts.plan, runCleared_plan]
    rfl

end Sys2Proof.Machine
end

section
/-! The forced end of a drain: every slot left unstarted is WITHDRAWN, both banks are cut, and every context closes with its
record (R84, R88, R119, R148). -/

namespace Sys2Proof.Machine

/-! ## Changes of slots alone -/

/-- A second state has the contexts of a first but for their slots, and its records. -/
structure SlotsOnly (s t : State) : Prop where
  contexts : ∀ c, (s.contexts.get c = none ∧ t.contexts.get c = none) ∨
    ∃ x ys, s.contexts.get c = some x ∧ t.contexts.get c = some { x with slots := ys }
  records : t.records = s.records

namespace SlotsOnly

theorem of_eq {s t : State} (hc : t.contexts = s.contexts) (hr : t.records = s.records) : SlotsOnly s t := by
  refine ⟨fun c => ?_, hr⟩
  rw [hc]
  cases s.contexts.get c with
  | none => exact .inl ⟨rfl, rfl⟩
  | some x => exact .inr ⟨x, x.slots, rfl, rfl⟩

theorem trans {s t u : State} (h : SlotsOnly s t) (k : SlotsOnly t u) : SlotsOnly s u := by
  refine ⟨fun c => ?_, k.records.trans h.records⟩
  rcases h.contexts c with ⟨hs, ht⟩ | ⟨x, ys, hs, ht⟩ <;> rcases k.contexts c with ⟨kt, ku⟩ | ⟨y, zs, kt, ku⟩
  · exact .inl ⟨hs, ku⟩
  · rw [ht] at kt; cases kt
  · rw [ht] at kt; cases kt
  · rw [ht] at kt
    cases kt
    exact .inr ⟨x, zs, hs, ku⟩

theorem updateSlots (c : Cyl) (f : List Slot → List Slot) (s : State) : SlotsOnly s (updateSlots c f s) := by
  refine ⟨fun d => ?_, ?_⟩
  · rw [updateSlots_get]
    cases hd : s.contexts.get d with
    | none =>
      refine .inl ⟨rfl, ?_⟩
      split
      · next same => rw [← same, hd]; rfl
      · rfl
    | some x =>
      split
      · next same => exact .inr ⟨x, f x.slots, rfl, by rw [← same, hd]; rfl⟩
      · exact .inr ⟨x, x.slots, rfl, rfl⟩
  · obtain ⟨x, hx⟩ := updateSlots_eq_withContexts c f s
    rw [hx, State.withContexts_records]

/-- The end of a pulse, with the close left to the caller, changes slots alone while no pulse is unstarted and no slot of
the pulse's context is. -/
theorem endPulse (b : Bank) {s : State} (h : Unpulsed s) (started : ∀ c, NoneUnstarted c s) :
    SlotsOnly s (endPulse b Pulse.markCut false s) ∧ ∀ c, NoneUnstarted c (Machine.endPulse b Pulse.markCut false s) := by
  cases driven : (s.bank b).drive.energized with
  | none =>
    rw [endPulse_of_undriven driven]
    exact ⟨of_eq rfl rfl, started⟩
  | some p =>
    have decay := h.startDecay b p.markCut
    rw [endPulse_of_energized driven]
    show SlotsOnly s (endReport _ _ _ _) ∧ ∀ c, NoneUnstarted c (endReport _ _ _ _)
    have contexts : (diagnose p.markCut.cyl (classify p.markCut) (startDecay b p.markCut s)).contexts = s.contexts := by
      rw [decay.diagnose_contexts, startDecay_contexts]
    have before : SlotsOnly s (diagnose p.markCut.cyl (classify p.markCut) (startDecay b p.markCut s)) :=
      of_eq contexts (by rw [decay.diagnose_records, startDecay_records])
    have still := fun c => (started c).of_contexts contexts
    generalize diagnose p.markCut.cyl (classify p.markCut) (startDecay b p.markCut s) = u at before still
    rcases endReport_cases p.markCut s.timebase (classify p.markCut) u with same | fired
    · rw [same]
      exact ⟨before, still⟩
    · have after := fun c => updateSlots_noneUnstarted (d := p.markCut.cyl) (still c) fun _ =>
        mapSlot_forall (n := p.markCut.slot) (fire_notUnstarted p.markCut s.timebase (classify p.markCut))
      rw [fired, chainAfter_of_noneUnstarted (after _)]
      exact ⟨before.trans (updateSlots ..), after⟩

end SlotsOnly

/-! ## The slots of a forced drain (R84) -/

/-- A slot change of each cylinder of a list changes the contexts of those cylinders, each once. -/
theorem forCyls_updateSlots_get (f : List Slot → List Slot) (d : Cyl) (cs : List Cyl) (nodup : cs.Nodup) :
    ∀ s : State, (forCyls (fun c => updateSlots c f) cs s).contexts.get d =
      if d ∈ cs then (s.contexts.get d).map fun x => { x with slots := f x.slots } else s.contexts.get d := by
  induction cs with
  | nil => exact fun s => rfl
  | cons c cs ih =>
    intro s
    obtain ⟨absent, rest⟩ := List.nodup_cons.mp nodup
    rw [forCyls, ih rest, updateSlots_get]
    by_cases same : d = c
    · subst same
      simp [absent]
    · simp [same]

theorem forCyls_updateSlots_eq (f : List Slot → List Slot) (cs : List Cyl) :
    ∀ s : State, ∃ x, forCyls (fun c => updateSlots c f) cs s = s.withContexts x := by
  induction cs with
  | nil => exact fun s => ⟨s.contexts, rfl⟩
  | cons c cs ih =>
    intro s
    obtain ⟨x, hx⟩ := updateSlots_eq_withContexts c f s
    obtain ⟨y, hy⟩ := ih (s.withContexts x)
    exact ⟨y, by rw [forCyls, hx, hy, State.withContexts_withContexts]⟩

section
variable (s : State)

theorem forceSlots_eq : ∃ x, forceSlots s = s.withContexts x := forCyls_updateSlots_eq ..

theorem forceSlots_get (c : Cyl) :
    (forceSlots s).contexts.get c =
      (s.contexts.get c).map fun x => { x with slots := withdrawAllSlots .drainForced x.slots } := by
  rw [forceSlots, forCyls_updateSlots_get _ c _ (by decide), if_pos (Cyl.mem_all c)]

theorem withdrawAllSlots_notUnstarted (r : WithdrawReason) (xs : List Slot) :
    ∀ y ∈ withdrawAllSlots r xs, y.st.isUnstarted = false := by
  intro y hy
  obtain ⟨x, _, rfl⟩ := List.mem_map.mp hy
  split
  · rfl
  · next started => simpa using started

theorem forceSlots_noneUnstarted (c : Cyl) : NoneUnstarted c (forceSlots s) := by
  intro x hx
  rw [forceSlots_get] at hx
  obtain ⟨x', _, rfl⟩ := Option.map_eq_some_iff.mp hx
  exact withdrawAllSlots_notUnstarted _ x'.slots

theorem forceSlots_slotsOnly : SlotsOnly s (forceSlots s) := by
  refine ⟨fun c => ?_, ?_⟩
  · rw [forceSlots_get]
    cases s.contexts.get c with
    | none => exact .inl ⟨rfl, rfl⟩
    | some x => exact .inr ⟨x, _, rfl, rfl⟩
  · obtain ⟨x, hx⟩ := forceSlots_eq s
    rw [hx, State.withContexts_records]

end

/-- An unstarted slot of a withdrawn list is found resolved. -/
theorem findSlot_withdrawAll {xs : List Slot} {y : Slot} (r : WithdrawReason) (nodup : (xs.map Slot.num).Nodup)
    (hy : y ∈ xs) (unstarted : y.st.isUnstarted = true) :
    findSlot y.num (withdrawAllSlots r xs) = some (y.resolve (.withdrawn r)) := by
  have nums : ((withdrawAllSlots r xs).map Slot.num).Nodup := by
    rw [(withdrawAllSlots_to r xs).nums]
    exact nodup
  have mem : y.resolve (.withdrawn r) ∈ withdrawAllSlots r xs := List.mem_map.mpr ⟨y, hy, if_pos unstarted⟩
  exact findSlot_of_mem nums mem

/-- Every unstarted slot of an open context is WITHDRAWN with DRAIN_FORCED (R84). -/
theorem forceSlots_outcome {s : State} (l : s.Linked) {c : Cyl} {x : CycleContext} {y : Slot}
    (hx : s.contexts.get c = some x) (hy : y ∈ x.slots) (unstarted : y.st.isUnstarted = true) :
    outcomeAt (forceSlots s) c y.num = some (.withdrawn .drainForced) := by
  refine outcomeAt_of_slotAt ?_
  simp only [slotAt, forceSlots_get, hx, Option.map_some]
  rw [findSlot_withdrawAll _ (l.numbered c x hx).2 hy unstarted]
  rfl

/-! ## The closes (R85, R148) -/

/-- A cylinder's context, open or closed into its record, of one plan and one arm angle. -/
def Traced (c : Cyl) (x : CycleContext) (s : State) : Prop :=
  (∃ ys, s.contexts.get c = some { x with slots := ys }) ∨
    s.contexts.get c = none ∧ ∃ r, s.records.get c = some r ∧ r.cyl = x.cyl ∧ r.serial = x.serial ∧
      r.armAngle = x.armAngle

theorem closeTest_traced {c : Cyl} {x : CycleContext} {s : State} (own : Own s) (h : Traced c x s) (d : Cyl) :
    Traced c x (closeTest d s) := by
  rcases closeTest_spec d s with ⟨contexts, records, _⟩ | ⟨y, hy, _, contexts, records⟩
  · unfold Traced
    rw [contexts, records]
    exact h
  · unfold Traced
    rw [contexts, records, own d y hy, PerCyl.get_set, PerCyl.get_set]
    by_cases same : c = d
    · subst same
      rw [if_pos rfl, if_pos rfl]
      rcases h with ⟨ys, open_⟩ | ⟨closed, _⟩
      · obtain rfl : y = { x with slots := ys } := Option.some.inj (hy.symm.trans open_)
        exact .inr ⟨rfl, _, rfl, rfl, rfl, rfl⟩
      · rw [hy] at closed; cases closed
    · rw [if_neg same, if_neg same]
      exact h

/-- The record of a cylinder with no context stands through a close test. -/
theorem closeTest_records_of_closed {c : Cyl} {s : State} (own : Own s) (h : s.contexts.get c = none) (d : Cyl) :
    (closeTest d s).records.get c = s.records.get c := by
  rcases closeTest_spec d s with ⟨_, records, _⟩ | ⟨y, hy, _, _, records⟩
  · rw [records]
  · rw [records, own d y hy, PerCyl.get_set, if_neg]
    rintro rfl
    rw [hy] at h
    cases h

theorem closeAll_traced {c : Cyl} {x : CycleContext} (cs : List Cyl) :
    ∀ s : State, Own s → Traced c x s → Traced c x (forCyls closeTest cs s) := by
  induction cs with
  | nil => exact fun s _ h => h
  | cons d cs ih => exact fun s own h => ih _ ((closeTest_settles d s).own own) (closeTest_traced own h d)

theorem closeAll_records_of_closed {c : Cyl} (cs : List Cyl) :
    ∀ s : State, Own s → s.contexts.get c = none →
      (forCyls closeTest cs s).records.get c = s.records.get c := by
  induction cs with
  | nil => exact fun s _ _ => rfl
  | cons d cs ih =>
    intro s own h
    exact (ih _ ((closeTest_settles d s).own own) ((closeTest_settles d s).shut c h)).trans
      (closeTest_records_of_closed own h d)

theorem closeAll_settles (cs : List Cyl) : ∀ s : State, Settles s (forCyls closeTest cs s) := by
  induction cs with
  | nil => exact fun s => .refl s
  | cons d cs ih => exact fun s => (closeTest_settles d s).trans (ih _)

/-! ## The state before the closes -/

/-- The state the cuts of a forced drain find. -/
def drainForced (s : State) : State := haltRun (forceSlots (dropPulses (fun _ => true) s))

theorem forceDrain_eq (s : State) :
    forceDrain s = queueNotice (.stopDone true (openCount s)) (forCyls closeTest Cyl.all (cutWithoutClose (drainForced s))) :=
  rfl

section
variable (s : State)

theorem drainForced_eq : ∃ x, drainForced s =
    ((dropPulses (fun _ => true) s).withContexts x).withRun { s.run with mode := .halt, drainAt := none } := by
  obtain ⟨x, hx⟩ := forceSlots_eq (dropPulses (fun _ => true) s)
  exact ⟨x, by rw [drainForced, haltRun, hx]; simp [dropPulses]⟩

theorem drainForced_run : (drainForced s).run = { s.run with mode := .halt, drainAt := none } := by
  obtain ⟨x, hx⟩ := drainForced_eq s
  simp [hx]

theorem drainForced_timebase : (drainForced s).timebase = s.timebase := by
  obtain ⟨x, hx⟩ := drainForced_eq s
  simp [hx, dropPulses]

theorem drainForced_tracker : (drainForced s).tracker = s.tracker := by
  obtain ⟨x, hx⟩ := drainForced_eq s
  simp [hx, dropPulses]

theorem drainForced_plan : (drainForced s).plan = s.plan := by
  obtain ⟨x, hx⟩ := drainForced_eq s
  simp [hx, dropPulses]

theorem drainForced_queue : (drainForced s).queue = (dropPulses (fun _ => true) s).queue := by
  obtain ⟨x, hx⟩ := drainForced_eq s
  simp [hx]

theorem drainForced_bank (b : Bank) : (drainForced s).bank b = { s.bank b with waiting := none } := by
  obtain ⟨x, hx⟩ := drainForced_eq s
  simp [hx, dropPulses_bank, emptyWaiting_all_eq]

theorem drainForced_unpulsed : Unpulsed (drainForced s) :=
  (dropPulses_unpulsed s).of_eq (drainForced_queue s) fun b => by
    rw [drainForced_bank, dropPulses_bank, emptyWaiting_all_eq]

theorem drainForced_noneUnstarted (c : Cyl) : NoneUnstarted c (drainForced s) :=
  (forceSlots_noneUnstarted (dropPulses (fun _ => true) s) c).of_contexts (State.withRun_contexts ..)

/-- Both cuts, with the closes left. -/
theorem cutWithoutClose_cuts : Cuts (fun _ => true) (drainForced s) (cutWithoutClose (drainForced s)) ∧
    SlotsOnly s (cutWithoutClose (drainForced s)) := by
  have unpulsed := drainForced_unpulsed s
  have started := drainForced_noneUnstarted s
  have first := endPulse_cuts .bankA false unpulsed fun c => .inr (started c)
  obtain ⟨slots, started'⟩ := SlotsOnly.endPulse .bankA unpulsed started
  have second := endPulse_cuts .bankB false (first.unpulsed unpulsed) fun c => .inr (started' c)
  have slots' := (SlotsOnly.endPulse .bankB (first.unpulsed unpulsed) started').1
  have dropped : SlotsOnly s (dropPulses (fun _ => true) s) := .of_eq rfl rfl
  have halted : SlotsOnly (forceSlots (dropPulses (fun _ => true) s)) (drainForced s) := .of_eq rfl rfl
  have before : SlotsOnly s (drainForced s) := dropped.trans ((forceSlots_slotsOnly _).trans halted)
  exact ⟨first.both second, before.trans (slots.trans slots')⟩

theorem drainForced_settles : Settles (forceSlots (dropPulses (fun _ => true) s)) (forceDrain s) := by
  have halt : Settles (forceSlots (dropPulses (fun _ => true) s)) (drainForced s) := .of_eq rfl rfl
  have cuts : Settles (drainForced s) (cutWithoutClose (drainForced s)) :=
    (endPulse_settles .bankA Pulse.markCut false _).trans (endPulse_settles .bankB Pulse.markCut false _)
  exact halt.trans (cuts.trans ((closeAll_settles Cyl.all _).trans (queueNotice_settles _ _)))

end

theorem SlotsOnly.own {s t : State} (h : SlotsOnly s t) (own : Own s) : Own t := by
  intro c y hy
  rcases h.contexts c with ⟨_, ht⟩ | ⟨x, ys, hs, ht⟩
  · rw [ht] at hy; cases hy
  · rw [ht] at hy
    cases hy
    exact own c x hs

theorem SlotsOnly.traced {s t : State} (h : SlotsOnly s t) {c : Cyl} {x : CycleContext} (hx : s.contexts.get c = some x) :
    Traced c x t := by
  rcases h.contexts c with ⟨hs, _⟩ | ⟨y, ys, hs, ht⟩
  · rw [hx] at hs; cases hs
  · obtain rfl : y = x := Option.some.inj (hs.symm.trans hx)
    exact .inl ⟨ys, ht⟩

theorem SlotsOnly.closed {s t : State} (h : SlotsOnly s t) {c : Cyl} (hx : s.contexts.get c = none) :
    t.contexts.get c = none := by
  rcases h.contexts c with ⟨_, ht⟩ | ⟨y, ys, hs, _⟩
  · exact ht
  · rw [hx] at hs; cases hs

theorem exec_drainTimerExpiry {s : State} {u : Tick} (released : s.resetHeld = false) (drain : s.run.mode = .drain)
    (timer : s.run.drainAt = some u) (due : reached u s.timebase = true) :
    exec .drainTimerExpiry s = .next (forceDrain s) :=
  takeDue_of_due released (by simp only [drainDue, timer, drain, due, decide_true, Bool.and_self]) rfl

/-- Settles O31. -/
theorem drainTimerForcesHalt : Obligations.DrainTimerForcesHalt := by
  unfold Obligations.DrainTimerForcesHalt
  intro s u released drain timer due
  obtain ⟨cuts, slots⟩ := cutWithoutClose_cuts s
  have closes : Closes (cutWithoutClose (drainForced s)) (forCyls closeTest Cyl.all (cutWithoutClose (drainForced s))) :=
    forCyls_closes closeTest closeTest_closes Cyl.all _
  have halted : (drainForced s).run.mode = .halt := by rw [drainForced_run]
  have cutRun : (cutWithoutClose (drainForced s)).run = (drainForced s).run :=
    cuts.run.elim id fun ⟨h, _⟩ => by cases halted.symm.trans h
  have closedRun := closes.run.elim id fun ⟨h, _⟩ => by
    rw [cutRun] at h
    cases halted.symm.trans h
  have bank : ∀ b, (forceDrain s).bank b = (cutWithoutClose (drainForced s)).bank b := fun b => by
    rw [forceDrain_eq, queueNotice_bank, closes.bank]
  have drive : ∀ b, ((forceDrain s).bank b).drive = (s.bank b).drive.cutAt s.timebase := fun b => by
    rw [bank, cuts.drive, if_pos rfl, drainForced_bank, drainForced_timebase]
  refine ⟨_, exec_drainTimerExpiry released drain timer due, ?_, ?_, fun b => ⟨?_, ?_⟩, fun b hb => ?_, ?_, ?_, ?_,
    ⟨_, forceDrain_eq s, ?_⟩, fun tied => ?_⟩
  · rw [forceDrain_eq, queueNotice_run, closedRun, cutRun, drainForced_run]
  · rw [forceDrain_eq, queueNotice_queue, closes.queue, cuts.queue, drainForced_queue]
    show (s.queue.entries.filter fun e => !e.pulseIn fun _ => true) = _
    simp only [pulseIn_all]
  · rw [bank, cuts.waiting, drainForced_bank]
  · rw [drive]
    unfold Drive.cutAt
    split
    · rfl
    · assumption
  · rw [drive, Drive.cutAt_of_undriven hb]
  · rw [forceDrain_eq, queueNotice_tracker, closes.tracker, cuts.tracker, drainForced_tracker]
  · rw [forceDrain_eq, queueNotice_plan, closes.plan, cuts.plan, drainForced_plan]
  · rw [forceDrain_eq, queueNotice_timebase, closes.timebase, cuts.timebase, drainForced_timebase]
  · rw [closes.timebase, cuts.timebase, drainForced_timebase]
  · have l := (tied released).1
    have closed := (forceDrain_linked l).2
    have own := slots.own l.own
    refine ⟨fun c => ⟨closed c, fun h => ?_⟩, fun c x hx => ⟨?_, fun y hy unstarted => ?_⟩⟩
    · rw [forceDrain_eq, queueNotice_records, closeAll_records_of_closed _ _ own (slots.closed h), slots.records]
    · rcases closeAll_traced Cyl.all _ own (slots.traced hx) with ⟨ys, open_⟩ | ⟨_, r, hr, cyl, serial, arm⟩
      · have shut := closed c
        rw [forceDrain_eq, queueNotice_contexts, open_] at shut
        cases shut
      · exact ⟨r, by rw [forceDrain_eq, queueNotice_records, hr], cyl.trans (l.own c x hx), serial, arm⟩
    · have l' := (dropPulses_calm (fun _ => true) s).linked l
      exact (drainForced_settles s).stands ((forceSlots_slotsOnly _).own l'.own) _ _ _
        (forceSlots_outcome l' (x := x) hx hy unstarted)

end Sys2Proof.Machine
end

section
/-! The arm event up to its decision: the swap, the expiry count, the overrun, the cut checks, and the entries it fires
(R57, R62, R64, R66 to R69, R102). -/

namespace Sys2Proof.Machine

/-! ## The expiry step (R57, R58) -/

/-- The expiry count after an arm event. -/
def PlanStore.expiryAfter (p : PlanStore) : Nat :=
  if p.expiry < p.engine.planExpiry then p.expiry + 1 else p.expiry

theorem countExpiry_eq (s : State) :
    countExpiry s =
      if s.plan.expiryAfter = s.plan.engine.planExpiry ∧ s.plan.stale = false then
        queueNotice (.planStale s.plan.activePage.serial s.plan.engine.planExpiry)
          (s.withPlan { s.plan with expiry := s.plan.expiryAfter, stale := true })
      else s.withPlan { s.plan with expiry := s.plan.expiryAfter } := by
  have counted : (if s.plan.expiry < s.plan.engine.planExpiry then s.withPlan { s.plan with expiry := s.plan.expiry + 1 }
      else s) = s.withPlan { s.plan with expiry := s.plan.expiryAfter } := by
    unfold PlanStore.expiryAfter
    split <;> rfl
  rw [countExpiry, counted, staleTest]
  rfl

/-- The expiry step changes the count and the stale flag of the plan, and the link. -/
theorem countExpiry_rest (s : State) : ∃ b l, countExpiry s =
    (s.withPlan { s.plan with expiry := s.plan.expiryAfter, stale := b }).withLink l := by
  rw [countExpiry_eq]
  split
  · obtain ⟨l, hl⟩ := queueNotice_eq_withLink
      (.planStale s.plan.activePage.serial s.plan.engine.planExpiry)
      (s.withPlan { s.plan with expiry := s.plan.expiryAfter, stale := true })
    exact ⟨true, l, hl⟩
  · exact ⟨s.plan.stale, s.link, rfl⟩

/-! ## What the decision of a cycle reads (R68) -/

/-- What of a state the cut checks and the build read, beside the latch, the stale flag and the active page: it stands
through the steps before them. -/
structure SameChecks (s u : State) : Prop where
  tracker : u.tracker = s.tracker
  timebase : u.timebase = s.timebase
  fuelcut : u.run.fuelcut = s.run.fuelcut
  band : u.run.band = s.run.band
  engine : u.plan.engine = s.plan.engine
  cyls : u.plan.cyls = s.plan.cyls
  testCut : u.plan.testCut = s.plan.testCut
  derateN : u.plan.derateN = s.plan.derateN
  derateK : u.plan.derateK = s.plan.derateK
  derateAcc : u.plan.derateAcc = s.plan.derateAcc

namespace SameChecks

variable {s t u : State}

theorem trans (h : SameChecks s t) (k : SameChecks t u) : SameChecks s u :=
  ⟨k.tracker.trans h.tracker, k.timebase.trans h.timebase, k.fuelcut.trans h.fuelcut, k.band.trans h.band,
    k.engine.trans h.engine, k.cyls.trans h.cyls, k.testCut.trans h.testCut, k.derateN.trans h.derateN,
    k.derateK.trans h.derateK, k.derateAcc.trans h.derateAcc⟩

theorem of_plan (tracker : t.tracker = s.tracker) (plan : t.plan = s.plan) (timebase : t.timebase = s.timebase)
    (fuelcut : t.run.fuelcut = s.run.fuelcut) (band : t.run.band = s.run.band) : SameChecks s t := by
  refine ⟨tracker, timebase, fuelcut, band, ?_, ?_, ?_, ?_, ?_, ?_⟩ <;> rw [plan]

theorem refl (s : State) : SameChecks s s := of_plan rfl rfl rfl rfl rfl

theorem withQueue (s : State) (q : FiringQueue) : SameChecks s (s.withQueue q) := of_plan rfl rfl rfl rfl rfl

theorem of_closes (h : Closes s t) : SameChecks s t := of_plan h.tracker h.plan h.timebase h.fuelcut h.band

theorem insertArm (c : Cyl) (s : State) : SameChecks s (insertArm c s) := by
  unfold Machine.insertArm
  split
  · exact withQueue s _
  · exact refl s

theorem landIfPending (c : Option Cyl) (s : State) : SameChecks s (landIfPending c s) := by
  refine ⟨landIfPending_tracker .., landIfPending_timebase .., by rw [landIfPending_run], by rw [landIfPending_run],
    ?_, ?_, ?_, ?_, ?_, ?_⟩ <;> rw [landIfPending_plan] <;> split <;> rfl

theorem countExpiry (s : State) : SameChecks s (countExpiry s) := by
  obtain ⟨b, l, h⟩ := countExpiry_rest s
  rw [h]
  exact ⟨rfl, rfl, rfl, rfl, rfl, rfl, rfl, rfl, rfl, rfl⟩

theorem cutPulseOf (c : Cyl) (b : Bank) (s : State) : SameChecks s (cutPulseOf c b s) := by
  unfold Machine.cutPulseOf
  split
  · next p hp =>
    split
    · rw [cutPulse, endPulse_of_energized hp]
      have ends := reportEnd_endsPulse true b p.markCut s
      exact of_plan ends.tracker ends.plan ends.timebase ends.fuelcut ends.band
    · exact refl s
  · exact refl s

theorem overrun (c : Cyl) (s : State) : SameChecks s (overrun c s) := by
  unfold Machine.overrun
  split
  · exact refl s
  · have dropped : SameChecks s (updateSlots c (withdrawAllSlots .overrun) (dropPulses (fun d => d == c) s)) :=
      (of_plan rfl rfl rfl rfl rfl : SameChecks s (dropPulses (fun d => d == c) s)).trans (of_closes (updateSlots_closes ..))
    exact (dropped.trans ((cutPulseOf ..).trans (cutPulseOf ..))).trans (of_closes (closeTest_closes ..))

end SameChecks

/-! ## The overrun (R67) -/

theorem cutPulseOf_settles (c : Cyl) (b : Bank) (s : State) : Settles s (cutPulseOf c b s) := by
  unfold cutPulseOf
  split
  · split
    · exact endPulse_settles ..
    · exact .refl s
  · exact .refl s

theorem overrun_of_closed {c : Cyl} {s : State} (h : s.contexts.get c = none) : overrun c s = s := by
  simp only [overrun, h]

/-- An overrun withdraws every unstarted slot of the old context (R67, R83). -/
theorem overrun_outcome {s : State} (l : s.Linked) {c : Cyl} {x : CycleContext} {y : Slot}
    (hx : s.contexts.get c = some x) (hy : y ∈ x.slots) (unstarted : y.st.isUnstarted = true) :
    outcomeAt (overrun c s) c y.num = some (.withdrawn .overrun) := by
  have slot : slotAt (updateSlots c (withdrawAllSlots .overrun) (dropPulses (fun d => d == c) s)) c y.num =
      some (.resolved (.withdrawn .overrun)) := by
    have dropped : (dropPulses (fun d => d == c) s).contexts.get c = some x := hx
    simp only [slotAt]
    rw [updateSlots_get, if_pos rfl, dropped]
    simp only [Option.map_some]
    rw [findSlot_withdrawAll _ (l.numbered c x hx).2 hy unstarted]
    rfl
  have own : Own (updateSlots c (withdrawAllSlots .overrun) (dropPulses (fun d => d == c) s)) :=
    (withdrawAllSlots_settles ..).own ((dropPulses_settles ..).own l.own)
  simp only [overrun, hx]
  exact (((cutPulseOf_settles ..).trans (cutPulseOf_settles ..)).trans (closeTest_settles ..)).stands own _ _ _
    (outcomeAt_of_slotAt slot)

/-! ## The entries an arm event inserted as reached (R102) -/

/-- No PULSE entry of a cylinder is held. -/
def NoPulseOf (c : Cyl) (s : State) : Prop := ∀ e ∈ s.queue.entries, ∀ n, e.key ≠ .pulse c n

/-- With the ties kept, a cylinder with no context has no PULSE entry (R75, R77). -/
theorem State.Linked.noPulseOf {s : State} (l : s.Linked) {c : Cyl} (h : s.contexts.get c = none) : NoPulseOf c s := by
  have absent : ∀ n st, slotAt s c n ≠ some st := fun n st => by simp [slotAt, h]
  intro e he n hk
  cases hc : e.commit with
  | none => exact absurd (l.waitingEntry e he c n hk hc) (absent n _)
  | some k => exact absurd (l.committedEntry e he c n k hk hc) (absent n _)

theorem fireInserted_of_noPulseOf {c : Cyl} {s : State} (h : NoPulseOf c s) (n : Nat) : fireInserted c n s = s := by
  cases n with
  | zero => rfl
  | succ n =>
    have none_ : firstDuePulse c s = none := by
      cases hf : firstDuePulse c s with
      | none => rfl
      | some e =>
        have pulse := List.find?_some hf
        rw [Bool.and_eq_true] at pulse
        have inScope := pulse.2
        unfold Entry.pulseIn at inScope
        split at inScope
        · next d m hk =>
          obtain rfl : d = c := by simpa using inScope
          exact absurd hk (h e (firstDuePulse_mem hf) m)
        · cases inScope
    simp only [fireInserted, none_]

theorem NoPulseOf.of_queue {c : Cyl} {s t : State} (h : NoPulseOf c s) (e : t.queue = s.queue) : NoPulseOf c t := by
  unfold NoPulseOf
  rw [e]
  exact h

/-! ## The firing of an ARM entry (R66, R95) -/

/-- The state an arm event decides on: its entry put back, a pending swap landed, the expiry counted, an open context
overrun. -/
def armPrepared (c : Cyl) (e : Entry) (s : State) : State :=
  overrun c (countExpiry (landIfPending (some c) (insertArm c (removeKey e.key s))))

section
variable {s : State} {e : Entry} {c : Cyl} {pl : Placement}

theorem armPrepared_sameChecks (c : Cyl) (e : Entry) (s : State) : SameChecks s (armPrepared c e s) :=
  ((((SameChecks.withQueue s _).trans (.insertArm c _)).trans (.landIfPending (some c) _)).trans (.countExpiry _)).trans
    (.overrun c _)

theorem exec_fire_of_arm (released : s.resetHeld = false) (he : firstDue s = some e) (hk : e.key = .arm c)
    (hpl : (s.plan.cyls.get c).place = some pl) :
    exec .fire s = .next (fireInserted c 5 (decideCycle c pl (e.target.getD 0)
      ((interpolated s.tracker s.timebase).getD (e.target.getD 0)) (speed s.tracker) (armPrepared c e s))) := by
  have checks := (SameChecks.withQueue s _).trans (.insertArm c (removeKey e.key s))
  have place : ((insertArm c (removeKey e.key s)).plan.cyls.get c).place = some pl := by rw [checks.cyls, hpl]
  have event : fireFirst s = fireInserted c 5 (decideCycle c pl (e.target.getD 0)
      ((interpolated s.tracker s.timebase).getD (e.target.getD 0)) (speed s.tracker) (armPrepared c e s)) := by
    have fired : fireFirst s = fireInserted c 5 (armEvent c (e.target.getD 0) (insertArm c (removeKey (.arm c) s))) := by
      simp only [fireFirst, he, hk, fireEntry, fireArm]
    rw [fired, ← hk, armEvent, place]
    dsimp only
    rw [checks.tracker, checks.timebase]
    rfl
  rw [exec_fire_of_firstDue released he, event]

theorem armPrepared_linked (l : s.Linked) :
    (armPrepared c e s).Linked ∧ (armPrepared c e s).contexts.get c = none := by
  have calm := (((removeKey_calm e.key s).trans (insertArm_calm c _)).trans (landIfPending_calm (some c) _)).trans
    (countExpiry_calm _)
  obtain ⟨keeps, closed⟩ := overrun_keeps c (countExpiry (landIfPending (some c) (insertArm c (removeKey e.key s))))
  exact ⟨(keeps (calm.linked l)).1, closed (calm.linked l)⟩

/-- The cut checks read nothing that the steps before them change but the latch and the stale flag. -/
theorem standingCut_of_sameChecks {u : State} (h : SameChecks s u) (c : Cyl) :
    standingCut c (speed s.tracker) u =
      if s.run.fuelcut then some .fuelcut else if s.run.band = .critical then some .supplyCritical
      else if s.plan.engine.overspeed < speed s.tracker then some .overspeed
      else if (s.plan.cyls.get c).disabled then some .controllerDisabled
      else if u.diag.disabled.get c then some .faultDisabled
      else if u.plan.stale then some .stale else none := by
  rw [standingCut, h.fuelcut, h.band, h.engine, h.cyls]

theorem writeRecord_queue (r : CycleRecord) (s : State) : (writeRecord r s).queue = s.queue := by
  rw [writeRecord, queueNotice_queue, State.withRecords_queue]

/-! ## The decision by its checks (R62, R64, R68, R69) -/

variable {a cur rpm : Nat}

theorem decideCycle_of_standing {k : CutReason} (h : standingCut c rpm s = some k) :
    decideCycle c pl a cur rpm s = writeRecord (cutRecord c a k s) s := by
  simp only [decideCycle, h]
  rfl

theorem decideCycle_of_testCut {n : Nat} (h : standingCut c rpm s = none) (ht : s.plan.testCut = some (c, n)) :
    decideCycle c pl a cur rpm s = testCutCycle c a n s := by
  simp only [decideCycle, h, testCutNames, ht, if_true]

theorem testCutNames_eq_none (h : ∀ n, s.plan.testCut ≠ some (c, n)) : testCutNames c s = none := by
  unfold testCutNames
  split
  · next d n ht =>
    rw [if_neg]
    rintro rfl
    exact h n ht
  · rfl

theorem decideCycle_of_derated (h : standingCut c rpm s = none) (ht : ∀ n, s.plan.testCut ≠ some (c, n))
    (hd : s.plan.derateN ≤ s.plan.derateAcc + s.plan.derateK) :
    decideCycle c pl a cur rpm s =
      writeRecord (cutRecord c a .derate s)
        (s.withPlan { s.plan with derateAcc := s.plan.derateAcc + s.plan.derateK - s.plan.derateN }) := by
  simp only [decideCycle, h, testCutNames_eq_none ht, (derateHolds_iff s.plan).mpr hd, derateAfter, hd, if_true]
  rfl

theorem decideCycle_of_built (h : standingCut c rpm s = none) (ht : ∀ n, s.plan.testCut ≠ some (c, n))
    (hd : s.plan.derateAcc + s.plan.derateK < s.plan.derateN) :
    decideCycle c pl a cur rpm s =
      buildCycle c pl a cur (s.withPlan { s.plan with derateAcc := s.plan.derateAcc + s.plan.derateK }) := by
  simp only [decideCycle, h, testCutNames_eq_none ht, derateHolds_eq_false hd, derateAfter, Nat.not_le.mpr hd, if_false,
    Bool.false_eq_true]

theorem testCutCycle_of_last {n : Nat} (h : n ≤ 1) :
    testCutCycle c a n s =
      queueNotice (.testCutDone c)
        (writeRecord (cutRecord c a .testCut s) (s.withPlan { s.plan with testCut := none })) := by
  simp only [testCutCycle, h, if_true, testCutAfter]
  rfl

theorem testCutCycle_of_more {n : Nat} (h : 1 < n) :
    testCutCycle c a n s =
      writeRecord (cutRecord c a .testCut s) (s.withPlan { s.plan with testCut := some (c, n - 1) }) := by
  simp only [testCutCycle, Nat.not_le.mpr h, if_false, testCutAfter]
  rfl

end

/-! ## The clauses of O21 on the decision -/

section
variable {s u : State} {e : Entry} {c : Cyl} {pl : Placement}

/-- The cut of a cycle by the first of its checks that holds, with nothing fired after it. -/
theorem exec_fire_of_cut {t : State} (released : s.resetHeld = false) (he : firstDue s = some e) (hk : e.key = .arm c)
    (hpl : (s.plan.cyls.get c).place = some pl)
    (decided : decideCycle c pl (e.target.getD 0) ((interpolated s.tracker s.timebase).getD (e.target.getD 0))
      (speed s.tracker) (armPrepared c e s) = t)
    (none_ : NoPulseOf c t) : exec .fire s = .next t := by
  rw [exec_fire_of_arm released he hk hpl, decided, fireInserted_of_noPulseOf none_]

/-- Under the fuel cut, with no context open, an arm event writes its record and counts its expiry. -/
theorem armEvent_of_fuelcut (released : s.resetHeld = false) (g : s.Gated) (he : firstDue s = some e)
    (hk : e.key = .arm c) (hpl : (s.plan.cyls.get c).place = some pl) (closed : s.contexts.get c = none)
    (cut : s.run.fuelcut = true) :
    exec .fire s = .next (writeRecord (cutRecord c (e.target.getD 0) .fuelcut
      (countExpiry (landIfPending (some c) (insertArm c (removeKey e.key s)))))
      (countExpiry (landIfPending (some c) (insertArm c (removeKey e.key s))))) := by
  have prepared : armPrepared c e s = countExpiry (landIfPending (some c) (insertArm c (removeKey e.key s))) := by
    refine overrun_of_closed ?_
    have calm := (((removeKey_calm e.key s).trans (insertArm_calm c _)).trans (landIfPending_calm (some c) _)).trans
      (countExpiry_calm _)
    rw [calm.contexts, closed]
  have checks := armPrepared_sameChecks c e s
  rw [prepared] at checks
  have first : standingCut c (speed s.tracker)
      (countExpiry (landIfPending (some c) (insertArm c (removeKey e.key s)))) = some .fuelcut := by
    rw [standingCut_of_sameChecks checks, if_pos cut]
  refine exec_fire_of_cut released he hk hpl (by rw [prepared, decideCycle_of_standing first]) ?_
  have calm := (((removeKey_calm e.key s).trans (insertArm_calm c _)).trans (landIfPending_calm (some c) _)).trans
    (countExpiry_calm _)
  intro y hy n key
  rw [writeRecord_queue] at hy
  have pulse := g.cutEntry cut y (calm.pulses y hy c n key)
  simp [Entry.isPulse, key] at pulse

end

end Sys2Proof.Machine
end

section
/-! The shaping of a latched cycle: the latched copies of a plan list, the quiet windows, and each test of a slot by what it
gives (R59, R70 to R76, R100). -/

namespace Sys2Proof.Machine

/-! ## The latched copies (R70) -/

/-- Position `i` of a list latches under its number, and an empty position latches nothing. -/
theorem findSlot_latchSlots (tdc : Nat) (xs : List (Option PlanSlot)) : ∀ num i : Nat,
    (∀ q, xs[i]? = some (some q) → findSlot (num + i) (latchSlots tdc num xs) = some (latchSlot tdc (num + i) q)) ∧
      ((∀ q, xs[i]? ≠ some (some q)) → findSlot (num + i) (latchSlots tdc num xs) = none) := by
  induction xs with
  | nil => exact fun num i => ⟨fun q h => by simp at h, fun _ => rfl⟩
  | cons x xs ih =>
    intro num i
    have beyond : findSlot num (latchSlots tdc (num + 1) xs) = none := by
      refine List.find?_eq_none.mpr fun y hy => ?_
      have above := ((latchSlots_spec tdc xs (num + 1)).2 y hy).1
      simp only [beq_iff_eq]
      omega
    have shift : ∀ i, num + (i + 1) = num + 1 + i := fun i => by omega
    cases x with
    | none =>
      cases i with
      | zero => exact ⟨fun q h => by simp at h, fun _ => beyond⟩
      | succ i =>
        rw [shift i]
        exact ih (num + 1) i
    | some p =>
      cases i with
      | zero =>
        refine ⟨fun q h => ?_, fun h => absurd rfl (h p)⟩
        obtain rfl : p = q := by simpa using h
        simp [latchSlots, findSlot, latchSlot]
      | succ i =>
        have skip : findSlot (num + (i + 1)) (latchSlots tdc num (some p :: xs)) =
            findSlot (num + 1 + i) (latchSlots tdc (num + 1) xs) := by
          have other : (latchSlot tdc num p).num ≠ num + (i + 1) := by
            show num ≠ num + (i + 1)
            omega
          rw [latchSlots, findSlot, List.find?_cons_of_neg (by simpa using other), shift i]
          rfl
        rw [skip, shift i]
        exact ih (num + 1) i

/-! ## The quiet windows (R59, R72) -/

theorem QuietWindow.hits_iff (w : QuietWindow) (b : Bank) (start : Nat) :
    w.hits b start = true ↔
      w.enabled = true ∧ (w.banks = .both ∨ w.banks = match b with | .bankA => .onlyA | .bankB => .onlyB) ∧
        forward w.start start < forward w.start w.stop := by
  have banks : w.banks.includes b = true ↔
      w.banks = .both ∨ w.banks = match b with | .bankA => .onlyA | .bankB => .onlyB := by
    cases w.banks <;> cases b <;> decide
  unfold QuietWindow.hits QuietWindow.holds
  rw [Bool.and_eq_true, Bool.and_eq_true, banks, decide_eq_true_iff, and_assoc]

section
variable {ws before rest : List QuietWindow} {w : QuietWindow} {b : Bank} {mayDefer deferred : Bool}
  {moves start : Nat}

theorem quietTest_of_clear (h : ∀ w ∈ ws, w.hits b start = false) :
    quietTest ws b mayDefer moves start deferred = (start, deferred, true) := by
  have none_ : ws.find? (fun w => w.hits b start) = none := List.find?_eq_none.mpr fun w hw => by simp [h w hw]
  unfold quietTest
  rw [none_]

theorem find_of_first (hb : ∀ v ∈ before, v.hits b start = false) (hw : w.hits b start = true) :
    (before ++ w :: rest).find? (fun w => w.hits b start) = some w :=
  List.find?_eq_some_iff_append.mpr ⟨hw, before, rest, rfl, fun v hv => by simp [hb v hv]⟩

theorem quietTest_of_held (hb : ∀ v ∈ before, v.hits b start = false) (hw : w.hits b start = true)
    (stays : mayDefer = false ∨ moves = 0) :
    quietTest (before ++ w :: rest) b mayDefer moves start deferred = (start, deferred, false) := by
  unfold quietTest
  rw [find_of_first hb hw]
  cases moves with
  | zero => rfl
  | succ m =>
    have fixed : mayDefer = false := stays.resolve_right (by simp)
    simp [fixed]

theorem quietTest_of_moved {m : Nat} (hb : ∀ v ∈ before, v.hits b start = false) (hw : w.hits b start = true)
    (may : mayDefer = true) :
    quietTest (before ++ w :: rest) b mayDefer (m + 1) start deferred =
      quietTest (before ++ w :: rest) b mayDefer m w.stop true := by
  rw [quietTest, find_of_first hb hw]
  simp [may]

end

/-! ## The slot under shaping -/

section
variable {s : State} {c : Cyl} {x : CycleContext} {y : Slot} {n : Nat}

theorem slotAt_mapSlot (hx : s.contexts.get c = some x) (hy : findSlot n x.slots = some y) {f : Slot → Slot}
    (hf : ∀ z, (f z).num = z.num) : slotAt (updateSlots c (mapSlot n f) s) c n = some (f y).st := by
  simp only [slotAt]
  rw [updateSlots_get, if_pos rfl, hx]
  simp only [Option.map_some]
  rw [findSlot_mapSlot _ _ _ hf, if_pos rfl, hy]
  rfl

/-- A change of a slot after a change of the same slot is one change. -/
theorem mapSlot_mapSlot {f g : Slot → Slot} (hg : ∀ z, (g z).num = z.num) (xs : List Slot) :
    mapSlot n f (mapSlot n g xs) = mapSlot n (fun z => f (g z)) xs := by
  induction xs with
  | nil => rfl
  | cons x xs ih =>
    by_cases hx : x.num = n
    · simp [mapSlot, hx, hg]
    · simp [mapSlot, hx, ih]

theorem updateSlots_mapSlot_twice (c : Cyl) {f g : Slot → Slot} (hg : ∀ z, (g z).num = z.num) (s : State) :
    updateSlots c (mapSlot n f) (updateSlots c (mapSlot n g) s) = updateSlots c (mapSlot n fun z => f (g z)) s := by
  unfold updateSlots
  cases h : s.contexts.get c with
  | none => simp only [h]
  | some x => simp only [State.withContexts_contexts, PerCyl.get_set, if_true, State.withContexts_withContexts,
      PerCyl.set_set, mapSlot_mapSlot hg]

theorem suppressSlot_slotAt (h : slotAt s c n = some .latched) (r : SuppressReason) :
    slotAt (suppressSlot c n r s) c n = some (.resolved (.suppressed r)) :=
  resolveUnfired_slotAt _ h rfl

theorem slotAt_of_findSlot (hx : s.contexts.get c = some x) (hy : findSlot n x.slots = some y) :
    slotAt s c n = some y.st := by
  simp only [slotAt, hx, hy, Option.map_some]

/-! ## The restriction to MAIN slots, and a slot by its anchor (R71, R76) -/

theorem lesserBarred_iff : (decide (y.kind ≠ .main) && mainOnly s) = true ↔
    y.kind ≠ .main ∧ (s.tracker.sync = .camLimp ∨ s.run.clock = .backup) := by
  simp [mainOnly]

theorem lesserBarred_eq_false (h : y.kind = .main ∨ (s.tracker.sync ≠ .camLimp ∧ s.run.clock ≠ .backup)) :
    (decide (y.kind ≠ .main) && mainOnly s) = false := by
  rw [Bool.eq_false_iff, Ne, lesserBarred_iff]
  rintro ⟨lesser, limp | backup⟩
  · exact h.elim lesser fun ⟨other, _⟩ => other limp
  · exact h.elim lesser fun ⟨_, other⟩ => other backup

theorem shapeSlot_of_limp (hx : s.contexts.get c = some x) (hy : findSlot n x.slots = some y)
    (h : y.kind ≠ .main ∧ (s.tracker.sync = .camLimp ∨ s.run.clock = .backup)) (now : Nat) :
    shapeSlot c now n s = suppressSlot c n .limp s := by
  simp only [shapeSlot, hx, hy, lesserBarred_iff.mpr h, if_true]

variable (free : y.kind = .main ∨ (s.tracker.sync ≠ .camLimp ∧ s.run.clock ≠ .backup))
include free

theorem shapeSlot_of_angle (hx : s.contexts.get c = some x) (hy : findSlot n x.slots = some y) {first : Nat}
    (ha : y.anchor = .angle first) (now : Nat) : shapeSlot c now n s = shapeAngle c x now y first s := by
  simp only [shapeSlot, hx, hy, lesserBarred_eq_false free, Bool.false_eq_true, if_false, ha]

theorem shapeSlot_of_dwell (hx : s.contexts.get c = some x) (hy : findSlot n x.slots = some y) {d : Nat}
    (ha : y.anchor = .dwell d) (now : Nat) :
    shapeSlot c now n s = shapeDwell c (slotBefore n none x.slots) y s := by
  simp only [shapeSlot, hx, hy, lesserBarred_eq_false free, Bool.false_eq_true, if_false, ha]

omit free

/-- The anchor test of a DWELL slot (R76). -/
theorem shapeDwell_slotAt (hx : s.contexts.get c = some x) (hy : findSlot n x.slots = some y) (latched : y.st = .latched)
    (z : Slot) :
    (z.st.isResolved = true → z.hasFired = false →
      slotAt (shapeDwell c (some z) y s) c n = some (.resolved (.suppressed .anchorLost))) ∧
    (z.st.isResolved = false ∨ z.hasFired = true → slotAt (shapeDwell c (some z) y s) c n = some .pending) := by
  have num := (findSlot_mem hy).2
  have slot : slotAt s c n = some .latched := latched ▸ slotAt_of_findSlot hx hy
  refine ⟨fun resolved unfired => ?_, fun h => ?_⟩
  · simp only [shapeDwell, resolved, unfired, Bool.not_false, Bool.and_self, if_true]
    rw [num]
    exact suppressSlot_slotAt slot .anchorLost
  · have kept : (z.st.isResolved && !z.hasFired) = false := by
      rcases h with h | h <;> simp [h]
    simp only [shapeDwell, kept, Bool.false_eq_true, if_false]
    rw [num]
    exact slotAt_mapSlot (f := fun z => { z with st := .pending }) hx hy fun _ => rfl

/-! ## The tests of an ANGLE slot, by the first that fails (R72 to R75, R100) -/

/-- The state in which a slot has its DEFERRED flag. -/
def withDeferred (c : Cyl) (n : Nat) (deferred : Bool) (s : State) : State :=
  updateSlots c (mapSlot n fun z => { z with deferred := deferred }) s

theorem withDeferred_slotAt (hx : s.contexts.get c = some x) (hy : findSlot n x.slots = some y)
    (latched : y.st = .latched) (deferred : Bool) : slotAt (withDeferred c n deferred s) c n = some .latched := by
  rw [← latched]
  exact slotAt_mapSlot (f := fun z => { z with deferred := deferred }) hx hy fun _ => rfl

variable {first start now : Nat} {deferred : Bool}

theorem shapeAngle_of_quiet (hn : y.num = n)
    (h : quietTest s.plan.windows x.bank y.mayDefer 4 first false = (start, deferred, false)) :
    shapeAngle c x now y first s = suppressSlot c n .quiet (withDeferred c n deferred s) := by
  simp only [shapeAngle, h, hn, Bool.not_false, if_true, withDeferred]

variable (passes : quietTest s.plan.windows x.bank y.mayDefer 4 first false = (start, deferred, true))
include passes

theorem shapeAngle_of_limit (hn : y.num = n) (h : forward x.armAngle x.eoiAngle < forward x.armAngle start) :
    shapeAngle c x now y first s = suppressSlot c n .limit (withDeferred c n deferred s) := by
  simp only [shapeAngle, passes, hn, Bool.not_true, Bool.false_eq_true, if_false, gt_iff_lt, h, if_true, withDeferred]

theorem shapeAngle_of_late (hn : y.num = n) (hl : forward x.armAngle start ≤ forward x.armAngle x.eoiAngle)
    (h : forward now x.eoiAngle < forward now start) :
    shapeAngle c x now y first s = suppressSlot c n .late (withDeferred c n deferred s) := by
  simp only [shapeAngle, passes, hn, Bool.not_true, Bool.false_eq_true, if_false, gt_iff_lt, Nat.not_lt.mpr hl, h,
    if_true, withDeferred]

theorem shapeAngle_of_timely (hn : y.num = n) (hl : forward x.armAngle start ≤ forward x.armAngle x.eoiAngle)
    (h : forward now start ≤ forward now x.eoiAngle) :
    shapeAngle c x now y first s = insertPulse c y start (withDeferred c n deferred s) := by
  simp only [shapeAngle, passes, hn, Bool.not_true, Bool.false_eq_true, if_false, gt_iff_lt, Nat.not_lt.mpr hl,
    Nat.not_lt.mpr h, withDeferred]

omit passes

theorem pulsesFull_withDeferred : pulsesFull (withDeferred c n deferred s) = true ↔
    24 ≤ s.queue.entries.countP Entry.isPulse := by
  have queue : (withDeferred c n deferred s).queue = s.queue := updateSlots_queue ..
  rw [pulsesFull, pulseCount, queue]
  exact decide_eq_true_iff

theorem insertPulse_of_full (hn : y.num = n) (h : 24 ≤ s.queue.entries.countP Entry.isPulse) :
    insertPulse c y start (withDeferred c n deferred s) = suppressSlot c n .queueFull (withDeferred c n deferred s) := by
  simp only [insertPulse, pulsesFull_withDeferred.mpr h, if_true, hn]

theorem insertPulse_of_room {u : State} (hn : y.num = n) (h : s.queue.entries.countP Entry.isPulse < 24)
    (hu : u = insertEntry
      { key := .pulse c n, target := some start, pulse := some (y.kind, y.energize), commit := none }
      (updateSlots c (mapSlot n fun z => { z with deferred := deferred, st := .waiting }) s)) :
    insertPulse c y start (withDeferred c n deferred s) = commitInserted (.pulse c n) start u := by
  have room : pulsesFull (withDeferred c n deferred s) = false := by
    rw [Bool.eq_false_iff, Ne, pulsesFull_withDeferred]
    exact Nat.not_le.mpr h
  simp only [insertPulse, room, Bool.false_eq_true, if_false, hn]
  rw [hu, withDeferred, updateSlots_mapSlot_twice c (f := fun z => { z with st := .waiting })
    (g := fun z => { z with deferred := deferred }) fun _ => rfl]

end

end Sys2Proof.Machine
end

section
/-! The arm event settled: what it writes under the fuel cut, its decision, its shaping tests and its overrun (R57, R62, R64,
R66 to R76, R100). -/

namespace Sys2Proof.Machine

/-! ## The arm event under the fuel cut (R57, R66, R69) -/

section
variable {s : State} {e : Entry} {c : Cyl} {pl : Placement}

theorem insertArm_of_placed (hpl : (s.plan.cyls.get c).place = some pl) :
    insertArm c (removeKey e.key s) = s.withQueue { s.queue with
      entries := insertByKey (armEntry s c pl) (s.queue.entries.filter fun x => !(x.key == e.key)) } := by
  have place : ((removeKey e.key s).plan.cyls.get c).place = some pl := hpl
  simp only [insertArm, place]
  rfl

/-- A landed swap leaves the plan under which the arm event works. -/
theorem landIfPending_withQueue_plan (o : Option Cyl) (s : State) (q : FiringQueue) :
    (landIfPending o (s.withQueue q)).plan = if s.plan.swapPending then s.plan.land else s.plan := by
  rw [landIfPending_plan, State.withQueue_plan]

/-- The fields of the record state that an arm event leaves under the fuel cut, for O21. -/
theorem armCut_fields {t u : State} (hpl : (s.plan.cyls.get c).place = some pl)
    (hu : u = countExpiry (landIfPending (some c) (insertArm c (removeKey e.key s))))
    (ht : t = writeRecord (cutRecord c (e.target.getD 0) .fuelcut u) u) :
    t.records = s.records.set c (some
        { cyl := c, serial := (if s.plan.swapPending then s.plan.land else s.plan).activePage.serial
          armAngle := e.target.getD 0, outcome := .cut .fuelcut, results := [] }) ∧
      t.queue = { s.queue with
        entries := insertByKey (armEntry s c pl) (s.queue.entries.filter fun x => !(x.key == e.key)) } ∧
      t.plan.active = (if s.plan.swapPending then s.plan.active.other else s.plan.active) ∧
      t.plan.expiry = (if s.plan.swapPending then s.plan.land else s.plan).expiryAfter ∧
      t.contexts = s.contexts ∧ t.tracker = s.tracker ∧ (∀ b, t.bank b = s.bank b) ∧ t.diag = s.diag ∧
      t.run = s.run ∧ t.timebase = s.timebase := by
  rw [insertArm_of_placed hpl] at hu
  generalize hq : ({ s.queue with
    entries := insertByKey (armEntry s c pl) (s.queue.entries.filter fun x => !(x.key == e.key)) } : FiringQueue) = q at hu
  have plan := landIfPending_withQueue_plan (some c) s q
  generalize hv : landIfPending (some c) (s.withQueue q) = v at hu plan
  obtain ⟨b, l, rest⟩ := countExpiry_rest v
  rw [rest] at hu
  have serial : u.plan.activePage.serial = v.plan.activePage.serial := by rw [hu]; rfl
  have contexts : u.contexts = s.contexts := by rw [hu, ← hv]; simp
  have records : u.records = s.records := by rw [hu, ← hv]; simp
  have expiry : u.plan.expiry = v.plan.expiryAfter := by rw [hu]; rfl
  have active : u.plan.active = v.plan.active := by rw [hu]; rfl
  obtain ⟨written, entered⟩ := writeRecord_same (cutRecord c (e.target.getD 0) .fuelcut u) u
  have closes := writeRecord_closes (cutRecord c (e.target.getD 0) .fuelcut u) u
  rw [← ht] at written entered closes
  refine ⟨?_, ?_, ?_, ?_, by rw [written, contexts], ?_, fun d => ?_, ?_, ?_, ?_⟩
  · rw [entered, records, ← plan, ← serial]
    rfl
  · rw [closes.queue, hu, ← hv]; simp
  · rw [closes.plan, active, plan]
    split <;> rfl
  · rw [closes.plan, expiry, plan]
  · rw [closes.tracker, hu, ← hv]; simp
  · rw [closes.bank, hu, ← hv]; simp
  · rw [closes.diag, hu, ← hv]; simp [landIfPending_diag]
  · rw [ht, writeRecord, queueNotice_run, State.withRecords_run, hu, ← hv]; simp
  · rw [closes.timebase, hu, ← hv]; simp

end

/-! ## The decision (R62, R64, R68 to R70) -/

section
variable {s u : State} {e : Entry} {c : Cyl} {pl : Placement}

/-- A cycle cut by a check of the list leaves nothing of its cylinder to fire. -/
theorem exec_fire_of_decided {t : State} (released : s.resetHeld = false) (l : s.Linked) (he : firstDue s = some e)
    (hk : e.key = .arm c) (hpl : (s.plan.cyls.get c).place = some pl) (hu : u = armPrepared c e s)
    (decided : decideCycle c pl (e.target.getD 0) ((interpolated s.tracker s.timebase).getD (e.target.getD 0))
      (speed s.tracker) u = t)
    (queue : t.queue = u.queue) : exec .fire s = .next t := by
  obtain ⟨linked, closed⟩ := armPrepared_linked (c := c) (e := e) l
  rw [hu] at queue decided
  exact exec_fire_of_cut released he hk hpl decided ((linked.noPulseOf closed).of_queue queue)

/-- The decision of the arm event by the first check that holds, for O21. -/
theorem armEvent_decided {cut : Option CutReason} {r : CutReason → CycleRecord} (released : s.resetHeld = false)
    (l : s.Linked) (he : firstDue s = some e) (hk : e.key = .arm c) (hpl : (s.plan.cyls.get c).place = some pl)
    (hu : u = armPrepared c e s) (hcut : cut = standingCut c (speed s.tracker) u)
    (hr : ∀ k, r k = cutRecord c (e.target.getD 0) k u) :
    (∀ k, cut = some k → exec .fire s = .next (writeRecord (r k) u)) ∧
    (∀ n, cut = none → s.plan.testCut = some (c, n) →
      (n ≤ 1 → exec .fire s = .next (queueNotice (.testCutDone c)
        (writeRecord (r .testCut) (u.withPlan { u.plan with testCut := none })))) ∧
      (1 < n → exec .fire s = .next
        (writeRecord (r .testCut) (u.withPlan { u.plan with testCut := some (c, n - 1) })))) ∧
    (cut = none → (∀ n, s.plan.testCut ≠ some (c, n)) →
      s.plan.derateN ≤ s.plan.derateAcc + s.plan.derateK →
        exec .fire s = .next
          (writeRecord (r .derate)
            (u.withPlan { u.plan with derateAcc := s.plan.derateAcc + s.plan.derateK - s.plan.derateN }))) := by
  have checks := armPrepared_sameChecks c e s
  rw [← hu] at checks
  have fires := fun {t : State} => exec_fire_of_decided (t := t) released l he hk hpl hu
  refine ⟨fun k h => ?_, fun n h ht => ⟨fun last => ?_, fun more => ?_⟩, fun h ht hd => ?_⟩
  · rw [hr]
    exact fires (decideCycle_of_standing (hcut ▸ h)) (writeRecord_queue ..)
  · rw [hr]
    refine fires ((decideCycle_of_testCut (hcut ▸ h) (checks.testCut.trans ht)).trans (testCutCycle_of_last last)) ?_
    rw [queueNotice_queue, writeRecord_queue, State.withPlan_queue]
  · rw [hr]
    refine fires ((decideCycle_of_testCut (hcut ▸ h) (checks.testCut.trans ht)).trans (testCutCycle_of_more more)) ?_
    rw [writeRecord_queue, State.withPlan_queue]
  · rw [hr]
    have derated := decideCycle_of_derated (pl := pl) (a := e.target.getD 0)
      (cur := (interpolated s.tracker s.timebase).getD (e.target.getD 0)) (rpm := speed s.tracker)
      (hcut ▸ h) (by rw [checks.testCut]; exact ht)
      (by rw [checks.derateN, checks.derateAcc, checks.derateK]; exact hd)
    rw [checks.derateN, checks.derateAcc, checks.derateK] at derated
    exact fires derated ((writeRecord_queue ..).trans (State.withPlan_queue ..))

/-- A cycle that no check cuts is built (R70). -/
theorem armEvent_built {x : CycleContext} (released : s.resetHeld = false) (he : firstDue s = some e)
    (hk : e.key = .arm c) (hpl : (s.plan.cyls.get c).place = some pl) (hu : u = armPrepared c e s)
    (uncut : standingCut c (speed s.tracker) u = none) (ht : ∀ n, s.plan.testCut ≠ some (c, n))
    (hd : s.plan.derateAcc + s.plan.derateK < s.plan.derateN)
    (hx : x = { cyl := c, serial := u.plan.activePage.serial, armAngle := e.target.getD 0
                eoiAngle := (pl.tdc + (s.plan.cyls.get c).eoiLimit) % 7200, bank := pl.bank
                output := pl.output, slots := latchSlots pl.tdc 1 (u.plan.activePage.lists.get c) }) :
    exec .fire s = .next
      (fireInserted c 5 (closeTest c
        (shapeSlots c ((interpolated s.tracker s.timebase).getD (e.target.getD 0))
          (x.slots.map Slot.num)
          (openContext c x
            (u.withPlan { u.plan with derateAcc := s.plan.derateAcc + s.plan.derateK }))))) := by
  have checks := armPrepared_sameChecks c e s
  rw [← hu] at checks
  have built := decideCycle_of_built (pl := pl) (a := e.target.getD 0)
    (cur := (interpolated s.tracker s.timebase).getD (e.target.getD 0)) uncut (by rw [checks.testCut]; exact ht)
    (by rw [checks.derateN, checks.derateAcc, checks.derateK]; exact hd)
  rw [checks.derateAcc, checks.derateK] at built
  have context : newContext c pl (e.target.getD 0)
      (u.withPlan { u.plan with derateAcc := s.plan.derateAcc + s.plan.derateK }) = x := by
    rw [hx, ← checks.cyls]
    rfl
  rw [exec_fire_of_arm released he hk hpl, ← hu, built, buildCycle, context]

end

/-! ## The shaping of a slot (R71 to R76, R100) -/

theorem latchSlot_eq (tdc num : Nat) (q : PlanSlot) : latchSlot tdc num q =
    { num := num, kind := q.kind, energize := 2 * q.energizeUs, mayDefer := q.mayDefer, st := .latched
      deferred := false, truncated := false
      anchor := match q.anchor with
        | .angle rel => .angle (((tdc : Int) + rel) % 7200).toNat
        | .dwell us => .dwell (2 * us) } := by
  unfold latchSlot cycleAngle
  cases q.anchor <;> rfl

theorem commitInserted_eq {s u : State} (h : u.queue.commitRef = s.queue.commitRef) (k : Key) (start : Nat) :
    commitInserted k start u = match s.queue.commitRef with
      | some e => if forward e.angle start < e.span then commitKey e k u else u
      | none => u := by
  cases hs : s.queue.commitRef with
  | none => simp only [commitInserted, h, hs]
  | some e => simp only [commitInserted, h, hs]

/-- The tests of an ANGLE slot that the quiet windows pass, for O21. -/
theorem shapeAngle_tests {s t : State} {c : Cyl} {x : CycleContext} {y : Slot} {n now first start : Nat}
    {deferred : Bool} (hx : s.contexts.get c = some x) (hy : findSlot n x.slots = some y) (latched : y.st = .latched)
    (ht : t = shapeAngle c x now y first s)
    (passes : quietTest s.plan.windows x.bank y.mayDefer 4 first false = (start, deferred, true)) :
    (forward x.armAngle x.eoiAngle < forward x.armAngle start →
      slotAt t c n = some (.resolved (.suppressed .limit))) ∧
    (forward x.armAngle start ≤ forward x.armAngle x.eoiAngle →
      (forward now x.eoiAngle < forward now start →
        slotAt t c n = some (.resolved (.suppressed .late))) ∧
      (forward now start ≤ forward now x.eoiAngle →
        (24 ≤ s.queue.entries.countP Entry.isPulse →
          slotAt t c n = some (.resolved (.suppressed .queueFull))) ∧
        (s.queue.entries.countP Entry.isPulse < 24 → ∀ u,
          u = insertEntry
            { key := .pulse c n, target := some start, pulse := some (y.kind, y.energize), commit := none }
            (updateSlots c (mapSlot n fun z => { z with deferred := deferred, st := .waiting }) s) →
          t = commitInserted (.pulse c n) start u))) := by
  have num := (findSlot_mem hy).2
  have slot := withDeferred_slotAt hx hy latched deferred
  refine ⟨fun limit => ?_, fun limit => ⟨fun late => ?_, fun late => ⟨fun full => ?_, fun room u hu => ?_⟩⟩⟩
  · rw [ht, shapeAngle_of_limit passes num limit]
    exact suppressSlot_slotAt slot .limit
  · rw [ht, shapeAngle_of_late passes num limit late]
    exact suppressSlot_slotAt slot .late
  · rw [ht, shapeAngle_of_timely passes num limit late, insertPulse_of_full num full]
    exact suppressSlot_slotAt slot .queueFull
  · rw [ht, shapeAngle_of_timely passes num limit late, insertPulse_of_room num room hu]

/-- Settles O21. -/
theorem armEventCutByFuelcut : Obligations.ArmEventCutByFuelcut := by
  unfold Obligations.ArmEventCutByFuelcut
  refine ⟨fun s e c pl released g he hk hpl closed cut => ?_, fun s n hn => ?_,
    fun s u e c pl cut r released tied he hk hpl hu hcut hr => ?_, fun tdc i xs => ?_,
    fun s t c x y n now hx hy latched ht => ?_, fun ws b mayDefer deferred moves start => ?_,
    fun s c x l hx => ⟨(overrun_keeps c s).2 l, fun y hy => overrun_outcome l hx hy⟩⟩
  · obtain ⟨records, queue, active, expiry, rest⟩ := armCut_fields (e := e) hpl rfl rfl
    refine ⟨_, armEvent_of_fuelcut released g he hk hpl closed cut, records, queue, active, expiry.trans ?_, rest⟩
    unfold PlanStore.expiryAfter
    cases s.plan.swapPending <;> rfl
  · have after : s.plan.expiryAfter = n := hn.symm
    refine ⟨fun due fresh => ?_, fun h => ?_⟩
    · rw [countExpiry_eq, after, if_pos ⟨due, fresh⟩]
    · rw [countExpiry_eq, after, if_neg fun ⟨due, fresh⟩ => h.elim (fun other => other due) fun stale => by
        rw [fresh] at stale
        cases stale]
  · have prepared : u = armPrepared c e s := hu
    have checks := armPrepared_sameChecks c e s
    rw [← prepared] at checks
    have first : cut = standingCut c (speed s.tracker) u := hcut.trans (standingCut_of_sameChecks checks c).symm
    obtain ⟨standing, testCut, derated⟩ := armEvent_decided released (tied released).1 he hk hpl prepared first hr
    exact ⟨standing, testCut, fun uncut ht => ⟨derated uncut ht, fun hd x hx =>
      armEvent_built released he hk hpl prepared (first ▸ uncut) ht hd hx⟩⟩
  · obtain ⟨held, empty⟩ := findSlot_latchSlots tdc xs 1 i
    rw [Nat.add_comm 1 i] at held empty
    exact ⟨fun q hq => (held q hq).trans (congrArg some (latchSlot_eq ..)), empty⟩
  · have slot : slotAt s c n = some .latched := latched ▸ slotAt_of_findSlot hx hy
    refine ⟨fun barred => ?_, fun free => ⟨fun start first deferred ha quiet => ?_,
      fun start first deferred ha passes => ?_, fun d z ha hz => ?_⟩⟩
    · rw [ht, shapeSlot_of_limp hx hy barred]
      exact suppressSlot_slotAt slot .limp
    · rw [ht, shapeSlot_of_angle free hx hy ha, shapeAngle_of_quiet (findSlot_mem hy).2 quiet]
      exact suppressSlot_slotAt (withDeferred_slotAt hx hy latched deferred) .quiet
    · obtain ⟨limit, later_⟩ := shapeAngle_tests hx hy latched
        (ht.trans (shapeSlot_of_angle free hx hy ha now)) passes
      refine ⟨limit, fun within => ?_⟩
      obtain ⟨late, timely⟩ := later_ within
      refine ⟨late, fun ahead => ?_⟩
      obtain ⟨full, room⟩ := timely ahead
      refine ⟨full, fun hr u hu => (room hr u hu).trans (commitInserted_eq ?_ _ _)⟩
      rw [hu]
      show (updateSlots c _ s).queue.commitRef = s.queue.commitRef
      rw [updateSlots_queue]
    · rw [ht, shapeSlot_of_dwell free hx hy ha, hz]
      exact shapeDwell_slotAt hx hy latched z
  · refine ⟨quietTest_of_clear, fun before w rest hws hb hw => ?_, fun w => w.hits_iff b start⟩
    subst hws
    exact ⟨quietTest_of_held hb hw, fun may m hm => by rw [hm, quietTest_of_moved hb hw may]⟩

end Sys2Proof.Machine
end
